-- ==== Sys2Proof/Word.lean ====
section
/-!
DEFINITION. The byte and the 512-byte block of the UB3212 (00_scope, Table 0-2: block size 512 bytes).
-/

namespace Sys2Proof

/-- One byte of a message, an image or an I2C transaction. -/
abbrev Byte := BitVec 8

/-- The 512 bytes of one block: a frame, a landing buffer, a DATA message, a media transfer (R2, R129). -/
abbrev Block := Vector Byte 512

/-- A block of one repeated byte. -/
def Block.fill (b : Byte) : Block := Vector.replicate 512 b

end Sys2Proof
end

