-- ==== Sys2Proof/Machine/Bytes.lean ====
section
/-!
DEFINITION. Bytes: the most-significant-first fields of chapter 11, blocks made from byte lists, and the CRC-32 of
section 11.1.
-/

namespace Sys2Proof.Machine

/-- A value as an `n`-byte field, most significant byte first (11). -/
def beBytes (n v : Nat) : List Byte :=
  (List.range n).map fun i => BitVec.ofNat 8 (v / 256 ^ (n - 1 - i))

/-- The value of a field sent most significant byte first (11). -/
def beValue (bs : List Byte) : Nat :=
  bs.foldl (fun acc b => acc * 256 + b.toNat) 0

/-- The bytes from position `at` on, `len` of them. -/
def field (bs : List Byte) (pos len : Nat) : List Byte :=
  (bs.drop pos).take len

/-- The first 512 bytes of a list; a shorter list is filled with 00H. -/
def blockOfList (bs : List Byte) : Block :=
  ⟨⟨(List.range 512).map fun i => bs.getD i 0⟩, by simp⟩

/-- A function applied to every element of a vector. -/
def vecMap {α β : Type} {n : Nat} (f : α → β) (v : Vector α n) : Vector β n :=
  ⟨⟨v.toList.map f⟩, by simp⟩

/-- One step of the CRC-32 register with generator 04C11DB7H (11.1). -/
def crcBit (reg : BitVec 32) (bit : Bool) : BitVec 32 :=
  if (reg.msb != bit) then (reg <<< 1) ^^^ 0x04C11DB7#32 else reg <<< 1

/-- A byte is taken least significant bit first (11.1). -/
def crcByte (reg : BitVec 32) (b : Byte) : BitVec 32 :=
  (List.range 8).foldl (fun r i => crcBit r (b.getLsbD i)) reg

/-- Bit 31 exchanged with bit 0, bit 30 with bit 1, and so on (11.1). -/
def reflect32 (r : BitVec 32) : BitVec 32 :=
  BitVec.ofNat 32 ((List.range 32).foldl (fun acc i => 2 * acc + (r.getLsbD i).toNat) 0)

/-- The CRC-32 of section 11.1: the register starts at FFFFFFFFH, and is reflected and complemented at the end. -/
def crc32 (bs : List Byte) : BitVec 32 :=
  ~~~ reflect32 (bs.foldl crcByte 0xFFFFFFFF#32)

/-- The CRC-32 as a 4-byte field. -/
def crcField (bs : List Byte) : List Byte := beBytes 4 (crc32 bs).toNat

end Sys2Proof.Machine
end

