-- ==== Sys2Proof/Config.lean ====
section
/-!
DEFINITION. The quantities the data sheet fixes (00_scope, Table 0-2, and the rules named at each). The spec calls no
result undefined, so there is no free value.
-/

namespace Sys2Proof.Config

/-- The cap on HELD frames (R90). -/
abbrev heldCap : Nat := 896

/-- The read window's length (R145). -/
abbrev windowBlocks : Nat := 32

/-- The most read credits a port may have outstanding (R133). -/
abbrev readCreditCap : Nat := 64

/-- The outbound order's capacity (R127). -/
abbrev outboundCap : Nat := 256

/-- The outbound order's length at which the port takes no inbound message (R127). -/
abbrev pauseAt : Nat := 192

/-- The pending list's capacity (R84). -/
abbrev pendingCap : Nat := 32

/-- The smallest physical capacity the part accepts (R74). -/
abbrev minCapacity : Nat := 4368

/-- The largest physical capacity the part accepts (R74). -/
abbrev maxCapacity : Nat := 2 ^ 32

/-- Physical blocks that are not logical blocks: the reserved and the spare area (section 4.2). -/
abbrev overheadBlocks : Nat := 272

/-- The reserved area's length: logical block L lives at physical block L + 16 (R66). -/
abbrev reservedBlocks : Nat := 16

/-- The number of spares (R83). -/
abbrev spareCount : Nat := 256

/-- The largest count of a READ or a WRITE (R141). -/
abbrev maxTransfer : Nat := 256

/-- The largest count of a RESERVE (R141). -/
abbrev maxReserve : Nat := 65536

/-- The largest lease, in ticks (R141). -/
abbrev maxLease : Nat := 60000

/-- The generation at which no further persist begins (R94). -/
abbrev lastGeneration : Nat := 0xFFFFFFFF

/-- Timer of a READ, WRITE or IDENTIFY, in ms (R68, R73). -/
abbrev opTimeoutMs : Nat := 2000

/-- Timer of a RESET, in ms (R68, R76). -/
abbrev resetTimeoutMs : Nat := 5000

/-- The only protocol version admitted (R123, Table 11-3). -/
abbrev protocolVersion : BitVec 16 := 1

/-- The table image's signature (Table 11-7). -/
abbrev signature : Nat := 0x55425431

/-- The management address with straps 00 (R170). -/
abbrev i2cBase : BitVec 7 := 0x2C

/-- The lease tick period after power-on and RESET_N, in ms (R180). -/
abbrev defaultTickMs : Nat := 10

/-- The dirty watermark after power-on and RESET_N (R180). -/
abbrev defaultWatermark : Nat := 768

end Sys2Proof.Config
end

