-- ==== Sys2Proof/Syntax.lean ====
section
/-!
DEFINITION. The commands of the UB3212: one constructor of `Instr` for each row of spec/opcode_table.json. The table gives
no operands; each constructor carries those its rule names, with the widths of chapter 11. A media completion carries the raw
bytes of its bus transfer (R183).
-/

namespace Sys2Proof

/-- Port A and Port B (00_scope). -/
inductive Port where
  | a
  | b
deriving DecidableEq, Repr

/-- The port that is not this one. -/
def Port.other : Port → Port
  | .a => .b
  | .b => .a

/-- A command tag, 0 to 15 (R140, R182). -/
abbrev Tag := Fin 16

/-- A frame number, 0 to 1023 (R1). -/
abbrev FrameNo := Fin 1024

/-- A landing buffer number, 0 to 3 (R129). -/
abbrev BufNo := Fin 4

/-- A media slot number, 0 to 3 (R64). -/
abbrev SlotNo := Fin 4

/-- A spare index, 0 to 255 (R83). -/
abbrev SpareNo := Fin 256

/-- A reservation id, 0 to 15 (R106). -/
abbrev ResId := Fin 16

/-- The commands of the opcode table, in the table's order. -/
inductive Instr where
  /-- POWER_ON (R160): the straps MA1:MA0 and the two links' state as the part comes up. -/
  | powerOn (straps : BitVec 2) (linkA linkB : Bool)
  /-- RESET_N_ASSERT (R160). -/
  | resetNAssert
  /-- RESET_N_RELEASE (R161): the straps MA1:MA0 read at the release. -/
  | resetNRelease (straps : BitVec 2)
  /-- LINK_UP (R121). -/
  | linkUp (p : Port)
  /-- LINK_DOWN (R121). -/
  | linkDown (p : Port)
  /-- MESSAGE_CHECK_FAILURE (R120, R182). -/
  | messageCheckFailure (p : Port)
  /-- UNKNOWN_MESSAGE_KIND (R131 item 3): the kind byte received. -/
  | unknownMessageKind (p : Port) (kind : Byte)
  /-- HELLO (R123). -/
  | hello (p : Port) (version : BitVec 16)
  /-- HELD_HELLO_RELEASE (R125). -/
  | heldHelloRelease
  /-- INBOUND_BYE (R126). -/
  | inboundBye (p : Port)
  /-- READ (R144). -/
  | read (p : Port) (tag : Tag) (start count : BitVec 32)
  /-- WRITE (R149), with its DURABLE option. -/
  | write (p : Port) (tag : Tag) (durable : Bool) (start count : BitVec 32)
  /-- FLUSH (R151). -/
  | flush (p : Port) (tag : Tag)
  /-- RESERVE (R109). -/
  | reserve (p : Port) (tag : Tag) (start count : BitVec 32) (ticks : BitVec 16)
  /-- RENEW (R115). -/
  | renew (p : Port) (tag : Tag) (id : Byte) (ticks : BitVec 16)
  /-- RELEASE (R116). -/
  | release (p : Port) (tag : Tag) (id : Byte)
  /-- QUERY (R153). -/
  | query (p : Port) (tag : Tag)
  /-- INBOUND_DATA (R132). -/
  | inboundData (p : Port) (tag : Tag) (index : BitVec 16) (bytes : Block)
  /-- INBOUND_CREDIT (R133). -/
  | inboundCredit (p : Port) (count : Byte)
  /-- CANCEL (R154). -/
  | cancel (p : Port) (tag : Tag)
  /-- OUTBOUND_MESSAGE_SENT (R127). -/
  | outboundMessageSent (p : Port)
  /-- FRAME_HAND_OUT (R16): the frame that has become available. -/
  | frameHandOut (f : FrameNo)
  /-- WRITE_CREDIT_GRANT (R130). -/
  | writeCreditGrant (p : Port)
  /-- DATA_FORMED (R147). -/
  | dataFormed (p : Port)
  /-- MEDIA_READ_COMPLETION (R71): slot, issue count, outcome code and body of the transfer. -/
  | mediaReadCompletion (slot issue outcome : Byte) (body : List Byte)
  /-- MEDIA_WRITE_COMPLETION (R71). -/
  | mediaWriteCompletion (slot issue outcome : Byte) (body : List Byte)
  /-- IDENTIFY_COMPLETION (R74). -/
  | identifyCompletion (slot issue outcome : Byte) (body : List Byte)
  /-- RESET_COMPLETION (R77). -/
  | resetCompletion (slot issue outcome : Byte) (body : List Byte)
  /-- SLOT_ARBITER_RUN (R70). -/
  | slotArbiterRun
  /-- MEDIA_TIMEOUT (R75). -/
  | mediaTimeout (slot : SlotNo)
  /-- REISSUE_TIMEOUT (R78). -/
  | reissueTimeout (slot : SlotNo)
  /-- RESET_TIMEOUT (R78). -/
  | resetTimeout
  /-- IDENTIFY_TIMEOUT (R74). -/
  | identifyTimeout
  /-- RECOVERY_RESET_PLACED (R76). -/
  | recoveryResetPlaced
  /-- PERSIST_BEGIN (R94). -/
  | persistBegin
  /-- FLUSH_ANSWER (R57). -/
  | flushAnswer
  /-- LEASE_TICK (R114). -/
  | leaseTick
  /-- LEASE_LAPSE (R114): the entry whose remaining ticks are 0. -/
  | leaseLapse (id : ResId)
  /-- RESERVATION_GRANT (R111): the port whose PENDING entries are tested. -/
  | reservationGrant (holder : Port)
  /-- I2C_WRITE_TRANSACTION (R171): the address sent and the data bytes the supervisor offers. -/
  | i2cWriteTransaction (address : BitVec 7) (bytes : List Byte)
  /-- I2C_READ_TRANSACTION (R173): the address sent and the number of bytes the supervisor clocks. -/
  | i2cReadTransaction (address : BitVec 7) (length : Nat)
  /-- MANAGEMENT_BAD_REQUEST (R174). -/
  | managementBadRequest
  /-- READ_STATUS (R177). -/
  | readStatus
  /-- READ_CONDITIONS (R176). -/
  | readConditions
  /-- MASK_CONDITIONS (R176). -/
  | maskConditions
  /-- READ_REMAP_ENTRY (R178). -/
  | readRemapEntry
  /-- DETACH_PORT (R137). -/
  | detachPort
  /-- SET_LEASE_TICK (R113). -/
  | setLeaseTick
  /-- SET_WATERMARK (R180). -/
  | setWatermark
  /-- DISCARD_HELD (R19). -/
  | discardHeld
  /-- SOFT_RESTART (R165). -/
  | softRestart
  /-- DRAIN_COMPLETE (R168). -/
  | drainComplete
  /-- COMMAND_UNKNOWN_OPCODE (R131 item 3): the opcode byte received. -/
  | commandUnknownOpcode (p : Port) (opcode : Byte)
deriving DecidableEq, Repr

end Sys2Proof
end

