-- ==== Sys2Proof/WellFormed.lean ====
section
/-!
DEFINITION. Which commands the outside can really send: the checks that the operands' types do not make by themselves. The
machine gives every command a meaning, well-formed or not; a statement that needs a check says so.
-/

namespace Sys2Proof

/-- The inbound kind codes of Table 11-2. -/
def knownKinds : List Byte := [0x01, 0x02, 0x03, 0x04, 0x05, 0x06]

/-- The opcode bytes of Table 11-3. -/
def knownOpcodes : List Byte := [0x01, 0x02, 0x03, 0x04, 0x05, 0x06, 0x07]

/-- The longest body a completion carries: 512 bytes read (section 11.2). -/
def maxBody : Nat := 512

/-- A command is well formed when an UNKNOWN_MESSAGE_KIND carries no known kind (R182), a COMMAND_UNKNOWN_OPCODE no known
opcode (R182), a completion a body of at most 512 bytes (section 11.2), and an I2C read clocks at least one byte (R173). -/
def Instr.wellFormed : Instr → Bool
  | .unknownMessageKind _ kind => !knownKinds.contains kind
  | .commandUnknownOpcode _ opcode => !knownOpcodes.contains opcode
  | .mediaReadCompletion _ _ _ body => body.length ≤ maxBody
  | .mediaWriteCompletion _ _ _ body => body.length ≤ maxBody
  | .identifyCompletion _ _ _ body => body.length ≤ maxBody
  | .resetCompletion _ _ _ body => body.length ≤ maxBody
  | .i2cReadTransaction _ length => 1 ≤ length
  | .powerOn .. => true
  | .resetNAssert => true
  | .resetNRelease _ => true
  | .linkUp _ => true
  | .linkDown _ => true
  | .messageCheckFailure _ => true
  | .hello .. => true
  | .heldHelloRelease => true
  | .inboundBye _ => true
  | .read .. => true
  | .write .. => true
  | .flush .. => true
  | .reserve .. => true
  | .renew .. => true
  | .release .. => true
  | .query .. => true
  | .inboundData .. => true
  | .inboundCredit .. => true
  | .cancel .. => true
  | .outboundMessageSent _ => true
  | .frameHandOut _ => true
  | .writeCreditGrant _ => true
  | .dataFormed _ => true
  | .slotArbiterRun => true
  | .mediaTimeout _ => true
  | .reissueTimeout _ => true
  | .resetTimeout => true
  | .identifyTimeout => true
  | .recoveryResetPlaced => true
  | .persistBegin => true
  | .flushAnswer => true
  | .leaseTick => true
  | .leaseLapse _ => true
  | .reservationGrant _ => true
  | .i2cWriteTransaction .. => true
  | .managementBadRequest => true
  | .readStatus => true
  | .readConditions => true
  | .maskConditions => true
  | .readRemapEntry => true
  | .detachPort => true
  | .setLeaseTick => true
  | .setWatermark => true
  | .discardHeld => true
  | .softRestart => true
  | .drainComplete => true

end Sys2Proof
end

