-- ==== Sys2Proof/Decode.lean ====
section
/-!
DEFINITION. From bits to commands. The opcode table gives no row any bits, so no word of the table spells a command. What the
spec does give is the frame of a port message (11.1): `decodePortMessage` is R182's test and decoding, total on any bytes.
-/

namespace Sys2Proof

/-- The command a word spells by the table's bits: no row of spec/opcode_table.json gives bits, so none. -/
def decodeTableWord (_nbits _w : Nat) : Option Instr := none

/-- The payload length of each inbound kind (Table 11-2). -/
def inboundLength (kind : Byte) : Option Nat :=
  match kind.toNat with
  | 0x01 => some 2
  | 0x02 => some 16
  | 0x03 => some 516
  | 0x04 => some 1
  | 0x05 => some 1
  | 0x06 => some 0
  | _ => none

/-- The low four bits of a tag byte are the tag (R182). -/
def tagOfByte (b : Byte) : Tag := ⟨b.toNat % 16, Nat.mod_lt _ (by decide)⟩

/-- A COMMAND's payload by its opcode byte (Table 11-3). -/
def decodeCommand (p : Port) (pl : List Byte) : Instr :=
  let tag := tagOfByte (pl.getD 0 0)
  let durable := (pl.getD 2 0).getLsbD 0
  let id := pl.getD 3 0
  let start := BitVec.ofNat 32 (Machine.beValue (Machine.field pl 4 4))
  let count := BitVec.ofNat 32 (Machine.beValue (Machine.field pl 8 4))
  let ticks := BitVec.ofNat 16 (Machine.beValue (Machine.field pl 12 2))
  match (pl.getD 1 0).toNat with
  | 0x01 => .read p tag start count
  | 0x02 => .write p tag durable start count
  | 0x03 => .flush p tag
  | 0x04 => .reserve p tag start count ticks
  | 0x05 => .renew p tag id ticks
  | 0x06 => .release p tag id
  | 0x07 => .query p tag
  | _ => .commandUnknownOpcode p (pl.getD 1 0)

/-- A message that has passed its check, by its kind code (R182, Table 11-3). -/
def decodeKind (p : Port) (kind : Byte) (pl : List Byte) : Instr :=
  match kind.toNat with
  | 0x01 => .hello p (BitVec.ofNat 16 (Machine.beValue (Machine.field pl 0 2)))
  | 0x02 => decodeCommand p pl
  | 0x03 => .inboundData p (tagOfByte (pl.getD 0 0)) (BitVec.ofNat 16 (Machine.beValue (Machine.field pl 2 2)))
      (Machine.blockOfList (pl.drop 4))
  | 0x04 => .inboundCredit p (pl.getD 0 0)
  | 0x05 => .cancel p (tagOfByte (pl.getD 0 0))
  | 0x06 => .inboundBye p
  | _ => .unknownMessageKind p kind

/-- R182: a message whose CRC-32 differs, or whose known kind has another payload length, fails its check; the rest are
decoded by kind. R182 gives no outcome for a message whose bytes are not those its own length field gives, header, payload and
check: the model fails its check, whether it ends too early or goes on too long (the model's choice, log 35). -/
def decodePortMessage (p : Port) (bytes : List Byte) : Instr :=
  let kind := bytes.getD 0 0
  let len := Machine.beValue (Machine.field bytes 2 2)
  let checked := bytes.take (4 + len)
  if bytes.length = 4 + len + 4 ∧ bytes.drop (4 + len) = Machine.crcField checked
      ∧ (inboundLength kind = none ∨ inboundLength kind = some len) then
    decodeKind p kind (checked.drop 4)
  else .messageCheckFailure p

end Sys2Proof
end

