-- ==== Sys2Proof/Machine/State.lean ====
section
/-!
DEFINITION. The state of the UB3212, block by block as Table 0-1 names them, the queue of waiting commands, and the state
after reset. Everything is plain data. What the spec keeps twice is kept once here and computed where the other view is
needed (log 17): the block index and the counts from the frame records, the write credits from the PROMISED buffers, the
floors from the sets, ALERT_N from flags and masks.
-/

namespace Sys2Proof.Machine

/-! ### Frame store (chapter 1) -/

/-- One block of a port's read window, named by its place in its command: port, tag, block index (R15, R145). -/
structure WindowRef where
  port : Port
  tag : Tag
  index : Nat
deriving DecidableEq, Repr

/-- The phase of a WRITING frame (R1). -/
inductive Phase where
  | home
  | spare
  | table
deriving DecidableEq, Repr

/-- The state of a frame that serves a block, with the fields Table 1-1 gives that state and no others. -/
inductive FrameState where
  /-- FILLING: its fill is outstanding; the window blocks that wait for it, in joining order (R11). -/
  | filling (waiters : List WindowRef)
  /-- CLEAN. -/
  | clean
  /-- DIRTY: its exposure, and whether a superseded fill is still outstanding (R29). -/
  | dirty (exposure : Nat) (fillOutstanding : Bool)
  /-- WRITING: its exposure, its newer since where present, its phase. -/
  | writing (exposure : Nat) (newerSince : Option Nat) (phase : Phase)
  /-- HELD: its exposure. -/
  | held (exposure : Nat)
deriving DecidableEq, Repr

/-- What a frame record holds while the frame is not FREE (R1). -/
structure Served where
  block : Nat
  hold : Nat
  state : FrameState
deriving DecidableEq, Repr

/-- A frame: its 512 bytes, and its record; no record is FREE (R1, R2). -/
structure Frame where
  bytes : Block
  served : Option Served
deriving DecidableEq, Repr

/-- Who waits for a frame: a window block, or a landing buffer of a port (R15). -/
inductive Requester where
  | window (w : WindowRef)
  | landing (p : Port) (buf : BufNo)
deriving DecidableEq, Repr

/-- One entry of the frame-waiter queue (R15). -/
structure WaiterEntry where
  requester : Requester
  block : Nat
deriving DecidableEq, Repr

/-- The frame store (chapter 1). -/
structure FrameStore where
  frames : Vector Frame 1024
  cleanList : List FrameNo
  dirtyQueue : List FrameNo
  waiterQueue : List WaiterEntry
deriving DecidableEq, Repr

/-! ### Durability tracker (chapter 3) -/

/-- The kind of a flush-list entry (R53). -/
inductive FlushKind where
  | flush
  | durableWrite
deriving DecidableEq, Repr

/-- One entry of the flush list (R53). -/
structure FlushEntry where
  kind : FlushKind
  port : Port
  tag : Tag
  mark : Nat
deriving DecidableEq, Repr

/-- The durability tracker (R51, R52, R53, R59). The two sets are kept in ascending order. -/
structure Tracker where
  nextWrite : Nat
  unwritten : List Nat
  held : List Nat
  flushList : List FlushEntry
  earliestLost : Option Nat
deriving DecidableEq, Repr

/-! ### Media channel (chapter 4) -/

/-- The channel states of Table 4-1. -/
inductive ChannelState where
  | idle
  | running
  | recovering
  | lost
deriving DecidableEq, Repr

/-- The kinds of media operation (R64). -/
inductive OpKind where
  | identify
  | read
  | write
  | reset
deriving DecidableEq, Repr

/-- The requester classes (R67). -/
inductive ReqClass where
  | table
  | spare
  | fill
  | writeback
deriving DecidableEq, Repr

/-- What an operation serves, with the image a WRITE sends (R68). -/
inductive Work where
  | identify
  | reset
  | fill (f : FrameNo)
  | writeback (f : FrameNo) (image : Block)
  | spare (f : FrameNo) (s : SpareNo) (image : Block)
  | tableRead
  | tableWrite (image : Block)
deriving DecidableEq, Repr

/-- A media operation in a slot or in the retry set (R68, R75). `timerMs` is the time its timer was started with. -/
structure Operation where
  work : Work
  phys : Option Nat
  timerMs : Nat
  reissue : Bool
deriving DecidableEq, Repr

/-- A TABLE request: a reserved-area block, read when no image is named, written otherwise (R67). -/
structure TableReq where
  phys : Nat
  image : Option Block
deriving DecidableEq, Repr

/-- A SPARE request (R67, R86, R89). -/
structure SpareReq where
  frame : FrameNo
  block : Nat
  spare : SpareNo
  image : Block
deriving DecidableEq, Repr

/-- A FILL request (R33). -/
structure FillReq where
  frame : FrameNo
  block : Nat
deriving DecidableEq, Repr

/-- The media channel (chapter 4). `capacity` is P once recorded (R74). -/
structure Channel where
  state : ChannelState
  capacity : Option Nat
  slots : Vector (Option Operation) 4
  issueCounts : Vector (BitVec 8) 4
  retrySet : List Operation
  tableQueue : List TableReq
  spareQueue : List SpareReq
  fillQueue : List FillReq
deriving DecidableEq, Repr

/-! ### Remap unit (chapter 5) -/

/-- The state of a remap entry (R82). -/
inductive EntryState where
  | active
  | batched
deriving DecidableEq, Repr

/-- One remap entry (R82). -/
structure RemapEntry where
  block : Nat
  spare : SpareNo
  state : EntryState
deriving DecidableEq, Repr

/-- The state of a spare (R83). -/
inductive SpareState where
  | free
  | inUse
  | retired
deriving DecidableEq, Repr

/-- The reason of a pending block (R84). -/
inductive Suspicion where
  | unreadable
  | weak
deriving DecidableEq, Repr

/-- One block of the pending list (R84). -/
structure PendingBlock where
  block : Nat
  reason : Suspicion
deriving DecidableEq, Repr

/-- How a frame reached the remap unit (R85). -/
inductive Origin where
  | pending
  | fault
deriving DecidableEq, Repr

/-- Where a remap record's image is to be written (R85). -/
inductive Target where
  | newSpare
  | inPlace
deriving DecidableEq, Repr

/-- One remap record of the work list (R85). -/
structure RemapRecord where
  frame : FrameNo
  block : Nat
  origin : Origin
  image : Block
  claim : Option SpareNo
  target : Target
deriving DecidableEq, Repr

/-- The two copies of the table image (section 4.2). -/
inductive Copy where
  | a
  | b
deriving DecidableEq, Repr

/-- The progress of one image block (R94). -/
inductive Progress where
  | awaiting
  | retrying
  | done
deriving DecidableEq, Repr

/-- The persist state: in WRITING_IMAGE the copy being written, its generation, its five blocks' progress, and whether the
image is the format's of R102. -/
inductive PersistState where
  | idle
  | writingImage (copy : Copy) (generation : Nat) (progress : Vector Progress 5) (format : Bool)
deriving DecidableEq, Repr

/-- One completed table read of a load: its physical block, and its bytes unless UNCORRECTABLE (R99). -/
structure LoadRead where
  phys : Nat
  data : Option Block
deriving DecidableEq, Repr

/-- The reasons of the write lock (section 5.6). -/
inductive LockReason where
  | noSpares
  | tableLost
deriving DecidableEq, Repr

/-- The remap unit (chapter 5). `spares` is absent before a load (R104); `load` is present while the ten table reads run. -/
structure Remap where
  table : List RemapEntry
  spares : Option (Vector SpareState 256)
  pendingList : List PendingBlock
  workList : List RemapRecord
  batch : List Nat
  inFlight : List Nat
  persist : PersistState
  load : Option (List LoadRead)
  activeCopy : Option Copy
  generation : Nat
  degradedA : Bool
  degradedB : Bool
  lock : Option LockReason
deriving DecidableEq, Repr

/-! ### Reservation table (chapter 6) -/

/-- The state of a reservation entry that is not free, with the fields of that state (R106). -/
inductive ResState where
  | pending (ticks : Nat) (tag : Tag)
  | granted (remaining : Nat)
  | lapsed
deriving DecidableEq, Repr

/-- One reservation entry (R106). -/
structure Reservation where
  holder : Port
  start : Nat
  count : Nat
  state : ResState
deriving DecidableEq, Repr

/-- The reservation table and the lease clock: the period in progress, in ms (R106, R113). -/
structure Reservations where
  entries : Vector (Option Reservation) 16
  clockRunning : Bool
  periodMs : Nat
deriving DecidableEq, Repr

/-! ### Port units (chapters 7 and 8) -/

/-- The device modes (chapter 9). -/
inductive DeviceMode where
  | starting
  | serving
  | draining
  | faulted
deriving DecidableEq, Repr

/-- The statuses of Table 0-5. -/
inductive Status where
  | good
  | aborted
  | outOfRange
  | badRequest
  | writeLocked
  | reserved
  | conflict
  | tableFull
  | noSuchReservation
  | expired
  | mediumError
  | incomplete
  | notServing
deriving DecidableEq, Repr

/-- The notices of Table 7-3, with their arguments. -/
inductive Notice where
  | partnerAttached
  | partnerDetached
  | leaseLapsed (id : ResId)
  | writeLocked (reason : LockReason)
  | duplicateTag (tag : Tag)
  | strayCancel (tag : Tag)
  | mediaFault
deriving DecidableEq, Repr

/-- The reasons of an outbound BYE (Table 7-1). -/
inductive ByeReason where
  | requested
  | admin
  | restart
  | violation
  | version
deriving DecidableEq, Repr

/-- The status record of a QUERY (R153, Table 11-6). -/
structure StatusRecord where
  mode : DeviceMode
  lock : Option LockReason
  partner : Bool
  capacity : Nat
  free : Nat
  clean : Nat
  dirty : Nat
  held : Nat
  freeSpares : Nat
  generation : Nat
deriving DecidableEq, Repr

/-- The payload of a RESPONSE (R143). -/
inductive Payload where
  | none
  | reservation (id : ResId)
  | record (r : StatusRecord)
deriving DecidableEq, Repr

/-- The messages the part sends (Table 7-1). -/
inductive OutMsg where
  | welcome (session capacity : Nat) (lock : Option LockReason) (partner : Bool)
  | data (tag : Tag) (index : Nat) (bytes : Block)
  | credit (count : Nat)
  | response (tag : Tag) (status : Status) (moved : Nat) (failing : Option Nat) (payload : Payload)
  | notice (n : Notice)
  | bye (reason : ByeReason)
deriving DecidableEq, Repr

/-- The messages a port receives (Table 7-1), and the three that fail a test of R182. -/
inductive Inbound where
  | damaged
  | unknownKind (kind : Byte)
  | unknownOpcode (opcode : Byte)
  | hello (version : BitVec 16)
  | read (tag : Tag) (start count : Nat)
  | write (tag : Tag) (durable : Bool) (start count : Nat)
  | flush (tag : Tag)
  | reserve (tag : Tag) (start count ticks : Nat)
  | renew (tag : Tag) (id ticks : Nat)
  | release (tag : Tag) (id : Nat)
  | query (tag : Tag)
  | data (tag : Tag) (index : Nat) (bytes : Block)
  | credit (count : Nat)
  | cancel (tag : Tag)
  | bye
deriving DecidableEq, Repr

/-- The session states (R122); WAITING holds the HELLO, of which the version is all there is. -/
inductive SessionState where
  | down
  | linked
  | waiting (version : BitVec 16)
  | attached
deriving DecidableEq, Repr

/-- A landing buffer (R129). The logical block is its WRITE's start block plus the block index (log 28). -/
inductive LandingBuffer where
  | free
  | promised
  | occupied (tag : Tag) (index block : Nat) (bytes : Block)
deriving DecidableEq, Repr

/-- The failure kind of a FAILED window block (R145). -/
inductive FailKind where
  | mediumError
  | dataLost
deriving DecidableEq, Repr

/-- The states of a window block, with its frame while it holds one (Table 8-3). -/
inductive WindowState where
  | lookup
  | waitingFrame
  | waitingFill (f : FrameNo)
  | ready (f : FrameNo)
  | failed (kind : FailKind)
deriving DecidableEq, Repr

/-- One window block (R145). -/
structure WindowBlock where
  tag : Tag
  index : Nat
  block : Nat
  state : WindowState
deriving DecidableEq, Repr

/-- The states of an open command (R140). -/
inductive CmdState where
  | queued
  | moving
  | settling
  | waiting
deriving DecidableEq, Repr

/-- An open READ (R140). -/
structure ReadCmd where
  start : Nat
  count : Nat
  state : CmdState
  sent : Nat
deriving DecidableEq, Repr

/-- An open WRITE (R140). -/
structure WriteCmd where
  start : Nat
  count : Nat
  durable : Bool
  state : CmdState
  received : Nat
  committed : Nat
deriving DecidableEq, Repr

/-- An open RESERVE: it is WAITING, and its reservation id is present (R140, R152). -/
structure ReserveCmd where
  start : Nat
  count : Nat
  ticks : Nat
  id : ResId
deriving DecidableEq, Repr

/-- An open command's record (R140); a FLUSH is SETTLING and a RESERVE WAITING while open. -/
inductive OpenCmd where
  | read (r : ReadCmd)
  | write (w : WriteCmd)
  | flush
  | reserve (r : ReserveCmd)
deriving DecidableEq, Repr

/-- A port unit (chapters 7 and 8). `linkUp` is the link layer's state; `backlog` the inbound messages that wait in the link
layer during the pause of R127; `lineOut` the bytes of the message the link sent last (log 20). -/
structure PortUnit where
  linkUp : Bool
  session : SessionState
  lastSession : Nat
  backlog : List Inbound
  outbound : List OutMsg
  lineOut : List Byte
  landing : Vector LandingBuffer 4
  commitOrder : List BufNo
  readCredits : Nat
  commands : Vector (Option OpenCmd) 16
  readList : List Tag
  window : List WindowBlock
  writeList : List Tag
deriving DecidableEq, Repr

/-! ### Mode controller (chapter 9) -/

/-- The start-up steps. -/
inductive StartStep where
  | none
  | identifying
  | loading
deriving DecidableEq, Repr

/-- The fault causes. -/
inductive FaultCause where
  | capacity
  | table
  | medium
deriving DecidableEq, Repr

/-- The mode controller (chapter 9). -/
structure ModeCtl where
  mode : DeviceMode
  step : StartStep
  restart : Bool
  cause : Option FaultCause
deriving DecidableEq, Repr

/-! ### Management port (chapter 10) -/

/-- The mailbox (Table 10-1). -/
inductive Mailbox where
  | empty
  | executing (request : List Byte)
  | ready (response : List Byte)
deriving DecidableEq, Repr

/-- What the part put on the I2C bus in the last transaction: its acknowledge of the address, of each data byte offered, and
the bytes it returned (log 20). -/
structure BusOutput where
  addressAck : Bool
  dataAcks : List Bool
  returned : List Byte
deriving DecidableEq, Repr

/-- The management port (chapter 10). Flags and masks are words with bit 0 WRITE_LOCKED to bit 8 RESTART_DONE (11.4). -/
structure Mgmt where
  address : BitVec 7
  mailbox : Mailbox
  flags : BitVec 9
  masks : BitVec 9
  tickMs : Nat
  watermark : Nat
  bus : BusOutput
deriving DecidableEq, Repr

/-! ### The whole -/

/-- The part: its blocks, and whether RESET_N is asserted. -/
structure Device where
  resetAsserted : Bool
  frames : FrameStore
  tracker : Tracker
  channel : Channel
  remap : Remap
  reservations : Reservations
  portA : PortUnit
  portB : PortUnit
  mode : ModeCtl
  mgmt : Mgmt
deriving DecidableEq, Repr

/-- The machine: the part and the commands that wait, first in, first out. -/
structure State extends Device where
  pending : List Instr
deriving DecidableEq, Repr

/-- The part never stops: no row of the table ends in a fault (INVENTORY, Faults). -/
inductive Fault where
deriving DecidableEq, Repr

/-- Why a command has no meaning here. -/
inductive Refusal where
  /-- Raised by an arm of `exec` for a command not modelled yet; safe: nothing can be proved of it. No arm raises it. -/
  | notModelled (mnemonic : String)
deriving DecidableEq, Repr

/-! ### Values after reset -/

/-- A FREE frame with bytes of 00H. R2 gives no power-on contents: DESIGN CHOICE, log 2. -/
def Frame.reset : Frame := { bytes := Block.fill 0, served := none }

/-- Table 1-4. -/
def FrameStore.reset : FrameStore :=
  { frames := Vector.replicate 1024 Frame.reset, cleanList := [], dirtyQueue := [], waiterQueue := [] }

/-- Table 3-1. -/
def Tracker.reset : Tracker :=
  { nextWrite := 1, unwritten := [], held := [], flushList := [], earliestLost := none }

/-- Table 4-2. -/
def Channel.reset : Channel :=
  { state := .idle, capacity := none, slots := Vector.replicate 4 none, issueCounts := Vector.replicate 4 0,
    retrySet := [], tableQueue := [], spareQueue := [], fillQueue := [] }

/-- Table 5-4. -/
def Remap.reset : Remap :=
  { table := [], spares := none, pendingList := [], workList := [], batch := [], inFlight := [], persist := .idle,
    load := none, activeCopy := none, generation := 0, degradedA := false, degradedB := false, lock := none }

/-- Table 6-1, with the lease clock running at 10 ms (R113). -/
def Reservations.reset : Reservations :=
  { entries := Vector.replicate 16 none, clockRunning := true, periodMs := Config.defaultTickMs }

/-- Table 7-4 and R159, for a port whose link is as given. -/
def PortUnit.reset (linkUp : Bool) : PortUnit :=
  { linkUp := linkUp, session := if linkUp then .linked else .down, lastSession := 0, backlog := [], outbound := [],
    lineOut := [], landing := Vector.replicate 4 .free, commitOrder := [], readCredits := 0,
    commands := Vector.replicate 16 none, readList := [], window := [], writeList := [] }

/-- Table 9-2. -/
def ModeCtl.reset : ModeCtl := { mode := .starting, step := .none, restart := false, cause := none }

/-- Table 10-3, with the address the straps give. -/
def Mgmt.reset (address : BitVec 7) : Mgmt :=
  { address := address, mailbox := .empty, flags := 0, masks := BitVec.allOnes 9, tickMs := Config.defaultTickMs,
    watermark := Config.defaultWatermark, bus := { addressAck := false, dataAcks := [], returned := [] } }

/-- Every block at its power-on values, RESET_N released, both links down, straps 00, before start-up begins (log 1). -/
def Device.reset : Device :=
  { resetAsserted := false, frames := FrameStore.reset, tracker := Tracker.reset, channel := Channel.reset,
    remap := Remap.reset, reservations := Reservations.reset, portA := PortUnit.reset false,
    portB := PortUnit.reset false, mode := ModeCtl.reset, mgmt := Mgmt.reset Config.i2cBase }

/-- The machine right after reset: the part at its power-on values and an empty queue. -/
def State.reset : State := { toDevice := Device.reset, pending := [] }

end Sys2Proof.Machine
end

