-- ==== Sys2Proof/Machine/Operands.lean ====
section
/-!
DEFINITION. What the operands of commands are checked and mapped against: ranges and their overlap, the logical capacity, the
logical-to-physical mapping, the areas of the medium.
-/

namespace Sys2Proof.Machine

/-- Two ranges have a block in common (section 6.2); the counts are 1 or more. -/
def rangesOverlap (start₁ count₁ start₂ count₂ : Nat) : Bool :=
  start₁ < start₂ + count₂ && start₂ < start₁ + count₁

/-- The logical capacity: P - 272, or 0 when P is not recorded (R74, R141). -/
def Channel.logicalCapacity (c : Channel) : Nat :=
  match c.capacity with
  | some cap => cap - Config.overheadBlocks
  | none => 0

/-- The physical block of a spare: P - 256 + s (R83). -/
def sparePhys (cap : Nat) (s : SpareNo) : Nat := cap - Config.spareCount + s.val

/-- The remap entry of a logical block (R82). -/
def Remap.entryOf (r : Remap) (block : Nat) : Option RemapEntry :=
  r.table.find? (fun e => e.block == block)

/-- The logical-to-physical mapping at issue (R66): the entry's spare, whatever the entry's state, else block + 16. -/
def mapBlock (cap : Nat) (r : Remap) (block : Nat) : Nat :=
  match r.entryOf block with
  | some e => sparePhys cap e.spare
  | none => block + Config.reservedBlocks

/-- The first physical block of a copy: 0 for copy A, 8 for copy B (section 4.2). -/
def Copy.base : Copy → Nat
  | .a => 0
  | .b => 8

/-- The other copy. -/
def Copy.other : Copy → Copy
  | .a => .b
  | .b => .a

/-- The kind of the operation that does a piece of work (R64). -/
def Work.kind : Work → OpKind
  | .identify => .identify
  | .reset => .reset
  | .fill _ => .read
  | .tableRead => .read
  | .writeback .. => .write
  | .spare .. => .write
  | .tableWrite _ => .write

/-- The requester class of a piece of work (R67). -/
def Work.reqClass : Work → Option ReqClass
  | .identify => none
  | .reset => none
  | .fill _ => some .fill
  | .tableRead => some .table
  | .tableWrite _ => some .table
  | .writeback .. => some .writeback
  | .spare .. => some .spare

/-- The image a WRITE sends (R68). -/
def Work.image : Work → Option Block
  | .writeback _ image => some image
  | .spare _ _ image => some image
  | .tableWrite image => some image
  | .identify => none
  | .reset => none
  | .fill _ => none
  | .tableRead => none

/-- The open WRITEs' ranges of a port: every WRITE with a record, whatever its state (R109). -/
def PortUnit.openWriteRanges (u : PortUnit) : List (Nat × Nat) :=
  u.commands.toList.filterMap fun c =>
    match c with
    | some (.write w) => some (w.start, w.count)
    | _ => none

/-- An open WRITE of the port overlaps a range (R109, R111). -/
def PortUnit.writeOverlaps (u : PortUnit) (start count : Nat) : Bool :=
  u.openWriteRanges.any fun r => rangesOverlap r.1 r.2 start count

/-- A PENDING or GRANTED entry protects its range; a LAPSED one does not (R106). -/
def Reservation.protects (e : Reservation) : Bool :=
  match e.state with
  | .pending .. => true
  | .granted _ => true
  | .lapsed => false

/-- The protecting entries that overlap a range (R108, R109). -/
def Reservations.protecting (r : Reservations) (start count : Nat) : List Reservation :=
  r.entries.toList.filterMap fun e =>
    match e with
    | some v => if v.protects && rangesOverlap v.start v.count start count then some v else none
    | none => none

/-- R108: a protecting entry of the other port overlaps the WRITE's range. -/
def Reservations.conflicts (r : Reservations) (p : Port) (start count : Nat) : Bool :=
  (r.protecting start count).any fun e => decide (e.holder = p.other)

/-- The lowest-numbered free id (R107). -/
def Reservations.freeId (r : Reservations) : Option ResId :=
  (List.finRange 16).find? fun i => decide (r.entries[i] = none)

/-- The number of blocks still to be received on a port (R130). -/
def PortUnit.toReceive (u : PortUnit) : Nat :=
  (u.writeList.map fun t =>
    match u.commands[t] with
    | some (.write w) => w.count - w.received
    | _ => 0).sum

/-- The write credits outstanding: the PROMISED buffers (R129). -/
def PortUnit.writeCredits (u : PortUnit) : Nat :=
  u.landing.toList.countP fun b => decide (b = .promised)

/-- The FREE landing buffers, lowest-numbered first (R130). -/
def PortUnit.freeBuffers (u : PortUnit) : List BufNo :=
  (List.finRange 4).filter fun i => decide (u.landing[i] = .free)

end Sys2Proof.Machine
end

