-- ==== Sys2Proof/Machine/Image.lean ====
section
/-!
DEFINITION. The table image (R93, R184, Table 11-7): its building from the remap unit's state, and the judging of a copy read
at load (R100).
-/

namespace Sys2Proof.Machine

/-- The image's length in bytes: five blocks. -/
def imageLength : Nat := 2560

/-- An entry slot: logical block, spare index, three zero bytes (Table 11-7). -/
def entrySlot (e : RemapEntry) : List Byte := beBytes 4 e.block ++ [BitVec.ofNat 8 e.spare.val, 0, 0, 0]

/-- The RETIRED set, one bit per spare: byte s / 8, bit s % 8 (Table 11-7). -/
def retiredBytes (retired : Nat → Bool) : List Byte :=
  (List.range 32).map fun j =>
    BitVec.ofNat 8 (((List.range 8).map fun i => if retired (8 * j + i) then 2 ^ i else 0).sum)

/-- The header before its check: signature, generation, number of entries, zero (Table 11-7). -/
def imageHeader (generation entries : Nat) : List Byte :=
  beBytes 4 Config.signature ++ beBytes 4 generation ++ beBytes 2 entries ++ [0, 0]

/-- R184: the whole image. The image check is computed with its own four bytes zero. -/
def buildImage (generation : Nat) (entries : List RemapEntry) (retired : Nat → Bool) : List Byte :=
  let header := imageHeader generation entries.length
  let front := header ++ crcField header ++ retiredBytes retired
  let slots := entries.flatMap entrySlot
  let back := List.replicate 460 0 ++ slots ++ List.replicate (2048 - slots.length) 0
  front ++ crcField (front ++ [0, 0, 0, 0] ++ back) ++ back

/-- The five blocks of an image, in block order (R184). -/
def imageBlocks (image : List Byte) : List Block :=
  (List.range 5).map fun i => blockOfList (image.drop (512 * i))

/-- The RETIRED bit of a spare in an image (Table 11-7). -/
def retiredBit (image : List Byte) (s : Nat) : Bool := (image.getD (16 + s / 8) 0).getLsbD (s % 8)

/-- Entry slot i of an image (Table 11-7). -/
def readSlot (image : List Byte) (i : Nat) : RemapEntry :=
  let slot := field image (512 + 8 * i) 8
  { block := beValue (slot.take 4), state := .active,
    spare := ⟨(slot.getD 4 0).toNat, (slot.getD 4 0).isLt⟩ }

/-- The header carries the signature (R100). -/
def hasSignature (header : List Byte) : Bool := beValue (header.take 4) == Config.signature

/-- The header check is good (Table 11-7). -/
def headerGood (header : List Byte) : Bool := decide (field header 12 4 = crcField (header.take 12))

/-- The image check is good (Table 11-7). -/
def imageGood (image : List Byte) : Bool :=
  decide (field image 48 4 = crcField (image.take 48 ++ [0, 0, 0, 0] ++ image.drop 52))

/-- The entries are in strictly ascending order of logical block (R184). -/
def ascendingBlocks : List RemapEntry → Bool
  | [] => true
  | [_] => true
  | e :: f :: es => decide (e.block < f.block) && ascendingBlocks (f :: es)

/-- R184: the number of entries is at most 256, the blocks strictly ascend, no two entries name one spare, and no spare named
is RETIRED. -/
def entriesGood (image : List Byte) (count : Nat) (entries : List RemapEntry) : Bool :=
  decide (count ≤ 256) && ascendingBlocks entries && decide ((entries.map fun e => e.spare).Nodup)
    && entries.all fun e => !retiredBit image e.spare.val

/-- What the judging of a copy finds (R100): blank, its generation where known, and its image with its entries when it is
valid. -/
structure CopyFinding where
  blank : Bool
  generation : Option Nat
  valid : Option (List Byte × List RemapEntry)
deriving DecidableEq, Repr

/-- R100, R184: a copy is judged by the blocks read of it, none standing for UNCORRECTABLE. -/
def judgeCopy (blocks : List (Option Block)) : CopyFinding :=
  match blocks with
  | some headBlock :: rest =>
    let header := headBlock.toList
    if hasSignature header then
      if headerGood header then
        let generation := beValue (field header 4 4)
        let count := beValue (field header 8 2)
        let valid :=
          if rest.all Option.isSome then
            let image := header ++ rest.flatMap fun b => (b.map fun v => v.toList).getD []
            let entries := (List.range (min count 256)).map (readSlot image)
            if imageGood image && entriesGood image count entries then some (image, entries) else none
          else none
        { blank := false, generation := some generation, valid := valid }
      else { blank := false, generation := none, valid := none }
    else { blank := true, generation := none, valid := none }
  | _ => { blank := false, generation := none, valid := none }

end Sys2Proof.Machine
end

