-- ==== Sys2Proof/Machine/Flags.lean ====
section
/-!
DEFINITION. The nine condition flags, their masks and ALERT_N (section 10.4).
-/

namespace Sys2Proof.Machine

/-- The conditions of Table 10-2, in its order. -/
inductive Condition where
  | writeLocked
  | tableDegraded
  | dataLost
  | mediaFault
  | portAEnded
  | portBEnded
  | pendingFull
  | mailboxOverrun
  | restartDone
deriving DecidableEq, Repr

/-- The bit of a condition in the flag and mask words: the order of Table 10-2 (11.4). -/
def Condition.bit : Condition → Fin 9
  | .writeLocked => 0
  | .tableDegraded => 1
  | .dataLost => 2
  | .mediaFault => 3
  | .portAEnded => 4
  | .portBEnded => 5
  | .pendingFull => 6
  | .mailboxOverrun => 7
  | .restartDone => 8

/-- The condition of a session end on a port (R136). -/
def Condition.ended : Port → Condition
  | .a => .portAEnded
  | .b => .portBEnded

/-- A raise leaves the flag raised, whatever it was, and touches no other flag (R175). -/
def Mgmt.raise (c : Condition) (m : Mgmt) : Mgmt :=
  { m with flags := m.flags ||| BitVec.twoPow 9 c.bit }

/-- A flag as it stands. -/
def Mgmt.raised (c : Condition) (m : Mgmt) : Bool := m.flags.getLsbD c.bit

/-- A mask as it stands. -/
def Mgmt.masked (c : Condition) (m : Mgmt) : Bool := m.masks.getLsbD c.bit

/-- ALERT_N is driven low while a flag is raised with its mask clear (R175). -/
def Mgmt.alertLow (m : Mgmt) : Bool := m.flags &&& ~~~ m.masks != 0

/-- Raise a condition in the management port. -/
def Device.raise (c : Condition) (d : Device) : Device := { d with mgmt := d.mgmt.raise c }

end Sys2Proof.Machine
end

