-- ==== Sys2Proof/Machine/Ops.lean ====
section
/-!
DEFINITION. The named operations every block uses: a port's unit, its outbound order, its command records; the frame records;
the counts and views computed from the state. A block has no exception entry: raising a condition (Flags) or a notice (here)
is how an event is reported.
-/

namespace Sys2Proof.Machine

/-! ### Port units -/

/-- The unit of a port. -/
def Device.port (d : Device) : Port → PortUnit
  | .a => d.portA
  | .b => d.portB

/-- The device with a port's unit replaced. -/
def Device.setPort (p : Port) (u : PortUnit) (d : Device) : Device :=
  match p with
  | .a => { d with portA := u }
  | .b => { d with portB := u }

/-- The device with a port's unit changed. -/
def Device.onPort (p : Port) (f : PortUnit → PortUnit) (d : Device) : Device := d.setPort p (f (d.port p))

/-- The port has a session (R122). -/
def PortUnit.attached (u : PortUnit) : Bool := decide (u.session = .attached)

/-- Queue a message at the tail (R127). The entry after the 256th marks the overflow inside the event: the message it stands
for is never sent, since the closing of the event takes the link down and empties the order (log 7). -/
def PortUnit.enqueue (m : OutMsg) (u : PortUnit) : PortUnit :=
  if u.outbound.length ≤ Config.outboundCap then { u with outbound := u.outbound ++ [m] } else u

/-- A message was queued while 256 stood (R127). -/
def PortUnit.overflowed (u : PortUnit) : Bool := decide (Config.outboundCap < u.outbound.length)

/-- The port takes no inbound message (R127). -/
def PortUnit.paused (u : PortUnit) : Bool := decide (Config.pauseAt ≤ u.outbound.length)

/-- Queue a message on a port. -/
def Device.send (p : Port) (m : OutMsg) (d : Device) : Device := d.onPort p (PortUnit.enqueue m)

/-- Queue a notice on a port, while that port is ATTACHED (R135). -/
def Device.notify (p : Port) (n : Notice) (d : Device) : Device :=
  if (d.port p).attached then d.send p (.notice n) else d

/-- Queue a notice on each ATTACHED port (R91, R92, R163). -/
def Device.notifyBoth (n : Notice) (d : Device) : Device := (d.notify .a n).notify .b n

/-- Fill or free a command record (R140). -/
def PortUnit.setCommand (t : Tag) (c : Option OpenCmd) (u : PortUnit) : PortUnit :=
  { u with commands := u.commands.set t.val c t.isLt }

/-- Change a port's command record (R140). -/
def Device.setCommand (p : Port) (t : Tag) (c : Option OpenCmd) (d : Device) : Device :=
  d.onPort p (PortUnit.setCommand t c)

/-- Answer a command without a record: a refusal, or a command answered in its own event (R141, R143). -/
def Device.reply (p : Port) (t : Tag) (st : Status) (payload : Payload) (d : Device) : Device :=
  d.send p (.response t st 0 none payload)

/-- Answer an open command: its record is freed and its RESPONSE queued in the one event (R140, R143). -/
def Device.answer (p : Port) (t : Tag) (st : Status) (moved : Nat) (failing : Option Nat) (payload : Payload)
    (d : Device) : Device :=
  (d.setCommand p t none).send p (.response t st moved failing payload)

/-- A landing buffer becomes as given. -/
def PortUnit.setLanding (b : BufNo) (v : LandingBuffer) (u : PortUnit) : PortUnit :=
  { u with landing := u.landing.set b.val v b.isLt }

/-- A landing buffer becomes FREE and leaves the commit order (R23, R24, R26). -/
def PortUnit.freeBuffer (b : BufNo) (u : PortUnit) : PortUnit :=
  { u.setLanding b .free with commitOrder := u.commitOrder.erase b }

/-- A new state for one window block. -/
def PortUnit.setWindow (t : Tag) (index : Nat) (st : WindowState) (u : PortUnit) : PortUnit :=
  { u with window := u.window.map fun wb => if wb.tag = t ∧ wb.index = index then { wb with state := st } else wb }

/-- A window block is told what the rule says (R41). -/
def Device.tellWindow (w : WindowRef) (st : WindowState) (d : Device) : Device :=
  d.onPort w.port (PortUnit.setWindow w.tag w.index st)

/-! ### Frames -/

/-- A frame of the store. -/
def Device.frame (d : Device) (f : FrameNo) : Frame := d.frames.frames[f]

/-- The device with a frame replaced. -/
def Device.setFrame (f : FrameNo) (fr : Frame) (d : Device) : Device :=
  { d with frames := { d.frames with frames := d.frames.frames.set f.val fr f.isLt } }

/-- The device with a frame's record replaced; its bytes stay. -/
def Device.setServed (f : FrameNo) (sv : Option Served) (d : Device) : Device :=
  d.setFrame f { d.frame f with served := sv }

/-- The device with a frame's bytes replaced; its record stays (R2). -/
def Device.setBytes (f : FrameNo) (bytes : Block) (d : Device) : Device :=
  d.setFrame f { d.frame f with bytes := bytes }

/-- The first position at which a frame meets a test. -/
def FrameStore.firstFrame (test : Frame → Bool) (fs : FrameStore) : Option FrameNo :=
  (fs.frames.toList.findIdx? test).bind fun i => if h : i < 1024 then some ⟨i, h⟩ else none

/-- The frame serves a block. -/
def Frame.serves (block : Nat) (fr : Frame) : Bool :=
  match fr.served with
  | some sv => sv.block == block
  | none => false

/-- The block index: the frame that serves a block (R4). -/
def FrameStore.lookup (fs : FrameStore) (block : Nat) : Option FrameNo := fs.firstFrame (Frame.serves block)

/-- The lowest-numbered FREE frame (R12). -/
def FrameStore.lowestFree (fs : FrameStore) : Option FrameNo := fs.firstFrame fun fr => fr.served.isNone

/-- The frame is CLEAN with hold count 0. -/
def Frame.evictable (fr : Frame) : Bool :=
  match fr.served with
  | some { hold := 0, state := .clean, .. } => true
  | _ => false

/-- The eviction candidate: the first unheld frame from the head of the clean list (R7). -/
def Device.evictionCandidate (d : Device) : Option FrameNo :=
  d.frames.cleanList.find? fun f => (d.frame f).evictable

/-- The kinds of frame state that are counted (R20). -/
inductive FrameKind where
  | free
  | filling
  | clean
  | dirty
  | writing
  | held
deriving DecidableEq, Repr

/-- The state of a frame, without its fields (Table 1-2). -/
def Frame.kind (fr : Frame) : FrameKind :=
  match fr.served with
  | none => .free
  | some sv =>
    match sv.state with
    | .filling _ => .filling
    | .clean => .clean
    | .dirty .. => .dirty
    | .writing .. => .writing
    | .held _ => .held

/-- The count of frames in a state (R20). -/
def FrameStore.count (k : FrameKind) (fs : FrameStore) : Nat := fs.frames.toList.countP fun fr => fr.kind == k

/-- The frame has fill outstanding (Table 1-1). -/
def Frame.fillOutstanding (fr : Frame) : Bool :=
  match fr.served with
  | some { state := .filling _, .. } => true
  | some { state := .dirty _ o, .. } => o
  | _ => false

/-- The quiet report: no frame DIRTY or WRITING and none with fill outstanding (R20). -/
def FrameStore.quiet (fs : FrameStore) : Bool :=
  fs.frames.toList.all fun fr => fr.kind != .dirty && fr.kind != .writing && !fr.fillOutstanding

/-- The exposure of a frame in the dirty queue (R8). -/
def FrameStore.exposureAt (fs : FrameStore) (f : FrameNo) : Nat :=
  match fs.frames[f].served with
  | some { state := .dirty e _, .. } => e
  | _ => 0

/-- Insertion at the place the exposure gives (R8). -/
def insertByExposure (exposure : FrameNo → Nat) (f : FrameNo) : List FrameNo → List FrameNo
  | [] => [f]
  | g :: gs => if exposure f < exposure g then f :: g :: gs else g :: insertByExposure exposure f gs

/-- A frame that has entered DIRTY enters the dirty queue (R3, R8). -/
def Device.enterDirty (f : FrameNo) (d : Device) : Device :=
  { d with frames := { d.frames with
      dirtyQueue := insertByExposure d.frames.exposureAt f d.frames.dirtyQueue } }

/-- A frame leaves the dirty queue (R3). -/
def Device.leaveDirty (f : FrameNo) (d : Device) : Device :=
  { d with frames := { d.frames with dirtyQueue := d.frames.dirtyQueue.erase f } }

/-- A frame leaves the clean list (R3). -/
def Device.leaveClean (f : FrameNo) (d : Device) : Device :=
  { d with frames := { d.frames with cleanList := d.frames.cleanList.erase f } }

/-- A frame stands at the tail of the clean list (R3, R7). -/
def Device.cleanTail (f : FrameNo) (d : Device) : Device :=
  { d with frames := { d.frames with cleanList := d.frames.cleanList.erase f ++ [f] } }

/-- The frame-waiter queue replaced. -/
def Device.setWaiterQueue (q : List WaiterEntry) (d : Device) : Device :=
  { d with frames := { d.frames with waiterQueue := q } }

/-! ### Remap unit views -/

/-- The spare's state, once a table is loaded. -/
def Remap.spareState (r : Remap) (s : SpareNo) : Option SpareState := r.spares.map fun v => v[s]

/-- The spare is claimed by a remap record (R83). -/
def Remap.claimed (r : Remap) (s : SpareNo) : Bool := r.workList.any fun w => decide (w.claim = some s)

/-- The FREE spares that no record has claimed, lowest-numbered first (R83, R86). -/
def Remap.unclaimed (r : Remap) : List SpareNo :=
  match r.spares with
  | some v => (List.finRange 256).filter fun s => decide (v[s] = .free) && !r.claimed s
  | none => []

/-- No spare is FREE (R91). -/
def Remap.noneFree (r : Remap) : Bool :=
  match r.spares with
  | some v => v.toList.all fun s => decide (s ≠ .free)
  | none => true

/-- A spare's state replaced (R83). -/
def Remap.setSpare (s : SpareNo) (st : SpareState) (r : Remap) : Remap :=
  { r with spares := r.spares.map fun v => v.set s.val st s.isLt }

end Sys2Proof.Machine
end

