-- ==== Sys2Proof/Machine/Reserve.lean ====
section
/-!
DEFINITION. The reservation table's own operations (chapter 6): the grant of PENDING entries, the freeing of entries, the
lease clock's tick and the lapse.
-/

namespace Sys2Proof.Machine

/-- An entry of the table as given (R106). -/
def Device.setEntry (id : ResId) (e : Option Reservation) (d : Device) : Device :=
  { d with reservations := { d.reservations with entries := d.reservations.entries.set id.val e id.isLt } }

/-- The RESERVE a pending tag names is answered while it is open; one that vanished with its session is not (R118, R136). -/
def Device.answerReserve (holder : Port) (tag : Tag) (st : Status) (payload : Payload) (d : Device) : Device :=
  match (d.port holder).commands[tag] with
  | some (.reserve _) => d.answer holder tag st 0 none payload
  | _ => d

/-- R111 for one entry: a PENDING entry of the holder that no open WRITE of the other port overlaps becomes GRANTED with its
requested ticks, and its RESERVE is answered GOOD with the id. -/
def Device.grantEntry (holder : Port) (id : ResId) (d : Device) : Device :=
  match d.reservations.entries[id] with
  | some { holder := h, start := s, count := c, state := .pending ticks tag } =>
    if h = holder ∧ !(d.port holder.other).writeOverlaps s c then
      (d.setEntry id (some { holder := h, start := s, count := c, state := .granted ticks })).answerReserve
        holder tag .good (.reservation id)
    else d
  | _ => d

/-- R111: the PENDING entries of the holder are tested in ascending id order. The test is made once in an event, behind every WRITE
that leaves in it, so that the entries it grants are answered in ascending id order (log 32); at a session end it is step 5 of
R136. -/
def Device.testPending (holder : Port) (d : Device) : Device :=
  (List.finRange 16).foldl (fun d id => d.grantEntry holder id) d

/-- R118 step 1: every entry held by one of the ports is freed, whatever its state. -/
def Reservations.freeHeldBy (ports : List Port) (r : Reservations) : Reservations :=
  { r with entries := vecMap (fun e =>
      match e with
      | some v => if ports.contains v.holder then none else some v
      | none => none) r.entries }

/-- R112 at the entry to FAULTED, for one entry: a PENDING entry is freed and its RESERVE answered NOT_SERVING. -/
def Device.faultEntry (id : ResId) (d : Device) : Device :=
  match d.reservations.entries[id] with
  | some { holder := h, state := .pending _ tag, .. } =>
    (d.setEntry id none).answerReserve h tag .notServing .none
  | _ => d

/-- R112: the entry to FAULTED frees every PENDING entry, in ascending id order. -/
def Device.faultPending (d : Device) : Device :=
  (List.finRange 16).foldl (fun d id => d.faultEntry id) d

/-- R114: a GRANTED entry whose remaining ticks are 0 becomes LAPSED, and its holder's port is sent LEASE_LAPSED. -/
def Device.lapseEntry (id : ResId) (d : Device) : Device :=
  match d.reservations.entries[id] with
  | some { holder := h, start := s, count := c, state := .granted 0 } =>
    (d.setEntry id (some { holder := h, start := s, count := c, state := .lapsed })).notify h (.leaseLapsed id)
  | _ => d

/-- R114 for one entry: a GRANTED entry is counted down, and lapses at 0. -/
def Device.tickEntry (id : ResId) (d : Device) : Device :=
  match d.reservations.entries[id] with
  | some { holder := h, start := s, count := c, state := .granted n } =>
    (d.setEntry id (some { holder := h, start := s, count := c, state := .granted (n - 1) })).lapseEntry id
  | _ => d

/-- R113, R114: the tick ends its period, the next runs at the setting, and every GRANTED entry is counted in ascending id
order. -/
def Device.leaseTick (d : Device) : Device :=
  (List.finRange 16).foldl (fun d id => d.tickEntry id)
    { d with reservations := { d.reservations with periodMs := d.mgmt.tickMs } }

end Sys2Proof.Machine
end

