-- ==== Sys2Proof/Machine/Durability.lean ====
section
/-!
DEFINITION. The durability tracker's operations (chapter 3): the two sets, the flush list with its head test and answers, the
earliest lost number, and the count of a WRITE's commits that may put it into the flush list (R150).
-/

namespace Sys2Proof.Machine

/-- A number added to a set kept in ascending order (R51). -/
def insertAsc (n : Nat) : List Nat → List Nat
  | [] => [n]
  | m :: ms => if n < m then n :: m :: ms else if n = m then m :: ms else m :: insertAsc n ms

/-- A number removed from a set (R51). -/
def removeNum (n : Nat) (l : List Nat) : List Nat := l.filter (· ≠ n)

/-- The least number of a set is at or below the mark; an empty set has no floor (R51, R56). -/
def floorAtOrBelow (set : List Nat) (mark : Nat) : Bool := set.any (· ≤ mark)

/-- The outcomes of the head test (R56). -/
inductive HeadOutcome where
  | waits
  | incomplete
  | good
deriving DecidableEq, Repr

/-- The head test of R56, its conditions in order. -/
def Tracker.headTest (t : Tracker) (mark : Nat) : HeadOutcome :=
  if t.earliestLost.any (· ≤ mark) then .incomplete
  else if floorAtOrBelow t.unwritten mark then .waits
  else if floorAtOrBelow t.held mark then .incomplete
  else .good

/-- An entry is answered: its port unit answers the command, and a WRITE leaves the open state (R57). The other port's PENDING
entries are tested for it at the closing of the event (R111, log 32). -/
def Device.answerFlush (e : FlushEntry) (st : Status) (d : Device) : Device :=
  match (d.port e.port).commands[e.tag] with
  | some .flush => d.answer e.port e.tag st 0 none .none
  | some (.write w) => d.answer e.port e.tag st w.count none .none
  | _ => d

/-- The flush list replaced. -/
def Device.setFlushList (l : List FlushEntry) (d : Device) : Device :=
  { d with tracker := { d.tracker with flushList := l } }

/-- R57: the head is tested, and answered heads leave the list, until one waits or the list is empty; at most `fuel` heads. -/
def flushLoop : Nat → Device → Device
  | 0, d => d
  | n + 1, d =>
    match d.tracker.flushList with
    | [] => d
    | e :: rest =>
      match d.tracker.headTest e.mark with
      | .waits => d
      | .incomplete => flushLoop n ((d.setFlushList rest).answerFlush e .incomplete)
      | .good => flushLoop n ((d.setFlushList rest).answerFlush e .good)

/-- R57: the test of the flush list from its head. -/
def Device.testFlush (d : Device) : Device := flushLoop d.tracker.flushList.length d

/-- R53, R57: an entry joins at the tail; it is tested at once when it is the head. -/
def Device.joinFlush (e : FlushEntry) (d : Device) : Device :=
  let d' := d.setFlushList (d.tracker.flushList ++ [e])
  if d.tracker.flushList.isEmpty then d'.testFlush else d'

/-- R60, R61: entries leave without an answer; a new head is tested when the head was among them. -/
def Device.dropFlush (leaves : FlushEntry → Bool) (d : Device) : Device :=
  let d' := d.setFlushList (d.tracker.flushList.filter fun e => !leaves e)
  match d.tracker.flushList with
  | e :: _ => if leaves e then d'.testFlush else d'
  | [] => d'

/-! ### Reports of the frame store (R50, R51) -/

/-- The sets after a report; then the head is tested (R57). -/
def Device.report (f : Tracker → Tracker) (d : Device) : Device := { d with tracker := f d.tracker }.testFlush

/-- Exposure set to n, frame DIRTY. -/
def Device.reportSet (n : Nat) (d : Device) : Device :=
  d.report fun t => { t with unwritten := insertAsc n t.unwritten }

/-- Frame now WRITING; exposure unchanged. -/
def Device.reportWriting (d : Device) : Device := d.report fun t => t

/-- Exposure cleared; frame CLEAN. -/
def Device.reportCleared (old : Nat) (d : Device) : Device :=
  d.report fun t => { t with unwritten := removeNum old t.unwritten }

/-- Exposure moved to newer since; frame DIRTY. -/
def Device.reportMoved (old new : Nat) (d : Device) : Device :=
  d.report fun t => { t with unwritten := insertAsc new (removeNum old t.unwritten) }

/-- Frame now HELD; exposure unchanged. -/
def Device.reportHeld (e : Nat) (d : Device) : Device :=
  d.report fun t => { t with unwritten := removeNum e t.unwritten, held := insertAsc e t.held }

/-- R59: the earliest lost number set, or lowered. -/
def lowerLost (e : Nat) : Option Nat → Option Nat
  | none => some e
  | some old => some (min old e)

/-- Exposure lost: it leaves its set, the earliest lost number is set or lowered, DATA_LOST is raised (R51, R59). -/
def Device.reportLost (e : Nat) (d : Device) : Device :=
  (d.raise .dataLost).report fun t =>
    { t with unwritten := removeNum e t.unwritten, held := removeNum e t.held,
             earliestLost := lowerLost e t.earliestLost }

/-! ### Commits counted by a WRITE -/

/-- R150: one more block of the WRITE is committed under number n. At its last commit a WRITE is answered GOOD, or, when
DURABLE, enters SETTLING and joins the flush list with mark n. A tag that names no open WRITE counts nothing (R55). The other
port's PENDING entries are tested for a WRITE that has left at the closing of the event (R111, log 32). -/
def Device.countCommit (p : Port) (tag : Tag) (n : Nat) (d : Device) : Device :=
  match (d.port p).commands[tag] with
  | some (.write w) =>
    let w' := { w with committed := w.committed + 1 }
    if w'.committed = w.count then
      if w.durable then
        (d.setCommand p tag (some (.write { w' with state := .settling }))).joinFlush
          { kind := .durableWrite, port := p, tag := tag, mark := n }
      else d.answer p tag .good w.count none .none
    else d.setCommand p tag (some (.write w'))
  | _ => d

end Sys2Proof.Machine
end

