-- ==== Sys2Proof/Machine/FrameOps.lean ====
section
/-!
DEFINITION. The frame store's operations (chapters 1 and 2): holds, commits, allocation and hand-out, fills, settlement,
release. A commit consumes one landing buffer and makes no frame available, so the chain of commits one hand-out starts is
bounded by the eight landing buffers (log 23).
-/

namespace Sys2Proof.Machine

/-! ### Holds (R9, R10) -/

/-- R9: the hold count rises by one, and a CLEAN frame moves to the tail of the clean list. -/
def Device.takeHold (f : FrameNo) (d : Device) : Device :=
  match (d.frame f).served with
  | some sv =>
    let d' := d.setServed f (some { sv with hold := sv.hold + 1 })
    match sv.state with
    | .clean => d'.cleanTail f
    | _ => d'
  | none => d

/-! ### The effect of a commit on its frame (section 2.2) -/

/-- R29 step 3: a FILL request not yet issued is withdrawn; answers the queue after, and whether the fill stays
outstanding. -/
def withdrawFill (f : FrameNo) (q : List FillReq) : List FillReq × Bool :=
  if q.any (fun r => decide (r.frame = f)) then (q.filter (fun r => decide (r.frame ≠ f)), false) else (q, true)

/-- Table 2-1: the frame after commit n of a block, by the state in which the commit finds it. -/
def Device.commitFrame (f : FrameNo) (block n : Nat) (bytes : Block) (d : Device) : Device :=
  let d := d.setBytes f bytes
  match (d.frame f).served with
  | none =>
    ((d.setServed f (some { block := block, hold := 0, state := .dirty n false })).enterDirty f).reportSet n
  | some sv =>
    match sv.state with
    | .clean =>
      (((d.setServed f (some { sv with state := .dirty n false })).leaveClean f).enterDirty f).reportSet n
    | .filling ws =>
      let (q, outstanding) := withdrawFill f d.channel.fillQueue
      let d := (d.setServed f (some { sv with state := .dirty n outstanding })).enterDirty f
      let d := ws.foldl (fun d w => d.tellWindow w (.ready f)) d
      let d : Device := { d with channel := { d.channel with fillQueue := q } }
      d.reportSet n
    | .dirty .. => d
    | .writing e newer ph => d.setServed f (some { sv with state := .writing e (some (newer.getD n)) ph })
    | .held _ => d

/-- R24 steps 1 to 4: the landing buffer's bytes are committed to a frame of its block. -/
def Device.commitInto (p : Port) (buf : BufNo) (f : FrameNo) (block : Nat) (d : Device) : Device :=
  match (d.port p).landing[buf] with
  | .occupied tag _ _ bytes =>
    let n := d.tracker.nextWrite
    let d := { d with tracker := { d.tracker with nextWrite := n + 1 } }
    ((d.commitFrame f block n bytes).onPort p (PortUnit.freeBuffer buf)).countCommit p tag n
  | _ => d

/-! ### Allocation (R12, R13) -/

/-- R12: the frame an allocation request is answered with; none sends the request to the frame-waiter queue. -/
def Device.allocChoice (d : Device) : Option FrameNo :=
  if d.frames.waiterQueue.isEmpty then d.frames.lowestFree.or d.evictionCandidate else none

/-- R13: a frame about to serve a new block is cleared to the FREE values and leaves the clean list. -/
def Device.evict (f : FrameNo) (d : Device) : Device := (d.setServed f none).leaveClean f

/-- The request joins the frame-waiter queue at the tail (R15). -/
def Device.joinWaiters (e : WaiterEntry) (d : Device) : Device :=
  d.setWaiterQueue (d.frames.waiterQueue ++ [e])

/-- A requester's entry leaves the frame-waiter queue (R17). -/
def Device.leaveWaiters (r : Requester) (d : Device) : Device :=
  d.setWaiterQueue (d.frames.waiterQueue.filter fun e => decide (e.requester ≠ r))

/-- A FILL request is made to the media channel (R33, R67). -/
def Device.requestFill (r : FillReq) (d : Device) : Device :=
  { d with channel := { d.channel with fillQueue := d.channel.fillQueue ++ [r] } }

/-- R12, R33: a cleared frame serves a window block's block: FILLING, held by it, with its fill requested. -/
def Device.fillFor (w : WindowRef) (block : Nat) (f : FrameNo) (d : Device) : Device :=
  let d := d.setServed f (some { block := block, hold := 1, state := .filling [w] })
  (d.requestFill { frame := f, block := block }).tellWindow w (.waitingFill f)

/-- R25: the head of a port's commit order is tried, and after each commit the next head; at most `fuel` commits. A head that
waits in the frame-waiter queue stalls the order. -/
def tryHead : Nat → Port → Device → Device
  | 0, _, d => d
  | n + 1, p, d =>
    match (d.port p).commitOrder with
    | [] => d
    | buf :: _ =>
      if d.frames.waiterQueue.any (fun e => decide (e.requester = .landing p buf)) then d
      else
        match (d.port p).landing[buf] with
        | .occupied _ _ block _ =>
          match d.frames.lookup block with
          | some f => tryHead n p (d.commitInto p buf f block)
          | none =>
            match d.allocChoice with
            | some f => tryHead n p ((d.evict f).commitInto p buf f block)
            | none => d.joinWaiters { requester := .landing p buf, block := block }
        | _ => d

/-- More than the landing buffers of both ports. -/
def commitFuel : Nat := 9

/-- R25: the head of a port's commit order is tried. -/
def Device.tryCommit (p : Port) (d : Device) : Device := tryHead commitFuel p d

/-! ### Hand-out (R6, R16) -/

/-- R6 for one entry: a window block takes a hold and waits for the fill or has valid data; a landing buffer's commit is
taken, and its port's next head tried (R24 step 5). That this try comes before the entries still to be given is the model's
choice (log 8): R6 and R24 do not order the two. -/
def Device.giveFrame (f : FrameNo) (d : Device) (e : WaiterEntry) : Device :=
  match e.requester with
  | .window w =>
    let d := d.takeHold f
    match (d.frame f).served with
    | some { block := b, hold := h, state := .filling ws } =>
      (d.setServed f (some { block := b, hold := h, state := .filling (ws ++ [w]) })).tellWindow w (.waitingFill f)
    | _ => d.tellWindow w (.ready f)
  | .landing p buf => (d.commitInto p buf f e.block).tryCommit p

/-- R6: every queue entry that names a block just indexed leaves the queue at once and is given the frame, in queue order; what
a given landing buffer brings about comes before the next entry's (log 8). -/
def Device.giveIndexed (f : FrameNo) (block : Nat) (d : Device) : Device :=
  let given := d.frames.waiterQueue.filter fun e => e.block == block
  given.foldl (fun d e => d.giveFrame f e) (d.setWaiterQueue (d.frames.waiterQueue.filter fun e => e.block != block))

/-- R16: an available frame, FREE or CLEAN with hold count 0, is handed to the head of the frame-waiter queue, evicted first
if it is CLEAN. With the queue empty it stays as it is. -/
def Device.handOut (f : FrameNo) (d : Device) : Device :=
  match d.frames.waiterQueue with
  | [] => d
  | e :: rest =>
    let d := (d.setWaiterQueue rest).evict f
    match e.requester with
    | .window w => (d.fillFor w e.block f).giveIndexed f e.block
    | .landing p buf => ((d.commitInto p buf f e.block).giveIndexed f e.block).tryCommit p

/-- R10: a window block drops its hold and leaves the frame's waiters; an unheld CLEAN frame becomes available. -/
def Device.dropHold (w : WindowRef) (f : FrameNo) (d : Device) : Device :=
  match (d.frame f).served with
  | some sv =>
    let st := match sv.state with
      | .filling ws => FrameState.filling (ws.erase w)
      | st => st
    let d := d.setServed f (some { sv with hold := sv.hold - 1, state := st })
    if (d.frame f).evictable then d.handOut f else d
  | none => d

/-- A window block that has left its window gives up its claim: its hold, or its place in the frame-waiter queue (R10, R17,
R145). -/
def Device.departs (p : Port) (wb : WindowBlock) (d : Device) : Device :=
  let w : WindowRef := { port := p, tag := wb.tag, index := wb.index }
  match wb.state with
  | .waitingFill f => d.dropHold w f
  | .ready f => d.dropHold w f
  | .waitingFrame => d.leaveWaiters (.window w)
  | .lookup => d
  | .failed _ => d

/-! ### Look-up of a window block (R5) -/

/-- R5: a window block's look-up is answered by the block index, or makes an allocation request (R12). -/
def Device.lookupWindow (w : WindowRef) (block : Nat) (d : Device) : Device :=
  match d.frames.lookup block with
  | some f =>
    let d := d.takeHold f
    match (d.frame f).served with
    | some { block := b, hold := h, state := .filling ws } =>
      (d.setServed f (some { block := b, hold := h, state := .filling (ws ++ [w]) })).tellWindow w (.waitingFill f)
    | _ => d.tellWindow w (.ready f)
  | none =>
    match d.allocChoice with
    | some f => (d.evict f).fillFor w block f
    | none => (d.joinWaiters { requester := .window w, block := block }).tellWindow w .waitingFrame

/-! ### Release to FREE (R18) -/

/-- R18 step 1 on one port: every window block that holds the frame becomes FAILED. -/
def PortUnit.failHolders (f : FrameNo) (kind : FailKind) (u : PortUnit) : PortUnit :=
  { u with window := u.window.map fun wb =>
      if wb.state = .ready f ∨ wb.state = .waitingFill f then { wb with state := .failed kind } else wb }

/-- The exposure a released frame's data had, if any. -/
def FrameState.exposure : FrameState → Option Nat
  | .filling _ => none
  | .clean => none
  | .dirty e _ => some e
  | .writing e _ _ => some e
  | .held e => some e

/-- R18: a frame is released to FREE: its holders fail, its data if any is reported lost, its record is cleared, and the frame
is handed out. -/
def Device.releaseFrame (f : FrameNo) (kind : FailKind) (d : Device) : Device :=
  match (d.frame f).served with
  | none => d
  | some sv =>
    let d := (d.onPort .a (PortUnit.failHolders f kind)).onPort .b (PortUnit.failHolders f kind)
    let d := ((d.setServed f none).leaveDirty f).leaveClean f
    let d := match sv.state.exposure with
      | some e => d.reportLost e
      | none => d
    d.handOut f

/-! ### Suspect blocks (R84) -/

/-- R84: a suspect block is reported to the pending list. -/
def Device.reportPending (block : Nat) (reason : Suspicion) (d : Device) : Device :=
  if d.remap.pendingList.any (fun b => b.block == block) then
    match reason with
    | .unreadable =>
      { d with remap := { d.remap with pendingList := d.remap.pendingList.map fun b =>
          if b.block = block then { b with reason := .unreadable } else b } }
    | .weak => d
  else if d.remap.pendingList.length < Config.pendingCap then
    { d with remap := { d.remap with
        pendingList := d.remap.pendingList ++ [PendingBlock.mk block reason] } }
  else d.raise .pendingFull

/-! ### Fill completion (section 2.3) -/

/-- The outcomes of a READ (R65). -/
inductive ReadOutcome where
  | good (bytes : Block)
  | corrected (bytes : Block)
  | uncorrectable
deriving DecidableEq, Repr

/-- The bytes a READ returned, if any. -/
def ReadOutcome.data : ReadOutcome → Option Block
  | .good bytes => some bytes
  | .corrected bytes => some bytes
  | .uncorrectable => none

/-- R38, R39, R40: what the outcome of a fill reports of the medium. -/
def Device.reportOutcome (block : Nat) (o : ReadOutcome) (d : Device) : Device :=
  match o with
  | .good _ => d
  | .corrected _ => d.reportPending block .weak
  | .uncorrectable => d.reportPending block .unreadable

/-- R37: valid bytes make a FILLING frame CLEAN, its waiters READY, and the frame available when no one holds it. -/
def Device.fillGood (f : FrameNo) (sv : Served) (ws : List WindowRef) (bytes : Block) (d : Device) : Device :=
  let d := ((d.setBytes f bytes).setServed f (some { sv with state := .clean })).cleanTail f
  let d := ws.foldl (fun d w => d.tellWindow w (.ready f)) d
  if sv.hold = 0 then d.handOut f else d

/-- R35 to R40: the completion of a fill at its frame (Table 2-2). -/
def Device.fillDone (f : FrameNo) (o : ReadOutcome) (d : Device) : Device :=
  match (d.frame f).served with
  | some sv =>
    match sv.state with
    | .filling ws =>
      match o.data with
      | some bytes => (d.fillGood f sv ws bytes).reportOutcome sv.block o
      | none => (d.releaseFrame f .mediumError).reportOutcome sv.block o
    | .dirty e true => (d.setServed f (some { sv with state := .dirty e false })).reportOutcome sv.block o
    | _ => d
  | none => d

/-! ### Settlement (R46) -/

/-- R46: the write of a WRITING frame settles: CLEAN, or DIRTY with its newer since as exposure. -/
def Device.settleFrame (f : FrameNo) (d : Device) : Device :=
  match (d.frame f).served with
  | some { block := b, hold := h, state := .writing e none _ } =>
    let d := ((d.setServed f (some { block := b, hold := h, state := .clean })).cleanTail f).reportCleared e
    if h = 0 then d.handOut f else d
  | some { block := b, hold := h, state := .writing e (some n) _ } =>
    ((d.setServed f (some { block := b, hold := h, state := .dirty n false })).enterDirty f).reportMoved e n
  | _ => d

/-! ### HELD frames (R90, R19) -/

/-- R90: a WRITING frame whose data cannot be placed becomes HELD, or is dropped when the cap is reached. -/
def Device.makeHeld (f : FrameNo) (d : Device) : Device :=
  match (d.frame f).served with
  | some { block := b, hold := h, state := .writing e _ _ } =>
    if d.frames.count .held < Config.heldCap then
      (d.setServed f (some { block := b, hold := h, state := .held e })).reportHeld e
    else d.releaseFrame f .dataLost
  | _ => d

/-- The HELD frames, in ascending frame number (R19). -/
def FrameStore.heldFrames (fs : FrameStore) : List FrameNo :=
  (List.finRange 1024).filter fun f => fs.frames[f].kind == .held

/-- R19: every frame HELD at this moment is released, in ascending frame number. -/
def Device.discardHeldFrames (d : Device) : Device :=
  d.frames.heldFrames.foldl (fun d f => d.releaseFrame f .dataLost) d

end Sys2Proof.Machine
end

