-- ==== Sys2Proof/Machine/ReadEngine.lean ====
section
/-!
DEFINITION. The read engine of a port: the read window and its refilling, the forming of DATA, the answer of a READ at a
FAILED head (section 8.4).
-/

namespace Sys2Proof.Machine

/-- The window blocks of one READ (R145). -/
def PortUnit.inWindow (t : Tag) (u : PortUnit) : Nat := u.window.countP fun wb => decide (wb.tag = t)

/-- The next unsent block beyond the window, in read-list order: its tag, block index and logical block (R145). -/
def PortUnit.nextBlock (u : PortUnit) : Option (Tag × Nat × Nat) :=
  u.readList.findSome? fun t =>
    match u.commands[t] with
    | some (.read r) =>
      let i := r.sent + u.inWindow t
      if i < r.count then some (t, i, r.start + i) else none
    | _ => none

/-- R144: a READ whose first block enters the window is MOVING. -/
def PortUnit.markMoving (t : Tag) (u : PortUnit) : PortUnit :=
  match u.commands[t] with
  | some (.read r) => u.setCommand t (some (.read { r with state := .moving }))
  | _ => u

/-- R145: blocks enter the window at its tail, one after another, each looked up as it enters. -/
def refillLoop : Nat → Port → Device → Device
  | 0, _, d => d
  | n + 1, p, d =>
    if (d.port p).window.length < Config.windowBlocks then
      match (d.port p).nextBlock with
      | some (t, i, block) =>
        let d := d.onPort p fun u =>
          { u.markMoving t with window := u.window ++ [WindowBlock.mk t i block .lookup] }
        refillLoop n p (d.lookupWindow { port := p, tag := t, index := i } block)
      | none => d
    else d

/-- R145: the window is refilled. -/
def Device.refill (p : Port) (d : Device) : Device := refillLoop Config.windowBlocks p d

/-- R145: window blocks that meet a test leave the window in window order, head first, each giving up its claim in turn. -/
def leaveWindow (leaves : WindowBlock → Bool) : Nat → Port → Device → Device
  | 0, _, d => d
  | n + 1, p, d =>
    match (d.port p).window.find? leaves with
    | some wb =>
      leaveWindow leaves n p ((d.onPort p fun u => { u with window := u.window.erase wb }).departs p wb)
    | none => d

/-- The window blocks of one READ leave the window (R148, R155). -/
def Device.leaveWindowTag (p : Port) (t : Tag) (d : Device) : Device :=
  leaveWindow (fun wb => decide (wb.tag = t)) (d.port p).window.length p d

/-- Every window block leaves the window (R136, R158). -/
def Device.leaveWindowAll (p : Port) (d : Device) : Device :=
  leaveWindow (fun _ => true) (d.port p).window.length p d

/-- A READ is answered and leaves the read list (R144). -/
def Device.answerRead (p : Port) (t : Tag) (st : Status) (moved : Nat) (failing : Option Nat) (d : Device) : Device :=
  (d.answer p t st moved failing .none).onPort p fun u => { u with readList := u.readList.erase t }

/-- The blocks sent of an open READ. -/
def PortUnit.blocksSent (t : Tag) (u : PortUnit) : Nat :=
  match u.commands[t] with
  | some (.read r) => r.sent
  | _ => 0

/-- R147 step 4: the READ is answered GOOD at its last block. -/
def Device.finishRead (p : Port) (t : Tag) (d : Device) : Device :=
  match (d.port p).commands[t] with
  | some (.read r) => if r.sent = r.count then d.answerRead p t .good r.count none else d
  | _ => d

/-- R147 steps 1 to 3 on the port: DATA queued, one read credit spent, the head out of the window, blocks sent counted. -/
def PortUnit.formData (wb : WindowBlock) (bytes : Block) (u : PortUnit) : PortUnit :=
  let u := u.enqueue (.data wb.tag wb.index bytes)
  let u := { u with readCredits := u.readCredits - 1, window := u.window.tail }
  match u.commands[wb.tag] with
  | some (.read r) => u.setCommand wb.tag (some (.read { r with sent := r.sent + 1 }))
  | _ => u

/-- R147: DATA is formed from the READY head. -/
def Device.formData (p : Port) (wb : WindowBlock) (f : FrameNo) (d : Device) : Device :=
  let d := d.onPort p (PortUnit.formData wb (d.frame f).bytes)
  (((d.dropHold { port := p, tag := wb.tag, index := wb.index } f).finishRead p wb.tag).refill p)

/-- The status of a READ whose block failed (R148). -/
def FailKind.status : FailKind → Status
  | .mediumError => .mediumError
  | .dataLost => .incomplete

/-- R148: a FAILED head ends its READ. -/
def Device.failRead (p : Port) (wb : WindowBlock) (kind : FailKind) (d : Device) : Device :=
  let moved := (d.port p).blocksSent wb.tag
  let d := d.answerRead p wb.tag kind.status moved (some wb.index)
  (d.leaveWindowTag p wb.tag).refill p

/-- The read engine's next act on a port, if it has one: it runs in SERVING, forms DATA from a READY head while credits
remain, and ends a READ at a FAILED head (R147, R148), in a session. A port whose order has overflowed acts no more (R127). -/
def Device.engineStep (p : Port) (d : Device) : Option Device :=
  if d.mode.mode = .serving ∧ (d.port p).attached ∧ !(d.port p).overflowed then
    match (d.port p).window with
    | wb :: _ =>
      match wb.state with
      | .ready f => if 0 < (d.port p).readCredits then some (d.formData p wb f) else none
      | .failed kind => some (d.failRead p wb kind)
      | _ => none
    | [] => none
  else none

/-- The read engine of a port runs until its head stops it; at most `fuel` acts (R147). -/
def engineLoop : Nat → Port → Device → Device
  | 0, _, d => d
  | n + 1, p, d =>
    match d.engineStep p with
    | some d' => engineLoop n p d'
    | none => d

end Sys2Proof.Machine
end

