-- ==== Sys2Proof/Machine/Sessions.lean ====
section
/-!
DEFINITION. Sessions (chapter 7): their opening and end, link loss, protocol violations, the grant of write credits, and what
the port units do at the closing of an event.
-/

namespace Sys2Proof.Machine

/-! ### Session open (R124) -/

/-- R122: the next session number: one more, or 1 after 65535. -/
def nextSession (n : Nat) : Nat := if n = 65535 then 1 else n + 1

/-- R122, R124: a port takes the next session number, becomes ATTACHED and queues its WELCOME. -/
def PortUnit.openWith (capacity : Nat) (lock : Option LockReason) (partner : Bool) (u : PortUnit) : PortUnit :=
  let n := nextSession u.lastSession
  { u with session := .attached, lastSession := n }.enqueue (.welcome n capacity lock partner)

/-- R124 for one of the ports whose sessions open in the event: `before` is the part before it. Its WELCOME is followed by
MEDIA_FAULT in FAULTED; a port that was ATTACHED before the event is told of its new partner. -/
def Device.openOne (before : Device) (ports : List Port) (d : Device) (p : Port) : Device :=
  let partner := (before.port p.other).attached || ports.contains p.other
  let d := d.onPort p (PortUnit.openWith d.channel.logicalCapacity d.remap.lock partner)
  let d := if d.mode.mode = .faulted then d.notify p .mediaFault else d
  if (before.port p.other).attached && !ports.contains p.other then d.notify p.other .partnerAttached else d

/-- R124: the sessions of the named ports open in one event. -/
def Device.openSessions (ports : List Port) (d : Device) : Device := ports.foldl (Device.openOne d ports) d

/-- The port holds a HELLO (R122). -/
def PortUnit.waiting (u : PortUnit) : Bool :=
  match u.session with
  | .waiting _ => true
  | _ => false

/-- The ports that hold a HELLO. -/
def Device.waitingPorts (d : Device) : List Port := [Port.a, Port.b].filter fun p => (d.port p).waiting

/-! ### Session end (R136) -/

/-- R136 step 1: the port leaves ATTACHED, for LINKED with its BYE if the cause has one, or for DOWN with its order and its
link's waiting messages discarded (R120, R121, R128). -/
def PortUnit.leave (linkLost : Bool) (bye : Option ByeReason) (u : PortUnit) : PortUnit :=
  if linkLost then { u with linkUp := false, session := .down, outbound := [], backlog := [] }
  else
    let u := { u with session := .linked }
    match bye with
    | some r => u.enqueue (.bye r)
    | none => u

/-- R136 step 2: every open command vanishes unanswered; the read list and the write list are emptied. -/
def PortUnit.dropCommands (u : PortUnit) : PortUnit :=
  { u with commands := Vector.replicate 16 none, readList := [], writeList := [] }

/-- R136 step 3: every landing buffer becomes FREE, the commit order is empty, no credit is outstanding. -/
def PortUnit.dropBuffers (u : PortUnit) : PortUnit :=
  { u with landing := Vector.replicate 4 .free, commitOrder := [], readCredits := 0 }

/-- A frame-waiter entry belongs to a port (R15). -/
def WaiterEntry.ofPort (p : Port) (e : WaiterEntry) : Bool :=
  match e.requester with
  | .window w => decide (w.port = p)
  | .landing q _ => decide (q = p)

/-- A frame-waiter entry is a landing buffer's of a port. -/
def WaiterEntry.landingOf (p : Port) (e : WaiterEntry) : Bool :=
  match e.requester with
  | .window _ => false
  | .landing q _ => decide (q = p)

/-- Entries that meet a test leave the frame-waiter queue (R17). -/
def Device.dropWaiters (leaves : WaiterEntry → Bool) (d : Device) : Device :=
  d.setWaiterQueue (d.frames.waiterQueue.filter fun e => !leaves e)

/-- A step of R136 taken for every port named before the next step for either. -/
def Device.eachPort (ports : List Port) (f : Port → Device → Device) (d : Device) : Device :=
  ports.foldl (fun d p => f p d) d

/-- R136 step 3 for one port, with its landing buffers out of the frame-waiter queue (R17). -/
def Device.clearBuffers (p : Port) (d : Device) : Device :=
  (d.dropWaiters (WaiterEntry.landingOf p)).onPort p PortUnit.dropBuffers

/-- R136 steps 1 to 3. When both sessions end, every frame-waiter entry of both leaves the queue before any hold is dropped. -/
def Device.clearPorts (ports : List Port) (linkLost : Bool) (bye : Option ByeReason) (d : Device) : Device :=
  let d := d.eachPort ports fun p => Device.onPort p (PortUnit.leave linkLost bye)
  let d := d.eachPort ports fun p => Device.onPort p PortUnit.dropCommands
  let d := if ports.length = 1 then d else d.dropWaiters fun e => ports.any fun p => e.ofPort p
  (d.eachPort ports Device.leaveWindowAll).eachPort ports Device.clearBuffers

/-- R136 step 6 for one port. -/
def Device.tellPartner (ports : List Port) (p : Port) (d : Device) : Device :=
  if ports.contains p.other then d else d.notify p.other .partnerDetached

/-- R136: the sessions of the named ports end in one event; each step is taken for every port before the next. -/
def Device.endSessions (ports : List Port) (linkLost : Bool) (bye : Option ByeReason) (d : Device) : Device :=
  let d := (d.clearPorts ports linkLost bye).dropFlush fun e => ports.contains e.port
  let d := { d with reservations := d.reservations.freeHeldBy ports }
  let d := d.eachPort ports fun p => Device.testPending p.other
  let d := d.eachPort ports (Device.tellPartner ports)
  d.eachPort ports fun p => Device.raise (.ended p)

/-- R121: link down, a failed check or an overflow. -/
def Device.linkLoss (p : Port) (d : Device) : Device :=
  match (d.port p).session with
  | .attached => d.endSessions [p] true none
  | .down => d.onPort p fun u => { u with linkUp := false }
  | _ => d.onPort p (PortUnit.leave true none)

/-- R131: a message that breaks the protocol, by session state. -/
def Device.violation (p : Port) (d : Device) : Device :=
  match (d.port p).session with
  | .down => d
  | .attached => d.endSessions [p] false (some .violation)
  | _ => d.onPort p (PortUnit.leave false (some .violation))

/-! ### Write credits (R130) -/

/-- R130: the number of credits a grant gives: the smaller of the FREE buffers and the excess of blocks still to be received
over the credits outstanding. -/
def PortUnit.grantSize (u : PortUnit) : Nat := min u.freeBuffers.length (u.toReceive - u.writeCredits)

/-- R130: the lowest FREE buffers become PROMISED and one CREDIT is queued. -/
def PortUnit.grant (u : PortUnit) : PortUnit :=
  let k := u.grantSize
  if k = 0 then u
  else ((u.freeBuffers.take k).foldl (fun u b => u.setLanding b .promised) u).enqueue (.credit k)

/-- A port's grant of write credits. -/
def Device.grantCredits (p : Port) (d : Device) : Device := d.onPort p PortUnit.grant

/-! ### The closing of an event on the ports -/

/-- What a read engine still has to do in this event (R147); Port A is asked before Port B (log 6). -/
def Device.portStep (d : Device) : Option Device :=
  match d.engineStep .a with
  | some d' => some d'
  | none => d.engineStep .b

/-- The read engines act until neither has anything to do; at most `fuel` acts. -/
def settleLoop : Nat → Device → Device
  | 0, d => d
  | n + 1, d =>
    match d.portStep with
    | some d' => settleLoop n d'
    | none => d

/-- Each act of a read engine spends a read credit or ends a READ (log 23). -/
def Device.settleFuel (d : Device) : Nat :=
  d.portA.readCredits + d.portB.readCredits + d.portA.readList.length + d.portB.readList.length + 64

/-- The read engines act until neither has anything to do. -/
def Device.settlePorts (d : Device) : Device := settleLoop d.settleFuel d

/-- The port's order overflows in this event: a message was queued while 256 stood, or 256 stand and the CREDIT due at the end
of the event would be (R127, R130). -/
def PortUnit.overflows (u : PortUnit) : Bool :=
  u.overflowed || (decide (Config.outboundCap ≤ u.outbound.length) && decide (u.grantSize ≠ 0))

/-- The port's order overflows in this event, with the RESPONSEs of the RESERVEs that the end of the event grants (R111). -/
def Device.overflows (p : Port) (d : Device) : Bool := ((d.testPending p).port p).overflows

/-- R127, R136: the links of the ports whose orders overflow are taken DOWN. Two sessions that end so end in one event, each step
for both ports before the next for either. An overflow that this end causes in its turn is a second end behind it: the model's
choice, log 7. -/
def Device.overflowStep (d : Device) : Option Device :=
  match d.overflows .a, d.overflows .b with
  | true, true =>
    if d.portA.attached && d.portB.attached then some (d.endSessions [.a, .b] true none)
    else some ((d.linkLoss .a).linkLoss .b)
  | true, false => some (d.linkLoss .a)
  | false, true => some (d.linkLoss .b)
  | false, false => none

end Sys2Proof.Machine
end

