-- ==== Sys2Proof/Machine/Mode.lean ====
section
/-!
DEFINITION. The mode controller (chapter 9): start-up, the entries to SERVING and FAULTED, the drain test and the clearing of
a soft restart; with the media channel's placing of an operation in a slot and its declaration of medium lost.
-/

namespace Sys2Proof.Machine

/-! ### Slots (R68) -/

/-- An operation is placed in a slot: the slot's issue count rises by one, wrapping, and the operation is sent (R64, R68). -/
def Channel.place (i : SlotNo) (op : Operation) (c : Channel) : Channel :=
  { c with slots := c.slots.set i.val (some op) i.isLt,
           issueCounts := c.issueCounts.set i.val (c.issueCounts[i] + 1) i.isLt }

/-- A slot is emptied; its issue count is kept (R68). -/
def Channel.emptySlot (i : SlotNo) (c : Channel) : Channel := { c with slots := c.slots.set i.val none i.isLt }

/-- No slot holds an operation. -/
def Channel.allEmpty (c : Channel) : Bool := c.slots.toList.all fun s => s.isNone

/-- The lowest-numbered empty slot (R70, R77). -/
def Channel.lowestEmpty (c : Channel) : Option SlotNo :=
  (List.finRange 4).find? fun i => decide (c.slots[i] = none)

/-- An operation with its timer started (R68). -/
def Operation.fresh (w : Work) (phys : Option Nat) (reissue : Bool) : Operation :=
  { work := w, phys := phys, reissue := reissue,
    timerMs := match w with
      | .reset => Config.resetTimeoutMs
      | _ => Config.opTimeoutMs }

/-! ### Start-up (R160, R161) -/

/-- R73: a request to identify places an IDENTIFY in slot 0; a second one while it is in flight is not taken. -/
def Channel.identify (c : Channel) : Channel :=
  if c.state = .idle ∧ c.slots[(0 : SlotNo)] = none then c.place 0 (Operation.fresh .identify none false) else c

/-- R161: the start-up sequence begins. -/
def Device.startUp (d : Device) : Device :=
  { d with channel := d.channel.identify, mode := { d.mode with mode := .starting, step := .identifying } }

/-! ### The entry to SERVING (R162) -/

/-- R162 step 3: a restart in progress is done. -/
def Device.restartDone (d : Device) : Device :=
  if d.mode.restart then ({ d with mode := { d.mode with restart := false } } : Device).raise .restartDone else d

/-- R162: the device enters SERVING, held HELLOs open their sessions in one event, a restart is reported done. -/
def Device.enterServing (d : Device) : Device :=
  let d := { d with mode := { d.mode with mode := .serving, step := .none, cause := none } }
  (d.openSessions d.waitingPorts).restartDone

/-- R161, R162: the report that the table is loaded is acted on in STARTING at LOADING only. -/
def Device.tableLoaded (d : Device) : Device :=
  if d.mode.mode = .starting ∧ d.mode.step = .loading then d.enterServing else d

/-! ### The entry to FAULTED (R158, R163) -/

/-- R158: the landing buffers of both ports leave the frame-waiter queue before the first hold is dropped, so that no hand-out of the
entry commits one: matched before the entry and not yet committed, it is discarded with its WRITE (R17, R26; log 36). -/
def Device.withdrawBuffers (d : Device) : Device := d.dropWaiters fun e => e.landingOf .a || e.landingOf .b

/-- R158 step 1 for one READ: its window blocks leave and it is answered NOT_SERVING with its blocks sent. -/
def Device.faultRead (p : Port) (t : Tag) (d : Device) : Device :=
  match (d.port p).commands[t] with
  | some (.read r) => (d.leaveWindowTag p t).answerRead p t .notServing r.sent none
  | _ => d

/-- The landing buffers of a port that carry a tag and are not committed (R156, R26). -/
def PortUnit.buffersOf (t : Tag) (u : PortUnit) : List BufNo :=
  u.commitOrder.filter fun b =>
    match u.landing[b] with
    | .occupied tag .. => decide (tag = t)
    | _ => false

/-- R26: a landing buffer is discarded: it becomes FREE without a commit and leaves the frame-waiter queue. -/
def Device.discardBuffer (p : Port) (b : BufNo) (d : Device) : Device :=
  (d.leaveWaiters (.landing p b)).onPort p (PortUnit.freeBuffer b)

/-- R26: the uncommitted buffers of one WRITE are discarded, all before any new head is tried. -/
def Device.discardBuffers (p : Port) (t : Tag) (d : Device) : Device :=
  ((d.port p).buffersOf t).foldl (fun d b => d.discardBuffer p b) d

/-- The head of the write list becomes MOVING (R149). -/
def PortUnit.promoteHead (u : PortUnit) : PortUnit :=
  match u.writeList with
  | [] => u
  | t :: _ =>
    match u.commands[t] with
    | some (.write w) => u.setCommand t (some (.write { w with state := .moving }))
    | _ => u

/-- A WRITE leaves the write list; the next becomes the head (R149). -/
def PortUnit.leaveWriteList (t : Tag) (u : PortUnit) : PortUnit :=
  if u.writeList.contains t then { u with writeList := u.writeList.erase t }.promoteHead else u

/-- The tag of a landing buffer's DATA, if it holds one. -/
def LandingBuffer.tag : LandingBuffer → Option Tag
  | .occupied tag .. => some tag
  | _ => none

/-- The open WRITEs of a port not in the flush list, in order of acceptance: those whose blocks are all received, in the order
of their buffers, then the write list (R158). -/
def PortUnit.writesInOrder (u : PortUnit) : List Tag :=
  let received := (u.commitOrder.filterMap fun b => u.landing[b].tag).eraseDups
  (received.filter fun t => !u.writeList.contains t) ++ u.writeList

/-- R158 step 2 for one WRITE: its uncommitted buffers are discarded and it is answered NOT_SERVING with its blocks
committed. -/
def Device.faultWrite (p : Port) (t : Tag) (d : Device) : Device :=
  match (d.port p).commands[t] with
  | some (.write w) =>
    ((d.discardBuffers p t).onPort p fun u => { u with writeList := u.writeList.erase t }).answer
      p t .notServing w.committed none .none
  | _ => d

/-- R158 steps 1 and 2 on one port: READs in read-list order, then WRITEs in order of acceptance. -/
def Device.faultPort (p : Port) (d : Device) : Device :=
  let d := (d.port p).readList.foldl (fun d t => d.faultRead p t) d
  (d.port p).writesInOrder.foldl (fun d t => d.faultWrite p t) d

/-- R62 for one entry: answered NOT_SERVING, a FLUSH with 0 blocks and a DURABLE WRITE with its count. -/
def Device.faultFlush (e : FlushEntry) (d : Device) : Device :=
  match (d.port e.port).commands[e.tag] with
  | some .flush => d.answer e.port e.tag .notServing 0 none .none
  | some (.write w) => d.answer e.port e.tag .notServing w.count none .none
  | _ => d

/-- R158: every open command of both ports is answered NOT_SERVING, and no commit is taken; Port A's READs and WRITEs before Port B's
(log 19), then the flush list in list order (R62), then the PENDING entries in ascending id order (R112). -/
def Device.faultAnswers (d : Device) : Device :=
  let d := (d.withdrawBuffers.faultPort .a).faultPort .b
  let d := d.tracker.flushList.foldl (fun d e => d.faultFlush e) (d.setFlushList [])
  d.faultPending

/-- R163: the device enters FAULTED with a cause. From SERVING the open commands are answered and MEDIA_FAULT follows on each
ATTACHED port; from STARTING or DRAINING the held HELLOs open sessions; in FAULTED only the cause becomes the new one. -/
def Device.enterFaulted (cause : FaultCause) (d : Device) : Device :=
  let set (d : Device) : Device :=
    { d with mode := { mode := .faulted, step := .none, restart := false, cause := some cause } }
  match d.mode.mode with
  | .serving => (set d).faultAnswers.notifyBoth .mediaFault
  | .faulted => { d with mode := { d.mode with cause := some cause } }
  | .starting => (set d).openSessions (set d).waitingPorts
  | .draining => (set d).openSessions (set d).waitingPorts

/-- R161, R163: the report of a capacity out of range is acted on in STARTING at IDENTIFYING only; the mode controller raises
MEDIA_FAULT for it. -/
def Device.capacityOutOfRange (d : Device) : Device :=
  if d.mode.mode = .starting ∧ d.mode.step = .identifying then (d.raise .mediaFault).enterFaulted .capacity else d

/-- R162, R163: the report of a table unreadable is acted on in STARTING at LOADING only; the mode controller raises
MEDIA_FAULT for it. -/
def Device.tableUnreadable (d : Device) : Device :=
  if d.mode.mode = .starting ∧ d.mode.step = .loading then (d.raise .mediaFault).enterFaulted .table else d

/-- R78: the channel declares the medium lost; a load in progress ends there (R99). The device enters FAULTED, whatever its
mode (R161, R163). -/
def Device.mediumLost (d : Device) : Device :=
  let d := { d with channel := { d.channel with slots := Vector.replicate 4 none, retrySet := [], state := .lost },
                    remap := { d.remap with load := none } }
  (d.raise .mediaFault).enterFaulted .medium

/-! ### The soft restart (R165 to R168) -/

/-- Some frame holds committed data not on the medium (R22). -/
def FrameStore.holdsUnwritten (fs : FrameStore) : Bool :=
  fs.frames.toList.any fun fr => fr.kind == .dirty || fr.kind == .writing || fr.kind == .held

/-- R22: every frame becomes FREE, its bytes kept, and the collections are empty (Table 1-4). -/
def FrameStore.cleared (fs : FrameStore) : FrameStore :=
  { frames := vecMap (fun fr => { fr with served := none }) fs.frames, cleanList := [], dirtyQueue := [],
    waiterQueue := [] }

/-- R81: the channel returns to Table 4-2, its issue counts kept. -/
def Channel.cleared (c : Channel) : Channel := { Channel.reset with issueCounts := c.issueCounts }

/-- R168: the clearing of a soft restart, and the start-up that follows. -/
def Device.clearing (d : Device) : Device :=
  let d := if d.frames.holdsUnwritten then d.raise .dataLost else d
  let d : Device := { d with frames := d.frames.cleared, tracker := Tracker.reset, remap := Remap.reset,
                             channel := d.channel.cleared, mode := { d.mode with cause := none } }
  d.startUp

/-- R167: the drain is complete. -/
def Device.drained (d : Device) : Bool :=
  d.frames.quiet && d.channel.allEmpty && d.channel.retrySet.isEmpty && d.channel.tableQueue.isEmpty

/-- R167, R168: the drain test in DRAINING, and the clearing when the drain is complete. -/
def Device.drainTest (d : Device) : Device :=
  if d.mode.mode = .draining ∧ d.drained then d.clearing else d

/-- The ports that have a session. -/
def Device.attachedPorts (d : Device) : List Port := [Port.a, Port.b].filter fun p => (d.port p).attached

/-- R165 steps 2 and 3: both ports' sessions end with BYE (RESTART), and every reservation entry of both is freed. -/
def Device.restartSessions (d : Device) : Device :=
  let d := d.endSessions d.attachedPorts false (some .restart)
  { d with reservations := d.reservations.freeHeldBy [.a, .b] }

/-- R165, R166: a soft restart, by the mode in which the request is taken. -/
def Device.softRestart (d : Device) : Device :=
  match d.mode.mode with
  | .serving => ({ d with mode := { d.mode with restart := true, mode := .draining } } : Device).restartSessions.drainTest
  | .starting =>
    ({ d with mode := { d.mode with restart := true, mode := .draining, step := .none } } : Device).drainTest
  | .draining => d
  | .faulted => ({ d with mode := { d.mode with restart := true } } : Device).restartSessions.clearing

end Sys2Proof.Machine
end

