-- ==== Sys2Proof/Machine/RemapOps.lean ====
section
/-!
DEFINITION. The remap unit's operations (chapter 5): write lock, take-in, spare writes, persist, flip and loss, table load and
format.
-/

namespace Sys2Proof.Machine

/-! ### Write lock (R91, R92) -/

/-- The write lock is entered or its reason changes: WRITE_LOCKED is raised and each ATTACHED port is told. -/
def Device.lockWith (reason : LockReason) (d : Device) : Device :=
  (({ d with remap := { d.remap with lock := some reason } } : Device).raise .writeLocked).notifyBoth
    (.writeLocked reason)

/-- R91: NO_SPARES is entered when the lock is clear; a lock already set stays as it is. -/
def Device.enterNoSpares (d : Device) : Device :=
  match d.remap.lock with
  | none => d.lockWith .noSpares
  | some _ => d

/-- R92: TABLE_LOST is entered, from a clear lock or from NO_SPARES. -/
def Device.enterTableLost (d : Device) : Device :=
  match d.remap.lock with
  | some .tableLost => d
  | _ => d.lockWith .tableLost

/-! ### Records, claims and requests (R85, R86) -/

/-- R85: the spare a claim would take: the lowest FREE unclaimed one, and none while the reason is TABLE_LOST. -/
def Remap.newSpare (r : Remap) : Option SpareNo :=
  if r.lock = some .tableLost then none else r.unclaimed.head?

/-- The work list without a frame's record. -/
def Remap.endRecord (f : FrameNo) (r : Remap) : Remap :=
  { r with workList := r.workList.filter fun w => decide (w.frame ≠ f) }

/-- A remap record's claim and target replaced (R85). -/
def Remap.setRecord (f : FrameNo) (claim : Option SpareNo) (target : Target) (r : Remap) : Remap :=
  { r with workList := r.workList.map fun w =>
      if w.frame = f then { w with claim := claim, target := target } else w }

/-- The remap unit changed. -/
def Device.onRemap (f : Remap → Remap) (d : Device) : Device := { d with remap := f d.remap }

/-- A SPARE request is made to the media channel (R67, R86, R89). -/
def Device.requestSpare (q : SpareReq) (d : Device) : Device :=
  { d with channel := { d.channel with spareQueue := d.channel.spareQueue ++ [q] } }

/-- TABLE requests are made to the media channel (R67). -/
def Device.requestTable (qs : List TableReq) (d : Device) : Device :=
  { d with channel := { d.channel with tableQueue := d.channel.tableQueue ++ qs } }

/-- R85, R88: the road of a record for which no new spare can be had: NO_SPARES when no lock is set (log 14), then the write
in place on the present spare, or HELD. -/
def Device.withoutSpare (w : RemapRecord) (d : Device) : Device :=
  let d := d.enterNoSpares
  match w.origin, d.remap.entryOf w.block with
  | .pending, some e =>
    (d.onRemap (Remap.setRecord w.frame none .inPlace)).requestSpare
      { frame := w.frame, block := w.block, spare := e.spare, image := w.image }
  | _, _ => (d.onRemap (Remap.endRecord w.frame)).makeHeld w.frame

/-- R85, R86, R88: a record's next road: a new spare claimed and its write requested, or none can be had. -/
def Device.placeRecord (w : RemapRecord) (d : Device) : Device :=
  match d.remap.newSpare with
  | some s =>
    (d.onRemap (Remap.setRecord w.frame (some s) .newSpare)).requestSpare
      { frame := w.frame, block := w.block, spare := s, image := w.image }
  | none => d.withoutSpare w

/-- R85: a frame handed over in phase SPARE opens a remap record and takes its road. -/
def Device.takeIn (f : FrameNo) (block : Nat) (origin : Origin) (image : Block) (d : Device) : Device :=
  let w : RemapRecord :=
    { frame := f, block := block, origin := origin, image := image, claim := none, target := .newSpare }
  (d.onRemap fun r => { r with workList := r.workList ++ [w] }).placeRecord w

/-- R48: the WRITE_FAULT of a HOME write hands the frame over in phase SPARE, with the image taken at issue. -/
def Device.handOver (f : FrameNo) (image : Block) (d : Device) : Device :=
  match (d.frame f).served with
  | some { block := b, hold := h, state := .writing e newer _ } =>
    (d.setServed f (some { block := b, hold := h, state := .writing e newer .spare })).takeIn f b .fault image
  | _ => d

/-! ### The persist (R93 to R97) -/

/-- The copy a persist writes: the inactive one (R94). -/
def Remap.inactiveCopy (r : Remap) : Copy :=
  match r.activeCopy with
  | some c => c.other
  | none => .a

/-- A spare is RETIRED. -/
def Remap.isRetired (r : Remap) (s : Nat) : Bool :=
  match r.spares with
  | some v => decide (v.toList.getD s .free = .retired)
  | none => false

/-- R93: the entries an image records: those ACTIVE and those of the batch taken into flight. -/
def Remap.imageEntries (r : Remap) (batch : List Nat) : List RemapEntry :=
  r.table.filter fun e => decide (e.state = .active) || batch.contains e.block

/-- The five TABLE WRITE requests of an image, in block order (R94, R184). -/
def imageRequests (copy : Copy) (blocks : List Block) : List TableReq :=
  (blocks.zipIdx).map fun b => { phys := copy.base + b.2, image := some b.1 }

/-- The degraded flag of a copy set or cleared (R96, R97, R101). -/
def Remap.setDegraded (c : Copy) (v : Bool) (r : Remap) : Remap :=
  match c with
  | .a => { r with degradedA := v }
  | .b => { r with degradedB := v }

/-- R97 step 5 for one entry: its frame is made HELD or dropped, and its record ends. -/
def Device.holdEntry (block : Nat) (d : Device) : Device :=
  match d.remap.workList.find? (fun w => w.block == block) with
  | some w => (d.onRemap (Remap.endRecord w.frame)).makeHeld w.frame
  | none => d

/-- R97 step 3 onward: IDLE, TABLE_LOST, the frames of the batch in flight and then of the persist batch HELD, both batches
emptied. -/
def Device.loseBatches (d : Device) : Device :=
  let d := (d.onRemap fun r => { r with persist := .idle }).enterTableLost
  let d := (d.remap.inFlight ++ d.remap.batch).foldl (fun d b => d.holdEntry b) d
  d.onRemap fun r => { r with inFlight := [], batch := [] }

/-- The TABLE WRITE requests not yet issued are withdrawn (R97 step 2, R102). -/
def Device.withdrawWrites (d : Device) : Device :=
  { d with channel := { d.channel with tableQueue := d.channel.tableQueue.filter fun q => q.image.isNone } }

/-- R97: persist loss. -/
def Device.persistLoss (copy : Copy) (d : Device) : Device :=
  ((d.onRemap (Remap.setDegraded copy true)).raise .tableDegraded).withdrawWrites.loseBatches

/-- R94: a persist begins when the batch is not empty, the persist state is IDLE and the reason is not TABLE_LOST; at the last
generation the batch is treated as at persist loss. -/
def Device.beginPersist (d : Device) : Device :=
  if d.remap.batch ≠ [] ∧ d.remap.persist = .idle ∧ d.remap.lock ≠ some .tableLost then
    if d.remap.generation = Config.lastGeneration then d.loseBatches
    else
      let batch := d.remap.batch
      let copy := d.remap.inactiveCopy
      let generation := d.remap.generation + 1
      let image := buildImage generation (d.remap.imageEntries batch) d.remap.isRetired
      (d.onRemap fun r =>
        { r with inFlight := batch, batch := [],
                 persist := .writingImage copy generation (Vector.replicate 5 .awaiting) false }).requestTable
        (imageRequests copy (imageBlocks image))
  else d

/-! ### Load (R99 to R103) -/

/-- R99: the load begins: ten TABLE READ requests, copy A's image blocks and then copy B's. -/
def Device.beginLoad (d : Device) : Device :=
  (d.onRemap fun r => { r with load := some [] }).requestTable
    (((List.range 5).map fun i => { phys := Copy.base .a + i, image := none })
      ++ (List.range 5).map fun i => { phys := Copy.base .b + i, image := none })

/-- R103: the state at the end of a load, from the active image's entries and RETIRED spares; then the mode controller is
told. -/
def Device.loadEnd (entries : List RemapEntry) (retired : Nat → Bool) (d : Device) : Device :=
  let spareOf (s : Nat) : SpareState :=
    if entries.any (fun e => e.spare.val == s) then .inUse else if retired s then .retired else .free
  let d := d.onRemap fun r =>
    { r with table := entries, spares := some ⟨⟨(List.range 256).map spareOf⟩, by simp⟩, pendingList := [], workList := [],
             batch := [], inFlight := [], persist := .idle, load := none, lock := none }
  let d := if d.remap.noneFree then d.enterNoSpares else d
  d.tableLoaded

/-- R101: a chosen copy is loaded: the active generation is raised to the other's where that is known and higher; the other
copy is degraded, with TABLE_DEGRADED, unless it is valid. -/
def Device.loadCopy (copy : Copy) (chosen other : CopyFinding) (d : Device) : Device :=
  match chosen.valid with
  | some (image, entries) =>
    let generation := max (chosen.generation.getD 0) (other.generation.getD 0)
    let d := d.onRemap fun r =>
      (({ r with activeCopy := some copy, generation := generation } : Remap).setDegraded copy false).setDegraded
        copy.other other.valid.isNone
    let d := if other.valid.isNone then d.raise .tableDegraded else d
    d.loadEnd entries (retiredBit image)
  | none => d

/-- R102: a store with two blank copies is formatted: copy B is degraded, and an empty image of generation 1 is written to
copy A. -/
def Device.beginFormat (d : Device) : Device :=
  let image := buildImage 1 [] fun _ => false
  let d := (d.onRemap fun r =>
    { r with degradedB := true, load := none,
             persist := .writingImage .a 1 (Vector.replicate 5 .awaiting) true }).raise .tableDegraded
  d.requestTable (imageRequests .a (imageBlocks image))

/-- R101, Table 5-2: the copies judged, one is loaded, a blank store is formatted, or the table is unreadable. -/
def Device.chooseCopy (a b : CopyFinding) (d : Device) : Device :=
  match a.valid, b.valid with
  | some _, some _ =>
    if b.generation.getD 0 ≤ a.generation.getD 0 then d.loadCopy .a a b else d.loadCopy .b b a
  | some _, none => d.loadCopy .a a b
  | none, some _ => d.loadCopy .b b a
  | none, none =>
    if a.blank && b.blank then d.beginFormat
    else (d.onRemap fun r => { r with load := none }).tableUnreadable

/-- The blocks read of a copy, in block order. -/
def copyReads (copy : Copy) (reads : List LoadRead) : List (Option Block) :=
  (List.range 5).map fun i => ((reads.find? fun r => r.phys == copy.base + i).bind fun r => r.data)

/-- R99: a completed table read is kept against its block; when all ten are in, the copies are judged and one is chosen. -/
def Device.tableReadDone (phys : Nat) (o : ReadOutcome) (d : Device) : Device :=
  match d.remap.load with
  | some reads =>
    let reads := reads ++ [{ phys := phys, data := o.data }]
    let d := d.onRemap fun r => { r with load := some reads }
    if reads.length = 10 then d.chooseCopy (judgeCopy (copyReads .a reads)) (judgeCopy (copyReads .b reads)) else d
  | none => d

/-! ### Image-block writes (R95, R96, R102) -/

/-- R96 step 3 for one entry: its frame settles and its record ends. -/
def Device.settleEntry (block : Nat) (d : Device) : Device :=
  match d.remap.workList.find? (fun w => w.block == block) with
  | some w => (d.onRemap (Remap.endRecord w.frame)).settleFrame w.frame
  | none => d

/-- R96: the flip: the copy written becomes active, the entries in flight ACTIVE, their frames settle in batch order, and the
next persist begins if the batch is not empty. A format's flip ends the load with an empty table (R102). -/
def Device.flip (copy : Copy) (generation : Nat) (format : Bool) (d : Device) : Device :=
  let settled := d.remap.inFlight
  let d := d.onRemap fun r =>
    { r.setDegraded copy false with
        activeCopy := some copy, generation := generation,
        table := r.table.map fun e => if settled.contains e.block then { e with state := .active } else e }
  let d := settled.foldl (fun d b => d.settleEntry b) d
  let d := d.onRemap fun r => { r with inFlight := [], persist := .idle }
  if format then d.loadEnd [] fun _ => false else d.beginPersist

/-- R102: the format has failed. -/
def Device.formatFailed (d : Device) : Device :=
  ((d.withdrawWrites.onRemap fun r => { r with persist := .idle, degradedA := true }).raise .tableDegraded).tableUnreadable

/-- R95, Table 5-1: the completion of an image-block write. One that finds the persist IDLE, or a block outside the copy or
already DONE, is ignored. -/
def Device.tableWriteDone (phys : Nat) (done : Bool) (image : Block) (d : Device) : Device :=
  match d.remap.persist with
  | .idle => d
  | .writingImage copy generation progress format =>
    if h : copy.base ≤ phys ∧ phys - copy.base < 5 then
      let i := phys - copy.base
      let mark (v : Progress) : Vector Progress 5 := progress.set i v h.2
      match progress[i]'h.2, done with
      | .done, _ => d
      | _, true =>
        if (mark .done).toList.all (fun v => decide (v = .done)) then
          (d.onRemap fun r => { r with persist := .writingImage copy generation (mark .done) format }).flip
            copy generation format
        else d.onRemap fun r => { r with persist := .writingImage copy generation (mark .done) format }
      | .awaiting, false =>
        (d.onRemap fun r => { r with persist := .writingImage copy generation (mark .retrying) format }).requestTable
          [{ phys := phys, image := some image }]
      | .retrying, false => if format then d.formatFailed else d.persistLoss copy
    else d

/-! ### Spare writes (R87 to R89) -/

/-- An entry placed in ascending order of logical block; one of the same block is replaced (R82, R87). -/
def insertEntry (e : RemapEntry) : List RemapEntry → List RemapEntry
  | [] => [e]
  | g :: gs =>
    if e.block < g.block then e :: g :: gs
    else if e.block = g.block then e :: gs
    else g :: insertEntry e gs

/-- R87 steps 1 to 3: the spare is IN_USE, the entry made or replaced with its old spare RETIRED, the block off the pending
list; the claim has ended. -/
def Remap.placed (w : RemapRecord) (s : SpareNo) (r : Remap) : Remap :=
  let old := (r.entryOf w.block).map fun e => e.spare
  let r := r.setSpare s .inUse
  let r := match old with
    | some o => r.setSpare o .retired
    | none => r
  { r.setRecord w.frame none w.target with
      table := insertEntry { block := w.block, spare := s, state := .batched } r.table,
      pendingList := r.pendingList.filter fun b => b.block != w.block }

/-- A WRITING frame's phase becomes TABLE (R87). -/
def Device.toTablePhase (f : FrameNo) (d : Device) : Device :=
  match (d.frame f).served with
  | some { block := b, hold := h, state := .writing e newer _ } =>
    d.setServed f (some { block := b, hold := h, state := .writing e newer .table })
  | _ => d

/-- R91: NO_SPARES is entered when an event leaves no spare FREE. -/
def Device.testSpares (d : Device) : Device := if d.remap.noneFree then d.enterNoSpares else d

/-- R87: the DONE of a spare write to a claimed spare; then a persist begins if its conditions hold (R94, log 15). -/
def Device.spareWriteDone (w : RemapRecord) (s : SpareNo) (d : Device) : Device :=
  let d := d.onRemap (Remap.placed w s)
  if d.remap.lock = some .tableLost then
    ((d.onRemap (Remap.endRecord w.frame)).makeHeld w.frame).testSpares
  else
    ((d.onRemap fun r => { r with batch := r.batch ++ [w.block] }).toTablePhase w.frame).testSpares.beginPersist

/-- R88: the WRITE_FAULT of a spare write to a claimed spare: it is RETIRED, and the record takes its next road. -/
def Device.spareWriteFault (w : RemapRecord) (s : SpareNo) (d : Device) : Device :=
  ((d.onRemap fun r => (r.setSpare s .retired).setRecord w.frame none w.target).placeRecord w).testSpares

/-- R87 to R89: the completion of a spare write: to the spare its record claims, or in place. A record for a new spare whose claim
has ended has no write in flight (R85, R86). -/
def Device.spareCompletion (f : FrameNo) (s : SpareNo) (done : Bool) (d : Device) : Device :=
  match d.remap.workList.find? (fun w => decide (w.frame = f)) with
  | some w =>
    if w.claim = some s then
      if done then d.spareWriteDone w s else d.spareWriteFault w s
    else
      match w.target, done with
      | .inPlace, true => (d.onRemap (Remap.endRecord f)).settleFrame f
      | .inPlace, false => (d.onRemap (Remap.endRecord f)).makeHeld f
      | .newSpare, _ => d
  | none => d

end Sys2Proof.Machine
end

