-- ==== Sys2Proof/Machine/Media.lean ====
section
/-!
DEFINITION. The media channel at work (chapter 4): the slot arbiter and the issue of write-backs, the closing of an event, the
completions, the timeouts and the recovery.
-/

namespace Sys2Proof.Machine

/-! ### The slot arbiter (R43, R44, R66, R69, R70) -/

/-- The write-back candidate: the first frame from the head of the dirty queue without fill outstanding (R43). -/
def Device.writebackCandidate (d : Device) : Option FrameNo :=
  d.frames.dirtyQueue.find? fun f => !(d.frame f).fillOutstanding

/-- No operation in a slot addresses the physical block (R69). -/
def Channel.eligible (phys : Nat) (c : Channel) : Bool :=
  c.slots.toList.all fun s =>
    match s with
    | some op => decide (op.phys ≠ some phys)
    | none => true

/-- P as the mapping reads it; the arbiter runs only in RUNNING, where P is recorded (R64). -/
def Channel.cap (c : Channel) : Nat := c.capacity.getD 0

/-- A request the arbiter may issue. -/
inductive Pick where
  | table (q : TableReq)
  | spare (q : SpareReq)
  | fill (q : FillReq)
  | writeback (f : FrameNo)
deriving DecidableEq, Repr

/-- The logical block a frame serves, 0 for a FREE one. -/
def Frame.blockNo (fr : Frame) : Nat := (fr.served.map fun sv => sv.block).getD 0

/-- The oldest eligible request of a class (R67, R69, R70). -/
def Device.pickOf (d : Device) : ReqClass → Option Pick
  | .table => (d.channel.tableQueue.find? fun q => d.channel.eligible q.phys).map .table
  | .spare => (d.channel.spareQueue.find? fun q => d.channel.eligible (sparePhys d.channel.cap q.spare)).map .spare
  | .fill =>
    (d.channel.fillQueue.find? fun q => d.channel.eligible (mapBlock d.channel.cap d.remap q.block)).map .fill
  | .writeback =>
    match d.writebackCandidate with
    | some f =>
      if d.channel.eligible (mapBlock d.channel.cap d.remap (d.frame f).blockNo) then some (.writeback f) else none
    | none => none

/-- The class order by the DIRTY count against the watermark (R70). -/
def Device.classOrder (d : Device) : List ReqClass :=
  if d.mgmt.watermark ≤ d.frames.count .dirty then [.table, .spare, .writeback, .fill]
  else [.table, .spare, .fill, .writeback]

/-- The request a slot is filled with (R70). -/
def Device.pick (d : Device) : Option Pick := d.classOrder.findSome? d.pickOf

/-- The channel changed. -/
def Device.onChannel (f : Channel → Channel) (d : Device) : Device := { d with channel := f d.channel }

/-- R44: the write-back of the candidate is issued: to HOME with a media WRITE in the slot, or, for a pending block, straight
to the remap unit with the slot left empty. -/
def Device.issueWriteback (i : SlotNo) (f : FrameNo) (d : Device) : Device :=
  match (d.frame f).served with
  | some { block := b, hold := h, state := .dirty e _ } =>
    let image := (d.frame f).bytes
    let d := d.leaveDirty f
    if d.remap.pendingList.any (fun x => x.block == b) then
      ((d.setServed f (some { block := b, hold := h, state := .writing e none .spare })).reportWriting).takeIn
        f b .pending image
    else
      let op := Operation.fresh (.writeback f image) (some (mapBlock d.channel.cap d.remap b)) false
      ((d.setServed f (some { block := b, hold := h, state := .writing e none .home })).onChannel
        (Channel.place i op)).reportWriting
  | _ => d

/-- A request is issued into an empty slot and leaves its class (R67, R68, R70). -/
def Device.issue (i : SlotNo) (k : Pick) (d : Device) : Device :=
  match k with
  | .table q =>
    let w := match q.image with
      | some image => Work.tableWrite image
      | none => Work.tableRead
    d.onChannel fun c =>
      ({ c with tableQueue := c.tableQueue.erase q } : Channel).place i (Operation.fresh w (some q.phys) false)
  | .spare q =>
    let op := Operation.fresh (.spare q.frame q.spare q.image) (some (sparePhys d.channel.cap q.spare)) false
    d.onChannel fun c => ({ c with spareQueue := c.spareQueue.erase q } : Channel).place i op
  | .fill q =>
    let op := Operation.fresh (.fill q.frame) (some (mapBlock d.channel.cap d.remap q.block)) false
    d.onChannel fun c => ({ c with fillQueue := c.fillQueue.erase q } : Channel).place i op
  | .writeback f => d.issueWriteback i f

/-- One filling of a slot, lowest-numbered first, in RUNNING only (R70). -/
def Device.arbiterStep (d : Device) : Option Device :=
  if d.channel.state = .running then
    match d.channel.lowestEmpty with
    | some i => d.pick.map fun k => d.issue i k
    | none => none
  else none

/-- The arbiter fills slots until none is empty or no eligible request waits; at most `fuel` issues. -/
def arbiterLoop : Nat → Device → Device
  | 0, d => d
  | n + 1, d =>
    match d.arbiterStep with
    | some d' => arbiterLoop n d'
    | none => d

/-- R70: a run of the arbiter. An issue fills one of four slots or takes a frame from the dirty queue, which the eight landing
buffers may refill (log 23). -/
def Device.runArbiter (d : Device) : Device := arbiterLoop (d.frames.dirtyQueue.length + 16) d

/-! ### The closing of an event -/

/-- The read engines act, the arbiter runs, the orders that overflow are dealt with, and so on until nothing is left to do
(log 5, log 6); at most `fuel` rounds, and never an overflow left undone. -/
def closeLoop : Nat → Device → Device
  | 0, d => d.overflowStep.getD d
  | n + 1, d =>
    let d := d.settlePorts.runArbiter
    if d.portStep.isSome then closeLoop n d else d.overflowStep.elim d (closeLoop n)

/-- What the changes of an event still bring about on the ports and at the slots (R70, R127, R147). After the first round only a
write-back that ends in a drop, and an overflow, give more to do (log 23). -/
def Device.quieten (d : Device) : Device := closeLoop (d.frames.dirtyQueue.length + 16) d

/-- The rest of an event, before write credits are granted: when nothing else is left to do, the PENDING entries of both ports are
tested, for every WRITE that has left in the event (R111, log 32). -/
def Device.settle (d : Device) : Device := (d.quieten.testPending .a).testPending .b

/-- The closing of an event: its rest, and then one grant of write credits on each port (R130). No RESPONSE of a granted RESERVE
and no CREDIT overflows: an order with no room for them has been dealt with. -/
def Device.close (d : Device) : Device := (d.settle.grantCredits .a).grantCredits .b

/-- R76: in RECOVERING, when every slot is empty, a RESET is placed in slot 0. -/
def Device.placeReset (d : Device) : Device :=
  if d.channel.state = .recovering ∧ d.channel.allEmpty then
    d.onChannel (Channel.place 0 (Operation.fresh .reset none false))
  else d

/-- The closing of an event of the media channel: the recovery's RESET (R76), the closing, the drain test (R167). -/
def Device.closeMedia (d : Device) : Device := d.placeReset.close.drainTest

/-! ### Completions (R65, R71, R74, R77, R183) -/

/-- R65, R183: the outcome of a READ by its code and body; fewer than 512 body bytes fail it. Of more the first 512 are taken (read by
the model, log 27). -/
def readOutcome (code : Byte) (body : List Byte) : ReadOutcome :=
  if body.length < 512 then .uncorrectable
  else if code = 0x00 then .good (blockOfList body)
  else if code = 0x01 then .corrected (blockOfList body)
  else .uncorrectable

/-- R65, R183: the DONE of a WRITE or a RESET; any other code is its failing outcome. -/
def doneCode (code : Byte) : Bool := code == 0x00

/-- R65, R183: the capacity an IDENTIFY carries, as a 33-bit value; none is FAULT. Of a body of more than five bytes the first five are
the capacity (read by the model, log 37). -/
def identifyOutcome (code : Byte) (body : List Byte) : Option Nat :=
  if code = 0x00 ∧ 5 ≤ body.length then
    let v := (body.getD 0 0).toNat % 2 * 2 ^ 32 + beValue (field body 1 4)
    if v ≤ Config.maxCapacity then some v else none
  else none

/-- R74: the end of an IDENTIFY that completes, its slot already emptied. -/
def Device.identified (outcome : Option Nat) (d : Device) : Device :=
  match outcome with
  | some cap =>
    if Config.minCapacity ≤ cap then
      let d := d.onChannel fun c => { c with capacity := some cap, state := .running }
      if d.mode.mode = .starting ∧ d.mode.step = .identifying then
        ({ d with mode := { d.mode with step := .loading } } : Device).beginLoad
      else d
    else d.capacityOutOfRange
  | none => d.mediumLost

/-- R77 step 2 for one operation: it is placed in the lowest-numbered empty slot with its reissue flag set and a fresh
timer. -/
def Channel.reissue (c : Channel) (op : Operation) : Channel :=
  match c.lowestEmpty with
  | some i => c.place i (Operation.fresh op.work op.phys true)
  | none => c

/-- R77, R78: the end of a RESET that completes, its slot already emptied. -/
def Device.resetDone (done : Bool) (d : Device) : Device :=
  if done then
    d.onChannel fun c =>
      { c.retrySet.foldl Channel.reissue { c with retrySet := [] } with state := .running }
  else d.mediumLost

/-- R71: the outcome of the operation in a slot is handed to the owner of its work, and the slot is emptied. -/
def Device.applyCompletion (i : SlotNo) (op : Operation) (code : Byte) (body : List Byte) (d : Device) : Device :=
  let empty (d : Device) : Device := d.onChannel (Channel.emptySlot i)
  match op.work with
  | .fill f => empty (d.fillDone f (readOutcome code body))
  | .tableRead => empty (d.tableReadDone (op.phys.getD 0) (readOutcome code body))
  | .writeback f image => empty (if doneCode code then d.settleFrame f else d.handOver f image)
  | .spare f s _ => empty (d.spareCompletion f s (doneCode code))
  | .tableWrite image => empty (d.tableWriteDone (op.phys.getD 0) (doneCode code) image)
  | .identify => (empty d).identified (identifyOutcome code body)
  | .reset => (empty d).resetDone (doneCode code)

/-- R65: the slot and operation a completion is taken for; none when it is stale. -/
def Channel.completes (slot issue : Byte) (c : Channel) : Option (SlotNo × Operation) :=
  if h : slot.toNat < 4 then
    let i : SlotNo := ⟨slot.toNat, h⟩
    match c.slots[i] with
    | some op => if c.issueCounts[i] = issue then some (i, op) else none
    | none => none
  else none

/-- R65, R71, R183: a completion of the media bus; a stale one changes nothing. -/
def Device.completion (slot issue code : Byte) (body : List Byte) (d : Device) : Device :=
  match d.channel.completes slot issue with
  | some (i, op) => (d.applyCompletion i op code body).closeMedia
  | none => d

/-! ### Timeouts (R72, R75, R76, R78) -/

/-- The operation is a READ or a WRITE. -/
def Operation.isTransfer (op : Operation) : Bool := op.work.kind = .read || op.work.kind = .write

/-- R75, R76: the timer of a READ or WRITE with the reissue flag clear expires: it joins the retry set, and the channel
recovers. -/
def Device.timeout (i : SlotNo) (d : Device) : Device :=
  match d.channel.slots[i] with
  | some op =>
    if op.isTransfer && !op.reissue then
      (d.onChannel fun c =>
        { c.emptySlot i with
            retrySet := c.retrySet ++ [op],
            state := if c.state = .running then .recovering else c.state }).closeMedia
    else d
  | none => d

/-- R78: the timer of an operation with the reissue flag set expires. -/
def Device.reissueTimeout (i : SlotNo) (d : Device) : Device :=
  match d.channel.slots[i] with
  | some op => if op.reissue then d.mediumLost.close else d
  | none => d

/-- R74, R78: the timer of the IDENTIFY or the RESET in slot 0 expires. -/
def Device.controlTimeout (k : OpKind) (d : Device) : Device :=
  match d.channel.slots[(0 : SlotNo)] with
  | some op => if op.work.kind = k then d.mediumLost.close else d
  | none => d

end Sys2Proof.Machine
end

