-- ==== Sys2Proof/Machine/Formats.lean ====
section
/-!
DEFINITION. The byte layouts the part sends (chapter 11): port messages, media operations, management responses. The layouts it
reads are in Decode (port messages), Media (completions) and Image (the table image).
-/

namespace Sys2Proof.Machine

/-! ### Codes (Tables 11-4, 11-5, 11-6, 11-9) -/

/-- The write lock, coded as in WELCOME. -/
def lockCode : Option LockReason → Byte
  | none => 0x00
  | some .noSpares => 0x01
  | some .tableLost => 0x02

/-- The device mode (Table 11-6). -/
def DeviceMode.code : DeviceMode → Byte
  | .starting => 0x00
  | .serving => 0x01
  | .draining => 0x02
  | .faulted => 0x03

/-- The status codes (Table 11-5). -/
def Status.code : Status → Byte
  | .good => 0x00
  | .aborted => 0x01
  | .outOfRange => 0x02
  | .badRequest => 0x03
  | .writeLocked => 0x04
  | .reserved => 0x05
  | .conflict => 0x06
  | .tableFull => 0x07
  | .noSuchReservation => 0x08
  | .expired => 0x09
  | .mediumError => 0x0A
  | .incomplete => 0x0B
  | .notServing => 0x0D

/-- A tag or id as a byte. -/
def finByte {n : Nat} (i : Fin n) : Byte := BitVec.ofNat 8 i.val

/-- The notice kinds and their arguments (Tables 11-4, 11-5). -/
def Notice.bytes : Notice → List Byte
  | .partnerAttached => [0x01, 0x00]
  | .partnerDetached => [0x02, 0x00]
  | .leaseLapsed id => [0x03, finByte id]
  | .writeLocked reason => [0x04, lockCode (some reason)]
  | .duplicateTag tag => [0x05, finByte tag]
  | .strayCancel tag => [0x06, finByte tag]
  | .mediaFault => [0x07, 0x00]

/-- The BYE reasons (Table 11-5). -/
def ByeReason.code : ByeReason → Byte
  | .requested => 0x01
  | .admin => 0x02
  | .restart => 0x03
  | .violation => 0x04
  | .version => 0x05

/-- A flag as a byte. -/
def boolByte (b : Bool) : Byte := if b then 0x01 else 0x00

/-! ### Port messages (11.1) -/

/-- The status record of a QUERY (Table 11-6). -/
def StatusRecord.bytes (r : StatusRecord) : List Byte :=
  [r.mode.code, lockCode r.lock, boolByte r.partner, 0] ++ beBytes 4 r.capacity ++ beBytes 2 r.free ++ beBytes 2 r.clean
    ++ beBytes 2 r.dirty ++ beBytes 2 r.held ++ beBytes 2 r.freeSpares ++ [0, 0] ++ beBytes 4 r.generation

/-- The payload bytes of a RESPONSE after byte 7 (Table 11-4). -/
def Payload.bytes : Payload → List Byte
  | .none => []
  | .reservation id => [finByte id]
  | .record r => r.bytes

/-- A payload is present. -/
def Payload.present : Payload → Bool
  | .none => false
  | .reservation _ => true
  | .record _ => true

/-- The kind code of an outbound message (Table 11-2). -/
def OutMsg.kindCode : OutMsg → Byte
  | .welcome .. => 0x81
  | .data .. => 0x82
  | .credit _ => 0x83
  | .response .. => 0x84
  | .notice _ => 0x85
  | .bye _ => 0x86

/-- The payload of an outbound message (Table 11-4). -/
def OutMsg.payload : OutMsg → List Byte
  | .welcome session capacity lock partner =>
    beBytes 2 session ++ [0, 0] ++ beBytes 4 capacity ++ [lockCode lock, boolByte partner, 0, 0]
  | .data tag index bytes => [finByte tag, 0] ++ beBytes 2 index ++ bytes.toList
  | .credit count => beBytes 1 count
  | .response tag status moved failing payload =>
    [finByte tag, status.code, boolByte failing.isSome ||| (boolByte payload.present <<< 1), 0] ++ beBytes 2 moved
      ++ beBytes 2 (failing.getD 0) ++ payload.bytes
  | .notice n => n.bytes
  | .bye reason => [reason.code]

/-- A port message: header, payload, check (Table 11-1). -/
def frameMessage (kind : Byte) (payload : List Byte) : List Byte :=
  let body := [kind, 0] ++ beBytes 2 payload.length ++ payload
  body ++ crcField body

/-- The bytes of an outbound message as the link sends it, with the check the part computes (R120). -/
def OutMsg.bytes (m : OutMsg) : List Byte := frameMessage m.kindCode m.payload

/-! ### Media operations (11.2) -/

/-- The kind code of an operation. -/
def OpKind.code : OpKind → Byte
  | .identify => 0x01
  | .read => 0x02
  | .write => 0x03
  | .reset => 0x04

/-- The bytes of an operation on the media bus: head, and the image of a WRITE. -/
def Operation.bytes (slot : SlotNo) (issueCount : BitVec 8) (op : Operation) : List Byte :=
  [op.work.kind.code, finByte slot, issueCount, 0] ++ beBytes 4 (op.phys.getD 0)
    ++ (op.work.image.map fun b => b.toList).getD []

/-! ### Management responses (11.4) -/

/-- The results of a request (R174). -/
inductive MgmtResult where
  | ok
  | badCode
  | badLength
  | badParameter
deriving DecidableEq, Repr

/-- The result codes (11.4). -/
def MgmtResult.code : MgmtResult → Byte
  | .ok => 0x00
  | .badCode => 0x01
  | .badLength => 0x02
  | .badParameter => 0x03

/-- A response: its length, the request code it answers, the result, its fields (R173, 11.4). -/
def response (code : Byte) (result : MgmtResult) (fields : List Byte) : List Byte :=
  [BitVec.ofNat 8 (3 + fields.length), code, result.code] ++ fields

/-- The fault cause (Table 11-9). -/
def causeCode : Option FaultCause → Byte
  | none => 0x00
  | some .capacity => 0x01
  | some .table => 0x02
  | some .medium => 0x03

/-- The channel state (Table 11-9). -/
def ChannelState.code : ChannelState → Byte
  | .idle => 0x00
  | .running => 0x01
  | .recovering => 0x02
  | .lost => 0x03

/-- The active copy (Table 11-9). -/
def copyCode : Option Copy → Byte
  | none => 0x00
  | some .a => 0x01
  | some .b => 0x02

/-- The session state (Table 11-9). -/
def SessionState.code : SessionState → Byte
  | .down => 0x00
  | .linked => 0x01
  | .waiting _ => 0x02
  | .attached => 0x03

/-- The pending blocks with a reason (R177). -/
def Remap.pendingWith (reason : Suspicion) (r : Remap) : Nat := r.pendingList.countP fun b => decide (b.reason = reason)

/-- The fields of READ STATUS, each as it stands (R177, Table 11-9). -/
def Device.statusFields (d : Device) : List Byte :=
  [d.mode.mode.code, causeCode d.mode.cause, d.channel.state.code] ++ beBytes 4 d.channel.logicalCapacity
    ++ [lockCode d.remap.lock]
    ++ beBytes 2 (d.frames.count .free) ++ beBytes 2 (d.frames.count .clean)
    ++ beBytes 2 (d.frames.count .dirty) ++ beBytes 2 (d.frames.count .held)
    ++ beBytes 2 d.remap.unclaimed.length ++ [copyCode d.remap.activeCopy] ++ beBytes 4 d.remap.generation
    ++ [boolByte d.mode.restart ||| (boolByte d.remap.degradedA <<< 1) ||| (boolByte d.remap.degradedB <<< 2)]
    ++ beBytes 1 (d.remap.pendingWith .unreadable) ++ beBytes 1 (d.remap.pendingWith .weak)
    ++ [d.portA.session.code, d.portB.session.code]

/-- The flags and the masks, two bytes each (Table 11-8). -/
def conditionFields (flags masks : BitVec 9) : List Byte := beBytes 2 flags.toNat ++ beBytes 2 masks.toNat

/-- The standing of a remap entry (R178): ACTIVE, BATCHED in the persist batch, BATCHED in flight, unpersisted. -/
def Remap.standing (r : Remap) (e : RemapEntry) : Byte :=
  match e.state with
  | .active => 0x00
  | .batched =>
    if r.batch.contains e.block then 0x01 else if r.inFlight.contains e.block then 0x02 else 0x03

/-- The result and fields of READ REMAP ENTRY (R178, Table 11-8). -/
def Remap.entryFields (r : Remap) (index : Nat) : MgmtResult × List Byte :=
  match r.table[index]? with
  | some e =>
    (.ok, beBytes 2 r.table.length ++ beBytes 4 e.block ++ [finByte e.spare, r.standing e])
  | none => (.badParameter, beBytes 2 r.table.length)

end Sys2Proof.Machine
end

