-- ==== Sys2Proof/Machine/Inbound.lean ====
section
/-!
DEFINITION. What a port unit does with each inbound message (chapters 7 and 8): the session messages, the acceptance of each
COMMAND, DATA, CREDIT and CANCEL; and the taking of messages one at a time around the pause of R127.
-/

namespace Sys2Proof.Machine

/-! ### Session messages -/

/-- Table 7-2 in LINKED: a HELLO is refused, held, or opens a session. -/
def Device.helloLinked (p : Port) (version : BitVec 16) (d : Device) : Device :=
  if version ≠ Config.protocolVersion then d.send p (.bye .version)
  else if d.mode.mode = .serving ∨ d.mode.mode = .faulted then d.openSessions [p]
  else d.onPort p fun u => { u with session := .waiting version }

/-- R123, Table 7-2: an inbound HELLO. -/
def Device.takeHello (p : Port) (version : BitVec 16) (d : Device) : Device :=
  match (d.port p).session with
  | .down => d
  | .linked => d.helloLinked p version
  | .waiting _ =>
    if version ≠ Config.protocolVersion then d.onPort p (PortUnit.leave false (some .version))
    else d.onPort p fun u => { u with session := .waiting version }
  | .attached =>
    if version ≠ Config.protocolVersion then d.endSessions [p] false (some .version)
    else (d.endSessions [p] false none).helloLinked p version

/-- R126: an inbound BYE. -/
def Device.takeBye (p : Port) (d : Device) : Device :=
  match (d.port p).session with
  | .down => d
  | .linked => d.violation p
  | .waiting _ => d.onPort p (PortUnit.leave false (some .requested))
  | .attached => d.endSessions [p] false (some .requested)

/-! ### COMMANDs (R134, R141) -/

/-- R131, R134: a COMMAND outside a session is a violation; one whose tag is open draws DUPLICATE_TAG; any other goes to its
acceptance checks. -/
def Device.takeCommand (p : Port) (tag : Tag) (accept : Device → Device) (d : Device) : Device :=
  match (d.port p).session with
  | .attached => if ((d.port p).commands[tag]).isSome then d.notify p (.duplicateTag tag) else accept d
  | _ => d.violation p

/-- A COMMAND that passed its checks fills its record (R141). -/
def Device.openCommand (p : Port) (tag : Tag) (c : OpenCmd) (d : Device) : Device := d.setCommand p tag (some c)

/-- READ: Table 8-1, R144. -/
def Device.acceptRead (p : Port) (tag : Tag) (start count : Nat) (d : Device) : Device :=
  if count = 0 ∨ Config.maxTransfer < count then d.reply p tag .badRequest .none
  else if d.channel.logicalCapacity < start + count then d.reply p tag .outOfRange .none
  else if d.mode.mode ≠ .serving then d.reply p tag .notServing .none
  else
    ((d.openCommand p tag (.read { start := start, count := count, state := .queued, sent := 0 })).onPort p
      fun u => { u with readList := u.readList ++ [tag] }).refill p

/-- WRITE: Table 8-1, R149. It is MOVING at once when it heads the write list. -/
def Device.acceptWrite (p : Port) (tag : Tag) (durable : Bool) (start count : Nat) (d : Device) : Device :=
  if count = 0 ∨ Config.maxTransfer < count then d.reply p tag .badRequest .none
  else if d.channel.logicalCapacity < start + count then d.reply p tag .outOfRange .none
  else if d.mode.mode ≠ .serving then d.reply p tag .notServing .none
  else if d.remap.lock ≠ none then d.reply p tag .writeLocked .none
  else if d.reservations.conflicts p start count then d.reply p tag .reserved .none
  else
    let st := if (d.port p).writeList.isEmpty then CmdState.moving else .queued
    (d.openCommand p tag (.write
      { start := start, count := count, durable := durable, state := st, received := 0, committed := 0 })).onPort p
      fun u => { u with writeList := u.writeList ++ [tag] }

/-- FLUSH: Table 8-1, R54, R151. -/
def Device.acceptFlush (p : Port) (tag : Tag) (d : Device) : Device :=
  if d.mode.mode ≠ .serving then d.reply p tag .notServing .none
  else
    (d.openCommand p tag .flush).joinFlush
      { kind := .flush, port := p, tag := tag, mark := d.tracker.nextWrite - 1 }

/-- R109: the reservation table decides a RESERVE. -/
def Device.decideReserve (p : Port) (tag : Tag) (start count ticks : Nat) (d : Device) : Device :=
  if !(d.reservations.protecting start count).isEmpty then d.reply p tag .conflict .none
  else
    match d.reservations.freeId with
    | none => d.reply p tag .tableFull .none
    | some id =>
      if (d.port p.other).writeOverlaps start count then
        (d.setEntry id (some { holder := p, start := start, count := count, state := .pending ticks tag })).openCommand
          p tag (.reserve { start := start, count := count, ticks := ticks, id := id })
      else
        (d.setEntry id (some { holder := p, start := start, count := count, state := .granted ticks })).reply
          p tag .good (.reservation id)

/-- RESERVE: Table 8-1, R152. -/
def Device.acceptReserve (p : Port) (tag : Tag) (start count ticks : Nat) (d : Device) : Device :=
  if d.channel.logicalCapacity < start + count then d.reply p tag .outOfRange .none
  else if d.mode.mode ≠ .serving then d.reply p tag .notServing .none
  else if count = 0 ∨ Config.maxReserve < count ∨ ticks = 0 ∨ Config.maxLease < ticks then
    d.reply p tag .badRequest .none
  else d.decideReserve p tag start count ticks

/-- The entry an id names, none for a free entry or an id above 15 (R115, R116). -/
def Reservations.entryAt (id : Nat) (r : Reservations) : Option (ResId × Reservation) :=
  if h : id < 16 then (r.entries[id]'h).map fun e => (⟨id, h⟩, e) else none

/-- RENEW: Table 8-1, R115. -/
def Device.acceptRenew (p : Port) (tag : Tag) (id ticks : Nat) (d : Device) : Device :=
  if ticks = 0 ∨ Config.maxLease < ticks then d.reply p tag .badRequest .none
  else
    match d.reservations.entryAt id with
    | some (i, e) =>
      if e.holder = p then
        match e.state with
        | .granted _ => (d.setEntry i (some { e with state := .granted ticks })).reply p tag .good .none
        | .lapsed => (d.setEntry i none).reply p tag .expired .none
        | .pending .. => d.reply p tag .noSuchReservation .none
      else d.reply p tag .noSuchReservation .none
    | none => d.reply p tag .noSuchReservation .none

/-- RELEASE: R116. -/
def Device.acceptRelease (p : Port) (tag : Tag) (id : Nat) (d : Device) : Device :=
  match d.reservations.entryAt id with
  | some (i, e) =>
    match e.state with
    | .pending .. => d.reply p tag .badRequest .none
    | .granted _ =>
      if e.holder = p then (d.setEntry i none).reply p tag .good .none else d.reply p tag .noSuchReservation .none
    | .lapsed =>
      if e.holder = p then (d.setEntry i none).reply p tag .expired .none else d.reply p tag .noSuchReservation .none
  | none => d.reply p tag .noSuchReservation .none

/-- The status record as it stands (R153). -/
def Device.statusRecord (p : Port) (d : Device) : StatusRecord :=
  { mode := d.mode.mode, lock := d.remap.lock, partner := (d.port p.other).attached,
    capacity := d.channel.logicalCapacity, free := d.frames.count .free, clean := d.frames.count .clean,
    dirty := d.frames.count .dirty, held := d.frames.count .held, freeSpares := d.remap.unclaimed.length,
    generation := d.remap.generation }

/-- QUERY: R153. -/
def Device.acceptQuery (p : Port) (tag : Tag) (d : Device) : Device :=
  d.reply p tag .good (.record (d.statusRecord p))

/-! ### DATA and CREDIT (R132, R133) -/

/-- The lowest-numbered PROMISED landing buffer (R132). -/
def PortUnit.lowestPromised (u : PortUnit) : Option BufNo :=
  (List.finRange 4).find? fun i => decide (u.landing[i] = .promised)

/-- R132 step 5: the DATA is matched to the head of the write list: it is counted received, its buffer joins the commit order
and is tried at once when it heads it; a WRITE that has received its count leaves the write list. -/
def Device.acceptData (p : Port) (buf : BufNo) (tag : Tag) (w : WriteCmd) (index : Nat) (bytes : Block) (d : Device) :
    Device :=
  let first := (d.port p).commitOrder.isEmpty
  let d := d.onPort p fun u =>
    let u := (u.setLanding buf (.occupied tag index (w.start + index) bytes)).setCommand tag
      (some (.write { w with received := w.received + 1 }))
    let u := { u with commitOrder := u.commitOrder ++ [buf] }
    if w.received + 1 = w.count then u.leaveWriteList tag else u
  if first then d.tryCommit p else d

/-- R132: an inbound DATA in ATTACHED, its tests in order. -/
def Device.landData (p : Port) (tag : Tag) (index : Nat) (bytes : Block) (d : Device) : Device :=
  match (d.port p).lowestPromised with
  | none => d.violation p
  | some buf =>
    match (d.port p).commands[tag] with
    | some (.write w) =>
      if (d.port p).writeList.head? = some tag ∧ index = w.received then d.acceptData p buf tag w index bytes
      else d.violation p
    | _ => d.onPort p (PortUnit.setLanding buf .free)

/-- R131, R132: an inbound DATA. -/
def Device.takeData (p : Port) (tag : Tag) (index : Nat) (bytes : Block) (d : Device) : Device :=
  match (d.port p).session with
  | .attached => d.landData p tag index bytes
  | _ => d.violation p

/-- R131, R133: an inbound CREDIT. -/
def Device.takeCredit (p : Port) (count : Nat) (d : Device) : Device :=
  match (d.port p).session with
  | .attached =>
    if Config.readCreditCap < (d.port p).readCredits + count then d.violation p
    else d.onPort p fun u => { u with readCredits := u.readCredits + count }
  | _ => d.violation p

/-! ### CANCEL (R154 to R156, R60, R112) -/

/-- R155: the CANCEL of a READ; a QUEUED one has no window block. Its RESPONSE is queued after the blocks have left, and so behind
what the frames they gave up bring about on the port: the model's choice (log 34). -/
def Device.cancelRead (p : Port) (tag : Tag) (r : ReadCmd) (d : Device) : Device :=
  ((d.leaveWindowTag p tag).answerRead p tag .aborted r.sent none).refill p

/-- R60: the CANCEL of a command in the flush list: it is answered and its entry leaves. Its RESPONSE stands before those of the new
heads answered in the event: the model's choice (log 38). -/
def Device.cancelFlush (p : Port) (tag : Tag) (moved : Nat) (d : Device) : Device :=
  (d.answer p tag .aborted moved none .none).dropFlush fun e => decide (e.port = p ∧ e.tag = tag)

/-- R154, R156: the CANCEL of a WRITE that is QUEUED or MOVING. -/
def Device.cancelMoving (p : Port) (tag : Tag) (w : WriteCmd) (d : Device) : Device :=
  let d := ((d.onPort p (PortUnit.leaveWriteList tag)).discardBuffers p tag).tryCommit p
  d.answer p tag .aborted w.committed none .none

/-- R154, Table 8-4: a CANCEL that names an open command, or STRAY_CANCEL (R134). The other port's
PENDING entries are tested for a cancelled WRITE at the closing of the event (R111), behind the test of a new head of the flush
list (R60): the model's choice (log 32, log 33). -/
def Device.cancelOpen (p : Port) (tag : Tag) (d : Device) : Device :=
  match (d.port p).commands[tag] with
  | none => d.notify p (.strayCancel tag)
  | some (.read r) => d.cancelRead p tag r
  | some (.write w) =>
    if w.state = .settling then d.cancelFlush p tag w.count else d.cancelMoving p tag w
  | some .flush => d.cancelFlush p tag 0
  | some (.reserve r) => (d.setEntry r.id none).answer p tag .aborted 0 none .none

/-- R131, R154: an inbound CANCEL. -/
def Device.takeCancel (p : Port) (tag : Tag) (d : Device) : Device :=
  match (d.port p).session with
  | .attached => d.cancelOpen p tag
  | _ => d.violation p

/-! ### The taking of messages (R120, R127) -/

/-- One inbound message taken as one event. RESERVE, RENEW, RELEASE and QUERY queue one RESPONSE and touch nothing the closing
looks at. -/
def Device.takeMessage (p : Port) (m : Inbound) (d : Device) : Device :=
  match m with
  | .damaged => (d.linkLoss p).close
  | .unknownKind _ => (d.violation p).close
  | .unknownOpcode _ => (d.violation p).close
  | .hello version => (d.takeHello p version).close
  | .read tag start count => (d.takeCommand p tag (Device.acceptRead p tag start count)).close
  | .write tag durable start count => (d.takeCommand p tag (Device.acceptWrite p tag durable start count)).close
  | .flush tag => (d.takeCommand p tag (Device.acceptFlush p tag)).close
  | .reserve tag start count ticks => d.takeCommand p tag (Device.acceptReserve p tag start count ticks)
  | .renew tag id ticks => d.takeCommand p tag (Device.acceptRenew p tag id ticks)
  | .release tag id => d.takeCommand p tag (Device.acceptRelease p tag id)
  | .query tag => d.takeCommand p tag (Device.acceptQuery p tag)
  | .data tag index bytes => (d.takeData p tag index bytes).close
  | .credit count => (d.takeCredit p count).close
  | .cancel tag => (d.takeCancel p tag).close
  | .bye => (d.takeBye p).close

/-- The messages waiting in the link layer are taken in order, each a whole event, while the port is not paused (R120, R127);
at most `fuel` of them. -/
def drainInbound : Nat → Port → Device → Device
  | 0, _, d => d
  | n + 1, p, d =>
    match (d.port p).backlog with
    | [] => d
    | m :: rest =>
      if (d.port p).paused then d
      else drainInbound n p ((d.onPort p fun u => { u with backlog := rest }).takeMessage p m)

/-- An inbound message arrives: with the link down there is none to take (R122); otherwise it joins the messages waiting in
the link layer, which are taken while the port is not paused (log 9). -/
def Device.receive (p : Port) (m : Inbound) (d : Device) : Device :=
  match (d.port p).session with
  | .down => d
  | _ =>
    let d := d.onPort p fun u => { u with backlog := u.backlog ++ [m] }
    drainInbound (d.port p).backlog.length p d

/-- R127: the link has sent the head of the outbound order, which leaves it; the pause may end. -/
def Device.messageSent (p : Port) (d : Device) : Device :=
  match (d.port p).outbound with
  | [] => d
  | m :: rest =>
    let d := d.onPort p fun u => { u with outbound := rest, lineOut := m.bytes }
    drainInbound (d.port p).backlog.length p d

end Sys2Proof.Machine
end

