-- ==== Sys2Proof/Machine/Event.lean ====
section
/-!
DEFINITION. One command as one whole event of the part. Every command ends in a next state; the queue of waiting commands is
none of its business.
-/

namespace Sys2Proof.Machine

/-- A command that acts whether RESET_N is asserted or not. -/
def State.always (f : Device → Device) (s : State) : Host.Outcome State Fault Refusal :=
  .next { s with toDevice := f s.toDevice }

/-- A command as one event: its effect on the part. While RESET_N is asserted the part takes no message and no report, and
nothing happens (R139, R160, log 10). -/
def State.event (f : Device → Device) (s : State) : Host.Outcome State Fault Refusal :=
  s.always fun d => if d.resetAsserted then d else f d

/-- A command with an effect of its own while RESET_N is asserted. -/
def State.eventOr (inReset f : Device → Device) (s : State) : Host.Outcome State Fault Refusal :=
  s.always fun d => if d.resetAsserted then inReset d else f d

end Sys2Proof.Machine
end

