-- ==== Sys2Proof/Machine/Commands.lean ====
section
/-!
DEFINITION. The COMMANDs of a session, its DATA, CREDIT and CANCEL (chapters 6, 7 and 8). The message arrives at the port
unit, which takes it at once or when the pause of R127 ends; Inbound gives each its effect.
-/

namespace Sys2Proof.Machine

/-- READ (R144). -/
def execRead (p : Port) (tag : Tag) (start count : BitVec 32) (s : State) : Host.Outcome State Fault Refusal :=
  s.event (Device.receive p (.read tag start.toNat count.toNat))

/-- WRITE (R149). -/
def execWrite (p : Port) (tag : Tag) (durable : Bool) (start count : BitVec 32) (s : State) :
    Host.Outcome State Fault Refusal :=
  s.event (Device.receive p (.write tag durable start.toNat count.toNat))

/-- FLUSH (R151). -/
def execFlush (p : Port) (tag : Tag) (s : State) : Host.Outcome State Fault Refusal :=
  s.event (Device.receive p (.flush tag))

/-- RESERVE (R109). -/
def execReserve (p : Port) (tag : Tag) (start count : BitVec 32) (ticks : BitVec 16) (s : State) :
    Host.Outcome State Fault Refusal :=
  s.event (Device.receive p (.reserve tag start.toNat count.toNat ticks.toNat))

/-- RENEW (R115). -/
def execRenew (p : Port) (tag : Tag) (id : Byte) (ticks : BitVec 16) (s : State) :
    Host.Outcome State Fault Refusal :=
  s.event (Device.receive p (.renew tag id.toNat ticks.toNat))

/-- RELEASE (R116). -/
def execRelease (p : Port) (tag : Tag) (id : Byte) (s : State) : Host.Outcome State Fault Refusal :=
  s.event (Device.receive p (.release tag id.toNat))

/-- QUERY (R153). -/
def execQuery (p : Port) (tag : Tag) (s : State) : Host.Outcome State Fault Refusal :=
  s.event (Device.receive p (.query tag))

/-- INBOUND_DATA (R132). -/
def execInboundData (p : Port) (tag : Tag) (index : BitVec 16) (bytes : Block) (s : State) :
    Host.Outcome State Fault Refusal :=
  s.event (Device.receive p (.data tag index.toNat bytes))

/-- INBOUND_CREDIT (R133). -/
def execInboundCredit (p : Port) (count : Byte) (s : State) : Host.Outcome State Fault Refusal :=
  s.event (Device.receive p (.credit count.toNat))

/-- CANCEL (R154). -/
def execCancel (p : Port) (tag : Tag) (s : State) : Host.Outcome State Fault Refusal :=
  s.event (Device.receive p (.cancel tag))

end Sys2Proof.Machine
end

