-- ==== Sys2Proof/Machine/Internal.lean ====
section
/-!
DEFINITION. The part's own steps as commands, and the lease tick (R16, R57, R76, R94, R111, R114, R130, R147, R168). Each rule
is applied inside the event that makes it due; the command tests it once more, and changes nothing where it is not due
(log 4, log 13).
-/

namespace Sys2Proof.Machine

/-- R16: a frame that is FREE, or CLEAN with hold count 0, is handed out. -/
def Device.offerFrame (f : FrameNo) (d : Device) : Device :=
  if (d.frame f).served.isNone || (d.frame f).evictable then (d.handOut f).close else d

/-- FRAME_HAND_OUT (R16). -/
def execFrameHandOut (f : FrameNo) (s : State) : Host.Outcome State Fault Refusal := s.event (Device.offerFrame f)

/-- WRITE_CREDIT_GRANT (R130): the test of the grant, after the rest of the event, on the port and then on the other. -/
def execWriteCreditGrant (p : Port) (s : State) : Host.Outcome State Fault Refusal :=
  s.event fun d => (d.settle.grantCredits p).grantCredits p.other

/-- The acts of a read engine whose head may be READY: one for each credit, one for each open READ, and one more. -/
def Device.engineFuel (p : Port) (d : Device) : Nat := (d.port p).readCredits + (d.port p).readList.length + 1

/-- DATA_FORMED (R147): the read engine of the port runs while its head is READY and a credit remains. -/
def execDataFormed (p : Port) (s : State) : Host.Outcome State Fault Refusal :=
  s.event fun d => (engineLoop (d.engineFuel p) p d).close

/-- PERSIST_BEGIN (R94). -/
def execPersistBegin (s : State) : Host.Outcome State Fault Refusal := s.event fun d => d.beginPersist.close

/-- FLUSH_ANSWER (R57). -/
def execFlushAnswer (s : State) : Host.Outcome State Fault Refusal := s.event fun d => d.testFlush.close

/-- LEASE_TICK (R114): the lease clock ticks while it runs (R113). -/
def execLeaseTick (s : State) : Host.Outcome State Fault Refusal :=
  s.event fun d => if d.reservations.clockRunning then d.leaseTick.close else d

/-- LEASE_LAPSE (R114). -/
def execLeaseLapse (id : ResId) (s : State) : Host.Outcome State Fault Refusal :=
  s.event fun d => (d.lapseEntry id).close

/-- RESERVATION_GRANT (R111). -/
def execReservationGrant (holder : Port) (s : State) : Host.Outcome State Fault Refusal :=
  s.event fun d => (d.testPending holder).close

/-- DRAIN_COMPLETE (R168): the clearing, when the device is DRAINING and the drain is complete. -/
def execDrainComplete (s : State) : Host.Outcome State Fault Refusal := s.event Device.drainTest

end Sys2Proof.Machine
end

