-- ==== Sys2Proof/Machine/Link.lean ====
section
/-!
DEFINITION. The commands of the link layer and the session messages: LINK_UP, LINK_DOWN, MESSAGE_CHECK_FAILURE,
UNKNOWN_MESSAGE_KIND, COMMAND_UNKNOWN_OPCODE, HELLO, HELD_HELLO_RELEASE, INBOUND_BYE, OUTBOUND_MESSAGE_SENT (chapter 7).
-/

namespace Sys2Proof.Machine

/-- R121: link up takes a DOWN port to LINKED with an empty outbound order, and has no effect in any other state. -/
def PortUnit.linkCameUp (u : PortUnit) : PortUnit :=
  match u.session with
  | .down => { u with linkUp := true, session := .linked, outbound := [], backlog := [] }
  | _ => u

/-- While RESET_N is asserted the link may still change, and the port stands in DOWN or LINKED by it (R122, R139, log 26). -/
def Device.linkInReset (p : Port) (up : Bool) (d : Device) : Device := d.onPort p fun _ => PortUnit.reset up

/-- R125: in a mode that admits sessions, the ports in WAITING open theirs in one event. -/
def Device.releaseHellos (d : Device) : Device :=
  match d.mode.mode with
  | .serving => (d.openSessions d.waitingPorts).close
  | .faulted => (d.openSessions d.waitingPorts).close
  | .starting => d
  | .draining => d

/-- LINK_UP (R121). -/
def execLinkUp (p : Port) (s : State) : Host.Outcome State Fault Refusal :=
  s.eventOr (Device.linkInReset p true) (Device.onPort p PortUnit.linkCameUp)

/-- LINK_DOWN (R121). -/
def execLinkDown (p : Port) (s : State) : Host.Outcome State Fault Refusal :=
  s.eventOr (Device.linkInReset p false) fun d => (d.linkLoss p).close

/-- MESSAGE_CHECK_FAILURE (R120, R182): the check is tested when the message is taken. -/
def execMessageCheckFailure (p : Port) (s : State) : Host.Outcome State Fault Refusal :=
  s.event (Device.receive p .damaged)

/-- UNKNOWN_MESSAGE_KIND (R131 item 3). -/
def execUnknownMessageKind (p : Port) (kind : Byte) (s : State) : Host.Outcome State Fault Refusal :=
  s.event (Device.receive p (.unknownKind kind))

/-- COMMAND_UNKNOWN_OPCODE (R131 item 3). -/
def execCommandUnknownOpcode (p : Port) (opcode : Byte) (s : State) : Host.Outcome State Fault Refusal :=
  s.event (Device.receive p (.unknownOpcode opcode))

/-- HELLO (R123). -/
def execHello (p : Port) (version : BitVec 16) (s : State) : Host.Outcome State Fault Refusal :=
  s.event (Device.receive p (.hello version))

/-- HELD_HELLO_RELEASE (R125). -/
def execHeldHelloRelease (s : State) : Host.Outcome State Fault Refusal := s.event Device.releaseHellos

/-- INBOUND_BYE (R126). -/
def execInboundBye (p : Port) (s : State) : Host.Outcome State Fault Refusal := s.event (Device.receive p .bye)

/-- OUTBOUND_MESSAGE_SENT (R127). -/
def execOutboundMessageSent (p : Port) (s : State) : Host.Outcome State Fault Refusal :=
  s.event (Device.messageSent p)

end Sys2Proof.Machine
end

