-- ==== Sys2Proof/Machine/Management.lean ====
section
/-!
DEFINITION. The management port (chapter 10): the two I2C transactions and the executions of the request in the mailbox.
-/

namespace Sys2Proof.Machine

/-! ### I2C transactions (R170 to R173) -/

/-- The bus output of a transaction the part does not answer (R170). -/
def BusOutput.silent : BusOutput := { addressAck := false, dataAcks := [], returned := [] }

/-- The most data bytes a request takes (R171). -/
def requestMax : Nat := 4

/-- The busy marker (R173, 11.4). -/
def busyMarker : Byte := 0xFF

/-- R171: the acknowledges of the data bytes offered to an EMPTY mailbox: the first four. -/
def requestAcks (bytes : List Byte) : List Bool := bytes.zipIdx.map fun b => decide (b.2 < requestMax)

/-- A write transaction (R170 to R172). -/
def Mgmt.i2cWrite (address : BitVec 7) (bytes : List Byte) (m : Mgmt) : Mgmt :=
  if address ≠ m.address then { m with bus := BusOutput.silent }
  else
    match m.mailbox, bytes with
    | _, [] => { m with bus := { addressAck := true, dataAcks := [], returned := [] } }
    | .empty, _ :: _ =>
      { m with mailbox := .executing (bytes.take requestMax),
               bus := { addressAck := true, dataAcks := requestAcks bytes, returned := [] } }
    | _, _ :: _ =>
      ({ m with bus := { addressAck := true, dataAcks := [false], returned := [] } } : Mgmt).raise .mailboxOverrun

/-- The first `length` bytes of a response, then 00H (R173). -/
def responseBytes (resp : List Byte) (length : Nat) : List Byte :=
  resp.take length ++ List.replicate (length - resp.length) 0

/-- A read transaction (R170, R173). -/
def Mgmt.i2cRead (address : BitVec 7) (length : Nat) (m : Mgmt) : Mgmt :=
  if address ≠ m.address then { m with bus := BusOutput.silent }
  else
    match m.mailbox with
    | .ready resp =>
      { m with mailbox := if resp.length ≤ length then .empty else .ready resp,
               bus := { addressAck := true, dataAcks := [], returned := responseBytes resp length } }
    | _ => { m with bus := { addressAck := true, dataAcks := [], returned := List.replicate length busyMarker } }

/-- The management port changed. -/
def Device.onMgmt (f : Mgmt → Mgmt) (d : Device) : Device := { d with mgmt := f d.mgmt }

/-- While RESET_N is asserted the port acknowledges nothing (R170). -/
def Device.busSilent (d : Device) : Device := d.onMgmt fun m => { m with bus := BusOutput.silent }

/-! ### Executions (R174) -/

/-- The length of a request by its code (Table 11-8). -/
def requestLength (code : Byte) : Option Nat :=
  match code.toNat with
  | 0x01 => some 1
  | 0x02 => some 1
  | 0x03 => some 3
  | 0x04 => some 2
  | 0x05 => some 2
  | 0x06 => some 3
  | 0x07 => some 3
  | 0x08 => some 1
  | 0x09 => some 1
  | _ => none

/-- The mailbox holds the response of the execution (R174). -/
def Device.respond (code : Byte) (result : MgmtResult) (fields : List Byte) (d : Device) : Device :=
  d.onMgmt fun m => { m with mailbox := .ready (response code result fields) }

/-- The request in the mailbox is executed when it has the code and that code's length; `act` is given the parameters. With
any other mailbox there is no such request to execute (log 13). -/
def Device.execute (code : Byte) (act : List Byte → Device → Device) (d : Device) : Device :=
  match d.mgmt.mailbox with
  | .executing (c :: params) => if c = code ∧ requestLength c = some (params.length + 1) then act params d else d
  | _ => d

/-- R174: a request with an unknown code, or with a length that is not its code's. -/
def Device.badRequest (d : Device) : Device :=
  match d.mgmt.mailbox with
  | .executing (c :: params) =>
    match requestLength c with
    | none => d.respond c .badCode []
    | some n => if n = params.length + 1 then d else d.respond c .badLength []
  | _ => d

/-- READ STATUS (R177). -/
def Device.readStatus (d : Device) : Device := d.respond 0x01 .ok d.statusFields

/-- READ CONDITIONS (R176): the flags and masks reported, and every flag reported raised cleared. -/
def Device.readConditions (d : Device) : Device :=
  (d.respond 0x02 .ok (conditionFields d.mgmt.flags d.mgmt.masks)).onMgmt fun m => { m with flags := 0 }

/-- MASK CONDITIONS (R176): all nine masks replaced; a bit beyond the nine is out of range. -/
def Device.maskConditions (v : Nat) (d : Device) : Device :=
  if v < 2 ^ 9 then
    let d := d.onMgmt fun m => { m with masks := BitVec.ofNat 9 v }
    d.respond 0x03 .ok (conditionFields d.mgmt.flags d.mgmt.masks)
  else d.respond 0x03 .badParameter []

/-- READ REMAP ENTRY (R178). -/
def Device.readRemapEntry (index : Nat) (d : Device) : Device :=
  let r := d.remap.entryFields index
  d.respond 0x04 r.1 r.2

/-- DETACH PORT on one port (R137): the session ends, a held HELLO is dropped, or nothing; and the code that reports it. -/
def Device.detach (p : Port) (d : Device) : Device :=
  match (d.port p).session with
  | .attached => (d.respond 0x05 .ok [0x00]).endSessions [p] false (some .admin)
  | .waiting _ => (d.respond 0x05 .ok [0x01]).onPort p (PortUnit.leave false (some .admin))
  | .linked => d.respond 0x05 .ok [0x02]
  | .down => d.respond 0x05 .ok [0x02]

/-- DETACH PORT (R137, R179). -/
def Device.detachPort (which : Nat) (d : Device) : Device :=
  match which with
  | 0 => (d.detach .a).close
  | 1 => (d.detach .b).close
  | _ => d.respond 0x05 .badParameter []

/-- SET LEASE TICK (R180): a period of 1 to 100 ms. -/
def Device.setLeaseTick (ms : Nat) (d : Device) : Device :=
  if 1 ≤ ms ∧ ms ≤ 100 then (d.onMgmt fun m => { m with tickMs := ms }).respond 0x06 .ok (beBytes 2 ms)
  else d.respond 0x06 .badParameter []

/-- SET WATERMARK (R180): 256 to 1000 frames. -/
def Device.setWatermark (n : Nat) (d : Device) : Device :=
  if 256 ≤ n ∧ n ≤ 1000 then (d.onMgmt fun m => { m with watermark := n }).respond 0x07 .ok (beBytes 2 n)
  else d.respond 0x07 .badParameter []

/-- DISCARD HELD (R19, R179). -/
def Device.discardHeld (d : Device) : Device :=
  (d.respond 0x08 .ok (beBytes 2 d.frames.heldFrames.length)).discardHeldFrames.close

/-- SOFT RESTART (R165, R166, R179): the response carries the mode in which the request is taken. -/
def Device.takeSoftRestart (d : Device) : Device :=
  (d.respond 0x09 .ok [d.mode.mode.code]).softRestart.close

/-- I2C_WRITE_TRANSACTION (R171, R172). -/
def execI2cWriteTransaction (address : BitVec 7) (bytes : List Byte) (s : State) :
    Host.Outcome State Fault Refusal :=
  s.eventOr Device.busSilent (Device.onMgmt (Mgmt.i2cWrite address bytes))

/-- I2C_READ_TRANSACTION (R173). -/
def execI2cReadTransaction (address : BitVec 7) (length : Nat) (s : State) : Host.Outcome State Fault Refusal :=
  s.eventOr Device.busSilent (Device.onMgmt (Mgmt.i2cRead address length))

/-- MANAGEMENT_BAD_REQUEST (R174). -/
def execManagementBadRequest (s : State) : Host.Outcome State Fault Refusal := s.event Device.badRequest

/-- READ_STATUS (R177). -/
def execReadStatus (s : State) : Host.Outcome State Fault Refusal :=
  s.event (Device.execute 0x01 fun _ => Device.readStatus)

/-- READ_CONDITIONS (R176). -/
def execReadConditions (s : State) : Host.Outcome State Fault Refusal :=
  s.event (Device.execute 0x02 fun _ => Device.readConditions)

/-- MASK_CONDITIONS (R176). -/
def execMaskConditions (s : State) : Host.Outcome State Fault Refusal :=
  s.event (Device.execute 0x03 fun params => Device.maskConditions (beValue params))

/-- READ_REMAP_ENTRY (R178). -/
def execReadRemapEntry (s : State) : Host.Outcome State Fault Refusal :=
  s.event (Device.execute 0x04 fun params => Device.readRemapEntry (beValue params))

/-- DETACH_PORT (R137). -/
def execDetachPort (s : State) : Host.Outcome State Fault Refusal :=
  s.event (Device.execute 0x05 fun params => Device.detachPort (beValue params))

/-- SET_LEASE_TICK (R113, R180). -/
def execSetLeaseTick (s : State) : Host.Outcome State Fault Refusal :=
  s.event (Device.execute 0x06 fun params => Device.setLeaseTick (beValue params))

/-- SET_WATERMARK (R180). -/
def execSetWatermark (s : State) : Host.Outcome State Fault Refusal :=
  s.event (Device.execute 0x07 fun params => Device.setWatermark (beValue params))

/-- DISCARD_HELD (R19). -/
def execDiscardHeld (s : State) : Host.Outcome State Fault Refusal :=
  s.event (Device.execute 0x08 fun _ => Device.discardHeld)

/-- SOFT_RESTART (R165). -/
def execSoftRestart (s : State) : Host.Outcome State Fault Refusal :=
  s.event (Device.execute 0x09 fun _ => Device.takeSoftRestart)

end Sys2Proof.Machine
end

