-- ==== Sys2Proof/Machine/MediaBus.lean ====
section
/-!
DEFINITION. The commands of the media bus and of the channel's timers (chapter 4): completions, timeouts, the arbiter's run,
the recovery's RESET. The four completion rows are one bus transfer, decoded against the kind of the operation in the slot it
names (R183, log 12).
-/

namespace Sys2Proof.Machine

/-- MEDIA_READ_COMPLETION (R71). -/
def execMediaReadCompletion (slot issue outcome : Byte) (body : List Byte) (s : State) :
    Host.Outcome State Fault Refusal :=
  s.event (Device.completion slot issue outcome body)

/-- MEDIA_WRITE_COMPLETION (R71). -/
def execMediaWriteCompletion (slot issue outcome : Byte) (body : List Byte) (s : State) :
    Host.Outcome State Fault Refusal :=
  s.event (Device.completion slot issue outcome body)

/-- IDENTIFY_COMPLETION (R74). -/
def execIdentifyCompletion (slot issue outcome : Byte) (body : List Byte) (s : State) :
    Host.Outcome State Fault Refusal :=
  s.event (Device.completion slot issue outcome body)

/-- RESET_COMPLETION (R77). -/
def execResetCompletion (slot issue outcome : Byte) (body : List Byte) (s : State) :
    Host.Outcome State Fault Refusal :=
  s.event (Device.completion slot issue outcome body)

/-- SLOT_ARBITER_RUN (R70). -/
def execSlotArbiterRun (s : State) : Host.Outcome State Fault Refusal :=
  s.event fun d => d.runArbiter.close.drainTest

/-- MEDIA_TIMEOUT (R75): the timer of a READ or a WRITE with the reissue flag clear. -/
def execMediaTimeout (slot : SlotNo) (s : State) : Host.Outcome State Fault Refusal := s.event (Device.timeout slot)

/-- REISSUE_TIMEOUT (R78). -/
def execReissueTimeout (slot : SlotNo) (s : State) : Host.Outcome State Fault Refusal :=
  s.event (Device.reissueTimeout slot)

/-- RESET_TIMEOUT (R78). -/
def execResetTimeout (s : State) : Host.Outcome State Fault Refusal := s.event (Device.controlTimeout .reset)

/-- IDENTIFY_TIMEOUT (R74). -/
def execIdentifyTimeout (s : State) : Host.Outcome State Fault Refusal := s.event (Device.controlTimeout .identify)

/-- RECOVERY_RESET_PLACED (R76). -/
def execRecoveryResetPlaced (s : State) : Host.Outcome State Fault Refusal := s.event Device.placeReset

end Sys2Proof.Machine
end

