-- ==== Sys2Proof/Machine/Power.lean ====
section
/-!
DEFINITION. POWER_ON, RESET_N_ASSERT, RESET_N_RELEASE (R160, R161 and the reset tables of every chapter).
-/

namespace Sys2Proof.Machine

/-- The management address the straps MA1:MA0 give (R170). -/
def strapAddress (straps : BitVec 2) : BitVec 7 := Config.i2cBase + straps.setWidth 7

/-- The values of power-on and of RESET_N in every block (Tables 1-4, 3-1, 4-2, 5-4, 6-1, 7-4, 9-2, 10-3), with the links as
they stand. No reset clears the frames' bytes (R2). -/
def Device.toReset (linkA linkB : Bool) (address : BitVec 7) (d : Device) : Device :=
  { Device.reset with frames := d.frames.cleared, portA := PortUnit.reset linkA, portB := PortUnit.reset linkB,
                      mgmt := Mgmt.reset address }

/-- POWER_ON: every block at its power-on values, the straps read, the links as they come up; then start-up begins. -/
def Device.powerOn (straps : BitVec 2) (linkA linkB : Bool) (d : Device) : Device :=
  (d.toReset linkA linkB (strapAddress straps)).startUp

/-- RESET_N_ASSERT: the values of power-on, the lease clock stopped, nothing started; the links stay as they are (R122) and
the address stays until the release reads the straps (R170). -/
def Device.resetAssert (d : Device) : Device :=
  { d.toReset d.portA.linkUp d.portB.linkUp d.mgmt.address with
      resetAsserted := true, reservations := { Reservations.reset with clockRunning := false } }

/-- RESET_N_RELEASE: the straps are read, the lease clock starts with a whole period, each port begins in DOWN or LINKED by its
link, and start-up begins (R113, R122, R161, R170). A release without an assertion is no event (log 13). -/
def Device.resetRelease (straps : BitVec 2) (d : Device) : Device :=
  if d.resetAsserted then
    ({ d with resetAsserted := false,
              reservations := { d.reservations with clockRunning := true, periodMs := d.mgmt.tickMs },
              portA := PortUnit.reset d.portA.linkUp, portB := PortUnit.reset d.portB.linkUp,
              mgmt := { d.mgmt with address := strapAddress straps } } : Device).startUp
  else d

/-- POWER_ON (R160). -/
def execPowerOn (straps : BitVec 2) (linkA linkB : Bool) (s : State) : Host.Outcome State Fault Refusal :=
  s.always (Device.powerOn straps linkA linkB)

/-- RESET_N_ASSERT (R160). -/
def execResetNAssert (s : State) : Host.Outcome State Fault Refusal := s.always Device.resetAssert

/-- RESET_N_RELEASE (R161). -/
def execResetNRelease (straps : BitVec 2) (s : State) : Host.Outcome State Fault Refusal :=
  s.always (Device.resetRelease straps)

end Sys2Proof.Machine
end

