-- ==== Sys2Proof/Machine/Dispatch.lean ====
section
/-!
DEFINITION. The meaning of every command: one arm per constructor of `Instr`, one call per arm.
-/

namespace Sys2Proof.Machine

/-- The effect of a command on everything but the queue. -/
def exec (i : Instr) (s : State) : Host.Outcome State Fault Refusal :=
  match i with
  | .powerOn straps linkA linkB => Sys2Proof.Machine.execPowerOn straps linkA linkB s
  | .resetNAssert => Sys2Proof.Machine.execResetNAssert s
  | .resetNRelease straps => Sys2Proof.Machine.execResetNRelease straps s
  | .linkUp p => Sys2Proof.Machine.execLinkUp p s
  | .linkDown p => Sys2Proof.Machine.execLinkDown p s
  | .messageCheckFailure p => Sys2Proof.Machine.execMessageCheckFailure p s
  | .unknownMessageKind p kind => Sys2Proof.Machine.execUnknownMessageKind p kind s
  | .hello p version => Sys2Proof.Machine.execHello p version s
  | .heldHelloRelease => Sys2Proof.Machine.execHeldHelloRelease s
  | .inboundBye p => Sys2Proof.Machine.execInboundBye p s
  | .read p tag start count => Sys2Proof.Machine.execRead p tag start count s
  | .write p tag durable start count => Sys2Proof.Machine.execWrite p tag durable start count s
  | .flush p tag => Sys2Proof.Machine.execFlush p tag s
  | .reserve p tag start count ticks => Sys2Proof.Machine.execReserve p tag start count ticks s
  | .renew p tag id ticks => Sys2Proof.Machine.execRenew p tag id ticks s
  | .release p tag id => Sys2Proof.Machine.execRelease p tag id s
  | .query p tag => Sys2Proof.Machine.execQuery p tag s
  | .inboundData p tag index bytes => Sys2Proof.Machine.execInboundData p tag index bytes s
  | .inboundCredit p count => Sys2Proof.Machine.execInboundCredit p count s
  | .cancel p tag => Sys2Proof.Machine.execCancel p tag s
  | .outboundMessageSent p => Sys2Proof.Machine.execOutboundMessageSent p s
  | .frameHandOut f => Sys2Proof.Machine.execFrameHandOut f s
  | .writeCreditGrant p => Sys2Proof.Machine.execWriteCreditGrant p s
  | .dataFormed p => Sys2Proof.Machine.execDataFormed p s
  | .mediaReadCompletion slot issue outcome body => Sys2Proof.Machine.execMediaReadCompletion slot issue outcome body s
  | .mediaWriteCompletion slot issue outcome body => Sys2Proof.Machine.execMediaWriteCompletion slot issue outcome body s
  | .identifyCompletion slot issue outcome body => Sys2Proof.Machine.execIdentifyCompletion slot issue outcome body s
  | .resetCompletion slot issue outcome body => Sys2Proof.Machine.execResetCompletion slot issue outcome body s
  | .slotArbiterRun => Sys2Proof.Machine.execSlotArbiterRun s
  | .mediaTimeout slot => Sys2Proof.Machine.execMediaTimeout slot s
  | .reissueTimeout slot => Sys2Proof.Machine.execReissueTimeout slot s
  | .resetTimeout => Sys2Proof.Machine.execResetTimeout s
  | .identifyTimeout => Sys2Proof.Machine.execIdentifyTimeout s
  | .recoveryResetPlaced => Sys2Proof.Machine.execRecoveryResetPlaced s
  | .persistBegin => Sys2Proof.Machine.execPersistBegin s
  | .flushAnswer => Sys2Proof.Machine.execFlushAnswer s
  | .leaseTick => Sys2Proof.Machine.execLeaseTick s
  | .leaseLapse id => Sys2Proof.Machine.execLeaseLapse id s
  | .reservationGrant holder => Sys2Proof.Machine.execReservationGrant holder s
  | .i2cWriteTransaction address bytes => Sys2Proof.Machine.execI2cWriteTransaction address bytes s
  | .i2cReadTransaction address length => Sys2Proof.Machine.execI2cReadTransaction address length s
  | .managementBadRequest => Sys2Proof.Machine.execManagementBadRequest s
  | .readStatus => Sys2Proof.Machine.execReadStatus s
  | .readConditions => Sys2Proof.Machine.execReadConditions s
  | .maskConditions => Sys2Proof.Machine.execMaskConditions s
  | .readRemapEntry => Sys2Proof.Machine.execReadRemapEntry s
  | .detachPort => Sys2Proof.Machine.execDetachPort s
  | .setLeaseTick => Sys2Proof.Machine.execSetLeaseTick s
  | .setWatermark => Sys2Proof.Machine.execSetWatermark s
  | .discardHeld => Sys2Proof.Machine.execDiscardHeld s
  | .softRestart => Sys2Proof.Machine.execSoftRestart s
  | .drainComplete => Sys2Proof.Machine.execDrainComplete s
  | .commandUnknownOpcode p opcode => Sys2Proof.Machine.execCommandUnknownOpcode p opcode s

end Sys2Proof.Machine
end

