-- ==== Sys2Proof/Safety.lean ====
section
/-!
DEFINITION. What counts as a sound part, in the terms statements use: the bounds and the agreements the chapters give for every
block between events.
-/

namespace Sys2Proof.Machine

/-! ### Management port -/

/-- A request has 1 to 4 bytes (R171); a response 3 to 32, the first of them its length (R173). -/
def Mailbox.Sound : Mailbox → Prop
  | .empty => True
  | .executing req => 1 ≤ req.length ∧ req.length ≤ 4
  | .ready resp => 3 ≤ resp.length ∧ resp.length ≤ 32 ∧ resp.head? = some (BitVec.ofNat 8 resp.length)

/-- The address is one the straps give (R170), the settings are in range (R180), the mailbox is sound. -/
def Mgmt.Sound (m : Mgmt) : Prop :=
  (0x2C ≤ m.address.toNat ∧ m.address.toNat ≤ 0x2F) ∧ (1 ≤ m.tickMs ∧ m.tickMs ≤ 100)
    ∧ (256 ≤ m.watermark ∧ m.watermark ≤ 1000) ∧ m.mailbox.Sound

/-! ### Ports -/

/-- No command is open on the port, and no list names one. -/
def PortUnit.NoCommands (u : PortUnit) : Prop :=
  u.commands = Vector.replicate 16 none ∧ u.readList = [] ∧ u.writeList = []

/-- Every landing buffer is FREE and the commit order is empty. -/
def PortUnit.NoBuffers (u : PortUnit) : Prop := u.landing = Vector.replicate 4 .free ∧ u.commitOrder = []

/-- What a port without a session holds (R122, R129, R139): no command, no window block, no buffer in use, no credit. -/
def PortUnit.Idle (u : PortUnit) : Prop := u.NoCommands ∧ u.window = [] ∧ u.NoBuffers ∧ u.readCredits = 0

/-- The session states a device mode allows (R125, R142): ATTACHED in SERVING or FAULTED, WAITING in STARTING or DRAINING. -/
def SessionState.allowedIn (mode : DeviceMode) : SessionState → Prop
  | .attached => mode = .serving ∨ mode = .faulted
  | .waiting _ => mode = .starting ∨ mode = .draining
  | .linked => True
  | .down => True

/-- A sound port unit: its numbers in range (R122, R133), DOWN exactly while the link is down (R122), idle without a
session. -/
def PortUnit.Sound (u : PortUnit) : Prop :=
  u.lastSession ≤ 65535 ∧ u.readCredits ≤ Config.readCreditCap ∧ (u.session = .down ↔ u.linkUp = false)
    ∧ (u.session ≠ .attached → u.Idle)

/-! ### The other blocks -/

/-- The mode controller's items agree (R160): a cause exactly in FAULTED, a step only in STARTING, DRAINING only during a
restart, and no restart in SERVING or FAULTED. -/
def ModeCtl.Sound (m : ModeCtl) : Prop :=
  (m.cause.isSome ↔ m.mode = .faulted) ∧ (m.step ≠ .none → m.mode = .starting) ∧ (m.mode = .draining → m.restart = true)
    ∧ (m.restart = true → m.mode = .starting ∨ m.mode = .draining)

/-- P is in range once recorded (R74), and recorded while the channel works. An operation is in a slot in no LOST channel
(R78, R79), an IDENTIFY only in IDLE, in slot 0, and nothing else there (R73). Only READs and WRITEs are in the retry set, and
only while RECOVERING (R75, R77). -/
def Channel.Sound (c : Channel) : Prop :=
  (∀ cap, c.capacity = some cap → Config.minCapacity ≤ cap ∧ cap ≤ Config.maxCapacity)
    ∧ (c.state = .running ∨ c.state = .recovering → c.capacity.isSome)
    ∧ (∀ i : SlotNo, ∀ op, c.slots[i] = some op →
        c.state ≠ .lost ∧ (c.state = .idle ↔ op.work = .identify) ∧ (op.work = .identify → i = 0))
    ∧ (∀ op ∈ c.retrySet, c.state = .recovering ∧ op.isTransfer = true)

/-- The generation a persist writes. -/
def PersistState.generation : PersistState → Nat
  | .idle => 0
  | .writingImage _ g _ _ => g

/-- The remap table, the spare pool and the claims of the work list agree. -/
structure Spared (table : List RemapEntry) (spares : Option (Vector SpareState 256)) (workList : List RemapRecord) : Prop where
  /-- The entries ascend by logical block, so that no two share one (R82). -/
  ascending : table.Pairwise fun a b => a.block < b.block
  /-- No two entries share a spare (R82). -/
  distinct : table.Pairwise fun a b => a.spare ≠ b.spare
  /-- The IN_USE spares are those the entries name (R82, R83). -/
  inUse : ∀ s : SpareNo, spares.map (fun v => v[s]) = some .inUse ↔ ∃ e ∈ table, e.spare = s
  /-- A claimed spare is FREE (R83, R86). -/
  claimed : ∀ w ∈ workList, ∀ s : SpareNo, w.claim = some s → spares.map (fun v => v[s]) = some .free
  /-- The records of one frame alone claim a spare (R83). -/
  single : ∀ w ∈ workList, ∀ x ∈ workList, ∀ s, w.claim = some s → x.claim = some s → w.frame = x.frame

/-- Generations fit their four bytes (R94), the pending list holds at most 32 blocks, each once (R84), and table, spares and claims
agree (R82, R83). -/
def Remap.Sound (r : Remap) : Prop :=
  r.generation ≤ Config.lastGeneration ∧ r.persist.generation ≤ Config.lastGeneration
    ∧ (r.pendingList.length ≤ Config.pendingCap ∧ (r.pendingList.map fun b => b.block).Nodup)
    ∧ Spared r.table r.spares r.workList

/-- An entry's count and ticks are in the ranges of R141. -/
def Reservation.Sound (e : Reservation) : Prop :=
  (1 ≤ e.count ∧ e.count ≤ Config.maxReserve) ∧
    match e.state with
    | .pending ticks _ => 1 ≤ ticks ∧ ticks ≤ Config.maxLease
    | .granted n => n ≤ Config.maxLease
    | .lapsed => True

/-- Every entry of the table is sound, and no two protecting entries overlap (R106). -/
def Reservations.Sound (r : Reservations) : Prop :=
  (∀ id : ResId, ∀ e, r.entries[id] = some e → e.Sound)
    ∧ ∀ i j : ResId, i ≠ j → ∀ a b, r.entries[i] = some a → r.entries[j] = some b → a.protects = true → b.protects = true →
      rangesOverlap a.start a.count b.start b.count = false

/-- Write numbers start at 1 (R52), and each set ascends without repeats (R51). -/
def Tracker.Sound (t : Tracker) : Prop :=
  1 ≤ t.nextWrite ∧ t.unwritten.Pairwise (· < ·) ∧ t.held.Pairwise (· < ·)

/-! ### The whole -/

/-- Both ports are sound, in session states the mode allows. -/
def Device.PortsSound (d : Device) : Prop :=
  ∀ p, (d.port p).Sound ∧ (d.port p).session.allowedIn d.mode.mode

/-- The part is sound, block by block. -/
def Device.Sound (d : Device) : Prop :=
  d.PortsSound ∧ d.mode.Sound ∧ d.channel.Sound ∧ d.remap.Sound ∧ d.reservations.Sound ∧ d.tracker.Sound

/-- While RESET_N is asserted the mode controller and the media channel stand at their values of reset (R80, R160). -/
def Device.HeldInReset (d : Device) : Prop :=
  d.resetAsserted = true → d.mode = ModeCtl.reset ∧ d.channel = Channel.reset

/-! ### The frame store and the numbers of its data -/

/-- The frame may be handed out: it is FREE, or CLEAN with hold count 0 (R16). -/
def Frame.available (fr : Frame) : Bool := fr.served.isNone || fr.evictable

/-- The exposure of a DIRTY or WRITING frame. -/
def Frame.unwritten (fr : Frame) : Option Nat :=
  match fr.served with
  | some { state := .dirty e _, .. } => some e
  | some { state := .writing e _ _, .. } => some e
  | _ => none

/-- The exposure of a HELD frame. -/
def Frame.heldAt (fr : Frame) : Option Nat :=
  match fr.served with
  | some { state := .held e, .. } => some e
  | _ => none

/-- The write numbers a frame's record holds: its exposure, and its newer since (R1). -/
def Frame.numbers (fr : Frame) : List Nat :=
  match fr.served with
  | some { state := .dirty e _, .. } => [e]
  | some { state := .writing e none _, .. } => [e]
  | some { state := .writing e (some n) _, .. } => [e, n]
  | some { state := .held e, .. } => [e]
  | _ => []

/-- The collections of the frame store agree with the frames' records. -/
structure FrameStore.Sound (fs : FrameStore) : Prop where
  /-- At most one frame serves a block (R4). -/
  oneFrame : ∀ f g : FrameNo, ∀ sv sw, fs.frames[f].served = some sv → fs.frames[g].served = some sw →
    sv.block = sw.block → f = g
  /-- The clean list holds each CLEAN frame once, and no other (R3, R7). -/
  clean : fs.cleanList.Nodup ∧ ∀ f : FrameNo, f ∈ fs.cleanList ↔ fs.frames[f].kind = .clean
  /-- The dirty queue holds the DIRTY frames, and no other, in ascending order of exposure (R3, R8). -/
  dirty : (fs.dirtyQueue.Pairwise fun f g => fs.exposureAt f < fs.exposureAt g)
    ∧ ∀ f : FrameNo, f ∈ fs.dirtyQueue ↔ fs.frames[f].kind = .dirty
  /-- At most 896 frames are HELD (R90). -/
  cap : fs.count .held ≤ 896
  /-- No entry of the frame-waiter queue names a block that a frame serves (R6). -/
  waiting : ∀ e ∈ fs.waiterQueue, ∀ f : FrameNo, fs.frames[f].serves e.block = false
  /-- While an entry waits no frame is available (R16). -/
  short : fs.waiterQueue ≠ [] → ∀ f : FrameNo, fs.frames[f].available = false

/-- The frame store is sound, and it agrees with the tracker and the landing buffers. -/
structure Device.StoreSound (d : Device) : Prop where
  store : d.frames.Sound
  /-- No write number stands in two frames (R1, R52). -/
  apart : ∀ f g, f ≠ g → ∀ n ∈ (d.frame f).numbers, n ∉ (d.frame g).numbers
  /-- A frame's newer since is above its exposure. -/
  rising : ∀ f, (d.frame f).numbers.Pairwise (· < ·)
  /-- Every write number that stands in a frame has been given (R52). -/
  given : ∀ f, ∀ n ∈ (d.frame f).numbers, n < d.tracker.nextWrite
  /-- The unwritten set holds the exposures of the DIRTY and WRITING frames (R51). -/
  unwritten : ∀ n, n ∈ d.tracker.unwritten ↔ ∃ f, (d.frame f).unwritten = some n
  /-- The held set holds the exposures of the HELD frames (R51). -/
  held : ∀ n, n ∈ d.tracker.held ↔ ∃ f, (d.frame f).heldAt = some n
  /-- A landing buffer that waits for a frame holds a block, the one its entry names (R15, R25). -/
  landed : ∀ e ∈ d.frames.waiterQueue, ∀ p b, e.requester = .landing p b →
    ∃ tag index bytes, (d.port p).landing[b] = .occupied tag index e.block bytes
  /-- A landing buffer waits once. -/
  once : d.frames.waiterQueue.Pairwise fun x y => ∀ p b, x.requester = .landing p b → y.requester ≠ .landing p b
  /-- While RESET_N is asserted nothing waits for a frame. -/
  inReset : d.resetAsserted = true → d.frames.waiterQueue = []

/-- No operation in a slot addresses the physical block (R69). -/
def Channel.Unaddressed (phys : Nat) (c : Channel) : Prop := ∀ (i : SlotNo) (op : Operation), c.slots[i] = some op → op.phys ≠ some phys

/-- The first entry of a list that meets a test. -/
def FirstOf {α : Type} (test : α → Prop) (l : List α) (x : α) : Prop := ∃ a b, l = a ++ x :: b ∧ test x ∧ ∀ y ∈ a, ¬ test y

/-- The request is the oldest eligible one of its class (R67, R69, R70). The one request of the WRITEBACK class is the write-back of
the first frame of the dirty queue without fill outstanding (R43). -/
def Device.Oldest (d : Device) (c : ReqClass) (k : Pick) : Prop :=
  match c, k with
  | .table, .table q => FirstOf (fun x => d.channel.Unaddressed x.phys) d.channel.tableQueue q
  | .spare, .spare q => FirstOf (fun x => d.channel.Unaddressed (sparePhys d.channel.cap x.spare)) d.channel.spareQueue q
  | .fill, .fill q => FirstOf (fun x => d.channel.Unaddressed (mapBlock d.channel.cap d.remap x.block)) d.channel.fillQueue q
  | .writeback, .writeback f =>
    FirstOf (fun g => (d.frame g).fillOutstanding = false) d.frames.dirtyQueue f
      ∧ d.channel.Unaddressed (mapBlock d.channel.cap d.remap (d.frame f).blockNo)
  | _, _ => False

/-- The port takes an inbound message as it arrives: its link is up, none waits before it, and the port is not paused. -/
def Device.Takes (p : Port) (d : Device) : Prop :=
  d.resetAsserted = false ∧ (d.port p).session ≠ .down ∧ (d.port p).backlog = [] ∧ (d.port p).paused = false

/-- A port in session that takes its messages as they arrive. -/
def Device.Hears (p : Port) (d : Device) : Prop := d.Takes p ∧ (d.port p).session = .attached

/-- The record of a tag is free (R140). -/
def Device.TagFree (p : Port) (tag : Tag) (d : Device) : Prop := (d.port p).commands[tag] = none

/-- The read engines and the arbiter have nothing to do. -/
def Device.Calm (d : Device) : Prop := d.portStep = none ∧ d.arbiterStep = none

/-- Nothing but write credits is left to do at the closing of an event: no order overflows and no PENDING entry is due, too. -/
def Device.Quiet (d : Device) : Prop := d.Calm ∧ d.overflowStep = none ∧ ∀ p, d.testPending p = d

/-- Nothing is left to do at the closing of an event. -/
def Device.Settled (d : Device) : Prop := d.Quiet ∧ ∀ p, (d.port p).grantSize = 0

/-- Messages stand at the tail of a port's outbound order. -/
def Device.says (p : Port) (l : List OutMsg) (d : Device) : Device :=
  d.onPort p fun u => { u with outbound := u.outbound ++ l }

/-- The port leaves WAITING or ATTACHED for LINKED with one message behind the order. -/
def Device.linksWith (p : Port) (m : OutMsg) (d : Device) : Device :=
  d.onPort p fun u => { u with session := .linked, outbound := u.outbound ++ [m] }

/-! ### Commands by what they bring -/

/-- The message a command brings to a port (Table 7-1, R182). -/
def messageOf : Instr → Option (Port × Inbound)
  | .messageCheckFailure p => some (p, .damaged)
  | .unknownMessageKind p kind => some (p, .unknownKind kind)
  | .commandUnknownOpcode p opcode => some (p, .unknownOpcode opcode)
  | .hello p version => some (p, .hello version)
  | .inboundBye p => some (p, .bye)
  | .read p tag start count => some (p, .read tag start.toNat count.toNat)
  | .write p tag durable start count => some (p, .write tag durable start.toNat count.toNat)
  | .flush p tag => some (p, .flush tag)
  | .reserve p tag start count ticks => some (p, .reserve tag start.toNat count.toNat ticks.toNat)
  | .renew p tag id ticks => some (p, .renew tag id.toNat ticks.toNat)
  | .release p tag id => some (p, .release tag id.toNat)
  | .query p tag => some (p, .query tag)
  | .inboundData p tag index bytes => some (p, .data tag index.toNat bytes)
  | .inboundCredit p count => some (p, .credit count.toNat)
  | .cancel p tag => some (p, .cancel tag)
  | _ => none

/-- The tag of an inbound COMMAND of a known opcode. -/
def Inbound.commandTag : Inbound → Option Tag
  | .read tag .. => some tag
  | .write tag .. => some tag
  | .flush tag => some tag
  | .reserve tag .. => some tag
  | .renew tag .. => some tag
  | .release tag _ => some tag
  | .query tag => some tag
  | _ => none

/-- A message that is a violation in a port without a session: any but HELLO in LINKED, any but HELLO or BYE in WAITING
(R131 items 1 to 3). A damaged message is not taken (R120). -/
def Inbound.violatesIn (m : Inbound) : SessionState → Prop
  | .linked => m ≠ .damaged ∧ ∀ v, m ≠ .hello v
  | .waiting _ => m ≠ .damaged ∧ m ≠ .bye ∧ ∀ v, m ≠ .hello v
  | _ => False

/-- The commands whose one effect on a port in session is to end it: whether the link is lost, and the BYE (R136). -/
def sessionEndOf : Instr → Option (Port × Bool × Option ByeReason)
  | .linkDown p => some (p, true, none)
  | .messageCheckFailure p => some (p, true, none)
  | .inboundBye p => some (p, false, some .requested)
  | .unknownMessageKind p _ => some (p, false, some .violation)
  | .commandUnknownOpcode p _ => some (p, false, some .violation)
  | .hello p version => if version = Config.protocolVersion then none else some (p, false, some .version)
  | _ => none

/-- The commands that act while RESET_N is asserted: the pins, the link layer's reports, the I2C bus. -/
def actsInReset : Instr → Bool
  | .powerOn .. => true
  | .resetNAssert => true
  | .resetNRelease _ => true
  | .linkUp _ => true
  | .linkDown _ => true
  | .i2cWriteTransaction .. => true
  | .i2cReadTransaction .. => true
  | _ => false

/-! ### Acceptance (Table 8-1) -/

/-- The first failed check of a READ. -/
def Device.refusesRead (start count : Nat) (d : Device) : Option Status :=
  if count < 1 ∨ 256 < count then some .badRequest
  else if d.channel.logicalCapacity < start + count then some .outOfRange
  else if d.mode.mode ≠ .serving then some .notServing
  else none

/-- The first failed check of a WRITE. -/
def Device.refusesWrite (p : Port) (start count : Nat) (d : Device) : Option Status :=
  if count < 1 ∨ 256 < count then some .badRequest
  else if d.channel.logicalCapacity < start + count then some .outOfRange
  else if d.mode.mode ≠ .serving then some .notServing
  else if d.remap.lock ≠ none then some .writeLocked
  else if d.reservations.conflicts p start count then some .reserved
  else none

/-- The first failed check of a RESERVE. -/
def Device.refusesReserve (start count ticks : Nat) (d : Device) : Option Status :=
  if d.channel.logicalCapacity < start + count then some .outOfRange
  else if d.mode.mode ≠ .serving then some .notServing
  else if count < 1 ∨ 65536 < count ∨ ticks < 1 ∨ 60000 < ticks then some .badRequest
  else none

end Sys2Proof.Machine
end

