-- ==== Sys2Proof/Certificates/Slice0/Obligations.lean ====
section
/-!
DEFINITION. The statements for the provers: one `def Obligations.<Name> : Prop` each. A conclusion `exec c s = .next …` says that
the command completes, and how it leaves the whole part: what it does not name stays. `close` is the closing of the event (log 6),
which `ClosingDoesWhatIsDueAndNothingElse` delimits.
-/

open Sys2Proof Sys2Proof.Machine

/-! ### The machine as a whole -/

/-- A step takes the command at the front of the queue and runs it with the rest. -/
def Obligations.StepRunsTheFrontCommand : Prop :=
  ∀ (c : Instr) (rest : List Instr) (s : State), s.pending = c :: rest → step s = exec c { s with pending := rest }

/-- Every command ends in a next state, and leaves the queue as it is; with no command waiting the block idles (the model's choice,
log 3). So every step answers a next state. -/
def Obligations.EveryStepEndsInANextState : Prop :=
  (∀ (c : Instr) (s : State), ∃ d : Device, exec c s = .next { s with toDevice := d })
  ∧ ∀ s : State, s.pending = [] → step s = .next s

/-- The values of Tables 1-4 to 10-3 before start-up begins, with the links down and the straps 00 (the model's choice, log 1),
and this state is sound. -/
def Obligations.ResetStandsAtThePowerOnValues : Prop :=
  State.reset.pending = [] ∧ State.reset.mode = { mode := .starting, step := .none, restart := false, cause := none }
    ∧ State.reset.channel.state = .idle ∧ State.reset.channel.capacity = none
    ∧ (∀ i : SlotNo, State.reset.channel.slots[i] = none ∧ State.reset.channel.issueCounts[i] = 0)
    ∧ (∀ f : FrameNo, (State.reset.frame f).served = none)
    ∧ State.reset.tracker = { nextWrite := 1, unwritten := [], held := [], flushList := [], earliestLost := none }
    ∧ State.reset.remap.table = [] ∧ State.reset.remap.spares = none ∧ State.reset.remap.lock = none
    ∧ (∀ id : ResId, State.reset.reservations.entries[id] = none)
    ∧ (∀ p, (State.reset.port p).session = .down ∧ (State.reset.port p).lastSession = 0)
    ∧ State.reset.mgmt.flags = 0 ∧ State.reset.mgmt.masks = BitVec.allOnes 9 ∧ State.reset.mgmt.tickMs = 10
    ∧ State.reset.mgmt.watermark = 768 ∧ State.reset.mgmt.mailbox = .empty
    ∧ State.reset.toDevice.Sound ∧ State.reset.toDevice.StoreSound ∧ State.reset.toDevice.HeldInReset ∧ State.reset.mgmt.Sound

/-- Every step keeps the blocks of the part sound (port units, mode controller, media channel, remap table with its spares, claims
and pending list, reservation table with its protecting ranges apart, tracker), and the reset values held while RESET_N is
asserted. -/
def Obligations.StepKeepsThePartSound : Prop :=
  ∀ s t : State, s.toDevice.Sound → s.toDevice.HeldInReset → step s = .next t →
    t.toDevice.Sound ∧ t.toDevice.HeldInReset

/-- Every step keeps the frame store sound, and in agreement with the tracker and the landing buffers: one frame for a block, the
clean list and the dirty queue hold the CLEAN and the DIRTY frames, the latter by ascending exposure, at most 896 frames are HELD,
no entry waits for an indexed block or beside an available frame, and the two sets hold the exposures of the frames. -/
def Obligations.StepKeepsTheFrameStoreSound : Prop :=
  ∀ s t : State, s.toDevice.StoreSound → step s = .next t → t.toDevice.StoreSound

/-- Every step keeps the management port sound: its address, its settings in range, its mailbox within the lengths. -/
def Obligations.StepKeepsTheManagementPortSound : Prop :=
  ∀ s t : State, s.mgmt.Sound → step s = .next t → t.mgmt.Sound

/-- While RESET_N is asserted no command has an effect but the pins, the link's own state (log 26) and the I2C bus, which
acknowledges nothing. -/
def Obligations.AssertedResetHoldsThePartIdle : Prop :=
  ∀ s : State, s.resetAsserted = true →
    (∀ c : Instr, actsInReset c = false → exec c s = .next s)
    ∧ (∀ p, exec (.linkUp p) s = .next { s with toDevice := s.setPort p (PortUnit.reset true) })
    ∧ (∀ p, exec (.linkDown p) s = .next { s with toDevice := s.setPort p (PortUnit.reset false) })
    ∧ (∀ a bytes, exec (.i2cWriteTransaction a bytes) s = .next { s with toDevice := s.onMgmt fun m =>
        { m with bus := { addressAck := false, dataAcks := [], returned := [] } } })
    ∧ (∀ a n, exec (.i2cReadTransaction a n) s = .next { s with toDevice := s.onMgmt fun m =>
        { m with bus := { addressAck := false, dataAcks := [], returned := [] } } })

/-- Flags fall only when READ CONDITIONS reports them, masks, settings and address change only by their own requests and the
release of RESET_N; power-on and RESET_N set all of them. -/
def Obligations.ManagementStateChangesOnlyByItsOwnRules : Prop :=
  ∀ (c : Instr) (s t : State), exec c s = .next t → (∀ a b e, c ≠ .powerOn a b e) → c ≠ .resetNAssert →
    (c ≠ .readConditions → ∀ k : Condition, s.mgmt.raised k = true → t.mgmt.raised k = true)
    ∧ (c ≠ .maskConditions → t.mgmt.masks = s.mgmt.masks)
    ∧ (c ≠ .setLeaseTick → t.mgmt.tickMs = s.mgmt.tickMs)
    ∧ (c ≠ .setWatermark → t.mgmt.watermark = s.mgmt.watermark)
    ∧ ((∀ a, c ≠ .resetNRelease a) → t.mgmt.address = s.mgmt.address)

/-- The closing of an event changes nothing where nothing is due. It changes no mode, no channel state, no mask and no setting,
and on a port without a session, idle and within its order's bounds, neither the session nor the order. It takes the link of a
port DOWN whose order overflowed: at a message queued while 256 stand the order is emptied and a session ends (R127; at the closing
by the model's choice, log 7). -/
def Obligations.ClosingDoesWhatIsDueAndNothingElse : Prop :=
  (∀ d : Device, d.Settled → d.close = d)
    ∧ (∀ d : Device, d.close.mode = d.mode ∧ d.close.channel.state = d.channel.state
      ∧ d.close.channel.capacity = d.channel.capacity ∧ d.close.resetAsserted = d.resetAsserted
      ∧ d.close.mgmt.masks = d.mgmt.masks ∧ d.close.mgmt.tickMs = d.mgmt.tickMs
      ∧ d.close.mgmt.watermark = d.mgmt.watermark ∧ d.close.mgmt.mailbox = d.mgmt.mailbox
      ∧ ∀ p, (d.port p).session ≠ .attached → (d.port p).Idle → (d.port p).outbound.length ≤ 256 →
        (d.close.port p).session = (d.port p).session ∧ (d.close.port p).outbound = (d.port p).outbound
          ∧ (d.close.port p).Idle)
    ∧ ∀ (d : Device) (p : Port) (m : OutMsg), 256 ≤ (d.port p).outbound.length →
      ((d.port p).session = .attached ∨ ((d.port p).session ≠ .down ∧ (d.port p).Idle)) →
      let t := (d.send p m).close
      (t.port p).session = .down ∧ (t.port p).linkUp = false ∧ (t.port p).outbound = [] ∧ (t.port p).Idle
        ∧ ((d.port p).session = .attached → t.mgmt.raised (.ended p) = true)

/-! ### Power and reset (R160, R161 and the reset tables) -/

/-- POWER_ON sets every block and begins start-up: the IDENTIFY is in slot 0. The frames' bytes stay (the model's choice of what
they hold, log 2). RESET_N asserted gives the values of power-on with the lease clock stopped and nothing started; the links stay,
and the I2C address stays until the release reads the straps (the model's choice, log 21). RESET_N released: the straps are read,
the lease clock starts a whole period, each port stands by its link, and start-up begins. A release without an assertion is no
event (the model's choice, log 13). -/
def Obligations.PowerAndResetSetEveryBlock : Prop :=
  (∀ (s : State) (straps : BitVec 2) (linkA linkB : Bool), exec (.powerOn straps linkA linkB) s = .next { s with
      resetAsserted := false,
      frames := { frames := vecMap (fun fr => { fr with served := none }) s.frames.frames, cleanList := [], dirtyQueue := [],
                  waiterQueue := [] },
      tracker := { nextWrite := 1, unwritten := [], held := [], flushList := [], earliestLost := none },
      channel := { state := .idle, capacity := none,
                   slots := (Vector.replicate 4 none).set 0
                     (some { work := .identify, phys := none, timerMs := 2000, reissue := false }),
                   issueCounts := (Vector.replicate 4 0).set 0 1, retrySet := [], tableQueue := [], spareQueue := [],
                   fillQueue := [] },
      remap := { table := [], spares := none, pendingList := [], workList := [], batch := [], inFlight := [], persist := .idle,
                 load := none, activeCopy := none, generation := 0, degradedA := false, degradedB := false, lock := none },
      reservations := { entries := Vector.replicate 16 none, clockRunning := true, periodMs := 10 },
      portA := PortUnit.reset linkA, portB := PortUnit.reset linkB,
      mode := { mode := .starting, step := .identifying, restart := false, cause := none },
      mgmt := { address := 0x2C + straps.setWidth 7, mailbox := .empty, flags := 0, masks := BitVec.allOnes 9, tickMs := 10,
                watermark := 768, bus := { addressAck := false, dataAcks := [], returned := [] } } })
  ∧ (∀ s : State, exec .resetNAssert s = .next { s with
      resetAsserted := true,
      frames := { frames := vecMap (fun fr => { fr with served := none }) s.frames.frames, cleanList := [], dirtyQueue := [],
                  waiterQueue := [] },
      tracker := Tracker.reset, channel := Channel.reset, remap := Remap.reset,
      reservations := { entries := Vector.replicate 16 none, clockRunning := false, periodMs := 10 },
      portA := PortUnit.reset s.portA.linkUp, portB := PortUnit.reset s.portB.linkUp,
      mode := { mode := .starting, step := .none, restart := false, cause := none },
      mgmt := Mgmt.reset s.mgmt.address })
  ∧ ∀ (s : State) (straps : BitVec 2),
      (s.resetAsserted = true → s.toDevice.HeldInReset → exec (.resetNRelease straps) s = .next { s with
        resetAsserted := false,
        channel := { Channel.reset with
          slots := (Vector.replicate 4 none).set 0
            (some { work := .identify, phys := none, timerMs := 2000, reissue := false }),
          issueCounts := (Vector.replicate 4 0).set 0 1 },
        reservations := { s.reservations with clockRunning := true, periodMs := s.mgmt.tickMs },
        portA := PortUnit.reset s.portA.linkUp, portB := PortUnit.reset s.portB.linkUp,
        mode := { mode := .starting, step := .identifying, restart := false, cause := none },
        mgmt := { s.mgmt with address := 0x2C + straps.setWidth 7 } })
      ∧ (s.resetAsserted = false → exec (.resetNRelease straps) s = .next s)

/-! ### Link and sessions (R120 to R137) -/

/-- The link layer's reports on a port without a session: up takes DOWN to LINKED and is nothing elsewhere; down, or a failed
check, takes the port to DOWN with its order emptied. -/
def Obligations.LinkReportsMoveAPortWithoutASession : Prop :=
  ∀ (s : State) (p : Port), s.resetAsserted = false →
    ((s.port p).session = .down → exec (.linkUp p) s = .next { s with toDevice := s.onPort p fun u =>
        { u with linkUp := true, session := .linked, outbound := [], backlog := [] } })
    ∧ ((s.port p).session ≠ .down → exec (.linkUp p) s = .next s)
    ∧ ((s.port p).session = .down → (s.port p).linkUp = false → exec (.linkDown p) s = .next { s with toDevice := s.close })
    ∧ ((s.port p).session ≠ .down → (s.port p).session ≠ .attached →
        exec (.linkDown p) s = .next { s with toDevice := (s.onPort p fun u =>
          { u with linkUp := false, session := .down, outbound := [], backlog := [] }).close }
        ∧ (s.Takes p → exec (.messageCheckFailure p) s = exec (.linkDown p) s))

/-- A session ends in one event: the port is LINKED behind its BYE, or DOWN with its order emptied, holds nothing of the session,
keeps its session number, and its condition is raised. Its entries leave the flush list and its reservations are freed. The other
port's entries keep their order, those apart that are answered as a new head is tested; its PENDING entries are granted; and it is
told PARTNER_DETACHED behind what all this brings it. -/
def Obligations.SessionEndsInOneEvent : Prop :=
  (∀ (c : Instr) (s : State) (p : Port) (lost : Bool) (bye : Option ByeReason), sessionEndOf c = some (p, lost, bye) →
    s.resetAsserted = false → (s.port p).session = .attached → (c = .linkDown p ∨ s.Takes p) →
    ∃ t, exec c s = .next t
      ∧ (t.port p).session = (if lost then .down else .linked)
      ∧ (t.port p).outbound = (if lost then [] else (s.port p).outbound ++ bye.toList.map .bye)
      ∧ (t.port p).Idle ∧ (t.port p).lastSession = (s.port p).lastSession
      ∧ t.mgmt.raised (.ended p) = true)
  ∧ ∀ (d : Device) (p : Port) (lost : Bool) (bye : Option ByeReason),
    let t := d.endSessions [p] lost bye
    let kept := d.tracker.flushList.filter fun e => decide (e.port ≠ p)
    (∀ e ∈ t.tracker.flushList, e.port ≠ p)
    ∧ (∀ (id : ResId) (e : Reservation), t.reservations.entries[id] = some e →
        e.holder = p.other ∧ ∀ n tag, e.state ≠ .pending n tag)
    ∧ ((d.port p).window = [] → t.tracker.flushList <:+ kept
      ∧ (((∀ e, d.tracker.flushList.head? = some e → e.port ≠ p)
          ∨ ∀ e, kept.head? = some e → d.tracker.headTest e.mark = .waits) → t.tracker.flushList = kept))
    ∧ ((d.port p.other).session = .attached → (t.port p.other).outbound.length ≤ 256 →
      (d.port p.other).outbound <+: (t.port p.other).outbound
      ∧ (t.port p.other).outbound.getLast? = some (.notice .partnerDetached))
    ∧ ∀ (id : ResId) (start count n : Nat) (tag : Tag) (r : ReserveCmd), (d.port p).window = [] → d.tracker.flushList = [] →
      d.reservations.entries[id] = some { holder := p.other, start := start, count := count, state := .pending n tag } →
      (∀ j, j ≠ id → ∀ e, d.reservations.entries[j] = some e → e.holder = p) →
      (d.port p.other).commands[tag] = some (.reserve r) → (d.port p.other).session = .attached →
      (d.port p.other).outbound.length ≤ 255 →
      t.reservations.entries[id] = some { holder := p.other, start := start, count := count, state := .granted n }
        ∧ (t.port p.other).commands[tag] = none
        ∧ (t.port p.other).outbound = (d.port p.other).outbound
          ++ [.response tag .good 0 none (.reservation id), .notice .partnerDetached]

/-- R126: an inbound BYE by session state. R131 in LINKED and WAITING: a message that is out of place there leaves the port LINKED
behind a BYE (VIOLATION), holding nothing. -/
def Obligations.ByesAndMessagesOutOfPlaceAreDecidedBySessionState : Prop :=
  (∀ (s : State) (p : Port), s.Takes p →
    ((s.port p).session = .linked →
      exec (.inboundBye p) s = .next { s with toDevice := (s.linksWith p (.bye .violation)).close })
    ∧ (∀ v, (s.port p).session = .waiting v →
      exec (.inboundBye p) s = .next { s with toDevice := (s.linksWith p (.bye .requested)).close })
    ∧ ((s.port p).session = .attached →
      exec (.inboundBye p) s = .next { s with toDevice := (s.endSessions [p] false (some .requested)).close }
      ∧ ((s.endSessions [p] false (some .requested)).close.port p).session = .linked
      ∧ ((s.endSessions [p] false (some .requested)).close.port p).outbound = (s.port p).outbound ++ [.bye .requested]))
  ∧ ∀ (c : Instr) (s : State) (p : Port) (m : Inbound), messageOf c = some (p, m) → s.Takes p → s.toDevice.Sound →
    m.violatesIn (s.port p).session →
    ∃ t, exec c s = .next t ∧ (t.port p).session = .linked
      ∧ (t.port p).outbound = (s.port p).outbound ++ [.bye .violation] ∧ (t.port p).Idle

/-- R123, R124: a HELLO of version 1 opens a session in SERVING and FAULTED: the next number, the WELCOME, MEDIA_FAULT behind it
in FAULTED, PARTNER_ATTACHED for a partner; in ATTACHED it first ends the session without a BYE; in STARTING and DRAINING it is
held, and replaces a held one. One of another version is refused with BYE (VERSION). -/
def Obligations.HelloIsDecidedByStateVersionAndMode : Prop :=
  ∀ (s : State) (p : Port), s.Takes p →
    let c := exec (.hello p 1) s
    let held : Device := (s.onPort p fun u => { u with session := .waiting 1 }).close
    ((s.mode.mode = .serving ∨ s.mode.mode = .faulted) →
      ((s.port p).session = .linked →
        c = .next { s with toDevice :=
          (Device.notify p.other .partnerAttached (s.onPort p fun u =>
            let n := if u.lastSession = 65535 then 1 else u.lastSession + 1
            { u with session := .attached, lastSession := n,
                     outbound := u.outbound
                       ++ .welcome n s.channel.logicalCapacity s.remap.lock (decide ((s.port p.other).session = .attached))
                       :: (if s.mode.mode = .faulted then [.notice .mediaFault] else []) })).close })
      ∧ ((s.port p).session = .attached →
        c = .next { s with toDevice := ((s.endSessions [p] false none).openSessions [p]).close }))
    ∧ ((s.mode.mode = .starting ∨ s.mode.mode = .draining) → (s.port p).session = .linked →
      c = .next { s with toDevice := held })
    ∧ (∀ v, (s.port p).session = .waiting v → c = .next { s with toDevice := held })
    ∧ (∀ version, version ≠ 1 → ((s.port p).session = .linked ∨ ∃ v, (s.port p).session = .waiting v) →
      exec (.hello p version) s = .next { s with toDevice := (s.linksWith p (.bye .version)).close })

/-- R125: in a mode that admits sessions, both held HELLOs open in one event, each WELCOME with the partner flag set and no
PARTNER_ATTACHED; one alone sees the partner as it stands. In STARTING and DRAINING they stay held. -/
def Obligations.HeldHellosOpenTheirSessions : Prop :=
  ∀ s : State, s.resetAsserted = false →
    let opened (partner : Bool) (u : PortUnit) : PortUnit :=
      let n := if u.lastSession = 65535 then 1 else u.lastSession + 1
      { u with session := .attached, lastSession := n,
               outbound := u.outbound ++ .welcome n s.channel.logicalCapacity s.remap.lock partner
                 :: (if s.mode.mode = .faulted then [.notice .mediaFault] else []) }
    ((s.mode.mode = .serving ∨ s.mode.mode = .faulted) → s.portA.waiting = true → s.portB.waiting = true →
      s.portA.outbound.length < 256 → s.portB.outbound.length < 256 →
      exec .heldHelloRelease s = .next { s with toDevice := ((s.onPort .a (opened true)).onPort .b (opened true)).close })
    ∧ (∀ p, (s.mode.mode = .serving ∨ s.mode.mode = .faulted) → (s.port p).waiting = true →
      (s.port p.other).waiting = false → (s.port p).outbound.length < 256 →
      exec .heldHelloRelease s = .next { s with toDevice :=
        (Device.notify p.other .partnerAttached
          (s.onPort p (opened (decide ((s.port p.other).session = .attached))))).close })
    ∧ ((s.mode.mode = .starting ∨ s.mode.mode = .draining) → exec .heldHelloRelease s = .next s)

/-- R127: the link sends the head of the order, with the bytes the layouts give it, and a waiting message is taken once fewer than
192 stand. A message that arrives during the pause waits; with the link down there is none to take (log 9, log 10). -/
def Obligations.OutboundOrderSendsAndPauses : Prop :=
  ∀ (s : State) (p : Port), s.resetAsserted = false →
    (∀ m rest, (s.port p).outbound = m :: rest → (s.port p).backlog = [] →
      exec (.outboundMessageSent p) s = .next { s with toDevice := s.onPort p fun u =>
        { u with outbound := rest, lineOut := m.bytes } })
    ∧ (∀ m rest x, (s.port p).outbound = m :: rest → (s.port p).backlog = [x] → rest.length < 192 →
      exec (.outboundMessageSent p) s = .next { s with toDevice := Device.takeMessage p x (s.onPort p fun u =>
        { u with outbound := rest, lineOut := m.bytes, backlog := [] }) })
    ∧ ((s.port p).outbound = [] → exec (.outboundMessageSent p) s = .next s)
    ∧ ∀ c m, messageOf c = some (p, m) →
      ((s.port p).session ≠ .down → 192 ≤ (s.port p).outbound.length →
        exec c s = .next { s with toDevice := s.onPort p fun u => { u with backlog := u.backlog ++ [m] } })
      ∧ ((s.port p).session = .down → exec c s = .next s)

/-! ### Commands and data of a session (chapters 6 to 8) -/

/-- Table 8-1, R134: a COMMAND that fails a check is answered with the first failed check's status, and one whose tag is open draws
DUPLICATE_TAG; nothing else changes but what the closing of the event still does. -/
def Obligations.RefusedCommandsAreAnsweredAndChangeNothingElse : Prop :=
  ∀ (s : State) (p : Port) (tag : Tag), s.Hears p →
    let refused (st : Status) : Device := s.says p [.response tag st 0 none .none]
    (s.TagFree p tag →
      (∀ start count st, s.refusesRead start.toNat count.toNat = some st →
        exec (.read p tag start count) s = .next { s with toDevice := (refused st).close })
      ∧ (∀ durable start count st, s.refusesWrite p start.toNat count.toNat = some st →
        exec (.write p tag durable start count) s = .next { s with toDevice := (refused st).close })
      ∧ (s.mode.mode ≠ .serving → exec (.flush p tag) s = .next { s with toDevice := (refused .notServing).close })
      ∧ (∀ start count ticks st, s.refusesReserve start.toNat count.toNat ticks.toNat = some st →
        exec (.reserve p tag start count ticks) s = .next { s with toDevice := refused st })
      ∧ (∀ id ticks, (ticks.toNat < 1 ∨ 60000 < ticks.toNat) →
        exec (.renew p tag id ticks) s = .next { s with toDevice := refused .badRequest }))
    ∧ ∀ c m, messageOf c = some (p, m) → m.commandTag = some tag → ¬ s.TagFree p tag →
      (s.says p [.notice (.duplicateTag tag)]).Settled →
      exec c s = .next { s with toDevice := s.says p [.notice (.duplicateTag tag)] }

/-- R144, R145: an accepted READ joins the read list QUEUED, and the window is refilled. R149: an accepted WRITE joins the write
list, MOVING when it is the head and QUEUED otherwise, with nothing received or committed. R54, R56, R151: an accepted FLUSH takes
the last write number as its mark; at the head of the list it is answered in its own event unless the head test waits, otherwise it
stands SETTLING at the tail. -/
def Obligations.AcceptedCommandsJoinTheirLists : Prop :=
  (∀ (s : State) (p : Port) (tag : Tag) (start count : BitVec 32), s.Hears p → s.TagFree p tag →
      s.refusesRead start.toNat count.toNat = none →
      exec (.read p tag start count) s = .next { s with toDevice :=
        ((s.onPort p fun u =>
          { u.setCommand tag (some (.read { start := start.toNat, count := count.toNat, state := .queued, sent := 0 })) with
              readList := u.readList ++ [tag] }).refill p).close })
  ∧ (∀ (s : State) (p : Port) (tag : Tag) (durable : Bool) (start count : BitVec 32), s.Hears p → s.TagFree p tag →
      s.refusesWrite p start.toNat count.toNat = none →
      exec (.write p tag durable start count) s = .next { s with toDevice :=
        (s.onPort p fun u =>
          { u.setCommand tag (some (.write
              { start := start.toNat, count := count.toNat, durable := durable,
                state := if u.writeList = [] then .moving else .queued, received := 0, committed := 0 })) with
              writeList := u.writeList ++ [tag] }).close })
  ∧ ∀ (s : State) (p : Port) (tag : Tag), s.Hears p → s.TagFree p tag → s.mode.mode = .serving →
      let mark := s.tracker.nextWrite - 1
      let joined : Device := (s.setCommand p tag (some .flush)).setFlushList
        (s.tracker.flushList ++ [{ kind := .flush, port := p, tag := tag, mark := mark }])
      let answered (st : Status) : Device := s.says p [.response tag st 0 none .none]
      ((s.tracker.flushList ≠ [] ∨ s.tracker.headTest mark = .waits) →
        exec (.flush p tag) s = .next { s with toDevice := joined.close })
      ∧ (s.tracker.flushList = [] → s.tracker.headTest mark = .good →
        exec (.flush p tag) s = .next { s with toDevice := (answered .good).close })
      ∧ (s.tracker.flushList = [] → s.tracker.headTest mark = .incomplete →
        exec (.flush p tag) s = .next { s with toDevice := (answered .incomplete).close })

/-- R109: a RESERVE that passed its checks is decided by the first of the four tests that holds. -/
def Obligations.ReserveIsDecidedByTheFirstTestThatHolds : Prop :=
  ∀ (s : State) (p : Port) (tag : Tag) (start count : BitVec 32) (ticks : BitVec 16), s.Hears p → s.TagFree p tag →
    s.refusesReserve start.toNat count.toNat ticks.toNat = none →
    let c := exec (.reserve p tag start count ticks) s
    let answered (st : Status) (payload : Payload) (d : Device) : Device := d.says p [.response tag st 0 none payload]
    let entry (st : ResState) : Option Reservation :=
      some { holder := p, start := start.toNat, count := count.toNat, state := st }
    (s.reservations.protecting start.toNat count.toNat ≠ [] →
      c = .next { s with toDevice := answered .conflict .none s.toDevice })
    ∧ (s.reservations.protecting start.toNat count.toNat = [] →
      ((∀ id : ResId, s.reservations.entries[id] ≠ none) → c = .next { s with toDevice := answered .tableFull .none s.toDevice })
      ∧ ∀ id : ResId, s.reservations.entries[id] = none → (∀ j < id, s.reservations.entries[j] ≠ none) →
        (((s.port p.other).writeOverlaps start.toNat count.toNat = true →
          c = .next { s with toDevice :=
            (s.setEntry id (entry (.pending ticks.toNat tag))).setCommand p tag (some (.reserve
              { start := start.toNat, count := count.toNat, ticks := ticks.toNat, id := id })) })
        ∧ ((s.port p.other).writeOverlaps start.toNat count.toNat = false →
          c = .next { s with toDevice :=
            (answered .good (.reservation id) (s.setEntry id (entry (.granted ticks.toNat)))) })))

/-- R115: a RENEW is decided by the entry its id names. -/
def Obligations.RenewIsDecidedByItsEntry : Prop :=
  ∀ (s : State) (p : Port) (tag : Tag) (id : Byte) (ticks : BitVec 16), s.Hears p → s.TagFree p tag →
    1 ≤ ticks.toNat → ticks.toNat ≤ 60000 →
    let c := exec (.renew p tag id ticks) s
    let answered (st : Status) (d : Device) : Device := d.says p [.response tag st 0 none .none]
    (∀ i : ResId, id.toNat = i.val →
      (∀ start count n, s.reservations.entries[i] = some { holder := p, start := start, count := count, state := .granted n } →
        c = .next { s with toDevice := answered .good (s.setEntry i
          (some { holder := p, start := start, count := count, state := .granted ticks.toNat })) })
      ∧ (∀ start count, s.reservations.entries[i] = some { holder := p, start := start, count := count, state := .lapsed } →
        c = .next { s with toDevice := answered .expired (s.setEntry i none) })
      ∧ (∀ start count n t,
        s.reservations.entries[i] = some { holder := p, start := start, count := count, state := .pending n t } →
        c = .next { s with toDevice := answered .noSuchReservation s.toDevice })
      ∧ (∀ e, s.reservations.entries[i] = some e → e.holder = p.other →
        c = .next { s with toDevice := answered .noSuchReservation s.toDevice })
      ∧ (s.reservations.entries[i] = none → c = .next { s with toDevice := answered .noSuchReservation s.toDevice }))
    ∧ (15 < id.toNat → c = .next { s with toDevice := answered .noSuchReservation s.toDevice })

/-- R116: a RELEASE is decided by the entry its id names. -/
def Obligations.ReleaseIsDecidedByItsEntry : Prop :=
  ∀ (s : State) (p : Port) (tag : Tag) (id : Byte), s.Hears p → s.TagFree p tag →
    let c := exec (.release p tag id) s
    let answered (st : Status) (d : Device) : Device := d.says p [.response tag st 0 none .none]
    (∀ i : ResId, id.toNat = i.val →
      (∀ start count n, s.reservations.entries[i] = some { holder := p, start := start, count := count, state := .granted n } →
        c = .next { s with toDevice := answered .good (s.setEntry i none) })
      ∧ (∀ start count, s.reservations.entries[i] = some { holder := p, start := start, count := count, state := .lapsed } →
        c = .next { s with toDevice := answered .expired (s.setEntry i none) })
      ∧ (∀ h start count n t,
        s.reservations.entries[i] = some { holder := h, start := start, count := count, state := .pending n t } →
        c = .next { s with toDevice := answered .badRequest s.toDevice })
      ∧ (∀ start count n,
        s.reservations.entries[i] = some { holder := p.other, start := start, count := count, state := .granted n } →
        c = .next { s with toDevice := answered .noSuchReservation s.toDevice })
      ∧ (∀ start count,
        s.reservations.entries[i] = some { holder := p.other, start := start, count := count, state := .lapsed } →
        c = .next { s with toDevice := answered .noSuchReservation s.toDevice })
      ∧ (s.reservations.entries[i] = none → c = .next { s with toDevice := answered .noSuchReservation s.toDevice }))
    ∧ (15 < id.toNat → c = .next { s with toDevice := answered .noSuchReservation s.toDevice })

/-- R153: a QUERY is answered GOOD at once with the status record, in every mode, and changes nothing else. -/
def Obligations.QueryAnswersTheStatusRecord : Prop :=
  ∀ (s : State) (p : Port) (tag : Tag), s.Hears p → s.TagFree p tag →
    exec (.query p tag) s = .next { s with toDevice := s.says p [.response tag .good 0 none (.record
      { mode := s.mode.mode, lock := s.remap.lock, capacity := s.channel.logicalCapacity,
        free := s.frames.count .free, clean := s.frames.count .clean, dirty := s.frames.count .dirty,
        held := s.frames.count .held, freeSpares := s.remap.unclaimed.length,
        partner := decide ((s.port p.other).session = .attached), generation := s.remap.generation })] }

/-- R132: an inbound DATA of a session, by the tests in their order. R133: an inbound CREDIT adds its count to the read credits, up to
64, and is a violation beyond. -/
def Obligations.InboundDataAndCreditAreTakenByTheirTests : Prop :=
  (∀ (s : State) (p : Port) (tag : Tag) (index : BitVec 16) (bytes : Block), s.Hears p →
    let c := exec (.inboundData p tag index bytes) s
    let violated := c = .next { s with toDevice := (s.endSessions [p] false (some .violation)).close }
    ((∀ b : BufNo, (s.port p).landing[b] ≠ .promised) → violated)
    ∧ ∀ b : BufNo, (s.port p).landing[b] = .promised → (∀ j < b, (s.port p).landing[j] ≠ .promised) →
      ((∀ w, (s.port p).commands[tag] ≠ some (.write w)) →
        c = .next { s with toDevice := (s.onPort p (PortUnit.setLanding b .free)).close })
      ∧ ∀ w, (s.port p).commands[tag] = some (.write w) →
        (((s.port p).writeList.head? ≠ some tag ∨ index.toNat ≠ w.received) → violated)
        ∧ ((s.port p).writeList.head? = some tag → index.toNat = w.received →
          let landed : Device := s.onPort p fun u =>
            let v : PortUnit :=
              { (u.setLanding b (.occupied tag index.toNat (w.start + index.toNat) bytes)).setCommand tag
                  (some (.write { w with received := w.received + 1 })) with commitOrder := u.commitOrder ++ [b] }
            if w.received + 1 = w.count then v.leaveWriteList tag else v
          c = .next { s with toDevice :=
            (if (s.port p).commitOrder = [] then landed.tryCommit p else landed).close }))
  ∧ ∀ (s : State) (p : Port) (count : Byte), s.Hears p →
    ((s.port p).readCredits + count.toNat ≤ 64 → exec (.inboundCredit p count) s = .next { s with toDevice :=
      (s.onPort p fun u => { u with readCredits := u.readCredits + count.toNat }).close })
    ∧ (64 < (s.port p).readCredits + count.toNat → exec (.inboundCredit p count) s = .next { s with toDevice :=
      (s.endSessions [p] false (some .violation)).close })

/-- Table 8-4: a CANCEL ends the command its tag names, ABORTED, as its state requires; a tag that names none draws
STRAY_CANCEL. The RESPONSE of a READ stands behind what its dropped holds bring about (the model's choice, log 34), that of a command
in the flush list before those of the new heads answered in the event (the model's choice, log 38). For a WRITE the other port's
PENDING entries are tested (R111) at the closing of the event, and so behind a new head of the flush list (the model's choice, log 32,
log 33). -/
def Obligations.CancelEndsTheCommandItNames : Prop :=
  ∀ (s : State) (p : Port) (tag : Tag), s.Hears p →
    let c := exec (.cancel p tag) s
    let aborted (moved : Nat) (d : Device) : Device := d.answer p tag .aborted moved none .none
    let offList (d : Device) : Device := d.dropFlush fun e => decide (e.port = p ∧ e.tag = tag)
    (s.TagFree p tag → c = .next { s with toDevice := (s.says p [.notice (.strayCancel tag)]).close })
    ∧ (∀ r, (s.port p).commands[tag] = some (.read r) → c = .next { s with toDevice :=
        (((aborted r.sent (s.leaveWindowTag p tag)).onPort p
          fun u => { u with readList := u.readList.erase tag }).refill p).close })
    ∧ (∀ w, (s.port p).commands[tag] = some (.write w) → w.state ≠ .settling → c = .next { s with toDevice :=
        (aborted w.committed (((s.onPort p (PortUnit.leaveWriteList tag)).discardBuffers p tag).tryCommit p)).close })
    ∧ (∀ w, (s.port p).commands[tag] = some (.write w) → w.state = .settling → c = .next { s with toDevice :=
        (offList (aborted w.count s.toDevice)).close })
    ∧ ((s.port p).commands[tag] = some .flush → c = .next { s with toDevice := (offList (aborted 0 s.toDevice)).close })
    ∧ (∀ r, (s.port p).commands[tag] = some (.reserve r) → c = .next { s with toDevice :=
        (((s.setEntry r.id none).setCommand p tag none).says p [.response tag .aborted 0 none .none]).close })

/-! ### The part's own steps (chapters 1 to 6) -/

/-- Table 2-1: a commit takes the next write number, puts its 512 bytes in the frame whatever its state, makes a FREE,
CLEAN or FILLING frame DIRTY with that number, and leaves the exposure of any other as it is. -/
def Obligations.CommitPlacesItsBytesByTheStateOfTheFrame : Prop :=
  ∀ (d : Device) (p : Port) (b : BufNo) (f : FrameNo) (block tag index named : Nat) (t : Tag) (bytes : Block),
    (d.port p).landing[b] = .occupied t index named bytes →
    let n := d.tracker.nextWrite
    let d' := d.commitInto p b f block
    d'.tracker.nextWrite = n + 1 ∧ (d'.port p).landing[b] = .free ∧ (d'.frame f).bytes = bytes
      ∧ ((d.frame f).served = none →
        (d'.frame f).served = some { block := block, hold := 0, state := .dirty n false })
      ∧ ∀ bl h, ((d.frame f).served = some { block := bl, hold := h, state := .clean } →
          (d'.frame f).served = some { block := bl, hold := h, state := .dirty n false })
        ∧ (∀ ws, (d.frame f).served = some { block := bl, hold := h, state := .filling ws } →
          let issued : Bool := !(d.channel.fillQueue.any (fun q => decide (q.frame = f)))
          (d'.frame f).served = some { block := bl, hold := h, state := .dirty n issued })
        ∧ (∀ e o, (d.frame f).served = some { block := bl, hold := h, state := .dirty e o } →
          (d'.frame f).served = some { block := bl, hold := h, state := .dirty e o })
        ∧ (∀ e ph, (d.frame f).served = some { block := bl, hold := h, state := .writing e none ph } →
          (d'.frame f).served = some { block := bl, hold := h, state := .writing e (some n) ph })
        ∧ (∀ e m ph, (d.frame f).served = some { block := bl, hold := h, state := .writing e (some m) ph } →
          (d'.frame f).served = some { block := bl, hold := h, state := .writing e (some m) ph })
        ∧ (∀ e, (d.frame f).served = some { block := bl, hold := h, state := .held e } →
          (d'.frame f).served = some { block := bl, hold := h, state := .held e })

/-- R24, R55, R150: once its frame has the bytes and its buffer is FREE, a commit is counted by its WRITE. Short of the last one the
WRITE has one more block committed. At the last a plain WRITE is answered GOOD with its count and is gone; a DURABLE one is SETTLING
and joins the flush list with the number of that commit as mark, where it is tested at once if it is the head. A tag without an open
WRITE counts nothing. The PENDING entries of the other port are tested for a WRITE that has left at the closing of the event (the
model's choice, log 32). -/
def Obligations.CommitIsCountedByItsWrite : Prop :=
  (∀ (d : Device) (p : Port) (b : BufNo) (f : FrameNo) (block index named : Nat) (t : Tag) (bytes : Block),
    (d.port p).landing[b] = .occupied t index named bytes →
    let n := d.tracker.nextWrite
    let numbered : Device := { d with tracker := { d.tracker with nextWrite := n + 1 } }
    d.commitInto p b f block = ((numbered.commitFrame f block n bytes).onPort p (PortUnit.freeBuffer b)).countCommit p t n)
  ∧ ∀ (d : Device) (p : Port) (t : Tag) (n : Nat),
    ((∀ w, (d.port p).commands[t] ≠ some (.write w)) → d.countCommit p t n = d)
    ∧ ∀ w, (d.port p).commands[t] = some (.write w) →
      let holds (w : WriteCmd) : Device := d.setCommand p t (some (.write w))
      let answered (st : Status) : Device := (d.setCommand p t none).says p [.response t st w.count none .none]
      (w.committed + 1 ≠ w.count → d.countCommit p t n = holds { w with committed := w.committed + 1 })
      ∧ (w.committed + 1 = w.count → w.durable = false → (d.port p).outbound.length ≤ 256 → d.countCommit p t n = answered .good)
      ∧ (w.committed + 1 = w.count → w.durable = true →
        ((d.tracker.flushList ≠ [] ∨ d.tracker.headTest n = .waits) →
          d.countCommit p t n = (holds { w with committed := w.count, state := .settling }).setFlushList
            (d.tracker.flushList ++ [{ kind := .durableWrite, port := p, tag := t, mark := n }]))
        ∧ (d.tracker.flushList = [] → (d.port p).outbound.length ≤ 256 →
          (d.tracker.headTest n = .good → d.countCommit p t n = answered .good)
          ∧ (d.tracker.headTest n = .incomplete → d.countCommit p t n = answered .incomplete)))

/-- R6, R12, R13, R15, R23 to R25: the head of a port's commit order is committed to the frame that serves its block; where none does,
to the lowest FREE frame, or to the first unheld frame of the clean list, which is evicted, unless others wait before it; else it joins
the frame-waiter queue. After a commit the next head is tried. A head that waits stalls its port. -/
def Obligations.HeadOfTheCommitOrderIsTriedUntilOneWaits : Prop :=
  ∀ (d : Device) (p : Port),
    ((d.port p).commitOrder = [] → d.tryCommit p = d)
    ∧ ∀ (b : BufNo) (rest : List BufNo) (t : Tag) (index block : Nat) (bytes : Block),
      (d.port p).commitOrder = b :: rest → rest.length ≤ 3 → (d.port p).landing[b] = .occupied t index block bytes →
      let queue := d.frames.waiterQueue
      ((∃ e ∈ queue, e.requester = .landing p b) → d.tryCommit p = d)
      ∧ ((∀ e ∈ queue, e.requester ≠ .landing p b) →
        (∀ f, (∀ g, (d.frame g).serves block = true ↔ g = f) → d.tryCommit p = (d.commitInto p b f block).tryCommit p)
        ∧ ((∀ g, (d.frame g).serves block = false) →
          let allocated (f : FrameNo) : Device :=
            ((Device.leaveClean f (d.setServed f none)).commitInto p b f block).tryCommit p
          (∀ f, queue = [] → (d.frame f).served = none → (∀ g < f, (d.frame g).served ≠ none) → d.tryCommit p = allocated f)
          ∧ (∀ f bl l r, queue = [] → (∀ g, (d.frame g).served ≠ none) → d.frames.cleanList = l ++ f :: r →
            (∀ g ∈ l, (d.frame g).available = false) → (d.frame f).served = some { block := bl, hold := 0, state := .clean } →
            d.tryCommit p = allocated f)
          ∧ ((queue ≠ [] ∨ ((∀ g, (d.frame g).served ≠ none) ∧ ∀ g ∈ d.frames.cleanList, (d.frame g).available = false)) →
            d.tryCommit p = d.setWaiterQueue (queue ++ [{ requester := .landing p b, block := block }]))))

/-- R5, R9, R12, R13: a window block whose block is indexed takes a hold on the frame: it waits for the fill of a FILLING frame, has
the data of any other, and moves a CLEAN one to the tail of the clean list. Otherwise it is answered with the lowest FREE frame, or
with the first unheld frame of the clean list, which is evicted, unless others wait before it; else it joins the queue. An accepted
READ of one block with the window empty is looked up so. -/
def Obligations.LookUpFindsItsFrameOrAllocatesOne : Prop :=
  (∀ (d : Device) (w : WindowRef) (block : Nat),
    (∀ (f : FrameNo) (hold : Nat), (∀ g, (d.frame g).serves block = true → g = f) →
      let held (st : FrameState) : Device := d.setServed f (some { block := block, hold := hold + 1, state := st })
      let found (st : FrameState) : Prop := (d.frame f).served = some { block := block, hold := hold, state := st }
      (∀ ws, found (.filling ws) →
        d.lookupWindow w block = Device.tellWindow w (.waitingFill f) (held (.filling (ws ++ [w]))))
      ∧ (found .clean → d.lookupWindow w block = Device.tellWindow w (.ready f) (Device.cleanTail f (held .clean)))
      ∧ ∀ st, found st → st ≠ .clean → (∀ ws, st ≠ .filling ws) →
        d.lookupWindow w block = Device.tellWindow w (.ready f) (held st))
    ∧ ((∀ g, (d.frame g).serves block = false) →
      let allocated (f : FrameNo) : Device := Device.tellWindow w (.waitingFill f) (Device.requestFill { frame := f, block := block }
        (Device.leaveClean f (d.setServed f (some { block := block, hold := 1, state := .filling [w] }))))
      let queued : Device := Device.tellWindow w .waitingFrame
        (d.setWaiterQueue (d.frames.waiterQueue ++ [{ requester := .window w, block := block }]))
      (∀ f, d.frames.waiterQueue = [] → (d.frame f).served = none → (∀ g < f, (d.frame g).served ≠ none) →
        d.lookupWindow w block = allocated f)
      ∧ (∀ f b l r, d.frames.waiterQueue = [] → (∀ g, (d.frame g).served ≠ none) → d.frames.cleanList = l ++ f :: r →
        (∀ g ∈ l, (d.frame g).available = false) → (d.frame f).served = some { block := b, hold := 0, state := .clean } →
        d.lookupWindow w block = allocated f)
      ∧ (d.frames.waiterQueue ≠ [] → d.lookupWindow w block = queued)
      ∧ ((∀ g, (d.frame g).served ≠ none) → (∀ g ∈ d.frames.cleanList, (d.frame g).available = false) →
        d.lookupWindow w block = queued)))
  ∧ ∀ (s : State) (p : Port) (tag : Tag) (start : BitVec 32), s.Hears p → s.TagFree p tag →
    s.refusesRead start.toNat 1 = none → (s.port p).readList = [] → (s.port p).window = [] →
    exec (.read p tag start 1) s = .next { s with toDevice :=
      (Device.lookupWindow { port := p, tag := tag, index := 0 } start.toNat (s.onPort p fun u =>
        { u.setCommand tag (some (.read { start := start.toNat, count := 1, state := .moving, sent := 0 })) with
            readList := [tag],
            window := [{ tag := tag, index := 0, block := start.toNat, state := .lookup }] })).close }

/-- R6, R16, R24, R25: an available frame is handed to the head of the queue. A window block there has it FILLING, held by it, with
its fill requested; a landing buffer there is committed to it. Every other entry that names the block leaves the queue in its order
and is given the frame: a window block holds it and waits for the fill, or has the data committed; a landing buffer is committed and
the next head of its port tried before that of the port handed the frame (the model's choice, log 8). The entries of other blocks
stay. An empty queue takes nothing; a frame that is not available is no event (the model's choice, log 13). -/
def Obligations.AvailableFrameIsHandedToTheHeadOfTheQueue : Prop :=
  (∀ (s : State) (f : FrameNo), s.resetAsserted = false →
    let available : Prop := (s.frame f).served = none ∨ ∃ b, (s.frame f).served = some { block := b, hold := 0, state := .clean }
    (available → exec (.frameHandOut f) s = .next { s with toDevice := (s.handOut f).close })
    ∧ (¬ available → exec (.frameHandOut f) s = .next s))
  ∧ ∀ (d : Device) (f : FrameNo),
    (d.frames.waiterQueue = [] → d.handOut f = d)
    ∧ ∀ (e : WaiterEntry) (rest : List WaiterEntry), d.frames.waiterQueue = e :: rest →
      let named := rest.filter fun x => x.block == e.block
      let others := rest.filter fun x => x.block != e.block
      let serving (sv : Option Served) : Device := Device.leaveClean f ((d.setWaiterQueue others).setServed f sv)
      let waits (w : WindowRef) (d : Device) : Device := d.tellWindow w (.waitingFill f)
      let filling (w : WindowRef) (ws : List WindowRef) : Device :=
        waits w (Device.requestFill { frame := f, block := e.block }
          (serving (some { block := e.block, hold := 1 + ws.length, state := .filling (w :: ws) })))
      (∀ (w : WindowRef) (ws : List WindowRef), e.requester = .window w →
        named = ws.map (fun v => { requester := .window v, block := e.block }) →
        d.handOut f = ws.foldl (fun d v => waits v d) (filling w ws))
      ∧ (∀ w q b, e.requester = .window w → named = [{ requester := .landing q b, block := e.block }] →
        d.handOut f = ((filling w []).commitInto q b f e.block).tryCommit q)
      ∧ ∀ p b tag index bytes, e.requester = .landing p b → (d.port p).landing[b] = .occupied tag index e.block bytes →
        let committed : Device := (serving none).commitInto p b f e.block
        (∀ ws : List WindowRef, named = ws.map (fun v => { requester := .window v, block := e.block }) →
          d.handOut f = (ws.foldl (fun d v => d.tellWindow v (.ready f)) (committed.setServed f
            (some { block := e.block, hold := ws.length, state := .dirty d.tracker.nextWrite false }))).tryCommit p)
        ∧ ∀ q b', named = [{ requester := .landing q b', block := e.block }] →
          d.handOut f = ((committed.commitInto q b' f e.block).tryCommit q).tryCommit p

/-- R130: at the end of an event the lowest FREE buffers of a port, as many as the blocks still to be received exceed the credits,
become PROMISED, and one CREDIT is queued. The row grants so on the port it names and then on the other, the closing of every event
on Port A and then on Port B (the model's order, log 6), after the rest of the event, which is nothing where nothing is due. -/
def Obligations.WriteCreditsAreGrantedForBlocksToCome : Prop :=
  (∀ (s : State) (p : Port), s.resetAsserted = false →
    exec (.writeCreditGrant p) s = .next { s with toDevice := (s.settle.grantCredits p).grantCredits p.other }
    ∧ (s.Calm → s.overflowStep = none →
      let tested : Device := (s.testPending .a).testPending .b
      exec (.writeCreditGrant p) s = .next { s with toDevice := (tested.grantCredits p).grantCredits p.other }))
  ∧ (∀ d : Device, d.close = (d.settle.grantCredits .a).grantCredits .b)
  ∧ ∀ (d : Device) (p : Port),
    let k := min (d.port p).freeBuffers.length ((d.port p).toReceive - (d.port p).writeCredits)
    (k ≠ 0 → (d.port p).outbound.length ≤ 256 → d.grantCredits p = d.onPort p fun u =>
      { u with landing := Vector.ofFn fun b => if (u.freeBuffers.take k).contains b then .promised else u.landing[b],
               outbound := u.outbound ++ [.credit k] })
    ∧ (k = 0 → d.grantCredits p = d)

/-- R147: DATA is formed from the READY head with the frame's bytes as they stand; one credit is spent, the block leaves the
window, its READ counts it, its hold is dropped; the engine then goes on. R147, R148: a READY head without a credit, or a waiting
head, stops the engine; a FAILED head ends its READ, MEDIUM_ERROR or INCOMPLETE, with the blocks sent and the failing index, and
spends no credit. R10: a hold dropped counts the frame's holds down and takes the window block from the waiters of a FILLING frame; a
CLEAN frame that comes to be unheld is handed out. At its last block a READ is answered GOOD with its count and leaves the read
list. -/
def Obligations.ReadEngineActsOnItsHead : Prop :=
  (∀ (s : State) (p : Port) (wb : WindowBlock) (rest : List WindowBlock) (f : FrameNo) (n : Nat) (r : ReadCmd),
      s.resetAsserted = false → s.mode.mode = .serving → (s.port p).session = .attached → (s.port p).outbound.length ≤ 256 →
      (s.port p).window = wb :: rest → wb.state = .ready f → (s.port p).readCredits = n + 1 →
      (s.port p).commands[wb.tag] = some (.read r) →
      exec (.dataFormed p) s = .next { s with toDevice :=
        (engineLoop (n + 1 + (s.port p).readList.length) p
          (((Device.dropHold { port := p, tag := wb.tag, index := wb.index } f (s.onPort p fun u =>
            { u.setCommand wb.tag (some (.read { r with sent := r.sent + 1 })) with
                outbound := u.outbound ++ [.data wb.tag wb.index (s.frame f).bytes], readCredits := n,
                window := rest })).finishRead p wb.tag).refill p)).close })
  ∧ (∀ (d : Device) (p : Port) (wb : WindowBlock) (rest : List WindowBlock) (r : ReadCmd),
      d.mode.mode = .serving → (d.port p).session = .attached → (d.port p).outbound.length ≤ 256 →
      (d.port p).window = wb :: rest → (d.port p).commands[wb.tag] = some (.read r) →
      ((∀ f, wb.state = .ready f → (d.port p).readCredits = 0) → (∀ k, wb.state ≠ .failed k) → d.engineStep p = none)
      ∧ ∀ k, wb.state = .failed k →
        d.engineStep p = some (((d.onPort p fun u =>
          { u.setCommand wb.tag none with
              outbound := u.outbound ++ [.response wb.tag (match k with
                | .mediumError => .mediumError
                | .dataLost => .incomplete) r.sent (some wb.index) .none],
              readList := u.readList.erase wb.tag }).leaveWindowTag p wb.tag).refill p))
  ∧ (∀ (d : Device) (w : WindowRef) (f : FrameNo) (block hold : Nat) (st : FrameState),
      (d.frame f).served = some { block := block, hold := hold, state := st } →
      let left (st : FrameState) : Device := d.setServed f (some { block := block, hold := hold - 1, state := st })
      (∀ ws, st = .filling ws → d.dropHold w f = left (.filling (ws.erase w)))
      ∧ (st = .clean → 1 < hold → d.dropHold w f = left .clean)
      ∧ (st = .clean → hold ≤ 1 → d.dropHold w f = (left .clean).handOut f)
      ∧ (st ≠ .clean → (∀ ws, st ≠ .filling ws) → d.dropHold w f = left st))
  ∧ ∀ (d : Device) (p : Port) (t : Tag) (r : ReadCmd), (d.port p).commands[t] = some (.read r) →
      (r.sent ≠ r.count → d.finishRead p t = d)
      ∧ (r.sent = r.count → (d.port p).outbound.length ≤ 256 → d.finishRead p t = d.onPort p fun u =>
        { u.setCommand t none with
            outbound := u.outbound ++ [.response t .good r.count none .none], readList := u.readList.erase t })

/-- R56, R57: the head of the flush list is tested by the four conditions in order. It waits, and ends the test; or it is answered, a
FLUSH with 0 blocks and a DURABLE WRITE with its count, and leaves the list, and the new head is tested in the same event. For a
WRITE so answered the other port's PENDING entries are tested at the closing of the event (the model's choice, log 32). -/
def Obligations.HeadOfTheFlushListIsTestedAndAnswered : Prop :=
  (∀ (t : Tracker) (mark : Nat), t.headTest mark =
    if ∃ n, t.earliestLost = some n ∧ n ≤ mark then .incomplete
    else if ∃ n ∈ t.unwritten, n ≤ mark then .waits
    else if ∃ n ∈ t.held, n ≤ mark then .incomplete
    else .good)
  ∧ (∀ d : Device, (d.tracker.flushList = [] → d.testFlush = d)
    ∧ ∀ (e : FlushEntry) (rest : List FlushEntry), d.tracker.flushList = e :: rest →
      (d.tracker.headTest e.mark = .waits → d.testFlush = d)
      ∧ ((d.port e.port).outbound.length ≤ 256 →
        let answered (st : Status) (moved : Nat) : Device :=
          ((d.setFlushList rest).setCommand e.port e.tag none).says e.port [.response e.tag st moved none .none]
        ((d.port e.port).commands[e.tag] = some .flush →
          (d.tracker.headTest e.mark = .good → d.testFlush = (answered .good 0).testFlush)
          ∧ (d.tracker.headTest e.mark = .incomplete → d.testFlush = (answered .incomplete 0).testFlush))
        ∧ ∀ w, (d.port e.port).commands[e.tag] = some (.write w) →
          (d.tracker.headTest e.mark = .good → d.testFlush = (answered .good w.count).testFlush)
          ∧ (d.tracker.headTest e.mark = .incomplete → d.testFlush = (answered .incomplete w.count).testFlush)))
  ∧ ∀ s : State, s.resetAsserted = false → exec .flushAnswer s = .next { s with toDevice := s.testFlush.close }

/-- R113, R114: a tick counts every GRANTED entry down, lapses those that reach 0, and tells their holders in ascending id order; it
counts no other entry, and changes nothing else; the next period runs at the setting; a stopped clock does not tick. R111: the PENDING
entries of a port that no open WRITE of the other port overlaps are granted with their requested ticks, and their RESERVEs answered
GOOD with their ids in ascending id order. The closing of an event tests both ports' entries once, behind every WRITE that leaves in
it (the model's choice of the place in the event, log 32). The rows: an entry with no ticks left lapses and its holder is told; the
entries of a port are tested. -/
def Obligations.EntriesAreCountedLapsedAndGranted : Prop :=
  (∀ s : State, s.resetAsserted = false →
      (s.reservations.clockRunning = true → ∃ d : Device, exec .leaseTick s = .next { s with toDevice := d.close }
        ∧ d.reservations.periodMs = s.mgmt.tickMs ∧ d.reservations.clockRunning = true
        ∧ (∀ id : ResId, d.reservations.entries[id] = match s.reservations.entries[id] with
          | some { holder := h, start := st, count := ct, state := .granted n } =>
            some { holder := h, start := st, count := ct, state := if n ≤ 1 then .lapsed else .granted (n - 1) }
          | e => e)
        ∧ (∀ p, let told : List OutMsg := (List.finRange 16).filterMap fun id : ResId =>
              match s.reservations.entries[id] with
              | some { holder := h, state := .granted n, .. } =>
                if h = p ∧ n ≤ 1 ∧ (s.port p).session = .attached then some (.notice (.leaseLapsed id)) else none
              | _ => none
            ((s.port p).outbound ++ told).length ≤ 256 →
            d.port p = { s.port p with outbound := (s.port p).outbound ++ told })
        ∧ d = { s.toDevice with reservations := d.reservations, portA := d.portA, portB := d.portB })
      ∧ (s.reservations.clockRunning = false → exec .leaseTick s = .next s))
  ∧ (∀ (d : Device) (p : Port),
      let t := d.testPending p
      let due (id : ResId) : Option Tag := match d.reservations.entries[id] with
        | some { holder := h, start := st, count := ct, state := .pending _ tag } =>
          if h = p ∧ (d.port p.other).writeOverlaps st ct = false then some tag else none
        | _ => none
      let waits (tag : Tag) : Prop := ∃ r, (d.port p).commands[tag] = some (.reserve r)
      (∀ id : ResId, t.reservations.entries[id] = match d.reservations.entries[id] with
        | some { holder := h, start := st, count := ct, state := .pending n tag } =>
          if h = p ∧ (d.port p.other).writeOverlaps st ct = false then
            some { holder := h, start := st, count := ct, state := .granted n }
          else some { holder := h, start := st, count := ct, state := .pending n tag }
        | e => e)
      ∧ (∀ tag : Tag, ((∃ id, due id = some tag) → waits tag → (t.port p).commands[tag] = none)
        ∧ (((∀ id, due id ≠ some tag) ∨ ¬ waits tag) → (t.port p).commands[tag] = (d.port p).commands[tag]))
      ∧ (∀ ids : List ResId, ids.Pairwise (· < ·) →
        (∀ id, id ∈ ids ↔ ∃ tag, due id = some tag ∧ waits tag ∧ ∀ j < id, due j ≠ some tag) →
        (d.port p).outbound.length + ids.length ≤ 256 →
        (t.port p).outbound = (d.port p).outbound
          ++ ids.filterMap fun id => (due id).map fun tag => .response tag .good 0 none (.reservation id))
      ∧ t = ({ d with reservations := t.reservations } : Device).onPort p fun u =>
          { u with commands := (t.port p).commands, outbound := (t.port p).outbound })
  ∧ (∀ d : Device, d.Calm → d.overflowStep = none → d.settle = (d.testPending .a).testPending .b)
  ∧ (∀ (s : State) (p : Port), s.resetAsserted = false →
      exec (.reservationGrant p) s = .next { s with toDevice := (s.testPending p).close })
  ∧ ∀ (s : State) (id : ResId) (p : Port) (st ct : Nat), s.resetAsserted = false → (s.port p).outbound.length ≤ 256 →
      s.reservations.entries[id] = some { holder := p, start := st, count := ct, state := .granted 0 } →
      (s.port p).session = .attached →
      exec (.leaseLapse id) s = .next { s with toDevice :=
        (Device.says p [.notice (.leaseLapsed id)] (s.setEntry id
          (some { holder := p, start := st, count := ct, state := .lapsed }))).close }

/-! ### The media channel (chapter 4) -/

/-- R65, R79: a completion that names no slot, an empty slot or another issue count is stale and changes nothing; in LOST every
completion is. -/
def Obligations.StaleCompletionChangesNothing : Prop :=
  ∀ (s : State) (slot issue outcome : Byte) (body : List Byte), s.resetAsserted = false →
    ((∀ i : SlotNo, slot.toNat = i.val → s.channel.slots[i] = none ∨ s.channel.issueCounts[i] ≠ issue)
      ∨ (s.channel.Sound ∧ s.channel.state = .lost)) →
    exec (.mediaReadCompletion slot issue outcome body) s = .next s
    ∧ exec (.mediaWriteCompletion slot issue outcome body) s = .next s
    ∧ exec (.identifyCompletion slot issue outcome body) s = .next s
    ∧ exec (.resetCompletion slot issue outcome body) s = .next s

/-- R35 to R40, R71: the READ of a fill at a FILLING frame: GOOD or CORRECTED bytes make it CLEAN at the tail of the clean list with
its waiters READY, and hand it out when no one holds it; CORRECTED reports the block WEAK; any other outcome releases it and
reports the block UNREADABLE. At a DIRTY frame the fill is superseded: it is no longer outstanding, its bytes are dropped, and the
block is reported the same. A body of fewer than 512 bytes is a failing outcome (R65, R183); of a longer one the first 512 bytes are
taken (read by the model, log 27). -/
def Obligations.FillCompletionReachesItsFrame : Prop :=
  ∀ (s : State) (i : SlotNo) (slot issue outcome : Byte) (body : List Byte) (op : Operation) (f : FrameNo) (block hold : Nat),
    s.resetAsserted = false → slot.toNat = i.val → s.channel.slots[i] = some op → s.channel.issueCounts[i] = issue →
    op.work = .fill f →
    let c := exec (.mediaReadCompletion slot issue outcome body) s
    let ended (d : Device) : Host.Outcome State Fault Refusal :=
      .next { s with toDevice := (d.onChannel (Channel.emptySlot i)).closeMedia }
    let good : Prop := outcome = 0 ∧ 512 ≤ body.length
    let corrected : Prop := outcome = 1 ∧ 512 ≤ body.length
    let failed : Prop := 1 < outcome.toNat ∨ body.length < 512
    (∀ ws, (s.frame f).served = some { block := block, hold := hold, state := .filling ws } →
      let told : Device := ws.foldl (fun d w => d.tellWindow w (.ready f)) (Device.cleanTail f (s.setFrame f
        { bytes := blockOfList body, served := some { block := block, hold := hold, state := .clean } }))
      let filled : Device := if hold = 0 then told.handOut f else told
      (good → c = ended filled)
      ∧ (corrected → c = ended (filled.reportPending block .weak))
      ∧ (failed → c = ended ((s.releaseFrame f .mediumError).reportPending block .unreadable)))
    ∧ ∀ e, (s.frame f).served = some { block := block, hold := hold, state := .dirty e true } →
      let superseded : Device := s.setServed f (some { block := block, hold := hold, state := .dirty e false })
      (good → c = ended superseded)
      ∧ (corrected → c = ended (superseded.reportPending block .weak))
      ∧ (failed → c = ended (superseded.reportPending block .unreadable))

/-- R46, R48, R71: the WRITE of a write-back: DONE makes its frame CLEAN, to be handed out when no one holds it, or DIRTY again
with its newer since, and the tracker is told; WRITE_FAULT hands it with the image taken at issue to the remap unit in phase
SPARE. -/
def Obligations.WriteBackCompletionSettlesItsFrame : Prop :=
  ∀ (s : State) (i : SlotNo) (slot issue outcome : Byte) (body : List Byte) (op : Operation) (f : FrameNo) (image : Block)
    (block hold e : Nat) (newer : Option Nat) (ph : Phase), s.resetAsserted = false → slot.toNat = i.val →
    s.channel.slots[i] = some op → s.channel.issueCounts[i] = issue → op.work = .writeback f image →
    (s.frame f).served = some { block := block, hold := hold, state := .writing e newer ph } →
    let c := exec (.mediaWriteCompletion slot issue outcome body) s
    let becomes (st : FrameState) : Device := s.setServed f (some { block := block, hold := hold, state := st })
    let ended (d : Device) : Device := (d.onChannel (Channel.emptySlot i)).closeMedia
    let clean : Device := ((becomes .clean).cleanTail f).reportCleared e
    (outcome = 0 → newer = none → c = .next { s with toDevice := ended (if hold = 0 then clean.handOut f else clean) })
    ∧ (∀ n, outcome = 0 → newer = some n →
      c = .next { s with toDevice := ended (((becomes (.dirty n false)).enterDirty f).reportMoved e n) })
    ∧ (outcome ≠ 0 → c = .next { s with toDevice :=
        (ended ((becomes (.writing e newer .spare)).takeIn f block .fault image)) })

/-- R74, R183: the end of the IDENTIFY of start-up: P in range is recorded, the channel runs, and the ten table reads are
requested; P too small is a fault of the capacity; anything else loses the medium. Of a body of more than five bytes the first five are
P (read by the model, log 37). -/
def Obligations.IdentifyCompletionRecordsTheCapacity : Prop :=
  ∀ (s : State) (i : SlotNo) (slot issue outcome : Byte) (body : List Byte) (op : Operation), s.resetAsserted = false →
    slot.toNat = i.val → s.channel.slots[i] = some op → s.channel.issueCounts[i] = issue → op.work = .identify →
    s.mode.mode = .starting → s.mode.step = .identifying →
    let c := exec (.identifyCompletion slot issue outcome body) s
    let cap := (body.getD 0 0).toNat % 2 * 2 ^ 32 + beValue (field body 1 4)
    let emptied : Device := s.onChannel (Channel.emptySlot i)
    (outcome = 0 → 5 ≤ body.length → 4368 ≤ cap → cap ≤ 2 ^ 32 → c = .next { s with toDevice :=
      ({ emptied with
          channel := { emptied.channel with
            state := .running, capacity := some cap,
            tableQueue := s.channel.tableQueue
              ++ [0, 1, 2, 3, 4, 8, 9, 10, 11, 12].map fun b => { phys := b, image := none } },
          remap := { s.remap with load := some [] },
          mode := { s.mode with step := .loading } } : Device).closeMedia })
    ∧ (outcome = 0 → 5 ≤ body.length → cap < 4368 → c = .next { s with toDevice :=
      ((emptied.raise .mediaFault).enterFaulted .capacity).closeMedia })
    ∧ ((outcome ≠ 0 ∨ body.length < 5 ∨ 2 ^ 32 < cap) → c = .next { s with toDevice := emptied.mediumLost.closeMedia })

/-- R77, R78: the DONE of the RESET reissues the retry set in its order into the slots from 0 on, flags set and timers fresh, and
the channel runs again. Any other outcome loses the medium. -/
def Obligations.ResetCompletionEndsTheRecovery : Prop :=
  ∀ (s : State) (slot issue outcome : Byte) (body : List Byte) (op : Operation), s.resetAsserted = false →
    slot.toNat = 0 → s.channel.slots = (Vector.replicate 4 none).set 0 (some op) →
    s.channel.issueCounts[(0 : SlotNo)] = issue → op.work = .reset → s.channel.retrySet.length ≤ 4 →
    (∀ old ∈ s.channel.retrySet, old.isTransfer = true) →
    let c := exec (.resetCompletion slot issue outcome body) s
    (outcome = 0 → c = .next { s with toDevice :=
      (s.onChannel fun ch =>
        { ch with state := .running, retrySet := [],
                  slots := Vector.ofFn fun i : SlotNo => ch.retrySet[i.val]?.map fun old =>
                    { work := old.work, phys := old.phys, timerMs := 2000, reissue := true },
                  issueCounts := Vector.ofFn fun i : SlotNo =>
                    if i.val < ch.retrySet.length then ch.issueCounts[i] + 1 else ch.issueCounts[i] }).closeMedia })
    ∧ (outcome ≠ 0 → c = .next { s with toDevice := (s.onChannel (Channel.emptySlot 0)).mediumLost.closeMedia })

/-- R43, R44, R66, R69, R70: the class order is TABLE, SPARE, then FILL before WRITEBACK below the watermark and after it at or
above; the request picked is the oldest eligible one of the first class that has one, and it goes into the lowest empty slot. A
request of TABLE, SPARE or FILL leaves its queue; a write-back leaves its frame WRITING, in HOME with a WRITE in the slot, or handed
to the remap unit for a pending block. The arbiter issues in RUNNING only, never to a physical block that an operation in a slot
addresses. With one fill alone waiting and every slot empty, it issues that fill into slot 0: mapped at that moment, a fresh timer,
the issue count one up. -/
def Obligations.ArbiterIssuesTheFirstEligibleRequestInClassOrder : Prop :=
  (∀ d : Device, d.frames.count .dirty < d.mgmt.watermark → d.classOrder = [.table, .spare, .fill, .writeback])
  ∧ (∀ d : Device, d.mgmt.watermark ≤ d.frames.count .dirty → d.classOrder = [.table, .spare, .writeback, .fill])
  ∧ (∀ (d : Device) (k : Pick), d.pick = some k ↔
      ∃ l c r, d.classOrder = l ++ c :: r ∧ d.Oldest c k ∧ ∀ c' ∈ l, ∀ k', ¬ d.Oldest c' k')
  ∧ (∀ (d : Device) (i : SlotNo) (k : Pick), d.channel.state = .running → d.channel.slots[i] = none →
      (∀ j < i, d.channel.slots[j] ≠ none) → d.pick = some k → d.arbiterStep = some (d.issue i k))
  ∧ (∀ (d : Device) (i : SlotNo),
      let issued (w : Work) (phys : Nat) (ch : Channel) : Channel :=
        { ch with slots := ch.slots.set i.val (some { work := w, phys := some phys, timerMs := 2000, reissue := false }),
                  issueCounts := ch.issueCounts.set i.val (ch.issueCounts[i] + 1) }
      (∀ phys, d.issue i (.table { phys := phys, image := none }) =
        d.onChannel fun ch => issued .tableRead phys { ch with tableQueue := ch.tableQueue.erase { phys := phys, image := none } })
      ∧ (∀ phys image, d.issue i (.table { phys := phys, image := some image }) =
        d.onChannel fun ch => issued (.tableWrite image) phys
          { ch with tableQueue := ch.tableQueue.erase { phys := phys, image := some image } })
      ∧ (∀ q, d.issue i (.spare q) = d.onChannel fun ch => issued (.spare q.frame q.spare q.image) (sparePhys ch.cap q.spare)
          { ch with spareQueue := ch.spareQueue.erase q })
      ∧ (∀ q, d.issue i (.fill q) = d.onChannel fun ch => issued (.fill q.frame) (mapBlock ch.cap d.remap q.block)
          { ch with fillQueue := ch.fillQueue.erase q })
      ∧ ∀ f block hold e o, (d.frame f).served = some { block := block, hold := hold, state := .dirty e o } →
        let image := (d.frame f).bytes
        let writing (ph : Phase) : Device :=
          (d.leaveDirty f).setServed f (some { block := block, hold := hold, state := .writing e none ph })
        ((∀ x ∈ d.remap.pendingList, x.block ≠ block) → d.issue i (.writeback f) =
          ((writing .home).onChannel (issued (.writeback f image) (mapBlock d.channel.cap d.remap block))).reportWriting)
        ∧ ((∃ x ∈ d.remap.pendingList, x.block = block) → d.issue i (.writeback f) =
          (writing .spare).reportWriting.takeIn f block .pending image))
  ∧ (∀ d : Device, d.channel.state ≠ .running → d.arbiterStep = none)
  ∧ (∀ d d' : Device, d.arbiterStep = some d' →
    (∀ i j : SlotNo, ∀ a b, d.channel.slots[i] = some a → d.channel.slots[j] = some b → a.phys.isSome → a.phys = b.phys →
      i = j) →
    ∀ i j : SlotNo, ∀ a b, d'.channel.slots[i] = some a → d'.channel.slots[j] = some b → a.phys.isSome → a.phys = b.phys →
      i = j)
  ∧ ∀ (s : State) (q : FillReq), s.resetAsserted = false → s.channel.state = .running →
    s.channel.slots = Vector.replicate 4 none → s.channel.tableQueue = [] → s.channel.spareQueue = [] →
    s.channel.fillQueue = [q] → s.frames.dirtyQueue = [] →
    let issued : Device := s.onChannel fun ch =>
      { ch with
          fillQueue := [],
          slots := (Vector.replicate 4 none).set 0 (some
            { work := .fill q.frame, timerMs := 2000, reissue := false,
              phys := some (match s.remap.entryOf q.block with
                | some e => ch.cap - 256 + e.spare.val
                | none => q.block + 16) }),
          issueCounts := ch.issueCounts.set 0 (ch.issueCounts[(0 : SlotNo)] + 1) }
    exec .slotArbiterRun s = .next { s with toDevice := issued.close.drainTest }

/-- R75, R76: a READ or WRITE that times out the first time, in RUNNING or RECOVERING, leaves its slot for the tail of the retry set,
and the channel recovers; when that leaves every slot empty a RESET is placed in slot 0 with 5000 ms, in the same event. The row places
it where the channel recovers and every slot is empty, and nowhere else. R78, R163: the expiry of a reissued operation, of the RESET or
of the IDENTIFY loses the medium: the channel is LOST, MEDIA_FAULT is raised, the device is FAULTED with cause MEDIUM, and a restart in
progress is given up. -/
def Obligations.TimeoutsEnterTheRecoveryOrLoseTheMedium : Prop :=
  (∀ s : State, s.resetAsserted = false →
    let reset (ch : Channel) : Channel :=
      { ch with slots := (Vector.replicate 4 none).set 0
                  (some { work := .reset, phys := none, timerMs := 5000, reissue := false }),
                issueCounts := ch.issueCounts.set 0 (ch.issueCounts[(0 : SlotNo)] + 1) }
    (∀ (i : SlotNo) (op : Operation), s.channel.slots[i] = some op → op.isTransfer = true → op.reissue = false →
      (s.channel.state = .running ∨ s.channel.state = .recovering) →
      let retried (ch : Channel) : Channel :=
        { ch with slots := ch.slots.set i.val none i.isLt, retrySet := ch.retrySet ++ [op], state := .recovering }
      ((∃ j, j ≠ i ∧ s.channel.slots[j] ≠ none) →
        exec (.mediaTimeout i) s = .next { s with toDevice := (s.onChannel retried).close.drainTest })
      ∧ ((∀ j, j ≠ i → s.channel.slots[j] = none) →
        exec (.mediaTimeout i) s = .next { s with toDevice := (s.onChannel fun ch => reset (retried ch)).close.drainTest }))
    ∧ (s.channel.state = .recovering → s.channel.slots = Vector.replicate 4 none →
      exec .recoveryResetPlaced s = .next { s with toDevice := s.onChannel reset })
    ∧ ((s.channel.state ≠ .recovering ∨ ∃ j : SlotNo, s.channel.slots[j] ≠ none) → exec .recoveryResetPlaced s = .next s))
  ∧ ∀ (s : State) (c : Instr), s.resetAsserted = false →
    ((∃ i op, c = .reissueTimeout i ∧ s.channel.slots[i] = some op ∧ op.reissue = true)
      ∨ (∃ op, c = .resetTimeout ∧ s.channel.slots[(0 : SlotNo)] = some op ∧ op.work = .reset)
      ∨ (∃ op, c = .identifyTimeout ∧ s.channel.slots[(0 : SlotNo)] = some op ∧ op.work = .identify)) →
    ∃ t, exec c s = .next t ∧ t.channel.state = .lost ∧ t.mgmt.raised .mediaFault = true
      ∧ t.mode.mode = .faulted ∧ t.mode.cause = some .medium
      ∧ (s.mode.mode ≠ .faulted → t.mode.step = .none ∧ t.mode.restart = false)

/-- R62, R78, R112, R125, R158, R163: where the loss of the medium takes the device from SERVING to FAULTED, every open command is
answered NOT_SERVING in the event: on each port the READs in read-list order with their blocks sent, the WRITEs in order of
acceptance with their blocks committed, its flush-list entries in list order (a FLUSH with 0 blocks, a DURABLE WRITE with its
count), its waiting RESERVEs in ascending id order; behind them MEDIA_FAULT on an ATTACHED port. Their records, buffers and window
blocks are given up, the flush list is emptied, the PENDING entries are freed and no other. No commit is taken: a block received and
not yet committed is discarded, though a hold dropped in the entry makes a frame available that its buffer waits for; no buffer waits
any more (DEDUCED from R158, log 36). -/
def Obligations.EntryToFaultedAnswersEveryOpenCommand : Prop :=
  ∀ s : State, s.resetAsserted = false → s.mode.mode = .serving →
    let t : Device := s.mediumLost
    let refused (tag : Tag) (moved : Nat) : OutMsg := .response tag .notServing moved none .none
    let reads (p : Port) : List OutMsg := (s.port p).readList.eraseDups.filterMap fun tag =>
      match (s.port p).commands[tag] with
      | some (.read r) => some (refused tag r.sent)
      | _ => none
    let writes (p : Port) : List OutMsg := (s.port p).writesInOrder.eraseDups.filterMap fun tag =>
      match (s.port p).commands[tag] with
      | some (.write w) => some (refused tag w.committed)
      | _ => none
    let listed (p : Port) : List Tag := ((s.tracker.flushList.filter fun e => decide (e.port = p)).map fun e => e.tag).eraseDups
    let flushes (p : Port) : List OutMsg := (listed p).filterMap fun tag =>
      match (s.port p).commands[tag] with
      | some .flush => some (refused tag 0)
      | some (.write w) => if tag ∈ (s.port p).writesInOrder then none else some (refused tag w.count)
      | _ => none
    let waiting (p : Port) : List Tag := ((List.finRange 16).filterMap fun id : ResId =>
      match s.reservations.entries[id] with
      | some { holder := h, state := .pending _ tag, .. } => if h = p then some tag else none
      | _ => none).eraseDups
    let reserves (p : Port) : List OutMsg := (waiting p).filterMap fun tag =>
      match (s.port p).commands[tag] with
      | some (.reserve _) => some (refused tag 0)
      | _ => none
    let order (p : Port) : List OutMsg := (s.port p).outbound ++ reads p ++ writes p ++ flushes p ++ reserves p
      ++ (if (s.port p).session = .attached then [.notice .mediaFault] else [])
    (∀ p, (order p).length ≤ 256 →
      (t.port p).outbound = order p
      ∧ ∀ (tag : Tag) (c : OpenCmd), (s.port p).commands[tag] = some c →
        let stands : Bool := match c with
          | .read _ => (s.port p).readList.contains tag
          | .write _ => (s.port p).writesInOrder.contains tag || (listed p).contains tag
          | .flush => (listed p).contains tag
          | .reserve _ => (waiting p).contains tag
        (t.port p).commands[tag] = if stands then none else some c)
    ∧ (∀ p, ∀ wb ∈ (t.port p).window,
        (∃ old ∈ (s.port p).window, old.tag = wb.tag ∧ old.index = wb.index ∧ old.block = wb.block)
        ∧ ((∃ r, (s.port p).commands[wb.tag] = some (.read r)) → wb.tag ∉ (s.port p).readList))
    ∧ (∀ p, ∀ b ∈ (s.port p).commitOrder, ∀ tag index block bytes w, (s.port p).landing[b] = .occupied tag index block bytes →
        (s.port p).commands[tag] = some (.write w) → (t.port p).landing[b] = .free)
    ∧ t.tracker = { s.tracker with flushList := [] }
    ∧ (∀ f, (t.frame f).bytes = (s.frame f).bytes)
    ∧ (∀ e ∈ t.frames.waiterQueue, e ∈ s.frames.waiterQueue ∧ ∀ p b, e.requester ≠ .landing p b)
    ∧ (∀ id : ResId, t.reservations.entries[id] = match s.reservations.entries[id] with
        | some { state := .pending _ _, .. } => none
        | e => e)
    ∧ t.mode = { mode := .faulted, step := .none, restart := false, cause := some .medium }
    ∧ t.mgmt.raised .mediaFault = true
    ∧ ((∀ p, (order p).length ≤ 256) →
        (∀ op, s.channel.slots[(0 : SlotNo)] = some op → op.work = .identify → exec .identifyTimeout s = .next { s with toDevice := t })
        ∧ (∀ op, s.channel.slots[(0 : SlotNo)] = some op → op.work = .reset → exec .resetTimeout s = .next { s with toDevice := t })
        ∧ ∀ (i : SlotNo) (op : Operation), s.channel.slots[i] = some op → op.reissue = true →
          exec (.reissueTimeout i) s = .next { s with toDevice := t })

/-! ### The remap unit (chapter 5) -/

/-- R94: a persist that can begin takes the batch into flight, and requests the five blocks of the image of the next generation
for the inactive copy, each AWAITING; at the last generation the batch is lost instead; and none begins otherwise. -/
def Obligations.PersistBeginsWithTheBatch : Prop :=
  ∀ s : State, s.resetAsserted = false →
    (s.remap.batch ≠ [] → s.remap.persist = .idle → s.remap.lock ≠ some .tableLost →
      (s.remap.generation ≠ 0xFFFFFFFF →
        let copy := match s.remap.activeCopy with
          | some .a => Copy.b
          | _ => Copy.a
        let entries := s.remap.table.filter fun e => decide (e.state = .active) || s.remap.batch.contains e.block
        let image := buildImage (s.remap.generation + 1) entries s.remap.isRetired
        exec .persistBegin s = .next { s with toDevice :=
          ((s.onRemap fun r =>
            { r with inFlight := r.batch, batch := [],
                     persist := .writingImage copy (r.generation + 1) (Vector.replicate 5 .awaiting) false }).requestTable
            ((List.range 5).map fun i =>
              { phys := copy.base + i, image := some (blockOfList (image.drop (512 * i))) })).close })
      ∧ (s.remap.generation = 0xFFFFFFFF → exec .persistBegin s = .next { s with toDevice := s.loseBatches.close }))
    ∧ ((s.remap.batch = [] ∨ s.remap.persist ≠ .idle ∨ s.remap.lock = some .tableLost) →
      exec .persistBegin s = .next { s with toDevice := s.close })

/-- R87 steps 1 to 3: a spare write DONE makes the one entry of its block, BATCHED on the new spare, in ascending order; the new
spare is IN_USE, the old one RETIRED, and the block is off the pending list. -/
def Obligations.SpareWriteDoneMakesTheEntry : Prop :=
  ∀ (r : Remap) (w : RemapRecord) (s : SpareNo), r.spares.isSome →
    (∀ e, r.entryOf w.block = some e → e.spare ≠ s) →
    let r' := Remap.placed w s r
    r'.entryOf w.block = some { block := w.block, spare := s, state := .batched }
    ∧ (∀ b, b ≠ w.block → r'.entryOf b = r.entryOf b)
    ∧ (r.table.Pairwise (fun a b => a.block < b.block) → r'.table.Pairwise fun a b => a.block < b.block)
    ∧ r'.spareState s = some .inUse
    ∧ (∀ e, r.entryOf w.block = some e → r'.spareState e.spare = some .retired)
    ∧ ∀ b ∈ r'.pendingList, b.block ≠ w.block

/-- R85, R86, R88, R91, R92: the write lock is entered NO_SPARES from clear and TABLE_LOST from clear or NO_SPARES, with
WRITE_LOCKED raised and each ATTACHED port told, and stays otherwise; NO_SPARES where an event leaves no spare FREE. A record claims
the lowest FREE unclaimed spare and requests its write; where none can be had the lock is entered (on the in-place road too: log 14),
and a PENDING one is written in place on the spare of its entry, any other ends with its frame HELD. -/
def Obligations.WriteLockIsEnteredWhereNoSpareCanBeHad : Prop :=
  (∀ d : Device, (∀ p, (d.port p).outbound.length ≤ 256) →
    let told (reason : LockReason) (u : PortUnit) : PortUnit :=
      if u.session = .attached then { u with outbound := u.outbound ++ [.notice (.writeLocked reason)] } else u
    let locked (reason : LockReason) : Device :=
      { d with remap := { d.remap with lock := some reason }, mgmt := { d.mgmt with flags := d.mgmt.flags ||| 0x001#9 },
               portA := told reason d.portA, portB := told reason d.portB }
    (d.remap.lock = none → d.enterNoSpares = locked .noSpares)
    ∧ (d.remap.lock ≠ some .tableLost → d.enterTableLost = locked .tableLost))
  ∧ (∀ d : Device, d.remap.lock ≠ none → d.enterNoSpares = d)
  ∧ (∀ d : Device, d.remap.lock = some .tableLost → d.enterTableLost = d)
  ∧ (∀ d : Device, d.remap.spares.isSome →
    ((∀ s, d.remap.spareState s ≠ some .free) → d.testSpares = d.enterNoSpares)
    ∧ ((∃ s, d.remap.spareState s = some .free) → d.testSpares = d))
  ∧ ∀ (d : Device) (w : RemapRecord),
    let open_ (s : SpareNo) : Prop := d.remap.spareState s = some .free ∧ ∀ x ∈ d.remap.workList, x.claim ≠ some s
    let request (s : SpareNo) (e : Device) : Device :=
      e.requestSpare { frame := w.frame, block := w.block, spare := s, image := w.image }
    (∀ s, d.remap.lock ≠ some .tableLost → open_ s → (∀ r < s, ¬ open_ r) →
      d.placeRecord w = request s (d.onRemap (Remap.setRecord w.frame (some s) .newSpare)))
    ∧ ((d.remap.lock = some .tableLost ∨ ∀ s, ¬ open_ s) →
      (∀ e, w.origin = .pending → d.remap.entryOf w.block = some e →
        d.placeRecord w = request e.spare (d.enterNoSpares.onRemap (Remap.setRecord w.frame none .inPlace)))
      ∧ ((w.origin = .fault ∨ d.remap.entryOf w.block = none) →
        d.placeRecord w = (d.enterNoSpares.onRemap (Remap.endRecord w.frame)).makeHeld w.frame))

/-- R87 to R90: the completion of a spare write. DONE on the claimed spare makes the entry, and the frame waits in phase TABLE for
the persist its entry joins (begun behind the test of the spares left: the model's choice, log 15), or is made HELD in TABLE_LOST;
WRITE_FAULT there retires the spare, and the record takes its next road. In place, DONE settles the frame, WRITE_FAULT makes it
HELD. A frame made HELD keeps its exposure while fewer than 896 are, and is dropped at the cap. -/
def Obligations.SpareWriteCompletionPlacesOrHoldsItsFrame : Prop :=
  (∀ (s : State) (i : SlotNo) (slot issue outcome : Byte) (body : List Byte) (op : Operation) (f : FrameNo) (sp : SpareNo)
    (image : Block) (w : RemapRecord) (l r : List RemapRecord) (block hold e : Nat) (newer : Option Nat) (ph : Phase),
    s.resetAsserted = false → slot.toNat = i.val → s.channel.slots[i] = some op → s.channel.issueCounts[i] = issue →
    op.work = .spare f sp image → s.remap.workList = l ++ w :: r → w.frame = f → (∀ x ∈ l, x.frame ≠ f) →
    (s.frame f).served = some { block := block, hold := hold, state := .writing e newer ph } →
    let c := exec (.mediaWriteCompletion slot issue outcome body) s
    let ended (d : Device) : Host.Outcome State Fault Refusal :=
      .next { s with toDevice := (d.onChannel (Channel.emptySlot i)).closeMedia }
    (w.claim = some sp →
      (outcome = 0 → s.remap.lock ≠ some .tableLost →
        c = ended (((s.onRemap fun m => { Remap.placed w sp m with batch := m.batch ++ [w.block] }).setServed f
          (some { block := block, hold := hold, state := .writing e newer .table })).testSpares.beginPersist))
      ∧ (outcome = 0 → s.remap.lock = some .tableLost →
        c = ended (((s.onRemap fun m => (Remap.placed w sp m).endRecord f).makeHeld f).testSpares))
      ∧ (outcome ≠ 0 → c = ended
        (((s.onRemap fun m => (m.setSpare sp .retired).setRecord f none w.target).placeRecord w).testSpares)))
    ∧ (w.claim = none → w.target = .inPlace →
      (outcome = 0 → c = ended ((s.onRemap (Remap.endRecord f)).settleFrame f))
      ∧ (outcome ≠ 0 → c = ended ((s.onRemap (Remap.endRecord f)).makeHeld f))))
  ∧ ∀ (d : Device) (f : FrameNo) (block hold e : Nat) (newer : Option Nat) (ph : Phase),
    (d.frame f).served = some { block := block, hold := hold, state := .writing e newer ph } →
    (d.frames.count .held < 896 → d.makeHeld f =
      (d.setServed f (some { block := block, hold := hold, state := .held e })).reportHeld e)
    ∧ (896 ≤ d.frames.count .held → d.makeHeld f = d.releaseFrame f .dataLost)

/-- R95 to R97, R102: the completion of an image-block write. DONE marks its block, and the fifth is the flip: the copy written
active at its generation and no longer degraded, the entries in flight ACTIVE, their frames settled in batch order, the next persist
begun where a batch waits; a format's flip ends the load with an empty table. A first WRITE_FAULT has the block written once more;
a second is persist loss: the copy degraded, the requests not issued withdrawn, the lock TABLE_LOST, the frames of the batch in
flight and then of the persist batch HELD, both emptied; or a format's failure, the table unreadable. One for a block already DONE,
or in IDLE, is ignored. -/
def Obligations.TableWriteCompletionAdvancesThePersist : Prop :=
  ∀ (s : State) (i : SlotNo) (slot issue outcome : Byte) (body : List Byte) (op : Operation) (image : Block) (phys : Nat),
    s.resetAsserted = false → slot.toNat = i.val → s.channel.slots[i] = some op → s.channel.issueCounts[i] = issue →
    op.work = .tableWrite image → op.phys = some phys →
    let c := exec (.mediaWriteCompletion slot issue outcome body) s
    let ended (d : Device) : Host.Outcome State Fault Refusal :=
      .next { s with toDevice := (d.onChannel (Channel.emptySlot i)).closeMedia }
    (s.remap.persist = .idle → c = ended s.toDevice)
    ∧ ∀ (copy : Copy) (g : Nat) (progress : Vector Progress 5) (format : Bool) (b : Fin 5),
      s.remap.persist = .writingImage copy g progress format → phys = copy.base + b.val →
      let marked (v : Progress) : Device := s.onRemap fun r => { r with persist := .writingImage copy g (progress.set b.val v) format }
      let degraded (r : Remap) : Remap := r.setDegraded copy true
      let withdrawn (d : Device) : Device := d.onChannel fun ch => { ch with tableQueue := ch.tableQueue.filter fun q => q.image.isNone }
      (progress[b] = .done → c = ended s.toDevice)
      ∧ (outcome = 0 → progress[b] ≠ .done → (∃ j, j ≠ b ∧ progress[j] ≠ .done) → c = ended (marked .done))
      ∧ (outcome = 0 → progress[b] ≠ .done → (∀ j, j ≠ b → progress[j] = .done) →
        let flipped : Device := (marked .done).onRemap fun r =>
          { r.setDegraded copy false with
              activeCopy := some copy, generation := g,
              table := r.table.map fun e => if r.inFlight.contains e.block then { e with state := .active } else e }
        let settled : Device := (s.remap.inFlight.foldl (fun d block => d.settleEntry block) flipped).onRemap fun r =>
          { r with inFlight := [], persist := .idle }
        c = ended (if format then settled.loadEnd [] (fun _ => false) else settled.beginPersist))
      ∧ (outcome ≠ 0 → progress[b] = .awaiting →
        c = ended ((marked .retrying).requestTable [{ phys := phys, image := some image }]))
      ∧ (outcome ≠ 0 → progress[b] = .retrying → format = false →
        let lost : Device := ((withdrawn ((s.onRemap degraded).raise .tableDegraded)).onRemap fun r =>
          { r with persist := .idle }).enterTableLost
        c = ended (((lost.remap.inFlight ++ lost.remap.batch).foldl (fun d block => d.holdEntry block) lost).onRemap fun r =>
          { r with inFlight := [], batch := [] }))
      ∧ (outcome ≠ 0 → progress[b] = .retrying → format = true →
        c = ended ((((withdrawn s.toDevice).onRemap fun r => { r with persist := .idle, degradedA := true }).raise
          .tableDegraded).tableUnreadable))
      ∧ ∀ (d : Device) (w : RemapRecord) (l r : List RemapRecord), d.remap.workList = l ++ w :: r →
        (∀ x ∈ l, x.block ≠ w.block) →
        d.settleEntry w.block = (d.onRemap (Remap.endRecord w.frame)).settleFrame w.frame
        ∧ d.holdEntry w.block = (d.onRemap (Remap.endRecord w.frame)).makeHeld w.frame

/-- R99 to R102: a completed table read is kept against its block, its bytes unless UNCORRECTABLE; at the tenth the copies are
judged by the five blocks read of each, in block order, and one is chosen: of two valid ones the higher generation, copy A at equal
ones, the only valid one otherwise. The chosen copy is active and the other degraded, with TABLE_DEGRADED, unless it is valid; the
active generation is raised to the other's. Two blank copies are formatted; else the table is unreadable. A body of fewer than 512
bytes is a failing outcome (R65, R183); of a longer one the first 512 bytes are taken (read by the model, log 27). -/
def Obligations.TenTableReadsChooseTheCopy : Prop :=
  (∀ (s : State) (i : SlotNo) (slot issue outcome : Byte) (body : List Byte) (op : Operation) (phys : Nat) (reads : List LoadRead),
    s.resetAsserted = false → slot.toNat = i.val → s.channel.slots[i] = some op → s.channel.issueCounts[i] = issue →
    op.work = .tableRead → op.phys = some phys → s.remap.load = some reads →
    let c := exec (.mediaReadCompletion slot issue outcome body) s
    let ended (d : Device) : Host.Outcome State Fault Refusal :=
      .next { s with toDevice := (d.onChannel (Channel.emptySlot i)).closeMedia }
    let data : Option Block := if outcome.toNat ≤ 1 ∧ 512 ≤ body.length then some (blockOfList body) else none
    let all : List LoadRead := reads ++ [{ phys := phys, data := data }]
    let kept : Device := s.onRemap fun r => { r with load := some all }
    let finding (copy : Copy) : CopyFinding := judgeCopy ((List.range 5).map fun b =>
      (all.find? fun r => r.phys == copy.base + b).bind fun r => r.data)
    (reads.length ≠ 9 → c = ended kept) ∧ (reads.length = 9 → c = ended (kept.chooseCopy (finding .a) (finding .b))))
  ∧ ∀ (d : Device) (a b : CopyFinding),
    let loads (copy : Copy) (chosen other : CopyFinding) : Prop := ∀ image entries, chosen.valid = some (image, entries) →
      let active : Device := d.onRemap fun r =>
        { r with activeCopy := some copy, generation := max (chosen.generation.getD 0) (other.generation.getD 0),
                 degradedA := decide (copy = .b) && other.valid.isNone, degradedB := decide (copy = .a) && other.valid.isNone }
      d.chooseCopy a b =
        (if other.valid.isNone then active.raise .tableDegraded else active).loadEnd entries (retiredBit image)
    (a.valid.isSome → b.valid.isSome → b.generation.getD 0 ≤ a.generation.getD 0 → loads .a a b)
    ∧ (a.valid.isSome → b.valid.isSome → a.generation.getD 0 < b.generation.getD 0 → loads .b b a)
    ∧ (a.valid.isSome → b.valid = none → loads .a a b)
    ∧ (a.valid = none → b.valid.isSome → loads .b b a)
    ∧ (a.valid = none → b.valid = none → a.blank = true → b.blank = true →
      let image := buildImage 1 [] fun _ => false
      d.chooseCopy a b = ((d.onRemap fun r =>
        { r with degradedB := true, load := none,
                 persist := .writingImage .a 1 (Vector.replicate 5 .awaiting) true }).raise .tableDegraded).requestTable
        ((List.range 5).map fun i => { phys := i, image := some (blockOfList (image.drop (512 * i))) }))
    ∧ (a.valid = none → b.valid = none → (a.blank = false ∨ b.blank = false) →
      d.chooseCopy a b = (d.onRemap fun r => { r with load := none }).tableUnreadable)

/-- R103, R124, R125, R162: the end of a load takes the entries and the spares' states from the active image, NO_SPARES when none is
FREE; told of it at LOADING, the mode controller enters SERVING, opens the sessions of the held HELLOs, and reports a restart done. -/
def Obligations.EndOfLoadEntersServing : Prop :=
  ∀ (d : Device) (entries : List RemapEntry) (retired : Nat → Bool), d.mode.mode = .starting → d.mode.step = .loading →
    let spareOf (s : SpareNo) : SpareState :=
      if ∃ e ∈ entries, e.spare = s then .inUse else if retired s.val then .retired else .free
    let loaded : Device := d.onRemap fun r =>
      { r with table := entries, spares := some (Vector.ofFn spareOf), pendingList := [], workList := [], batch := [],
               inFlight := [], persist := .idle, load := none, lock := none }
    let t : Device := d.loadEnd entries retired
    t.mode = { mode := .serving, step := .none, restart := false, cause := none }
    ∧ t.remap = (if ∃ s, spareOf s = .free then loaded.remap else { loaded.remap with lock := some .noSpares })
    ∧ t.mgmt.flags = (d.mgmt.flags ||| (if ∃ s, spareOf s = .free then 0 else 0x001#9)) ||| (if d.mode.restart then 0x100#9 else 0)
    ∧ (∀ p, (d.port p).waiting = true → (d.port p.other).session ≠ .attached → (d.port p).outbound.length ≤ 256 →
      t.port p = { d.port p with
        session := .attached,
        lastSession := if (d.port p).lastSession = 65535 then 1 else (d.port p).lastSession + 1,
        outbound := (d.port p).outbound
          ++ [.welcome (if (d.port p).lastSession = 65535 then 1 else (d.port p).lastSession + 1) d.channel.logicalCapacity
                (if ∃ s, spareOf s = .free then none else some .noSpares) (d.port p.other).waiting] })
    ∧ (∀ p, (d.port p).waiting = false → (d.port p).session ≠ .attached → t.port p = d.port p)
    ∧ t.frames = d.frames ∧ t.tracker = d.tracker ∧ t.channel = d.channel ∧ t.reservations = d.reservations
    ∧ t.resetAsserted = d.resetAsserted

/-- R93, R100, R184: an image as it is built for the table and the RETIRED spares is judged valid at load, with its generation,
its entries, now ACTIVE, and its RETIRED spares. -/
def Obligations.ImageIsLoadedAsItWasBuilt : Prop :=
  ∀ (generation : Nat) (entries : List RemapEntry) (retired : Nat → Bool), generation < 2 ^ 32 → entries.length ≤ 256 →
    entries.Pairwise (fun a b => a.block < b.block) → (∀ e ∈ entries, e.block < 2 ^ 32) →
    (entries.map fun e => e.spare).Nodup → (∀ e ∈ entries, retired e.spare.val = false) →
    let image := buildImage generation entries retired
    image.length = 2560
    ∧ judgeCopy ((imageBlocks image).map some) =
      { blank := false, generation := some generation,
        valid := some (image, entries.map fun e => { e with state := .active }) }
    ∧ ∀ i, i < 256 → retiredBit image i = retired i

/-! ### The management port (chapter 10) -/

/-- R171, R172: a write transaction to an EMPTY mailbox takes up to four bytes as the request and makes it EXECUTING; one that
finds it EXECUTING or READY is an overrun; one with no data byte is neither. Another address is not acknowledged (R170). Which bytes
are acknowledged is read by the model (log 24), on the bus output it keeps (log 20). -/
def Obligations.I2cWriteFillsTheMailboxOrOverruns : Prop :=
  ∀ (s : State) (bytes : List Byte), s.resetAsserted = false →
    let c := exec (.i2cWriteTransaction s.mgmt.address bytes) s
    (bytes = [] → c = .next { s with toDevice := s.onMgmt fun m =>
      { m with bus := { addressAck := true, dataAcks := [], returned := [] } } })
    ∧ (bytes ≠ [] → s.mgmt.mailbox = .empty → c = .next { s with toDevice := s.onMgmt fun m =>
      { m with mailbox := .executing (bytes.take 4),
               bus := { addressAck := true, returned := [],
                        dataAcks := List.replicate (min 4 bytes.length) true ++ List.replicate (bytes.length - 4) false } } })
    ∧ (bytes ≠ [] → s.mgmt.mailbox ≠ .empty → c = .next { s with toDevice := s.onMgmt fun m =>
      { m with flags := m.flags ||| 0x080#9, bus := { addressAck := true, dataAcks := [false], returned := [] } } })
    ∧ ∀ a, a ≠ s.mgmt.address → exec (.i2cWriteTransaction a bytes) s = .next { s with toDevice := s.onMgmt fun m =>
      { m with bus := { addressAck := false, dataAcks := [], returned := [] } } }

/-- R173: a read transaction returns the busy marker, or the response from byte 0 and then 00H, and empties a READY mailbox when
it reaches the last byte. The busy marker is no response's first byte, which is its length. Another address is not acknowledged,
and nothing but the bus output changes (R170). -/
def Obligations.I2cReadReturnsTheResponseFromItsFirstByte : Prop :=
  ∀ (s : State) (n : Nat), s.resetAsserted = false →
    let c := exec (.i2cReadTransaction s.mgmt.address n) s
    let returns (bytes : List Byte) : BusOutput := { addressAck := true, dataAcks := [], returned := bytes }
    (∀ resp, s.mgmt.mailbox = .ready resp →
      (n < resp.length → c = .next { s with toDevice := s.onMgmt fun m => { m with bus := returns (resp.take n) } })
      ∧ (resp.length ≤ n → c = .next { s with toDevice := s.onMgmt fun m =>
        { m with mailbox := .empty, bus := returns (resp ++ List.replicate (n - resp.length) 0) } })
      ∧ (s.mgmt.Sound → resp.head? = some (BitVec.ofNat 8 resp.length) ∧ resp.head? ≠ some 0xFF ∧ 3 ≤ resp.length
          ∧ resp.length ≤ 32))
    ∧ ((∀ resp, s.mgmt.mailbox ≠ .ready resp) → c = .next { s with toDevice := s.onMgmt fun m =>
      { m with bus := returns (List.replicate n 0xFF) } })
    ∧ ∀ a, a ≠ s.mgmt.address → exec (.i2cReadTransaction a n) s = .next { s with toDevice := s.onMgmt fun m =>
      { m with bus := { addressAck := false, dataAcks := [], returned := [] } } }

/-- R174, R177: a request with an unknown code, or of the wrong length, changes nothing but the mailbox, which holds the result;
READ STATUS is answered with the fields of Table 11-9 as they stand. -/
def Obligations.BadRequestsAndReadStatusChangeOnlyTheMailbox : Prop :=
  ∀ (s : State) (code : Byte) (params : List Byte), s.resetAsserted = false → s.mgmt.mailbox = .executing (code :: params) →
    let u16 (v : Nat) : List Byte := [BitVec.ofNat 8 (v / 256), BitVec.ofNat 8 v]
    let u32 (v : Nat) : List Byte := u16 (v / 65536) ++ u16 v
    let session (p : Port) : Byte :=
      match (s.port p).session with | .down => 0 | .linked => 1 | .waiting _ => 2 | .attached => 3
    let mode : Byte := match s.mode.mode with | .starting => 0 | .serving => 1 | .draining => 2 | .faulted => 3
    let cause : Byte := match s.mode.cause with | none => 0 | some .capacity => 1 | some .table => 2 | some .medium => 3
    let channel : Byte := match s.channel.state with | .idle => 0 | .running => 1 | .recovering => 2 | .lost => 3
    let lock : Byte := match s.remap.lock with | none => 0 | some .noSpares => 1 | some .tableLost => 2
    let copy : Byte := match s.remap.activeCopy with | none => 0 | some .a => 1 | some .b => 2
    let answered (resp : List Byte) : Host.Outcome State Fault Refusal :=
      .next { s with toDevice := s.onMgmt fun m => { m with mailbox := .ready resp } }
    ((code = 0 ∨ 9 < code.toNat) → exec .managementBadRequest s = answered [3, code, 1])
    ∧ (code ∈ [0x01, 0x02, 0x08, 0x09] → params.length ≠ 0 → exec .managementBadRequest s = answered [3, code, 2])
    ∧ (code ∈ [0x04, 0x05] → params.length ≠ 1 → exec .managementBadRequest s = answered [3, code, 2])
    ∧ (code ∈ [0x03, 0x06, 0x07] → params.length ≠ 2 → exec .managementBadRequest s = answered [3, code, 2])
    ∧ (code = 0x01 → params = [] → exec .readStatus s = answered ([31, 0x01, 0]
        ++ [mode, cause, channel] ++ u32 s.channel.logicalCapacity ++ [lock]
        ++ u16 (s.frames.count .free) ++ u16 (s.frames.count .clean) ++ u16 (s.frames.count .dirty) ++ u16 (s.frames.count .held)
        ++ u16 s.remap.unclaimed.length ++ [copy] ++ u32 s.remap.generation
        ++ [BitVec.ofNat 8 (s.mode.restart.toNat + 2 * s.remap.degradedA.toNat + 4 * s.remap.degradedB.toNat),
            BitVec.ofNat 8 (s.remap.pendingList.countP fun b => decide (b.reason = .unreadable)),
            BitVec.ofNat 8 (s.remap.pendingList.countP fun b => decide (b.reason = .weak)),
            session .a, session .b]))

/-- R176: READ CONDITIONS reports flags and masks and clears every flag; MASK CONDITIONS replaces the nine masks and reports both;
a bit beyond the nine is BAD_PARAMETER. R175: ALERT_N is low exactly while a flag is raised whose mask is clear. R180: SET LEASE TICK
takes 1 to 100 ms, SET WATERMARK 256 to 1000 frames, and each answers the new value; a value out of range is BAD_PARAMETER and the
setting stays. -/
def Obligations.ConditionsAndSettingsAreReadAndSet : Prop :=
  (∀ s : State, s.resetAsserted = false →
      let set (f : Mgmt → Mgmt) : Host.Outcome State Fault Refusal := .next { s with toDevice := s.onMgmt f }
      let flags := beBytes 2 s.mgmt.flags.toNat
      (s.mgmt.mailbox = .executing [0x02] → exec .readConditions s = set fun m =>
        { m with flags := 0, mailbox := .ready ([7, 0x02, 0] ++ flags ++ beBytes 2 s.mgmt.masks.toNat) })
      ∧ ∀ a b : Byte, s.mgmt.mailbox = .executing [0x03, a, b] →
        (a.toNat < 2 → exec .maskConditions s = set fun m =>
          { m with masks := BitVec.ofNat 9 (a.toNat * 256 + b.toNat), mailbox := .ready ([7, 0x03, 0] ++ flags ++ [a, b]) })
        ∧ (2 ≤ a.toNat → exec .maskConditions s = set fun m => { m with mailbox := .ready [3, 0x03, 3] }))
  ∧ (∀ m : Mgmt, m.alertLow = true ↔ ∃ k : Condition, m.raised k = true ∧ m.masked k = false)
  ∧ ∀ (s : State) (a b : Byte), s.resetAsserted = false →
      let set (f : Mgmt → Mgmt) : Host.Outcome State Fault Refusal := .next { s with toDevice := s.onMgmt f }
      let v := a.toNat * 256 + b.toNat
      (s.mgmt.mailbox = .executing [0x06, a, b] →
        (1 ≤ v → v ≤ 100 → exec .setLeaseTick s = set fun m => { m with tickMs := v, mailbox := .ready [5, 0x06, 0, a, b] })
        ∧ ((v < 1 ∨ 100 < v) → exec .setLeaseTick s = set fun m => { m with mailbox := .ready [3, 0x06, 3] }))
      ∧ (s.mgmt.mailbox = .executing [0x07, a, b] →
        (256 ≤ v → v ≤ 1000 → exec .setWatermark s = set fun m => { m with watermark := v, mailbox := .ready [5, 0x07, 0, a, b] })
        ∧ ((v < 256 ∨ 1000 < v) → exec .setWatermark s = set fun m => { m with mailbox := .ready [3, 0x07, 3] }))

/-- R178: READ REMAP ENTRY gives the number of entries and the entry at the index with its standing, or the number alone with
BAD_PARAMETER, and changes nothing but the mailbox. -/
def Obligations.RemapEntryIsReadByItsIndex : Prop :=
  ∀ (s : State) (index : Byte), s.resetAsserted = false → s.mgmt.mailbox = .executing [0x04, index] →
    let answered (resp : List Byte) : Host.Outcome State Fault Refusal :=
      .next { s with toDevice := s.onMgmt fun m => { m with mailbox := .ready resp } }
    let count := beBytes 2 s.remap.table.length
    (∀ e, s.remap.table[index.toNat]? = some e →
      let standing : Byte := if e.state = .active then 0 else if e.block ∈ s.remap.batch then 1
        else if e.block ∈ s.remap.inFlight then 2 else 3
      exec .readRemapEntry s = answered ([11, 0x04, 0] ++ count ++ beBytes 4 e.block
        ++ [BitVec.ofNat 8 e.spare.val, standing]))
    ∧ (s.remap.table.length ≤ index.toNat → exec .readRemapEntry s = answered ([5, 0x04, 3] ++ count))

/-- R137, R179: DETACH PORT ends the session with BYE (ADMIN), drops a held HELLO with BYE (ADMIN) and without its condition, or has
no effect, and says which; a port other than A or B is BAD_PARAMETER. -/
def Obligations.DetachPortActsByTheSessionState : Prop :=
  ∀ (s : State) (which : Byte), s.resetAsserted = false → s.mgmt.mailbox = .executing [0x05, which] →
    let answered (resp : List Byte) : Device := s.onMgmt fun m => { m with mailbox := .ready resp }
    let c := exec .detachPort s
    (∀ p, which = (if p = .a then 0 else 1) →
      ((s.port p).session = .attached → c = .next { s with toDevice :=
        ((answered [4, 0x05, 0, 0]).endSessions [p] false (some .admin)).close })
      ∧ (∀ v, (s.port p).session = .waiting v → (s.port p).outbound.length ≤ 256 → c = .next { s with toDevice :=
        ((answered [4, 0x05, 0, 1]).linksWith p (.bye .admin)).close })
      ∧ (((s.port p).session = .linked ∨ (s.port p).session = .down) → c = .next { s with toDevice :=
        (answered [4, 0x05, 0, 2]).close }))
    ∧ (2 ≤ which.toNat → c = .next { s with toDevice := answered [3, 0x05, 3] })

/-- R18, R19: DISCARD HELD releases every HELD frame in ascending number and answers how many. The release of a HELD frame keeps its
bytes, reports its exposure lost and raises DATA_LOST. -/
def Obligations.DiscardHeldReleasesTheHeldFrames : Prop :=
  (∀ s : State, s.resetAsserted = false → s.mgmt.mailbox = .executing [0x08] →
    exec .discardHeld s = .next { s with toDevice :=
      (((List.finRange 1024).filter fun f => (s.frame f).kind == .held).foldl (fun d f => d.releaseFrame f .dataLost)
        (s.onMgmt fun m => { m with mailbox := .ready ([5, 0x08, 0] ++ beBytes 2 (s.frames.count .held)) })).close })
  ∧ ∀ (d : Device) (f : FrameNo) (block hold e : Nat), d.frames.waiterQueue = [] →
    (d.frame f).served = some { block := block, hold := hold, state := .held e } →
    let d' := d.releaseFrame f .dataLost
    (d'.frame f).served = none ∧ (d'.frame f).bytes = (d.frame f).bytes ∧ d'.mgmt.raised .dataLost = true
      ∧ ∃ n, d'.tracker.earliestLost = some n ∧ n ≤ e

/-- R165, R166, R119: SOFT RESTART ends every session with BYE (RESTART), frees every reservation, and begins the drain, which stands
as DRAINING exactly while it is not complete (R167); or from FAULTED, where no window block is left (R158), clears at once and starts up
(R168): every frame FREE with its bytes, tracker and remap unit at their values of reset, the channel identifying with its issue
counts kept, DATA_LOST raised where committed data was not on the medium (R22). The response names the mode in which it was taken, and
in DRAINING that is all. -/
def Obligations.SoftRestartActsByTheMode : Prop :=
  ∀ s : State, s.resetAsserted = false → s.mgmt.mailbox = .executing [0x09] → s.toDevice.Sound →
    (∀ p, (s.port p).outbound.length < 256) →
    let ended (t : State) : Prop := ∀ p,
      ((s.port p).session = .attached →
        (t.port p).session = .linked ∧ (t.port p).outbound = (s.port p).outbound ++ [.bye .restart] ∧ (t.port p).Idle)
      ∧ ((s.port p).session ≠ .attached →
        (t.port p).session = (s.port p).session ∧ (t.port p).outbound = (s.port p).outbound)
    let answers (t : State) (code : Byte) : Prop := t.mgmt.mailbox = .ready [4, 0x09, 0, code]
    let complete (d : Device) : Bool :=
      d.frames.quiet && d.channel.allEmpty && d.channel.retrySet.isEmpty && d.channel.tableQueue.isEmpty
    let sessions : List Port := [Port.a, Port.b].filter fun p => decide ((s.port p).session = .attached)
    (s.mode.mode = .serving → ∃ t, exec .softRestart s = .next t ∧ ended t ∧ answers t 1
      ∧ t.mode.restart = true ∧ (∀ id : ResId, t.reservations.entries[id] = none)
      ∧ t.mode.mode = (if complete (Device.endSessions sessions false (some .restart)
          { s.toDevice with mode := { s.mode with mode := .draining, restart := true },
                            mgmt := { s.mgmt with mailbox := .ready [4, 0x09, 0, 1] } }) then .starting else .draining))
    ∧ (s.mode.mode = .faulted → ∃ t, exec .softRestart s = .next t ∧ ended t ∧ answers t 3
      ∧ t.mode = { mode := .starting, step := .identifying, restart := true, cause := none }
      ∧ (∀ id : ResId, t.reservations.entries[id] = none)
      ∧ ((∀ p, (s.port p).window = []) →
        t.frames = { frames := vecMap (fun fr => { fr with served := none }) s.frames.frames, cleanList := [], dirtyQueue := [],
                     waiterQueue := [] }
        ∧ ((∃ f, (s.frame f).kind = .dirty ∨ (s.frame f).kind = .writing ∨ (s.frame f).kind = .held) →
          t.mgmt.raised .dataLost = true))
      ∧ t.tracker = { nextWrite := 1, unwritten := [], held := [], flushList := [], earliestLost := none }
      ∧ t.remap = { table := [], spares := none, pendingList := [], workList := [], batch := [], inFlight := [], persist := .idle,
                    load := none, activeCopy := none, generation := 0, degradedA := false, degradedB := false, lock := none }
      ∧ t.channel = { state := .idle, capacity := none,
                      slots := (Vector.replicate 4 none).set 0
                        (some { work := .identify, phys := none, timerMs := 2000, reissue := false }),
                      issueCounts := s.channel.issueCounts.set 0 (s.channel.issueCounts[(0 : SlotNo)] + 1),
                      retrySet := [], tableQueue := [], spareQueue := [], fillQueue := [] })
    ∧ (s.mode.mode = .starting → ∃ t, exec .softRestart s = .next t ∧ ended t ∧ answers t 0
      ∧ t.mode.restart = true ∧ t.mode.mode = (if complete s.toDevice then .starting else .draining))
    ∧ (s.mode.mode = .draining → exec .softRestart s = .next { s with toDevice :=
        (s.onMgmt fun m => { m with mailbox := .ready [4, 0x09, 0, 2] }).close })

/-- R22, R63, R81, R105, R167, R168: when the drain of a restart is complete, frame store, tracker, remap unit and channel are
cleared, bytes and issue counts kept, DATA_LOST raised for HELD data, and start-up begins; before that nothing happens. -/
def Obligations.DrainCompleteClearsThePart : Prop :=
  ∀ s : State, s.resetAsserted = false →
    let complete : Bool := s.frames.quiet && s.channel.allEmpty && s.channel.retrySet.isEmpty && s.channel.tableQueue.isEmpty
    (s.mode.mode = .draining → complete = true → exec .drainComplete s = .next { s with
      frames := { frames := vecMap (fun fr => { fr with served := none }) s.frames.frames, cleanList := [], dirtyQueue := [],
                  waiterQueue := [] },
      tracker := Tracker.reset, remap := Remap.reset,
      channel := { Channel.reset with
        slots := (Vector.replicate 4 none).set 0
          (some { work := .identify, phys := none, timerMs := 2000, reissue := false }),
        issueCounts := s.channel.issueCounts.set 0 (s.channel.issueCounts[(0 : SlotNo)] + 1) },
      mode := { mode := .starting, step := .identifying, restart := s.mode.restart, cause := none },
      mgmt := if s.frames.holdsUnwritten then { s.mgmt with flags := s.mgmt.flags ||| 0x004#9 } else s.mgmt })
    ∧ ((s.mode.mode ≠ .draining ∨ complete = false) → exec .drainComplete s = .next s)

/-! ### Formats (chapter 11) -/

/-- Section 11.1, R120: the CRC-32 has its check value, and the bytes of every outbound message are those of Tables 11-1, 11-2 and 11-4
to 11-6, with the check over header and payload. -/
def Obligations.OutboundMessagesAreLaidOutByTheTables : Prop :=
  crc32 [0x31, 0x32, 0x33, 0x34, 0x35, 0x36, 0x37, 0x38, 0x39] = 0xCBF43926#32
  ∧ ∀ (tag : Tag) (moved : Nat),
    let byte (v : Nat) : Byte := BitVec.ofNat 8 v
    let u16 (v : Nat) : List Byte := [byte (v / 256), byte v]
    let u32 (v : Nat) : List Byte := u16 (v / 65536) ++ u16 v
    let framed (kind : Byte) (payload : List Byte) : List Byte :=
      let body := [kind, 0] ++ u16 payload.length ++ payload
      body ++ u32 (crc32 body).toNat
    let lock (l : Option LockReason) : Byte := match l with | none => 0 | some .noSpares => 1 | some .tableLost => 2
    let bytes (m : OutMsg) (kind : Byte) (payload : List Byte) : Prop := m.bytes = framed kind payload
    (∀ session capacity l partner, bytes (.welcome session capacity l partner) 0x81
      (u16 session ++ [0, 0] ++ u32 capacity ++ [lock l, byte partner.toNat, 0, 0]))
    ∧ (∀ index (b : Block), bytes (.data tag index b) 0x82 ([byte tag.val, 0] ++ u16 index ++ b.toList))
    ∧ (∀ count, bytes (.credit count) 0x83 [byte count])
    ∧ (∀ st code, (st, code) ∈ ([(.good, 0x00), (.aborted, 0x01), (.outOfRange, 0x02), (.badRequest, 0x03), (.writeLocked, 0x04),
        (.reserved, 0x05), (.conflict, 0x06), (.tableFull, 0x07), (.noSuchReservation, 0x08), (.expired, 0x09),
        (.mediumError, 0x0A), (.incomplete, 0x0B), (.notServing, 0x0D)] : List (Status × Byte)) →
      bytes (.response tag st moved none .none) 0x84 ([byte tag.val, code, 0, 0] ++ u16 moved ++ [0, 0])
      ∧ ∀ failing, bytes (.response tag st moved (some failing) .none) 0x84
        ([byte tag.val, code, 1, 0] ++ u16 moved ++ u16 failing))
    ∧ (∀ id : ResId, bytes (.response tag .good moved none (.reservation id)) 0x84
      ([byte tag.val, 0, 2, 0] ++ u16 moved ++ [0, 0, byte id.val]))
    ∧ (∀ rec : StatusRecord, bytes (.response tag .good moved none (.record rec)) 0x84
      ([byte tag.val, 0, 2, 0] ++ u16 moved ++ [0, 0]
        ++ [match rec.mode with | .starting => 0 | .serving => 1 | .draining => 2 | .faulted => 3, lock rec.lock,
            byte rec.partner.toNat, 0]
        ++ u32 rec.capacity ++ u16 rec.free ++ u16 rec.clean ++ u16 rec.dirty ++ u16 rec.held ++ u16 rec.freeSpares ++ [0, 0]
        ++ u32 rec.generation))
    ∧ (∀ n code argument, (n, code, argument) ∈ ([(.partnerAttached, 0x01, 0), (.partnerDetached, 0x02, 0),
        (.writeLocked .noSpares, 0x04, 1), (.writeLocked .tableLost, 0x04, 2), (.duplicateTag tag, 0x05, byte tag.val),
        (.strayCancel tag, 0x06, byte tag.val), (.mediaFault, 0x07, 0)] : List (Notice × Byte × Byte)) →
      bytes (.notice n) 0x85 [code, argument])
    ∧ (∀ id : ResId, bytes (.notice (.leaseLapsed id)) 0x85 [0x03, byte id.val])
    ∧ ∀ reason code, (reason, code) ∈ ([(.requested, 0x01), (.admin, 0x02), (.restart, 0x03), (.violation, 0x04), (.version, 0x05)]
        : List (ByeReason × Byte)) → bytes (.bye reason) 0x86 [code]

/-- R182, Tables 11-1 to 11-3: a message is decoded when its check is the CRC-32 over header and payload and the length of a known kind
is that kind's; else it fails its check. It is decoded by its kind byte, a COMMAND by its opcode byte; the high bits of a tag byte,
the other bits of the options byte, zero bytes and the fields an opcode does not use are ignored. -/
def Obligations.InboundMessagesAreCheckedAndDecoded : Prop :=
  let u16 (v : Nat) : List Byte := [BitVec.ofNat 8 (v / 256), BitVec.ofNat 8 v]
  let u32 (v : Nat) : List Byte := u16 (v / 65536) ++ u16 v
  (∀ (p : Port) (kind zero : Byte) (payload check : List Byte), payload.length < 65536 → check.length = 4 →
    let body := [kind, zero] ++ u16 payload.length ++ payload
    let known : List (Byte × Nat) := [(0x01, 2), (0x02, 16), (0x03, 516), (0x04, 1), (0x05, 1), (0x06, 0)]
    let decoded := decodePortMessage p (body ++ check)
    (check ≠ u32 (crc32 body).toNat → decoded = .messageCheckFailure p)
    ∧ (∀ n, (kind, n) ∈ known → payload.length ≠ n → decoded = .messageCheckFailure p)
    ∧ (check = u32 (crc32 body).toNat → ((kind, payload.length) ∈ known ∨ ∀ n, (kind, n) ∉ known) →
      decoded = decodeKind p kind payload))
  ∧ ∀ (p : Port) (tag : Tag) (high : Nat),
    let t : Byte := BitVec.ofNat 8 (16 * high + tag.val)
    (∀ v : BitVec 16, decodeKind p 0x01 (u16 v.toNat) = .hello p v)
    ∧ (∀ (options id z₁ z₂ : Byte) (start count : BitVec 32) (ticks : BitVec 16),
      let command (opcode : Byte) : Instr := decodeKind p 0x02
        ([t, opcode, options, id] ++ u32 start.toNat ++ u32 count.toNat ++ u16 ticks.toNat ++ [z₁, z₂])
      command 0x01 = .read p tag start count ∧ command 0x02 = .write p tag (options.getLsbD 0) start count
        ∧ command 0x03 = .flush p tag ∧ command 0x04 = .reserve p tag start count ticks ∧ command 0x05 = .renew p tag id ticks
        ∧ command 0x06 = .release p tag id ∧ command 0x07 = .query p tag
        ∧ ∀ opcode : Byte, (opcode = 0 ∨ 7 < opcode.toNat) → command opcode = .commandUnknownOpcode p opcode)
    ∧ (∀ (zero : Byte) (index : BitVec 16) (bytes : Block),
      decodeKind p 0x03 ([t, zero] ++ u16 index.toNat ++ bytes.toList) = .inboundData p tag index bytes)
    ∧ (∀ count : Byte, decodeKind p 0x04 [count] = .inboundCredit p count)
    ∧ decodeKind p 0x05 [t] = .cancel p tag ∧ decodeKind p 0x06 [] = .inboundBye p
    ∧ ∀ (kind : Byte) (payload : List Byte), (kind = 0 ∨ 6 < kind.toNat) →
      decodeKind p kind payload = .unknownMessageKind p kind
end

