-- ==== Sys2Proof/Laws/State.lean ====
section
/-!
SUPPORT. What each update of the state leaves and sets: one lemma for each field of an update, so that no later proof unfolds a
record update.
-/

namespace Sys2Proof.Machine

variable (d : Device)

/-! ### setPort -/

@[simp] theorem Device.setPort_resetAsserted (p : Port) (u : PortUnit) : (d.setPort p u).resetAsserted = d.resetAsserted := by cases p <;> rfl
@[simp] theorem Device.setPort_frames (p : Port) (u : PortUnit) : (d.setPort p u).frames = d.frames := by cases p <;> rfl
@[simp] theorem Device.setPort_tracker (p : Port) (u : PortUnit) : (d.setPort p u).tracker = d.tracker := by cases p <;> rfl
@[simp] theorem Device.setPort_channel (p : Port) (u : PortUnit) : (d.setPort p u).channel = d.channel := by cases p <;> rfl
@[simp] theorem Device.setPort_remap (p : Port) (u : PortUnit) : (d.setPort p u).remap = d.remap := by cases p <;> rfl
@[simp] theorem Device.setPort_reservations (p : Port) (u : PortUnit) : (d.setPort p u).reservations = d.reservations := by cases p <;> rfl
@[simp] theorem Device.setPort_mode (p : Port) (u : PortUnit) : (d.setPort p u).mode = d.mode := by cases p <;> rfl
@[simp] theorem Device.setPort_mgmt (p : Port) (u : PortUnit) : (d.setPort p u).mgmt = d.mgmt := by cases p <;> rfl

/-! ### onPort -/

@[simp] theorem Device.onPort_resetAsserted (p : Port) (f : PortUnit → PortUnit) : (d.onPort p f).resetAsserted = d.resetAsserted := by cases p <;> rfl
@[simp] theorem Device.onPort_frames (p : Port) (f : PortUnit → PortUnit) : (d.onPort p f).frames = d.frames := by cases p <;> rfl
@[simp] theorem Device.onPort_tracker (p : Port) (f : PortUnit → PortUnit) : (d.onPort p f).tracker = d.tracker := by cases p <;> rfl
@[simp] theorem Device.onPort_channel (p : Port) (f : PortUnit → PortUnit) : (d.onPort p f).channel = d.channel := by cases p <;> rfl
@[simp] theorem Device.onPort_remap (p : Port) (f : PortUnit → PortUnit) : (d.onPort p f).remap = d.remap := by cases p <;> rfl
@[simp] theorem Device.onPort_reservations (p : Port) (f : PortUnit → PortUnit) : (d.onPort p f).reservations = d.reservations := by cases p <;> rfl
@[simp] theorem Device.onPort_mode (p : Port) (f : PortUnit → PortUnit) : (d.onPort p f).mode = d.mode := by cases p <;> rfl
@[simp] theorem Device.onPort_mgmt (p : Port) (f : PortUnit → PortUnit) : (d.onPort p f).mgmt = d.mgmt := by cases p <;> rfl

/-! ### setFrame -/

@[simp] theorem Device.setFrame_resetAsserted (f : FrameNo) (fr : Frame) : (d.setFrame f fr).resetAsserted = d.resetAsserted := rfl
@[simp] theorem Device.setFrame_tracker (f : FrameNo) (fr : Frame) : (d.setFrame f fr).tracker = d.tracker := rfl
@[simp] theorem Device.setFrame_channel (f : FrameNo) (fr : Frame) : (d.setFrame f fr).channel = d.channel := rfl
@[simp] theorem Device.setFrame_remap (f : FrameNo) (fr : Frame) : (d.setFrame f fr).remap = d.remap := rfl
@[simp] theorem Device.setFrame_reservations (f : FrameNo) (fr : Frame) : (d.setFrame f fr).reservations = d.reservations := rfl
@[simp] theorem Device.setFrame_portA (f : FrameNo) (fr : Frame) : (d.setFrame f fr).portA = d.portA := rfl
@[simp] theorem Device.setFrame_portB (f : FrameNo) (fr : Frame) : (d.setFrame f fr).portB = d.portB := rfl
@[simp] theorem Device.setFrame_mode (f : FrameNo) (fr : Frame) : (d.setFrame f fr).mode = d.mode := rfl
@[simp] theorem Device.setFrame_mgmt (f : FrameNo) (fr : Frame) : (d.setFrame f fr).mgmt = d.mgmt := rfl

/-! ### setServed -/

@[simp] theorem Device.setServed_resetAsserted (f : FrameNo) (sv : Option Served) : (d.setServed f sv).resetAsserted = d.resetAsserted := rfl
@[simp] theorem Device.setServed_tracker (f : FrameNo) (sv : Option Served) : (d.setServed f sv).tracker = d.tracker := rfl
@[simp] theorem Device.setServed_channel (f : FrameNo) (sv : Option Served) : (d.setServed f sv).channel = d.channel := rfl
@[simp] theorem Device.setServed_remap (f : FrameNo) (sv : Option Served) : (d.setServed f sv).remap = d.remap := rfl
@[simp] theorem Device.setServed_reservations (f : FrameNo) (sv : Option Served) : (d.setServed f sv).reservations = d.reservations := rfl
@[simp] theorem Device.setServed_portA (f : FrameNo) (sv : Option Served) : (d.setServed f sv).portA = d.portA := rfl
@[simp] theorem Device.setServed_portB (f : FrameNo) (sv : Option Served) : (d.setServed f sv).portB = d.portB := rfl
@[simp] theorem Device.setServed_mode (f : FrameNo) (sv : Option Served) : (d.setServed f sv).mode = d.mode := rfl
@[simp] theorem Device.setServed_mgmt (f : FrameNo) (sv : Option Served) : (d.setServed f sv).mgmt = d.mgmt := rfl

/-! ### setBytes -/

@[simp] theorem Device.setBytes_resetAsserted (f : FrameNo) (b : Block) : (d.setBytes f b).resetAsserted = d.resetAsserted := rfl
@[simp] theorem Device.setBytes_tracker (f : FrameNo) (b : Block) : (d.setBytes f b).tracker = d.tracker := rfl
@[simp] theorem Device.setBytes_channel (f : FrameNo) (b : Block) : (d.setBytes f b).channel = d.channel := rfl
@[simp] theorem Device.setBytes_remap (f : FrameNo) (b : Block) : (d.setBytes f b).remap = d.remap := rfl
@[simp] theorem Device.setBytes_reservations (f : FrameNo) (b : Block) : (d.setBytes f b).reservations = d.reservations := rfl
@[simp] theorem Device.setBytes_portA (f : FrameNo) (b : Block) : (d.setBytes f b).portA = d.portA := rfl
@[simp] theorem Device.setBytes_portB (f : FrameNo) (b : Block) : (d.setBytes f b).portB = d.portB := rfl
@[simp] theorem Device.setBytes_mode (f : FrameNo) (b : Block) : (d.setBytes f b).mode = d.mode := rfl
@[simp] theorem Device.setBytes_mgmt (f : FrameNo) (b : Block) : (d.setBytes f b).mgmt = d.mgmt := rfl

/-! ### setWaiterQueue -/

@[simp] theorem Device.setWaiterQueue_resetAsserted (q : List WaiterEntry) : (d.setWaiterQueue q).resetAsserted = d.resetAsserted := rfl
@[simp] theorem Device.setWaiterQueue_tracker (q : List WaiterEntry) : (d.setWaiterQueue q).tracker = d.tracker := rfl
@[simp] theorem Device.setWaiterQueue_channel (q : List WaiterEntry) : (d.setWaiterQueue q).channel = d.channel := rfl
@[simp] theorem Device.setWaiterQueue_remap (q : List WaiterEntry) : (d.setWaiterQueue q).remap = d.remap := rfl
@[simp] theorem Device.setWaiterQueue_reservations (q : List WaiterEntry) : (d.setWaiterQueue q).reservations = d.reservations := rfl
@[simp] theorem Device.setWaiterQueue_portA (q : List WaiterEntry) : (d.setWaiterQueue q).portA = d.portA := rfl
@[simp] theorem Device.setWaiterQueue_portB (q : List WaiterEntry) : (d.setWaiterQueue q).portB = d.portB := rfl
@[simp] theorem Device.setWaiterQueue_mode (q : List WaiterEntry) : (d.setWaiterQueue q).mode = d.mode := rfl
@[simp] theorem Device.setWaiterQueue_mgmt (q : List WaiterEntry) : (d.setWaiterQueue q).mgmt = d.mgmt := rfl

/-! ### setFlushList -/

@[simp] theorem Device.setFlushList_resetAsserted (l : List FlushEntry) : (d.setFlushList l).resetAsserted = d.resetAsserted := rfl
@[simp] theorem Device.setFlushList_frames (l : List FlushEntry) : (d.setFlushList l).frames = d.frames := rfl
@[simp] theorem Device.setFlushList_channel (l : List FlushEntry) : (d.setFlushList l).channel = d.channel := rfl
@[simp] theorem Device.setFlushList_remap (l : List FlushEntry) : (d.setFlushList l).remap = d.remap := rfl
@[simp] theorem Device.setFlushList_reservations (l : List FlushEntry) : (d.setFlushList l).reservations = d.reservations := rfl
@[simp] theorem Device.setFlushList_portA (l : List FlushEntry) : (d.setFlushList l).portA = d.portA := rfl
@[simp] theorem Device.setFlushList_portB (l : List FlushEntry) : (d.setFlushList l).portB = d.portB := rfl
@[simp] theorem Device.setFlushList_mode (l : List FlushEntry) : (d.setFlushList l).mode = d.mode := rfl
@[simp] theorem Device.setFlushList_mgmt (l : List FlushEntry) : (d.setFlushList l).mgmt = d.mgmt := rfl

/-! ### setEntry -/

@[simp] theorem Device.setEntry_resetAsserted (id : ResId) (e : Option Reservation) : (d.setEntry id e).resetAsserted = d.resetAsserted := rfl
@[simp] theorem Device.setEntry_frames (id : ResId) (e : Option Reservation) : (d.setEntry id e).frames = d.frames := rfl
@[simp] theorem Device.setEntry_tracker (id : ResId) (e : Option Reservation) : (d.setEntry id e).tracker = d.tracker := rfl
@[simp] theorem Device.setEntry_channel (id : ResId) (e : Option Reservation) : (d.setEntry id e).channel = d.channel := rfl
@[simp] theorem Device.setEntry_remap (id : ResId) (e : Option Reservation) : (d.setEntry id e).remap = d.remap := rfl
@[simp] theorem Device.setEntry_portA (id : ResId) (e : Option Reservation) : (d.setEntry id e).portA = d.portA := rfl
@[simp] theorem Device.setEntry_portB (id : ResId) (e : Option Reservation) : (d.setEntry id e).portB = d.portB := rfl
@[simp] theorem Device.setEntry_mode (id : ResId) (e : Option Reservation) : (d.setEntry id e).mode = d.mode := rfl
@[simp] theorem Device.setEntry_mgmt (id : ResId) (e : Option Reservation) : (d.setEntry id e).mgmt = d.mgmt := rfl

/-! ### onRemap -/

@[simp] theorem Device.onRemap_resetAsserted (f : Remap → Remap) : (d.onRemap f).resetAsserted = d.resetAsserted := rfl
@[simp] theorem Device.onRemap_frames (f : Remap → Remap) : (d.onRemap f).frames = d.frames := rfl
@[simp] theorem Device.onRemap_tracker (f : Remap → Remap) : (d.onRemap f).tracker = d.tracker := rfl
@[simp] theorem Device.onRemap_channel (f : Remap → Remap) : (d.onRemap f).channel = d.channel := rfl
@[simp] theorem Device.onRemap_reservations (f : Remap → Remap) : (d.onRemap f).reservations = d.reservations := rfl
@[simp] theorem Device.onRemap_portA (f : Remap → Remap) : (d.onRemap f).portA = d.portA := rfl
@[simp] theorem Device.onRemap_portB (f : Remap → Remap) : (d.onRemap f).portB = d.portB := rfl
@[simp] theorem Device.onRemap_mode (f : Remap → Remap) : (d.onRemap f).mode = d.mode := rfl
@[simp] theorem Device.onRemap_mgmt (f : Remap → Remap) : (d.onRemap f).mgmt = d.mgmt := rfl

/-! ### onChannel -/

@[simp] theorem Device.onChannel_resetAsserted (f : Channel → Channel) : (d.onChannel f).resetAsserted = d.resetAsserted := rfl
@[simp] theorem Device.onChannel_frames (f : Channel → Channel) : (d.onChannel f).frames = d.frames := rfl
@[simp] theorem Device.onChannel_tracker (f : Channel → Channel) : (d.onChannel f).tracker = d.tracker := rfl
@[simp] theorem Device.onChannel_remap (f : Channel → Channel) : (d.onChannel f).remap = d.remap := rfl
@[simp] theorem Device.onChannel_reservations (f : Channel → Channel) : (d.onChannel f).reservations = d.reservations := rfl
@[simp] theorem Device.onChannel_portA (f : Channel → Channel) : (d.onChannel f).portA = d.portA := rfl
@[simp] theorem Device.onChannel_portB (f : Channel → Channel) : (d.onChannel f).portB = d.portB := rfl
@[simp] theorem Device.onChannel_mode (f : Channel → Channel) : (d.onChannel f).mode = d.mode := rfl
@[simp] theorem Device.onChannel_mgmt (f : Channel → Channel) : (d.onChannel f).mgmt = d.mgmt := rfl

/-! ### onMgmt -/

@[simp] theorem Device.onMgmt_resetAsserted (f : Mgmt → Mgmt) : (d.onMgmt f).resetAsserted = d.resetAsserted := rfl
@[simp] theorem Device.onMgmt_frames (f : Mgmt → Mgmt) : (d.onMgmt f).frames = d.frames := rfl
@[simp] theorem Device.onMgmt_tracker (f : Mgmt → Mgmt) : (d.onMgmt f).tracker = d.tracker := rfl
@[simp] theorem Device.onMgmt_channel (f : Mgmt → Mgmt) : (d.onMgmt f).channel = d.channel := rfl
@[simp] theorem Device.onMgmt_remap (f : Mgmt → Mgmt) : (d.onMgmt f).remap = d.remap := rfl
@[simp] theorem Device.onMgmt_reservations (f : Mgmt → Mgmt) : (d.onMgmt f).reservations = d.reservations := rfl
@[simp] theorem Device.onMgmt_portA (f : Mgmt → Mgmt) : (d.onMgmt f).portA = d.portA := rfl
@[simp] theorem Device.onMgmt_portB (f : Mgmt → Mgmt) : (d.onMgmt f).portB = d.portB := rfl
@[simp] theorem Device.onMgmt_mode (f : Mgmt → Mgmt) : (d.onMgmt f).mode = d.mode := rfl

/-! ### raise -/

@[simp] theorem Device.raise_resetAsserted (c : Condition) : (d.raise c).resetAsserted = d.resetAsserted := rfl
@[simp] theorem Device.raise_frames (c : Condition) : (d.raise c).frames = d.frames := rfl
@[simp] theorem Device.raise_tracker (c : Condition) : (d.raise c).tracker = d.tracker := rfl
@[simp] theorem Device.raise_channel (c : Condition) : (d.raise c).channel = d.channel := rfl
@[simp] theorem Device.raise_remap (c : Condition) : (d.raise c).remap = d.remap := rfl
@[simp] theorem Device.raise_reservations (c : Condition) : (d.raise c).reservations = d.reservations := rfl
@[simp] theorem Device.raise_portA (c : Condition) : (d.raise c).portA = d.portA := rfl
@[simp] theorem Device.raise_portB (c : Condition) : (d.raise c).portB = d.portB := rfl
@[simp] theorem Device.raise_mode (c : Condition) : (d.raise c).mode = d.mode := rfl

/-! ### What the updates set -/

@[simp] theorem Device.setPort_port_same (p : Port) (u : PortUnit) : (d.setPort p u).port p = u := by cases p <;> rfl
@[simp] theorem Device.setPort_port_other (p : Port) (u : PortUnit) : (d.setPort p u).port p.other = d.port p.other := by
  cases p <;> rfl
@[simp] theorem Device.onPort_port_same (p : Port) (f : PortUnit → PortUnit) : (d.onPort p f).port p = f (d.port p) :=
  d.setPort_port_same p _
@[simp] theorem Device.onPort_port_other (p : Port) (f : PortUnit → PortUnit) :
    (d.onPort p f).port p.other = d.port p.other := d.setPort_port_other p _
@[simp] theorem Device.setFrame_frame (f : FrameNo) (fr : Frame) : (d.setFrame f fr).frame f = fr := by
  simp [Device.frame, Device.setFrame]
@[simp] theorem Device.setServed_served (f : FrameNo) (sv : Option Served) :
    ((d.setServed f sv).frame f).served = sv := by simp [Device.setServed]
@[simp] theorem Device.setServed_bytes (f : FrameNo) (sv : Option Served) :
    ((d.setServed f sv).frame f).bytes = (d.frame f).bytes := by simp [Device.setServed]
@[simp] theorem Device.setBytes_bytes (f : FrameNo) (b : Block) : ((d.setBytes f b).frame f).bytes = b := by
  simp [Device.setBytes]
@[simp] theorem Device.setBytes_served (f : FrameNo) (b : Block) :
    ((d.setBytes f b).frame f).served = (d.frame f).served := by simp [Device.setBytes]
@[simp] theorem Device.setFlushList_flushList (l : List FlushEntry) : (d.setFlushList l).tracker.flushList = l := rfl
@[simp] theorem Device.onRemap_remap (f : Remap → Remap) : (d.onRemap f).remap = f d.remap := rfl
@[simp] theorem Device.onChannel_channel (f : Channel → Channel) : (d.onChannel f).channel = f d.channel := rfl
@[simp] theorem Device.onMgmt_mgmt (f : Mgmt → Mgmt) : (d.onMgmt f).mgmt = f d.mgmt := rfl
@[simp] theorem Device.raise_mgmt (c : Condition) : (d.raise c).mgmt = d.mgmt.raise c := rfl
@[simp] theorem Device.setEntry_entry (id : ResId) (e : Option Reservation) :
    (d.setEntry id e).reservations.entries[id] = e := by simp [Device.setEntry]

/-- Updates of a frame leave every other frame. -/
theorem Device.setFrame_frame_other {f g : FrameNo} (h : g ≠ f) (fr : Frame) : (d.setFrame f fr).frame g = d.frame g := by
  have : (f : Nat) ≠ g := fun e => h (Fin.ext e.symm)
  simp [Device.frame, Device.setFrame, Vector.getElem_set_ne, this]

/-! ### Ports by name -/

@[simp] theorem Device.port_a : d.port .a = d.portA := rfl
@[simp] theorem Device.port_b : d.port .b = d.portB := rfl
@[simp] theorem Port.other_other (p : Port) : p.other.other = p := by cases p <;> rfl
theorem Port.other_ne (p : Port) : p.other ≠ p := by cases p <;> decide
theorem Port.eq_or_other (p q : Port) : q = p ∨ q = p.other := by cases p <;> cases q <;> decide

end Sys2Proof.Machine
end

