-- ==== Sys2Proof/Laws/Inner.lean ====
section
/-!
SUPPORT. What the operations inside an event can do. `Device.Inner d d'` says that d' came from d without a change of mode or
session: no setting, mask or mailbox moved and no flag was lowered, a port without commands gained none, and every bound of a
block that held still holds. Each operation below has its one lemma; later proofs cite these and unfold nothing.
-/

namespace Sys2Proof.Machine

/-! ### The relations -/

/-- The management port changed at most by flags raised. -/
def Mgmt.GrowsTo (m m' : Mgmt) : Prop := ∃ fl, m' = { m with flags := m.flags ||| fl }

theorem Mgmt.GrowsTo.refl (m : Mgmt) : m.GrowsTo m := ⟨0, by simp⟩

theorem Mgmt.GrowsTo.trans {m₁ m₂ m₃ : Mgmt} (h : m₁.GrowsTo m₂) (h' : m₂.GrowsTo m₃) : m₁.GrowsTo m₃ := by
  obtain ⟨a, rfl⟩ := h
  obtain ⟨b, rfl⟩ := h'
  exact ⟨a ||| b, by simp [BitVec.or_assoc]⟩

theorem Mgmt.raise_grows (c : Condition) (m : Mgmt) : m.GrowsTo (m.raise c) := ⟨_, rfl⟩

theorem Mgmt.raised_raise (c : Condition) (m : Mgmt) : (m.raise c).raised c = true := by simp [Mgmt.raised, Mgmt.raise]

theorem Mgmt.GrowsTo.raised {m m' : Mgmt} (h : m.GrowsTo m') {c : Condition} (hc : m.raised c = true) : m'.raised c = true := by
  obtain ⟨fl, rfl⟩ := h
  unfold Mgmt.raised at hc ⊢
  simp [hc]

/-- What every operation inside an event keeps of a port unit. -/
structure PortUnit.Keeps (u u' : PortUnit) : Prop where
  session : u'.session = u.session
  lastSession : u'.lastSession = u.lastSession
  linkUp : u'.linkUp = u.linkUp
  credits : u'.readCredits ≤ u.readCredits
  commands : u.NoCommands → u'.NoCommands
  window : u.NoCommands → u'.window.length ≤ u.window.length
  buffers : u.NoCommands → u.NoBuffers → u'.NoBuffers
  outbound : u.NoCommands → u.session ≠ .attached → u'.outbound = u.outbound
  order : u.outbound <+: u'.outbound

theorem PortUnit.Keeps.refl (u : PortUnit) : u.Keeps u :=
  ⟨rfl, rfl, rfl, le_rfl, id, fun _ => le_rfl, fun _ h => h, fun _ _ => rfl, List.prefix_rfl⟩

theorem PortUnit.Keeps.trans {u₁ u₂ u₃ : PortUnit} (h : u₁.Keeps u₂) (h' : u₂.Keeps u₃) : u₁.Keeps u₃ where
  session := h'.session.trans h.session
  lastSession := h'.lastSession.trans h.lastSession
  linkUp := h'.linkUp.trans h.linkUp
  credits := h'.credits.trans h.credits
  commands n := h'.commands (h.commands n)
  window n := (h'.window (h.commands n)).trans (h.window n)
  buffers n b := h'.buffers (h.commands n) (h.buffers n b)
  outbound n a := (h'.outbound (h.commands n) (h.session ▸ a)).trans (h.outbound n a)
  order := h.order.trans h'.order

/-- What every operation inside an event keeps of the part. -/
structure Device.Inner (d d' : Device) : Prop where
  reset : d'.resetAsserted = d.resetAsserted
  mode : d'.mode = d.mode
  mgmt : d.mgmt.GrowsTo d'.mgmt
  ports : ∀ p, (d.port p).Keeps (d'.port p)
  channel : d.channel.Sound → d'.channel.Sound
  remap : d.remap.Sound → d'.remap.Sound
  reservations : d.reservations.Sound → d'.reservations.Sound
  tracker : d.tracker.Sound → d'.tracker.Sound
  channelState : d'.channel.state = d.channel.state
  capacity : d'.channel.capacity = d.channel.capacity

theorem Device.Inner.refl (d : Device) : d.Inner d :=
  ⟨rfl, rfl, .refl _, fun _ => .refl _, id, id, id, id, rfl, rfl⟩

theorem Device.Inner.trans {d₁ d₂ d₃ : Device} (h : d₁.Inner d₂) (h' : d₂.Inner d₃) : d₁.Inner d₃ where
  reset := h'.reset.trans h.reset
  mode := h'.mode.trans h.mode
  mgmt := h.mgmt.trans h'.mgmt
  ports p := (h.ports p).trans (h'.ports p)
  channel s := h'.channel (h.channel s)
  remap s := h'.remap (h.remap s)
  reservations s := h'.reservations (h.reservations s)
  tracker s := h'.tracker (h.tracker s)
  channelState := h'.channelState.trans h.channelState
  capacity := h'.capacity.trans h.capacity

/-- A fold of operations each of which is inner is inner. -/
theorem Device.inner_foldl {α : Type} {f : Device → α → Device} (h : ∀ (d : Device) x, d.Inner (f d x)) (l : List α) (d : Device) :
    d.Inner (l.foldl f d) := by
  induction l generalizing d with
  | nil => exact .refl d
  | cons x xs ih => exact (h d x).trans (ih _)

/-! ### One-block changes -/

/-- After an inner change, a port's unit that keeps what it had before that change. -/
theorem Device.Inner.setPort {d e : Device} (hi : d.Inner e) {p : Port} {u : PortUnit} (h : (d.port p).Keeps u) :
    d.Inner (e.setPort p u) where
  reset := by simpa using hi.reset
  mode := by simpa using hi.mode
  mgmt := by simpa using hi.mgmt
  ports q := by
    obtain rfl | rfl := Port.eq_or_other p q
    · simpa using h
    · simpa using hi.ports p.other
  channel := by simpa using hi.channel
  remap := by simpa using hi.remap
  reservations := by simpa using hi.reservations
  tracker := by simpa using hi.tracker
  channelState := by simpa using hi.channelState
  capacity := by simpa using hi.capacity

theorem Device.inner_setPort {d : Device} {p : Port} {u : PortUnit} (h : (d.port p).Keeps u) : d.Inner (d.setPort p u) :=
  (Device.Inner.refl d).setPort h

theorem Device.inner_onPort {d : Device} {p : Port} {f : PortUnit → PortUnit} (h : ∀ u, PortUnit.Keeps u (f u)) :
    d.Inner (d.onPort p f) := Device.inner_setPort (h _)

theorem Device.inner_frames (d : Device) (fs : FrameStore) : d.Inner { d with frames := fs } :=
  ⟨rfl, rfl, .refl _, fun p => by cases p <;> exact .refl _, id, id, id, id, rfl, rfl⟩

theorem Device.inner_tracker {d : Device} {t : Tracker} (h : d.tracker.Sound → t.Sound) : d.Inner { d with tracker := t } :=
  ⟨rfl, rfl, .refl _, fun p => by cases p <;> exact .refl _, id, id, id, h, rfl, rfl⟩

theorem Device.inner_channel {d : Device} {c : Channel} (h : d.channel.Sound → c.Sound)
    (hs : c.state = d.channel.state := by rfl) (hc : c.capacity = d.channel.capacity := by rfl) :
    d.Inner { d with channel := c } :=
  ⟨rfl, rfl, .refl _, fun p => by cases p <;> exact .refl _, h, id, id, id, hs, hc⟩

theorem Device.inner_remap {d : Device} {r : Remap} (h : d.remap.Sound → r.Sound) : d.Inner { d with remap := r } :=
  ⟨rfl, rfl, .refl _, fun p => by cases p <;> exact .refl _, id, h, id, id, rfl, rfl⟩

theorem Device.inner_reservations {d : Device} {r : Reservations} (h : d.reservations.Sound → r.Sound) :
    d.Inner { d with reservations := r } :=
  ⟨rfl, rfl, .refl _, fun p => by cases p <;> exact .refl _, id, id, h, id, rfl, rfl⟩

theorem Device.inner_raise (c : Condition) (d : Device) : d.Inner (d.raise c) :=
  ⟨rfl, rfl, Mgmt.raise_grows c _, fun p => by cases p <;> exact .refl _, id, id, id, id, rfl, rfl⟩

theorem Device.inner_setServed (f : FrameNo) (sv : Option Served) (d : Device) : d.Inner (d.setServed f sv) :=
  d.inner_frames _

theorem Device.inner_setBytes (f : FrameNo) (b : Block) (d : Device) : d.Inner (d.setBytes f b) := d.inner_frames _

theorem Device.inner_setWaiterQueue (q : List WaiterEntry) (d : Device) : d.Inner (d.setWaiterQueue q) := d.inner_frames _

theorem Device.inner_setFlushList (l : List FlushEntry) (d : Device) : d.Inner (d.setFlushList l) :=
  Device.inner_tracker id

theorem Device.inner_enterDirty (f : FrameNo) (d : Device) : d.Inner (d.enterDirty f) := d.inner_frames _
theorem Device.inner_leaveDirty (f : FrameNo) (d : Device) : d.Inner (d.leaveDirty f) := d.inner_frames _
theorem Device.inner_leaveClean (f : FrameNo) (d : Device) : d.Inner (d.leaveClean f) := d.inner_frames _
theorem Device.inner_cleanTail (f : FrameNo) (d : Device) : d.Inner (d.cleanTail f) := d.inner_frames _

theorem Device.inner_onRemap {d : Device} {f : Remap → Remap} (h : ∀ r, Remap.Sound r → (f r).Sound) :
    d.Inner (d.onRemap f) := Device.inner_remap (h _)

theorem rangesOverlap_comm (s₁ c₁ s₂ c₂ : Nat) : rangesOverlap s₁ c₁ s₂ c₂ = rangesOverlap s₂ c₂ s₁ c₁ := by
  simp [rangesOverlap, Bool.and_comm]

/-- The entry a protecting entry may stand beside: one that protects nothing, or nothing of its range. -/
def Reservation.Clear (v b : Reservation) : Prop :=
  v.protects = true → b.protects = true → rangesOverlap v.start v.count b.start b.count = false

/-- An entry that is sound, and clear of the others, takes its place. -/
theorem Device.inner_setEntry {d : Device} {id : ResId} {e : Option Reservation}
    (h : d.reservations.Sound → ∀ v, e = some v → v.Sound ∧ ∀ j, j ≠ id → ∀ b, d.reservations.entries[j] = some b → v.Clear b) :
    d.Inner (d.setEntry id e) := by
  have at_ (j : ResId) : (d.setEntry id e).reservations.entries[j] = if j = id then e else d.reservations.entries[j] := by
    by_cases hj : j = id
    · subst hj
      simp [Device.setEntry]
    · rw [if_neg hj]
      have : (id : Nat) ≠ j := fun x => hj (Fin.ext x.symm)
      simp [Device.setEntry, Vector.getElem_set_ne, this]
  refine Device.inner_reservations fun hs => ⟨fun j v hj => ?_, fun i j hij a b ha hb pa pb => ?_⟩
  · replace hj := (at_ j).symm.trans hj
    split_ifs at hj
    · exact (h hs v hj).1
    · exact hs.1 j v hj
  · replace ha := (at_ i).symm.trans ha
    replace hb := (at_ j).symm.trans hb
    split_ifs at ha with hi <;> split_ifs at hb with hj
    · exact (hij (hi.trans hj.symm)).elim
    · exact (h hs a ha).2 j hj b hb pa pb
    · rw [rangesOverlap_comm]
      exact (h hs b hb).2 i hi a ha pb pa
    · exact hs.2 i j hij a b ha hb pa pb

/-- An entry gets another state in its range, and protects no more than before. -/
theorem Device.inner_restate {d : Device} {id : ResId} {old new : Reservation} (ho : d.reservations.entries[id] = some old)
    (hs : new.start = old.start) (hc : new.count = old.count) (hp : new.protects = true → old.protects = true)
    (h : old.Sound → new.Sound) : d.Inner (d.setEntry id (some new)) := by
  refine Device.inner_setEntry fun hd v hv => ?_
  cases hv
  refine ⟨h (hd.1 id old ho), fun j hj b hb pn pb => ?_⟩
  rw [hs, hc]
  exact hd.2 id j (Ne.symm hj) old b ho hb (hp pn) pb

/-! ### Port units -/

/-- A port in a session, or with a command open. -/
def PortUnit.Speaks (u : PortUnit) : Prop := u.session = .attached ∨ ¬u.NoCommands

theorem PortUnit.speaks_of_command {u : PortUnit} {t : Tag} {c : OpenCmd} (h : u.commands[t] = some c) : u.Speaks :=
  .inr fun n => by simp [n.1] at h

theorem PortUnit.Speaks.outbound {u u' : PortUnit} (h : u.Speaks) (hn : u.NoCommands) (ha : u.session ≠ .attached) :
    u'.outbound = u.outbound := (h.elim ha fun k => k hn).elim

theorem PortUnit.keeps_enqueue {m : OutMsg} {u : PortUnit} (h : u.Speaks) : u.Keeps (u.enqueue m) := by
  unfold PortUnit.enqueue
  split
  · exact ⟨rfl, rfl, rfl, le_rfl, id, fun _ => le_rfl, fun _ h => h, h.outbound, List.prefix_append _ _⟩
  · exact .refl u

theorem replicate_set_self {α : Type} {n : Nat} (a : α) (i : Nat) (h : i < n) :
    (Vector.replicate n a).set i a h = Vector.replicate n a := by
  ext j hj
  simp

/-- Changing a command's record, where the record was in use or becomes free. -/
theorem PortUnit.keeps_setCommand {t : Tag} {c : Option OpenCmd} {u : PortUnit} (h : u.commands[t] ≠ none ∨ c = none) :
    u.Keeps (u.setCommand t c) := by
  have hc : u.NoCommands → c = none := by
    rintro ⟨hn, -, -⟩
    rcases h with h | h
    · simp [hn] at h
    · exact h
  refine ⟨rfl, rfl, rfl, le_rfl, fun hn => ?_, fun _ => le_rfl, fun _ h => h, fun _ _ => rfl, List.prefix_rfl⟩
  refine ⟨?_, hn.2⟩
  simp only [PortUnit.setCommand]
  rw [hc hn, hn.1, replicate_set_self]

theorem PortUnit.keeps_freeLanding (b : BufNo) (u : PortUnit) : u.Keeps (u.setLanding b .free) := by
  refine ⟨rfl, rfl, rfl, le_rfl, id, fun _ => le_rfl, fun _ h => ⟨?_, h.2⟩, fun _ _ => rfl, List.prefix_rfl⟩
  simp only [PortUnit.setLanding, h.1, replicate_set_self]

theorem PortUnit.keeps_freeBuffer (b : BufNo) (u : PortUnit) : u.Keeps (u.freeBuffer b) := by
  refine ⟨rfl, rfl, rfl, le_rfl, id, fun _ => le_rfl, fun _ h => ⟨?_, ?_⟩, fun _ _ => rfl, List.prefix_rfl⟩
  · simp only [PortUnit.freeBuffer, PortUnit.setLanding, h.1, replicate_set_self]
  · simp [PortUnit.freeBuffer, PortUnit.setLanding, h.2]

theorem PortUnit.keeps_setWindow (t : Tag) (i : Nat) (st : WindowState) (u : PortUnit) : u.Keeps (u.setWindow t i st) :=
  ⟨rfl, rfl, rfl, le_rfl, id, fun _ => by simp [PortUnit.setWindow], fun _ h => h, fun _ _ => rfl, List.prefix_rfl⟩

theorem PortUnit.keeps_failHolders (f : FrameNo) (k : FailKind) (u : PortUnit) : u.Keeps (u.failHolders f k) :=
  ⟨rfl, rfl, rfl, le_rfl, id, fun _ => by simp [PortUnit.failHolders], fun _ h => h, fun _ _ => rfl, List.prefix_rfl⟩

theorem Device.inner_send {p : Port} {m : OutMsg} {d : Device} (h : (d.port p).Speaks) : d.Inner (d.send p m) :=
  Device.inner_setPort (PortUnit.keeps_enqueue h)

theorem Device.inner_notify (p : Port) (n : Notice) (d : Device) : d.Inner (d.notify p n) := by
  unfold Device.notify
  split
  · rename_i h
    exact Device.inner_send (.inl (of_decide_eq_true h))
  · exact .refl d

theorem Device.inner_notifyBoth (n : Notice) (d : Device) : d.Inner (d.notifyBoth n) :=
  (d.inner_notify .a n).trans (Device.inner_notify .b n _)

theorem Device.inner_setCommand {p : Port} {t : Tag} {c : Option OpenCmd} {d : Device}
    (h : (d.port p).commands[t] ≠ none ∨ c = none) : d.Inner (d.setCommand p t c) :=
  Device.inner_setPort (PortUnit.keeps_setCommand h)

theorem Device.inner_reply {p : Port} {t : Tag} {st : Status} {pl : Payload} {d : Device} (h : (d.port p).Speaks) :
    d.Inner (d.reply p t st pl) := Device.inner_send h

theorem Device.onPort_onPort (p : Port) (f g : PortUnit → PortUnit) (d : Device) :
    (d.onPort p f).onPort p g = d.onPort p fun u => g (f u) := by cases p <;> rfl

theorem PortUnit.prefix_enqueue (m : OutMsg) (u : PortUnit) : u.outbound <+: (u.enqueue m).outbound := by
  unfold PortUnit.enqueue
  split
  · exact List.prefix_append _ _
  · exact List.prefix_rfl

theorem PortUnit.enqueue_fields (m : OutMsg) (u : PortUnit) :
    u.enqueue m = { u with outbound := (u.enqueue m).outbound } := by
  unfold PortUnit.enqueue
  split <;> rfl

/-- A unit that keeps all but the order keeps all, when the port speaks. -/
theorem PortUnit.Keeps.of_speaks {u v : PortUnit} (h : u.Speaks) {o : List OutMsg} (k : u.Keeps { v with outbound := o })
    (ho : u.outbound <+: v.outbound) : u.Keeps v :=
  ⟨k.session, k.lastSession, k.linkUp, k.credits, k.commands, k.window, k.buffers, h.outbound, ho⟩

/-- An answer after an inner change frees the record and queues the RESPONSE, on a port that had a command or a session. -/
theorem Device.Inner.answer {d e : Device} (hi : d.Inner e) {p : Port} {t : Tag} {st : Status} {moved : Nat}
    {failing : Option Nat} {pl : Payload} (h : (d.port p).Speaks) : d.Inner (e.answer p t st moved failing pl) := by
  unfold Device.answer Device.setCommand Device.send
  rw [Device.onPort_onPort]
  refine hi.setPort (PortUnit.Keeps.of_speaks h (o := ((e.port p).setCommand t none).outbound) ?_ ?_)
  · dsimp only
    rw [PortUnit.enqueue_fields]
    exact (hi.ports p).trans (PortUnit.keeps_setCommand (.inr rfl))
  · exact (hi.ports p).order.trans (((e.port p).setCommand t none).prefix_enqueue _)

theorem Device.inner_answer {p : Port} {t : Tag} {st : Status} {moved : Nat} {failing : Option Nat} {pl : Payload}
    {d : Device} (h : (d.port p).Speaks) : d.Inner (d.answer p t st moved failing pl) := (Device.Inner.refl d).answer h

theorem Device.inner_tellWindow (w : WindowRef) (st : WindowState) (d : Device) : d.Inner (d.tellWindow w st) :=
  Device.inner_onPort (PortUnit.keeps_setWindow _ _ _)

/-! ### Reservations -/

theorem Device.inner_answerReserve (p : Port) (t : Tag) (st : Status) (pl : Payload) (d : Device) :
    d.Inner (d.answerReserve p t st pl) := by
  unfold Device.answerReserve
  split
  · rename_i h
    exact Device.inner_answer (PortUnit.speaks_of_command h)
  · exact .refl d

theorem Device.inner_grantEntry (h : Port) (id : ResId) (d : Device) : d.Inner (d.grantEntry h id) := by
  unfold Device.grantEntry
  split
  · rename_i h' s c ticks tag he
    split
    · refine Device.Inner.trans ?_ (Device.inner_answerReserve _ _ _ _ _)
      refine Device.inner_restate he rfl rfl (fun _ => rfl) fun h => ?_
      exact ⟨h.1, h.2.2⟩
    · exact .refl d
  · exact .refl d

theorem Device.inner_testPending (h : Port) (d : Device) : d.Inner (d.testPending h) :=
  Device.inner_foldl (fun d id => d.inner_grantEntry h id) _ d

theorem Device.inner_faultEntry (id : ResId) (d : Device) : d.Inner (d.faultEntry id) := by
  unfold Device.faultEntry
  split
  · exact (Device.inner_setEntry fun _ v hv => by cases hv).trans (Device.inner_answerReserve _ _ _ _ _)
  · exact .refl d

theorem Device.inner_faultPending (d : Device) : d.Inner d.faultPending :=
  Device.inner_foldl (fun d id => d.inner_faultEntry id) _ d

theorem Device.inner_lapseEntry (id : ResId) (d : Device) : d.Inner (d.lapseEntry id) := by
  unfold Device.lapseEntry
  split
  · rename_i h s c he
    refine Device.Inner.trans ?_ (Device.inner_notify _ _ _)
    refine Device.inner_restate he rfl rfl (fun _ => rfl) fun h => ?_
    exact ⟨h.1, trivial⟩
  · exact .refl d

theorem Device.inner_tickEntry (id : ResId) (d : Device) : d.Inner (d.tickEntry id) := by
  unfold Device.tickEntry
  split
  · rename_i h s c n he
    refine Device.Inner.trans ?_ (Device.inner_lapseEntry _ _)
    refine Device.inner_restate he rfl rfl (fun _ => rfl) fun h => ?_
    exact ⟨h.1, (Nat.sub_le n 1).trans h.2⟩
  · exact .refl d

theorem Device.inner_leaseTick (d : Device) : d.Inner d.leaseTick :=
  (Device.inner_reservations (r := { d.reservations with periodMs := d.mgmt.tickMs }) id).trans
    (Device.inner_foldl (fun d id => d.inner_tickEntry id) _ _)

theorem Reservations.sound_freeHeldBy (ports : List Port) {r : Reservations} (h : r.Sound) : (r.freeHeldBy ports).Sound := by
  have sub (id : ResId) (e : Reservation) (he : (r.freeHeldBy ports).entries[id] = some e) : r.entries[id] = some e := by
    simp only [Reservations.freeHeldBy, vecMap, Vector.getElem_mk, List.getElem_toArray, Fin.getElem_fin,
      List.getElem_map, Vector.getElem_toList] at he
    split at he
    · rename_i v hv
      split at he
      · cases he
      · cases he
        exact hv
    · cases he
  exact ⟨fun id e he => h.1 id e (sub id e he), fun i j hij a b ha hb => h.2 i j hij a b (sub i a ha) (sub j b hb)⟩

theorem Device.inner_freeHeldBy (ports : List Port) (d : Device) :
    d.Inner { d with reservations := d.reservations.freeHeldBy ports } :=
  Device.inner_reservations (Reservations.sound_freeHeldBy ports)

/-! ### The durability tracker -/

theorem mem_insertAsc {n x : Nat} {l : List Nat} (h : x ∈ insertAsc n l) : x = n ∨ x ∈ l := by
  induction l with
  | nil => simpa [insertAsc] using h
  | cons m ms ih =>
    simp only [insertAsc] at h
    split_ifs at h
    · simpa using h
    · exact .inr h
    · rcases List.mem_cons.mp h with h | h
      · exact .inr (by simp [h])
      · rcases ih h with h | h
        · exact .inl h
        · exact .inr (List.mem_cons_of_mem _ h)

theorem pairwise_insertAsc (n : Nat) {l : List Nat} (h : l.Pairwise (· < ·)) : (insertAsc n l).Pairwise (· < ·) := by
  induction l with
  | nil => simp [insertAsc]
  | cons m ms ih =>
    obtain ⟨hm, hms⟩ := List.pairwise_cons.mp h
    simp only [insertAsc]
    split_ifs with h₁ h₂
    · refine List.pairwise_cons.mpr ⟨fun x hx => ?_, h⟩
      rcases List.mem_cons.mp hx with rfl | hx
      · exact h₁
      · exact h₁.trans (hm x hx)
    · exact h
    · refine List.pairwise_cons.mpr ⟨fun x hx => ?_, ih hms⟩
      rcases mem_insertAsc hx with rfl | hx
      · omega
      · exact hm x hx

theorem pairwise_removeNum (n : Nat) {l : List Nat} (h : l.Pairwise (· < ·)) : (removeNum n l).Pairwise (· < ·) :=
  h.filter _

theorem Device.inner_answerFlush (e : FlushEntry) (st : Status) (d : Device) : d.Inner (d.answerFlush e st) := by
  unfold Device.answerFlush
  split
  · rename_i h
    exact Device.inner_answer (PortUnit.speaks_of_command h)
  · rename_i h
    exact Device.inner_answer (PortUnit.speaks_of_command h)
  · exact .refl d

theorem inner_flushLoop (n : Nat) (d : Device) : d.Inner (flushLoop n d) := by
  induction n generalizing d with
  | zero => exact .refl d
  | succ n ih =>
    unfold flushLoop
    split
    · exact .refl d
    · split
      · exact .refl d
      · exact ((d.inner_setFlushList _).trans (Device.inner_answerFlush _ _ _)).trans (ih _)
      · exact ((d.inner_setFlushList _).trans (Device.inner_answerFlush _ _ _)).trans (ih _)

theorem Device.inner_testFlush (d : Device) : d.Inner d.testFlush := inner_flushLoop _ d

theorem Device.inner_joinFlush (e : FlushEntry) (d : Device) : d.Inner (d.joinFlush e) := by
  unfold Device.joinFlush
  split
  · exact (d.inner_setFlushList _).trans (Device.inner_testFlush _)
  · exact d.inner_setFlushList _

theorem Device.inner_dropFlush (leaves : FlushEntry → Bool) (d : Device) : d.Inner (d.dropFlush leaves) := by
  unfold Device.dropFlush
  dsimp only
  split
  · split
    · exact (d.inner_setFlushList _).trans (Device.inner_testFlush _)
    · exact d.inner_setFlushList _
  · exact d.inner_setFlushList _

theorem Device.inner_report {f : Tracker → Tracker} (h : ∀ t, Tracker.Sound t → (f t).Sound) (d : Device) :
    d.Inner (d.report f) := (Device.inner_tracker (h _)).trans (Device.inner_testFlush _)

theorem Device.inner_reportSet (n : Nat) (d : Device) : d.Inner (d.reportSet n) := by
  refine d.inner_report ?_
  exact fun _ h => ⟨h.1, pairwise_insertAsc n h.2.1, h.2.2⟩

theorem Device.inner_reportWriting (d : Device) : d.Inner d.reportWriting := d.inner_report fun _ h => h

theorem Device.inner_reportCleared (n : Nat) (d : Device) : d.Inner (d.reportCleared n) := by
  refine d.inner_report ?_
  exact fun _ h => ⟨h.1, pairwise_removeNum n h.2.1, h.2.2⟩

theorem Device.inner_reportMoved (o n : Nat) (d : Device) : d.Inner (d.reportMoved o n) := by
  refine d.inner_report ?_
  exact fun _ h => ⟨h.1, pairwise_insertAsc n (pairwise_removeNum o h.2.1), h.2.2⟩

theorem Device.inner_reportHeld (e : Nat) (d : Device) : d.Inner (d.reportHeld e) := by
  refine d.inner_report ?_
  exact fun _ h => ⟨h.1, pairwise_removeNum e h.2.1, pairwise_insertAsc e h.2.2⟩

theorem Device.inner_reportLost (e : Nat) (d : Device) : d.Inner (d.reportLost e) := by
  refine (d.inner_raise .dataLost).trans (Device.inner_report ?_ _)
  exact fun _ h => ⟨h.1, pairwise_removeNum e h.2.1, pairwise_removeNum e h.2.2⟩

theorem Device.inner_countCommit (p : Port) (t : Tag) (n : Nat) (d : Device) : d.Inner (d.countCommit p t n) := by
  unfold Device.countCommit
  split
  · rename_i w hw
    have hn : (d.port p).commands[t] ≠ none := by simp [hw]
    dsimp only
    split_ifs
    · exact (Device.inner_setCommand (.inl hn)).trans (Device.inner_joinFlush _ _)
    · exact Device.inner_answer (PortUnit.speaks_of_command hw)
    · exact Device.inner_setCommand (.inl hn)
  · exact .refl d

/-! ### The frame store -/

theorem Device.inner_takeHold (f : FrameNo) (d : Device) : d.Inner (d.takeHold f) := by
  unfold Device.takeHold
  split
  · dsimp only
    split
    · exact (d.inner_setServed _ _).trans (Device.inner_cleanTail _ _)
    · exact d.inner_setServed _ _
  · exact .refl d

theorem Channel.sound_queues {c : Channel} (h : c.Sound) (tq : List TableReq) (sq : List SpareReq) (fq : List FillReq) :
    ({ c with tableQueue := tq, spareQueue := sq, fillQueue := fq } : Channel).Sound := h

theorem Device.inner_tellAll (ws : List WindowRef) (st : WindowState) (d : Device) :
    d.Inner (ws.foldl (fun d w => d.tellWindow w st) d) :=
  Device.inner_foldl (fun d w => d.inner_tellWindow w st) ws d

theorem Device.inner_commitFrame (f : FrameNo) (block n : Nat) (bytes : Block) (d : Device) :
    d.Inner (d.commitFrame f block n bytes) := by
  unfold Device.commitFrame
  refine (d.inner_setBytes f bytes).trans ?_
  generalize d.setBytes f bytes = d
  dsimp only
  split
  · exact ((d.inner_setServed _ _).trans (Device.inner_enterDirty _ _)).trans (Device.inner_reportSet _ _)
  · split
    · exact (((d.inner_setServed _ _).trans (Device.inner_leaveClean _ _)).trans (Device.inner_enterDirty _ _)).trans
        (Device.inner_reportSet _ _)
    · refine Device.Inner.trans ?_ (Device.inner_reportSet _ _)
      exact (((d.inner_setServed _ _).trans (Device.inner_enterDirty _ _)).trans (Device.inner_tellAll _ _ _)).trans
        (Device.inner_channel fun h => h)
    · exact .refl d
    · exact d.inner_setServed _ _
    · exact .refl d

theorem Device.inner_commitInto (p : Port) (buf : BufNo) (f : FrameNo) (block : Nat) (d : Device) :
    d.Inner (d.commitInto p buf f block) := by
  unfold Device.commitInto
  split
  · dsimp only
    refine (Device.inner_tracker (t := { d.tracker with nextWrite := d.tracker.nextWrite + 1 }) fun h =>
      ⟨Nat.le_add_left 1 _, h.2⟩).trans ?_
    exact ((Device.inner_commitFrame _ _ _ _ _).trans (Device.inner_onPort (PortUnit.keeps_freeBuffer buf))).trans
      (Device.inner_countCommit _ _ _ _)
  · exact .refl d

theorem Device.inner_evict (f : FrameNo) (d : Device) : d.Inner (d.evict f) :=
  (d.inner_setServed _ _).trans (Device.inner_leaveClean _ _)

theorem Device.inner_joinWaiters (e : WaiterEntry) (d : Device) : d.Inner (d.joinWaiters e) := d.inner_setWaiterQueue _

theorem Device.inner_leaveWaiters (r : Requester) (d : Device) : d.Inner (d.leaveWaiters r) := d.inner_setWaiterQueue _

theorem Device.inner_requestFill (r : FillReq) (d : Device) : d.Inner (d.requestFill r) :=
  Device.inner_channel fun h => h

theorem Device.inner_fillFor (w : WindowRef) (block : Nat) (f : FrameNo) (d : Device) : d.Inner (d.fillFor w block f) :=
  ((d.inner_setServed _ _).trans (Device.inner_requestFill _ _)).trans (Device.inner_tellWindow _ _ _)

theorem inner_tryHead (n : Nat) (p : Port) (d : Device) : d.Inner (tryHead n p d) := by
  induction n generalizing d with
  | zero => exact .refl d
  | succ n ih =>
    unfold tryHead
    split
    · exact .refl d
    · split
      · exact .refl d
      · split
        · split
          · exact (d.inner_commitInto _ _ _ _).trans (ih _)
          · split
            · exact ((d.inner_evict _).trans (Device.inner_commitInto _ _ _ _ _)).trans (ih _)
            · exact d.inner_joinWaiters _
        · exact .refl d

theorem Device.inner_tryCommit (p : Port) (d : Device) : d.Inner (d.tryCommit p) := inner_tryHead _ p d

/-- A window block that has a hold on a frame waits for its fill or has valid data. -/
theorem Device.inner_giveFrame (f : FrameNo) (d : Device) (e : WaiterEntry) : d.Inner (d.giveFrame f e) := by
  unfold Device.giveFrame
  split
  · refine (d.inner_takeHold f).trans ?_
    generalize d.takeHold f = d
    dsimp only
    split
    · exact (d.inner_setServed _ _).trans (Device.inner_tellWindow _ _ _)
    · exact d.inner_tellWindow _ _
  · exact (d.inner_commitInto _ _ _ _).trans (Device.inner_tryCommit _ _)

theorem Device.inner_giveIndexed (f : FrameNo) (block : Nat) (d : Device) : d.Inner (d.giveIndexed f block) :=
  (d.inner_setWaiterQueue _).trans (Device.inner_foldl (fun d e => d.inner_giveFrame f e) _ _)

theorem Device.inner_handOut (f : FrameNo) (d : Device) : d.Inner (d.handOut f) := by
  unfold Device.handOut
  split
  · exact .refl d
  · dsimp only
    rename_i e rest _
    refine ((d.inner_setWaiterQueue rest).trans (Device.inner_evict f _)).trans ?_
    split
    · exact (Device.inner_fillFor _ _ _ _).trans (Device.inner_giveIndexed _ _ _)
    · exact ((Device.inner_commitInto _ _ _ _ _).trans (Device.inner_giveIndexed _ _ _)).trans (Device.inner_tryCommit _ _)

theorem Device.inner_dropHold (w : WindowRef) (f : FrameNo) (d : Device) : d.Inner (d.dropHold w f) := by
  unfold Device.dropHold
  split
  · dsimp only
    split_ifs
    · exact (d.inner_setServed _ _).trans (Device.inner_handOut _ _)
    · exact d.inner_setServed _ _
  · exact .refl d

theorem Device.inner_departs (p : Port) (wb : WindowBlock) (d : Device) : d.Inner (d.departs p wb) := by
  unfold Device.departs
  dsimp only
  split
  · exact d.inner_dropHold _ _
  · exact d.inner_dropHold _ _
  · exact d.inner_leaveWaiters _
  · exact .refl d
  · exact .refl d

theorem Device.inner_lookupWindow (w : WindowRef) (block : Nat) (d : Device) : d.Inner (d.lookupWindow w block) := by
  unfold Device.lookupWindow
  split
  · rename_i f _
    refine (d.inner_takeHold f).trans ?_
    generalize d.takeHold f = d
    dsimp only
    split
    · exact (d.inner_setServed _ _).trans (Device.inner_tellWindow _ _ _)
    · exact d.inner_tellWindow _ _
  · split
    · exact (d.inner_evict _).trans (Device.inner_fillFor _ _ _ _)
    · exact (d.inner_joinWaiters _).trans (Device.inner_tellWindow _ _ _)

theorem Device.inner_releaseFrame (f : FrameNo) (k : FailKind) (d : Device) : d.Inner (d.releaseFrame f k) := by
  unfold Device.releaseFrame
  split
  · exact .refl d
  · dsimp only
    refine Device.Inner.trans ?_ (Device.inner_handOut _ _)
    have h : d.Inner ((((((d.onPort .a (PortUnit.failHolders f k)).onPort .b
        (PortUnit.failHolders f k)).setServed f none).leaveDirty f).leaveClean f)) :=
      ((((Device.inner_onPort (PortUnit.keeps_failHolders f k)).trans
        (Device.inner_onPort (PortUnit.keeps_failHolders f k))).trans (Device.inner_setServed _ _ _)).trans
        (Device.inner_leaveDirty _ _)).trans (Device.inner_leaveClean _ _)
    split
    · exact h.trans (Device.inner_reportLost _ _)
    · exact h

theorem Device.inner_reportPending (block : Nat) (r : Suspicion) (d : Device) : d.Inner (d.reportPending block r) := by
  unfold Device.reportPending
  split_ifs with h₁ h₂
  · split
    · refine Device.inner_remap fun h => ⟨h.1, h.2.1, ⟨by simpa using h.2.2.1.1, ?_⟩, h.2.2.2⟩
      have : (d.remap.pendingList.map fun b => if b.block = block then { b with reason := Suspicion.unreadable } else b).map
          (fun b => b.block) = d.remap.pendingList.map fun b => b.block := by
        rw [List.map_map]
        exact List.map_congr_left fun b _ => by by_cases hb : b.block = block <;> simp [hb]
      exact this ▸ h.2.2.1.2
    · exact .refl d
  · refine Device.inner_remap fun h => ⟨h.1, h.2.1, ⟨by simpa using h₂, ?_⟩, h.2.2.2⟩
    rw [List.map_append]
    refine h.2.2.1.2.append (by simp) fun x hx hy => h₁ ?_
    obtain ⟨b, hb, rfl⟩ := List.mem_map.mp hx
    exact List.any_eq_true.mpr ⟨b, hb, by simpa using hy⟩
  · exact d.inner_raise _

theorem Device.inner_reportOutcome (block : Nat) (o : ReadOutcome) (d : Device) : d.Inner (d.reportOutcome block o) := by
  unfold Device.reportOutcome
  split
  · exact .refl d
  · exact d.inner_reportPending _ _
  · exact d.inner_reportPending _ _

theorem Device.inner_fillGood (f : FrameNo) (sv : Served) (ws : List WindowRef) (bytes : Block) (d : Device) :
    d.Inner (d.fillGood f sv ws bytes) := by
  unfold Device.fillGood
  dsimp only
  have h := (((d.inner_setBytes f bytes).trans (Device.inner_setServed f (some { sv with state := .clean }) _)).trans
    (Device.inner_cleanTail f _)).trans (Device.inner_tellAll ws (.ready f) _)
  split_ifs
  · exact h.trans (Device.inner_handOut _ _)
  · exact h

theorem Device.inner_fillDone (f : FrameNo) (o : ReadOutcome) (d : Device) : d.Inner (d.fillDone f o) := by
  unfold Device.fillDone
  split
  · split
    · split
      · exact (d.inner_fillGood _ _ _ _).trans (Device.inner_reportOutcome _ _ _)
      · exact (d.inner_releaseFrame _ _).trans (Device.inner_reportOutcome _ _ _)
    · exact (d.inner_setServed _ _).trans (Device.inner_reportOutcome _ _ _)
    · exact .refl d
  · exact .refl d

theorem Device.inner_settleFrame (f : FrameNo) (d : Device) : d.Inner (d.settleFrame f) := by
  unfold Device.settleFrame
  split
  · have h (sv : Option Served) (e : Nat) := ((d.inner_setServed f sv).trans (Device.inner_cleanTail f _)).trans
      (Device.inner_reportCleared e _)
    dsimp only
    split_ifs
    · exact (h _ _).trans (Device.inner_handOut _ _)
    · exact h _ _
  · exact ((d.inner_setServed _ _).trans (Device.inner_enterDirty _ _)).trans (Device.inner_reportMoved _ _ _)
  · exact .refl d

theorem Device.inner_makeHeld (f : FrameNo) (d : Device) : d.Inner (d.makeHeld f) := by
  unfold Device.makeHeld
  split
  · split_ifs
    · exact (d.inner_setServed _ _).trans (Device.inner_reportHeld _ _)
    · exact d.inner_releaseFrame _ _
  · exact .refl d

theorem Device.inner_discardHeldFrames (d : Device) : d.Inner d.discardHeldFrames :=
  Device.inner_foldl (fun d f => d.inner_releaseFrame f _) _ d

/-! ### The read engine -/

theorem PortUnit.nextBlock_none {u : PortUnit} (h : u.NoCommands) : u.nextBlock = none := by
  simp [PortUnit.nextBlock, h.2.1]

/-- A block entering the window: its READ is open, so the port has commands. -/
theorem PortUnit.keeps_enterWindow {u : PortUnit} {t : Tag} {i block : Nat} (h : u.nextBlock = some (t, i, block))
    (wb : WindowBlock) : u.Keeps { u.markMoving t with window := u.window ++ [wb] } := by
  have hn : ¬u.NoCommands := fun n => by simp [PortUnit.nextBlock_none n] at h
  have hm : (u.markMoving t).session = u.session ∧ (u.markMoving t).lastSession = u.lastSession
      ∧ (u.markMoving t).linkUp = u.linkUp ∧ (u.markMoving t).readCredits = u.readCredits
      ∧ (u.markMoving t).outbound = u.outbound := by
    unfold PortUnit.markMoving
    split <;> exact ⟨rfl, rfl, rfl, rfl, rfl⟩
  exact ⟨hm.1, hm.2.1, hm.2.2.1, hm.2.2.2.1.le, fun n => (hn n).elim, fun n => (hn n).elim, fun n => (hn n).elim,
    fun n => (hn n).elim, by simp [hm.2.2.2.2]⟩

theorem inner_refillLoop (n : Nat) (p : Port) (d : Device) : d.Inner (refillLoop n p d) := by
  induction n generalizing d with
  | zero => exact .refl d
  | succ n ih =>
    unfold refillLoop
    split_ifs
    · split
      · rename_i t i block h
        refine Device.Inner.trans ?_ (ih _)
        exact (Device.inner_setPort (PortUnit.keeps_enterWindow h _)).trans (Device.inner_lookupWindow _ _ _)
      · exact .refl d
    · exact .refl d

theorem Device.inner_refill (p : Port) (d : Device) : d.Inner (d.refill p) := inner_refillLoop _ p d

theorem PortUnit.keeps_windowErase (wb : WindowBlock) (u : PortUnit) : u.Keeps { u with window := u.window.erase wb } :=
  ⟨rfl, rfl, rfl, le_rfl, id, fun _ => List.length_erase_le, fun _ h => h, fun _ _ => rfl, List.prefix_rfl⟩

theorem inner_leaveWindow (leaves : WindowBlock → Bool) (n : Nat) (p : Port) (d : Device) :
    d.Inner (leaveWindow leaves n p d) := by
  induction n generalizing d with
  | zero => exact .refl d
  | succ n ih =>
    unfold leaveWindow
    split
    · rename_i wb _
      exact ((Device.inner_onPort (PortUnit.keeps_windowErase wb)).trans (Device.inner_departs _ _ _)).trans (ih _)
    · exact .refl d

theorem Device.inner_leaveWindowTag (p : Port) (t : Tag) (d : Device) : d.Inner (d.leaveWindowTag p t) :=
  inner_leaveWindow _ _ p d

theorem Device.inner_leaveWindowAll (p : Port) (d : Device) : d.Inner (d.leaveWindowAll p) := inner_leaveWindow _ _ p d

theorem PortUnit.keeps_readErase (t : Tag) (u : PortUnit) : u.Keeps { u with readList := u.readList.erase t } :=
  ⟨rfl, rfl, rfl, le_rfl, fun h => ⟨h.1, by simp [h.2.1], h.2.2⟩, fun _ => le_rfl, fun _ h => h, fun _ _ => rfl, List.prefix_rfl⟩

theorem PortUnit.keeps_writeErase (t : Tag) (u : PortUnit) : u.Keeps { u with writeList := u.writeList.erase t } :=
  ⟨rfl, rfl, rfl, le_rfl, fun h => ⟨h.1, h.2.1, by simp [h.2.2]⟩, fun _ => le_rfl, fun _ h => h, fun _ _ => rfl, List.prefix_rfl⟩

theorem Device.Inner.answerRead {d e : Device} (hi : d.Inner e) {p : Port} {t : Tag} {st : Status} {moved : Nat}
    {failing : Option Nat} (h : (d.port p).Speaks) : d.Inner (e.answerRead p t st moved failing) :=
  (hi.answer h).trans (Device.inner_onPort (PortUnit.keeps_readErase t))

theorem Device.inner_answerRead {p : Port} {t : Tag} {st : Status} {moved : Nat} {failing : Option Nat} {d : Device}
    (h : (d.port p).Speaks) : d.Inner (d.answerRead p t st moved failing) := (Device.Inner.refl d).answerRead h

theorem Device.Inner.speaks {d d' : Device} {p : Port} (h : d.Inner d') (ha : (d.port p).session = .attached) :
    (d'.port p).Speaks := .inl ((h.ports p).session.trans ha)

theorem Device.inner_finishRead (p : Port) (t : Tag) (d : Device) : d.Inner (d.finishRead p t) := by
  unfold Device.finishRead
  split
  · rename_i h
    split_ifs
    · exact Device.inner_answerRead (PortUnit.speaks_of_command h)
    · exact .refl d
  · exact .refl d

theorem PortUnit.keeps_formData {wb : WindowBlock} {bytes : Block} {u : PortUnit} (ha : u.session = .attached) :
    u.Keeps (u.formData wb bytes) := by
  unfold PortUnit.formData
  dsimp only
  refine (PortUnit.keeps_enqueue (m := .data wb.tag wb.index bytes) (.inl ha)).trans ?_
  generalize u.enqueue (.data wb.tag wb.index bytes) = v
  have h : v.Keeps { v with readCredits := v.readCredits - 1, window := v.window.tail } :=
    ⟨rfl, rfl, rfl, Nat.sub_le _ _, id, fun _ => by simp, fun _ hb => hb, fun _ _ => rfl, List.prefix_rfl⟩
  split
  · rename_i r hr
    exact h.trans (PortUnit.keeps_setCommand (.inl (by rw [hr]; exact Option.some_ne_none _)))
  · exact h

theorem Device.inner_formData {p : Port} {wb : WindowBlock} {f : FrameNo} {d : Device}
    (ha : (d.port p).session = .attached) : d.Inner (d.formData p wb f) :=
  (((Device.inner_setPort (PortUnit.keeps_formData ha)).trans (Device.inner_dropHold _ _ _)).trans
    (Device.inner_finishRead _ _ _)).trans (Device.inner_refill _ _)

theorem Device.inner_failRead {p : Port} {wb : WindowBlock} {k : FailKind} {d : Device}
    (ha : (d.port p).session = .attached) : d.Inner (d.failRead p wb k) :=
  ((Device.inner_answerRead (.inl ha)).trans (Device.inner_leaveWindowTag _ _ _)).trans (Device.inner_refill _ _)

theorem Device.inner_engineStep {p : Port} {d d' : Device} (h : d.engineStep p = some d') : d.Inner d' := by
  unfold Device.engineStep at h
  by_cases hr : d.mode.mode = .serving ∧ (d.port p).attached = true ∧ (!(d.port p).overflowed) = true
  · have ha : (d.port p).session = .attached := of_decide_eq_true hr.2.1
    rw [if_pos hr] at h
    split at h
    · split at h
      · split at h
        · cases h
          exact Device.inner_formData ha
        · cases h
      · cases h
        exact Device.inner_failRead ha
      · cases h
    · cases h
  · rw [if_neg hr] at h
    cases h

theorem inner_engineLoop (n : Nat) (p : Port) (d : Device) : d.Inner (engineLoop n p d) := by
  induction n generalizing d with
  | zero => exact .refl d
  | succ n ih =>
    unfold engineLoop
    split
    · rename_i d' h
      exact (Device.inner_engineStep h).trans (ih _)
    · exact .refl d

/-! ### Write credits -/

theorem PortUnit.grantSize_zero {u : PortUnit} (h : u.NoCommands) : u.grantSize = 0 := by
  simp [PortUnit.grantSize, PortUnit.toReceive, h.2.2]

theorem PortUnit.promise_fields (l : List BufNo) (u : PortUnit) :
    (l.foldl (fun u b => u.setLanding b .promised) u) =
      { u with landing := (l.foldl (fun u b => u.setLanding b .promised) u).landing } := by
  induction l generalizing u with
  | nil => rfl
  | cons b l ih => simp only [List.foldl_cons]; rw [ih]; rfl

theorem PortUnit.keeps_grant (u : PortUnit) : u.Keeps u.grant := by
  unfold PortUnit.grant
  dsimp only
  split_ifs with h
  · exact .refl u
  · have hn : ¬u.NoCommands := fun n => h (PortUnit.grantSize_zero n)
    rw [PortUnit.promise_fields]
    have hs : u.Speaks := .inr hn
    refine PortUnit.Keeps.trans ?_ (PortUnit.keeps_enqueue (.inr fun n => hn n))
    exact ⟨rfl, rfl, rfl, le_rfl, fun n => (hn n).elim, fun n => (hn n).elim, fun n => (hn n).elim, fun n => (hn n).elim,
      List.prefix_rfl⟩

theorem Device.inner_grantCredits (p : Port) (d : Device) : d.Inner (d.grantCredits p) :=
  Device.inner_onPort PortUnit.keeps_grant

/-! ### The answers at the entry to FAULTED -/

theorem Device.inner_faultRead (p : Port) (t : Tag) (d : Device) : d.Inner (d.faultRead p t) := by
  unfold Device.faultRead
  split
  · rename_i h
    exact (d.inner_leaveWindowTag p t).answerRead (PortUnit.speaks_of_command h)
  · exact .refl d

theorem Device.inner_discardBuffer (p : Port) (b : BufNo) (d : Device) : d.Inner (d.discardBuffer p b) :=
  (d.inner_leaveWaiters _).trans (Device.inner_onPort (PortUnit.keeps_freeBuffer b))

theorem Device.inner_discardBuffers (p : Port) (t : Tag) (d : Device) : d.Inner (d.discardBuffers p t) :=
  Device.inner_foldl (fun d b => d.inner_discardBuffer p b) _ d

theorem Device.inner_faultWrite (p : Port) (t : Tag) (d : Device) : d.Inner (d.faultWrite p t) := by
  unfold Device.faultWrite
  split
  · rename_i h
    exact ((d.inner_discardBuffers p t).trans (Device.inner_onPort (PortUnit.keeps_writeErase t))).answer
      (PortUnit.speaks_of_command h)
  · exact .refl d

theorem Device.inner_faultPort (p : Port) (d : Device) : d.Inner (d.faultPort p) :=
  (Device.inner_foldl (fun d t => d.inner_faultRead p t) _ d).trans
    (Device.inner_foldl (fun d t => d.inner_faultWrite p t) _ _)

theorem Device.inner_faultFlush (e : FlushEntry) (d : Device) : d.Inner (d.faultFlush e) := by
  unfold Device.faultFlush
  split
  · rename_i h
    exact Device.inner_answer (PortUnit.speaks_of_command h)
  · rename_i h
    exact Device.inner_answer (PortUnit.speaks_of_command h)
  · exact .refl d

theorem Device.inner_dropWaiters (leaves : WaiterEntry → Bool) (d : Device) : d.Inner (d.dropWaiters leaves) :=
  d.inner_setWaiterQueue _

theorem Device.inner_faultAnswers (d : Device) : d.Inner d.faultAnswers :=
  (((((d.inner_dropWaiters _).trans (Device.inner_faultPort .a _)).trans (Device.inner_faultPort .b _)).trans (Device.inner_setFlushList [] _)).trans
    (Device.inner_foldl (fun d e => d.inner_faultFlush e) _ _)).trans (Device.inner_faultPending _)

/-! ### The remap unit -/

theorem Device.inner_lockWith (r : LockReason) (d : Device) : d.Inner (d.lockWith r) :=
  ((Device.inner_remap (r := { d.remap with lock := some r }) id).trans (Device.inner_raise _ _)).trans
    (Device.inner_notifyBoth _ _)

theorem Device.inner_enterNoSpares (d : Device) : d.Inner d.enterNoSpares := by
  unfold Device.enterNoSpares
  split
  · exact d.inner_lockWith _
  · exact .refl d

theorem Device.inner_enterTableLost (d : Device) : d.Inner d.enterTableLost := by
  unfold Device.enterTableLost
  split
  · exact .refl d
  · exact d.inner_lockWith _

theorem Device.inner_requestSpare (q : SpareReq) (d : Device) : d.Inner (d.requestSpare q) :=
  Device.inner_channel fun h => h

theorem Device.inner_requestTable (qs : List TableReq) (d : Device) : d.Inner (d.requestTable qs) :=
  Device.inner_channel fun h => h

/-- The agreement of table, spares and claims, for other claims on the same pool. -/
theorem Spared.claims {table : List RemapEntry} {spares : Option (Vector SpareState 256)} {l l' : List RemapRecord}
    (h : Spared table spares l) (hc : ∀ x ∈ l', ∀ s, x.claim = some s → spares.map (fun v => v[s]) = some .free)
    (hs : ∀ x ∈ l', ∀ y ∈ l', ∀ s, x.claim = some s → y.claim = some s → x.frame = y.frame) : Spared table spares l' :=
  { h with claimed := hc, single := hs }

/-- Records end, or lose their claim. -/
theorem Spared.fewer {table : List RemapEntry} {spares : Option (Vector SpareState 256)} {l l' : List RemapRecord}
    (h : Spared table spares l)
    (hl : ∀ x ∈ l', x.claim = none ∨ ∃ w ∈ l, w.claim = x.claim ∧ w.frame = x.frame) : Spared table spares l' := by
  refine h.claims (fun x hx s hs => ?_) fun x hx y hy s hxs hys => ?_
  · obtain e | ⟨w, hw, e, -⟩ := hl x hx
    · simp [e] at hs
    · exact h.claimed w hw s (e.trans hs)
  · obtain e | ⟨w, hw, e, ef⟩ := hl x hx
    · simp [e] at hxs
    · obtain e' | ⟨v, hv, e', ef'⟩ := hl y hy
      · simp [e'] at hys
      · rw [← ef, ← ef']
        exact h.single w hw v hv s (e.trans hxs) (e'.trans hys)

theorem Device.inner_endRecord (f : FrameNo) (d : Device) : d.Inner (d.onRemap (Remap.endRecord f)) :=
  Device.inner_onRemap fun _ h => ⟨h.1, h.2.1, h.2.2.1, h.2.2.2.fewer fun x hx =>
    .inr ⟨x, (List.mem_filter.mp hx).1, rfl, rfl⟩⟩

theorem Remap.mem_setRecord {f : FrameNo} {c : Option SpareNo} {t : Target} {r : Remap} {x : RemapRecord}
    (hx : x ∈ (r.setRecord f c t).workList) : (x.frame = f ∧ x.claim = c) ∨ (x ∈ r.workList ∧ x.frame ≠ f) := by
  obtain ⟨w, hw, rfl⟩ := List.mem_map.mp hx
  by_cases h : w.frame = f
  · exact .inl (by simp [h])
  · exact .inr (by simp [h, hw])

/-- The records of a frame claim nothing, or a FREE spare that no other frame's record claims. -/
theorem Remap.sound_setRecord {f : FrameNo} {c : Option SpareNo} {t : Target} {r : Remap} (h : r.Sound)
    (hc : ∀ s, c = some s → r.spareState s = some .free ∧ ∀ w ∈ r.workList, w.frame ≠ f → w.claim ≠ some s) :
    (r.setRecord f c t).Sound := by
  refine ⟨h.1, h.2.1, h.2.2.1, h.2.2.2.claims (fun x hx s hs => ?_) fun x hx y hy s hxs hys => ?_⟩
  · rcases Remap.mem_setRecord hx with ⟨-, e⟩ | ⟨hm, -⟩
    · exact (hc s (e.symm.trans hs)).1
    · exact h.2.2.2.claimed x hm s hs
  · rcases Remap.mem_setRecord hx with ⟨ex, e⟩ | ⟨hm, hf⟩ <;> rcases Remap.mem_setRecord hy with ⟨ey, e'⟩ | ⟨hm', hf'⟩
    · rw [ex, ey]
    · exact ((hc s (e.symm.trans hxs)).2 y hm' hf' hys).elim
    · exact ((hc s (e'.symm.trans hys)).2 x hm hf hxs).elim
    · exact h.2.2.2.single x hm y hm' s hxs hys

theorem Device.inner_setRecord (f : FrameNo) (t : Target) (d : Device) :
    d.Inner (d.onRemap (Remap.setRecord f none t)) := Device.inner_onRemap fun _ h => Remap.sound_setRecord h fun _ e => by cases e

/-- A claim takes a FREE spare that no record claims. -/
theorem Remap.newSpare_some {r : Remap} {s : SpareNo} (h : r.newSpare = some s) :
    r.spareState s = some .free ∧ ∀ w ∈ r.workList, w.claim ≠ some s := by
  unfold Remap.newSpare at h
  split_ifs at h
  have hm := List.mem_of_mem_head? h
  unfold Remap.unclaimed at hm
  split at hm
  · rename_i v hv
    obtain ⟨-, ht⟩ := List.mem_filter.mp hm
    simp only [Bool.and_eq_true, decide_eq_true_eq, Bool.not_eq_true', Remap.claimed, List.any_eq_false] at ht
    exact ⟨by simpa [Remap.spareState, hv] using ht.1, fun w hw => ht.2 w hw⟩
  · cases hm

theorem Device.inner_withoutSpare (w : RemapRecord) (d : Device) : d.Inner (d.withoutSpare w) := by
  unfold Device.withoutSpare
  refine d.inner_enterNoSpares.trans ?_
  generalize d.enterNoSpares = d
  dsimp only
  split
  · exact (d.inner_setRecord _ _).trans (Device.inner_requestSpare _ _)
  · exact (d.inner_endRecord _).trans (Device.inner_makeHeld _ _)

theorem Device.inner_placeRecord (w : RemapRecord) (d : Device) : d.Inner (d.placeRecord w) := by
  unfold Device.placeRecord
  split
  · rename_i s hs
    obtain ⟨hf, hu⟩ := Remap.newSpare_some hs
    refine Device.Inner.trans ?_ (Device.inner_requestSpare _ _)
    refine Device.inner_remap fun h => Remap.sound_setRecord h ?_
    rintro _ ⟨⟩
    exact ⟨hf, fun x hx _ => hu x hx⟩
  · exact d.inner_withoutSpare w

theorem Device.inner_takeIn (f : FrameNo) (block : Nat) (o : Origin) (image : Block) (d : Device) :
    d.Inner (d.takeIn f block o image) := by
  refine Device.Inner.trans ?_ (Device.inner_placeRecord _ _)
  refine Device.inner_onRemap fun _ h => ⟨h.1, h.2.1, h.2.2.1, h.2.2.2.fewer fun x hx => ?_⟩
  rcases List.mem_append.mp hx with hx | hx
  · exact .inr ⟨x, hx, rfl, rfl⟩
  · exact .inl (by rw [List.mem_singleton.mp hx])

theorem Device.inner_handOver (f : FrameNo) (image : Block) (d : Device) : d.Inner (d.handOver f image) := by
  unfold Device.handOver
  split
  · exact (d.inner_setServed _ _).trans (Device.inner_takeIn _ _ _ _ _)
  · exact .refl d

theorem Remap.sound_setDegraded (c : Copy) (v : Bool) {r : Remap} (h : r.Sound) : (r.setDegraded c v).Sound := by
  cases c <;> exact h

theorem Device.inner_holdEntry (b : Nat) (d : Device) : d.Inner (d.holdEntry b) := by
  unfold Device.holdEntry
  split
  · exact (d.inner_endRecord _).trans (Device.inner_makeHeld _ _)
  · exact .refl d

theorem Device.inner_loseBatches (d : Device) : d.Inner d.loseBatches := by
  unfold Device.loseBatches
  refine Device.Inner.trans ?_ (Device.inner_onRemap fun _ h => h)
  refine Device.Inner.trans ?_ (Device.inner_foldl (fun d b => d.inner_holdEntry b) _ _)
  refine Device.Inner.trans ?_ (Device.inner_enterTableLost _)
  exact Device.inner_onRemap fun _ h => ⟨h.1, Nat.zero_le _, h.2.2⟩

theorem Device.inner_withdrawWrites (d : Device) : d.Inner d.withdrawWrites := Device.inner_channel fun h => h

theorem Device.inner_persistLoss (c : Copy) (d : Device) : d.Inner (d.persistLoss c) :=
  (((Device.inner_onRemap fun _ h => Remap.sound_setDegraded c true h).trans (Device.inner_raise _ _)).trans
    (Device.inner_withdrawWrites _)).trans (Device.inner_loseBatches _)

theorem Device.inner_beginPersist (d : Device) : d.Inner d.beginPersist := by
  unfold Device.beginPersist
  split_ifs with _ hg
  · exact d.inner_loseBatches
  · dsimp only
    refine Device.Inner.trans ?_ (Device.inner_requestTable _ _)
    refine Device.inner_remap fun h => ⟨h.1, ?_, h.2.2⟩
    have := h.1
    simp only [PersistState.generation]
    omega
  · exact .refl d

theorem Device.inner_beginLoad (d : Device) : d.Inner d.beginLoad := by
  refine Device.Inner.trans ?_ (Device.inner_requestTable _ _)
  exact Device.inner_onRemap fun _ h => h

theorem Device.inner_beginFormat (d : Device) : d.Inner d.beginFormat := by
  unfold Device.beginFormat
  refine Device.Inner.trans ?_ (Device.inner_requestTable _ _)
  refine Device.Inner.trans ?_ (Device.inner_raise _ _)
  refine Device.inner_remap fun h => ⟨h.1, ?_, h.2.2⟩
  simp [PersistState.generation, Config.lastGeneration]

theorem Device.inner_settleEntry (b : Nat) (d : Device) : d.Inner (d.settleEntry b) := by
  unfold Device.settleEntry
  split
  · exact (d.inner_endRecord _).trans (Device.inner_settleFrame _ _)
  · exact .refl d

theorem mem_insertEntry {e x : RemapEntry} {l : List RemapEntry} (h : l.Pairwise fun a b => a.block < b.block) :
    x ∈ insertEntry e l ↔ x = e ∨ (x ∈ l ∧ x.block ≠ e.block) := by
  induction l with
  | nil => simp [insertEntry]
  | cons g gs ih =>
    obtain ⟨hg, hgs⟩ := List.pairwise_cons.mp h
    simp only [insertEntry]
    split_ifs with h₁ h₂
    · have (y : RemapEntry) (hy : y ∈ g :: gs) : y.block ≠ e.block := by
        rcases List.mem_cons.mp hy with rfl | hy
        · omega
        · have := hg y hy
          omega
      rw [List.mem_cons]
      exact or_congr_right ⟨fun hx => ⟨hx, this x hx⟩, fun hx => hx.1⟩
    · have (y : RemapEntry) (hy : y ∈ gs) : y.block ≠ e.block := by
        have := hg y hy
        omega
      rw [List.mem_cons, List.mem_cons]
      refine or_congr_right ⟨fun hx => ⟨.inr hx, this x hx⟩, fun hx => hx.1.resolve_left ?_⟩
      rintro rfl
      exact hx.2 h₂.symm
    · rw [List.mem_cons, List.mem_cons, ih hgs]
      constructor
      · rintro (rfl | rfl | ⟨hx, hb⟩)
        · exact .inr ⟨.inl rfl, fun hb => h₂ hb.symm⟩
        · exact .inl rfl
        · exact .inr ⟨.inr hx, hb⟩
      · rintro (rfl | ⟨rfl | hx, hb⟩)
        · exact .inr (.inl rfl)
        · exact .inl rfl
        · exact .inr (.inr ⟨hx, hb⟩)

theorem pairwise_insertEntry {e : RemapEntry} {l : List RemapEntry} (h : l.Pairwise fun a b => a.block < b.block) :
    (insertEntry e l).Pairwise fun a b => a.block < b.block := by
  induction l with
  | nil => simp [insertEntry]
  | cons g gs ih =>
    obtain ⟨hg, hgs⟩ := List.pairwise_cons.mp h
    simp only [insertEntry]
    split_ifs with h₁ h₂
    · refine List.pairwise_cons.mpr ⟨fun y hy => ?_, h⟩
      rcases List.mem_cons.mp hy with rfl | hy
      · exact h₁
      · exact h₁.trans (hg y hy)
    · exact List.pairwise_cons.mpr ⟨fun y hy => h₂ ▸ hg y hy, hgs⟩
    · refine List.pairwise_cons.mpr ⟨fun y hy => ?_, ih hgs⟩
      rcases (mem_insertEntry hgs).mp hy with rfl | ⟨hy, -⟩
      · omega
      · exact hg y hy

theorem Remap.setSpare_state (s t : SpareNo) (st : SpareState) (r : Remap) :
    (r.setSpare s st).spareState t = if t = s then r.spares.map fun _ => st else r.spareState t := by
  unfold Remap.setSpare Remap.spareState
  rw [Option.map_map]
  split_ifs with h
  · subst h
    cases r.spares <;> simp
  · have : (s : Nat) ≠ t := fun e => h (Fin.ext e.symm)
    cases r.spares <;> simp [Vector.getElem_set_ne, this]

/-- R88 step 1: a claimed spare that is RETIRED, its claim ended. -/
theorem Remap.sound_retire {w : RemapRecord} {s : SpareNo} {r : Remap} (h : r.Sound) (hw : w ∈ r.workList) (hc : w.claim = some s) :
    ((r.setSpare s .retired).setRecord w.frame none w.target).Sound := by
  obtain ⟨h₁, h₂, h₃, sp⟩ := h
  have hfree := sp.claimed w hw s hc
  have st (t : SpareNo) : (r.setSpare s .retired).spareState t
      = if t = s then r.spares.map fun _ => .retired else r.spareState t := r.setSpare_state s t .retired
  refine ⟨h₁, h₂, h₃, sp.ascending, sp.distinct, fun t => ?_, fun x hx t ht => ?_, fun x hx y hy t hxt hyt => ?_⟩
  · refine Iff.trans ?_ (sp.inUse t)
    change (r.setSpare s .retired).spareState t = some .inUse ↔ _
    rw [st]
    split_ifs with e
    · subst e
      rw [hfree]
      cases r.spares <;> simp
    · exact Iff.rfl
  · change (r.setSpare s .retired).spareState t = some .free
    rcases Remap.mem_setRecord hx with ⟨-, e⟩ | ⟨hm, hf⟩
    · rw [e] at ht
      cases ht
    · rw [st, if_neg]
      · exact sp.claimed x hm t ht
      · rintro rfl
        exact hf (sp.single x hm w hw t ht hc)
  · rcases Remap.mem_setRecord hx with ⟨-, e⟩ | ⟨hm, -⟩
    · rw [e] at hxt
      cases hxt
    · rcases Remap.mem_setRecord hy with ⟨-, e⟩ | ⟨hm', -⟩
      · rw [e] at hyt
        cases hyt
      · exact sp.single x hm y hm' t hxt hyt

/-- The table, the spares and the claims after R87 steps 1 to 3. -/
theorem Remap.spared_placed {w : RemapRecord} {s : SpareNo} {r : Remap} (sp : Spared r.table r.spares r.workList)
    (hw : w ∈ r.workList) (hc : w.claim = some s) :
    Spared (Remap.placed w s r).table (Remap.placed w s r).spares (Remap.placed w s r).workList := by
  have hfree := sp.claimed w hw s hc
  have hnew (e : RemapEntry) (he : e ∈ r.table) : e.spare ≠ s := fun hs => by
    have := (sp.inUse s).mpr ⟨e, he, hs⟩
    rw [hfree] at this
    cases this
  have htable : (Remap.placed w s r).table = insertEntry { block := w.block, spare := s, state := .batched } r.table := by
    unfold Remap.placed
    cases (r.entryOf w.block).map fun e => e.spare <;> rfl
  have hlist : (Remap.placed w s r).workList = (r.setRecord w.frame none w.target).workList := by
    unfold Remap.placed
    cases (r.entryOf w.block).map fun e => e.spare <;> rfl
  have hold (o : SpareNo) : (r.entryOf w.block).map (fun e => e.spare) = some o ↔ ∃ e ∈ r.table, e.block = w.block ∧ e.spare = o := by
    unfold Remap.entryOf
    constructor
    · intro h
      obtain ⟨e, he, rfl⟩ := Option.map_eq_some_iff.mp h
      exact ⟨e, List.mem_of_find?_eq_some he, by simpa using List.find?_some he, rfl⟩
    · rintro ⟨e, he, hb, rfl⟩
      rcases hf : r.table.find? fun e => e.block == w.block with _ | g
      · have := List.find?_eq_none.mp hf e he
        simp [hb] at this
      · have hg : g.block = w.block := by simpa using List.find?_some hf
        have hmem := List.mem_of_find?_eq_some hf
        have : g = e := by
          by_contra hne
          have irr : Std.Symm fun a b : RemapEntry => a.block ≠ b.block := ⟨fun _ _ h => h.symm⟩
          exact (sp.ascending.imp fun h => Nat.ne_of_lt h).forall hmem he hne (hg.trans hb.symm)
        exact Option.map_eq_some_iff.mpr ⟨g, hf, by rw [this]⟩
  have hstate (t : SpareNo) : (Remap.placed w s r).spares.map (fun v => v[t])
      = if t = s then some .inUse else if (∃ e ∈ r.table, e.block = w.block ∧ e.spare = t) then some .retired
        else r.spares.map fun v => v[t] := by
    have hsome : ∃ v, r.spares = some v := by
      cases h : r.spares with
      | none => rw [h] at hfree; cases hfree
      | some v => exact ⟨v, rfl⟩
    obtain ⟨v, hv⟩ := hsome
    have hpl : (Remap.placed w s r).spares = (match (r.entryOf w.block).map fun e : RemapEntry => e.spare with
        | some o => (r.setSpare s .inUse).setSpare o .retired
        | none => r.setSpare s .inUse).spares := by
      unfold Remap.placed
      cases (r.entryOf w.block).map fun e => e.spare <;> rfl
    rw [hpl]
    have used : (r.setSpare s .inUse).spareState s = some .inUse := (r.setSpare_state s s .inUse).trans (by simp [hv])
    generalize ((r.entryOf w.block).map fun e => e.spare) = old at hold
    by_cases hts : t = s
    · subst hts
      rw [if_pos rfl]
      cases old with
      | none => exact used
      | some o =>
        obtain ⟨e, he, -, rfl⟩ := (hold o).mp rfl
        refine ((r.setSpare t .inUse).setSpare_state e.spare t .retired).trans ?_
        rw [if_neg fun h => hnew e he h.symm]
        exact used
    · rw [if_neg hts]
      cases old with
      | none =>
        rw [if_neg fun h => by cases (hold t).mpr h]
        exact (r.setSpare_state s t .inUse).trans (if_neg hts)
      | some o =>
        refine ((r.setSpare s .inUse).setSpare_state o t .retired).trans ?_
        by_cases hto : t = o
        · subst hto
          rw [if_pos rfl, if_pos ((hold t).mp rfl)]
          simp [Remap.setSpare, hv]
        · rw [if_neg hto, if_neg fun h => hto (Option.some.inj ((hold t).mpr h)).symm]
          exact (r.setSpare_state s t .inUse).trans (if_neg hts)
  refine ⟨htable ▸ pairwise_insertEntry sp.ascending, ?_, fun t => ?_, fun x hx t ht => ?_, fun x hx y hy t hxt hyt => ?_⟩
  · rw [htable]
    have key : ∀ l : List RemapEntry, l.Pairwise (fun a b => a.spare ≠ b.spare) → (∀ e ∈ l, e.spare ≠ s) →
        (insertEntry { block := w.block, spare := s, state := .batched } l).Pairwise fun a b => a.spare ≠ b.spare := by
      intro l hl hs
      induction l with
      | nil => simp [insertEntry]
      | cons g gs ih =>
        obtain ⟨hg, hgs⟩ := List.pairwise_cons.mp hl
        simp only [insertEntry]
        split_ifs
        · exact List.pairwise_cons.mpr ⟨fun y hy => (hs y hy).symm, hl⟩
        · exact List.pairwise_cons.mpr ⟨fun y hy => (hs y (List.mem_cons_of_mem _ hy)).symm, hgs⟩
        · refine List.pairwise_cons.mpr ⟨fun y hy => ?_, ih hgs fun e he => hs e (List.mem_cons_of_mem _ he)⟩
          have sub : ∀ (l : List RemapEntry) e, y ∈ insertEntry e l → y = e ∨ y ∈ l := by
            intro l e
            induction l with
            | nil => simp [insertEntry]
            | cons a as iha =>
              simp only [insertEntry]
              split_ifs
              · exact fun h => List.mem_cons.mp h
              · exact fun h => (List.mem_cons.mp h).imp id fun h => List.mem_cons_of_mem _ h
              · intro h
                rcases List.mem_cons.mp h with rfl | h
                · exact .inr (by simp)
                · exact (iha h).imp id fun h => List.mem_cons_of_mem _ h
          rcases sub gs _ hy with rfl | hy
          · exact hs g (by simp)
          · exact hg y hy
    exact key _ sp.distinct hnew
  · rw [hstate, htable]
    have mem (P : RemapEntry → Prop) : (∃ x ∈ insertEntry { block := w.block, spare := s, state := .batched } r.table, P x) ↔
        ∃ x, (x = { block := w.block, spare := s, state := .batched } ∨ (x ∈ r.table ∧ x.block ≠ w.block)) ∧ P x := by
      simp only [mem_insertEntry sp.ascending]
    rw [mem]
    split_ifs with h₁ h₂
    · subst h₁
      exact ⟨fun _ => ⟨_, .inl rfl, rfl⟩, fun _ => rfl⟩
    · obtain ⟨e, he, hb, rfl⟩ := h₂
      refine ⟨fun h => (by cases h), ?_⟩
      rintro ⟨x, rfl | ⟨hx, hxb⟩, hxs⟩
      · exact (h₁ hxs.symm).elim
      · have hne : x ≠ e := fun h => hxb (h ▸ hb)
        have irr : Std.Symm fun a b : RemapEntry => a.spare ≠ b.spare := ⟨fun _ _ h => h.symm⟩
        exact (sp.distinct.forall hx he hne hxs).elim
    · refine (sp.inUse t).trans ⟨?_, ?_⟩
      · rintro ⟨e, he, rfl⟩
        exact ⟨e, .inr ⟨he, fun hb => h₂ ⟨e, he, hb, rfl⟩⟩, rfl⟩
      · rintro ⟨x, rfl | ⟨hx, -⟩, hxs⟩
        · exact (h₁ hxs.symm).elim
        · exact ⟨x, hx, hxs⟩
  · rw [hlist] at hx
    rcases Remap.mem_setRecord hx with ⟨-, e⟩ | ⟨hm, hf⟩
    · rw [e] at ht
      cases ht
    · have hfr := sp.claimed x hm t ht
      rw [hstate, if_neg, if_neg, hfr]
      · rintro ⟨e, he, -, hs⟩
        have := (sp.inUse t).mpr ⟨e, he, hs⟩
        rw [hfr] at this
        cases this
      · rintro rfl
        exact hf (sp.single x hm w hw t ht hc)
  · rw [hlist] at hx hy
    rcases Remap.mem_setRecord hx with ⟨-, e⟩ | ⟨hm, -⟩
    · rw [e] at hxt
      cases hxt
    · rcases Remap.mem_setRecord hy with ⟨-, e⟩ | ⟨hm', -⟩
      · rw [e] at hyt
        cases hyt
      · exact sp.single x hm y hm' t hxt hyt

theorem Remap.sound_placed {w : RemapRecord} {s : SpareNo} {r : Remap} (h : r.Sound) (hw : w ∈ r.workList) (hc : w.claim = some s) :
    (Remap.placed w s r).Sound := by
  have sp := Remap.spared_placed h.2.2.2 hw hc
  obtain ⟨h₁, h₂, ⟨hp, hn⟩, -⟩ := h
  have hp' : (r.pendingList.filter fun b => b.block != w.block).length ≤ Config.pendingCap := (List.length_filter_le _ _).trans hp
  have hn' : ((r.pendingList.filter fun b => b.block != w.block).map fun b => b.block).Nodup :=
    hn.sublist (List.filter_sublist.map _)
  refine ⟨?_, ?_, ?_, sp⟩ <;> unfold Remap.placed <;> cases (r.entryOf w.block).map fun e => e.spare <;>
    first | exact h₁ | exact h₂ | exact ⟨hp', hn'⟩

theorem Device.inner_toTablePhase (f : FrameNo) (d : Device) : d.Inner (d.toTablePhase f) := by
  unfold Device.toTablePhase
  split
  · exact d.inner_setServed _ _
  · exact .refl d

theorem Device.inner_testSpares (d : Device) : d.Inner d.testSpares := by
  unfold Device.testSpares
  split_ifs
  · exact d.inner_enterNoSpares
  · exact .refl d

theorem Device.inner_spareWriteDone {w : RemapRecord} {s : SpareNo} {d : Device} (hw : w ∈ d.remap.workList)
    (hc : w.claim = some s) : d.Inner (d.spareWriteDone w s) := by
  unfold Device.spareWriteDone
  have hp : d.Inner (d.onRemap (Remap.placed w s)) := Device.inner_remap fun h => Remap.sound_placed h hw hc
  refine hp.trans ?_
  generalize d.onRemap (Remap.placed w s) = d
  dsimp only
  split_ifs
  · exact ((d.inner_endRecord _).trans (Device.inner_makeHeld _ _)).trans (Device.inner_testSpares _)
  · refine Device.Inner.trans ?_ (Device.inner_beginPersist _)
    refine Device.Inner.trans ?_ (Device.inner_testSpares _)
    refine Device.Inner.trans ?_ (Device.inner_toTablePhase _ _)
    exact Device.inner_onRemap fun _ h => h

theorem Device.inner_spareWriteFault {w : RemapRecord} {s : SpareNo} {d : Device} (hw : w ∈ d.remap.workList)
    (hc : w.claim = some s) : d.Inner (d.spareWriteFault w s) := by
  refine Device.Inner.trans ?_ (Device.inner_testSpares _)
  refine Device.Inner.trans ?_ (Device.inner_placeRecord _ _)
  exact Device.inner_remap fun h => Remap.sound_retire h hw hc

theorem Device.inner_spareCompletion (f : FrameNo) (s : SpareNo) (done : Bool) (d : Device) :
    d.Inner (d.spareCompletion f s done) := by
  unfold Device.spareCompletion
  split
  · rename_i w hw
    have hm := List.mem_of_find?_eq_some hw
    split_ifs with hc
    · exact Device.inner_spareWriteDone hm hc
    · exact Device.inner_spareWriteFault hm hc
    · split
      · exact (d.inner_endRecord _).trans (Device.inner_settleFrame _ _)
      · exact (d.inner_endRecord _).trans (Device.inner_makeHeld _ _)
      · exact .refl d
  · exact .refl d

/-! ### The slot arbiter -/

/-- An operation other than an IDENTIFY placed in a working channel. -/
theorem Channel.sound_place {c : Channel} (h : c.Sound) (i : SlotNo) {op : Operation} (hop : op.work ≠ .identify)
    (hs : c.state = .running ∨ c.state = .recovering) : (c.place i op).Sound := by
  refine ⟨h.1, h.2.1, fun j o hj => ?_, h.2.2.2⟩
  by_cases hij : (i : Nat) = j
  · simp only [Channel.place, Fin.getElem_fin, Vector.getElem_set, hij, if_true, Option.some.injEq] at hj
    subst hj
    refine ⟨?_, ?_, fun e => (hop e).elim⟩
    · rcases hs with hs | hs <;> simp [Channel.place, hs]
    · rcases hs with hs | hs <;> simp [Channel.place, hs, hop]
  · exact h.2.2.1 j o (by simpa [Channel.place, Vector.getElem_set, hij] using hj)

theorem Device.inner_issueWriteback {i : SlotNo} {f : FrameNo} {d : Device} (hs : d.channel.state = .running) :
    d.Inner (d.issueWriteback i f) := by
  unfold Device.issueWriteback
  split
  · dsimp only
    split_ifs
    · exact (((d.inner_leaveDirty _).trans (Device.inner_setServed _ _ _)).trans (Device.inner_reportWriting _)).trans
        (Device.inner_takeIn _ _ _ _ _)
    · refine Device.Inner.trans ?_ (Device.inner_reportWriting _)
      refine ((d.inner_leaveDirty _).trans (Device.inner_setServed _ _ _)).trans (Device.inner_channel fun h => ?_)
      exact Channel.sound_place h i (by simp [Operation.fresh]) (.inl hs)
  · exact .refl d

theorem Device.inner_issue {i : SlotNo} {k : Pick} {d : Device} (hs : d.channel.state = .running) :
    d.Inner (d.issue i k) := by
  unfold Device.issue
  split
  · refine Device.inner_channel fun h => Channel.sound_place (Channel.sound_queues h _ _ _) i ?_ (.inl hs)
    split <;> simp [Operation.fresh]
  · exact Device.inner_channel fun h =>
      Channel.sound_place (Channel.sound_queues h _ _ _) i (by simp [Operation.fresh]) (.inl hs)
  · exact Device.inner_channel fun h =>
      Channel.sound_place (Channel.sound_queues h _ _ _) i (by simp [Operation.fresh]) (.inl hs)
  · exact Device.inner_issueWriteback hs

theorem Device.inner_arbiterStep {d d' : Device} (h : d.arbiterStep = some d') : d.Inner d' := by
  unfold Device.arbiterStep at h
  split_ifs at h with hs
  split at h
  · simp only [Option.map_eq_some_iff] at h
    obtain ⟨k, -, rfl⟩ := h
    exact Device.inner_issue hs
  · cases h

theorem inner_arbiterLoop (n : Nat) (d : Device) : d.Inner (arbiterLoop n d) := by
  induction n generalizing d with
  | zero => exact .refl d
  | succ n ih =>
    unfold arbiterLoop
    split
    · rename_i d' h
      exact (Device.inner_arbiterStep h).trans (ih _)
    · exact .refl d

theorem Device.inner_runArbiter (d : Device) : d.Inner d.runArbiter := inner_arbiterLoop _ d

theorem Device.inner_placeReset (d : Device) : d.Inner d.placeReset := by
  unfold Device.placeReset
  split_ifs with h
  · exact Device.inner_channel fun hs => Channel.sound_place hs 0 (by simp [Operation.fresh]) (.inr h.1)
  · exact .refl d

end Sys2Proof.Machine
end

