-- ==== Sys2Proof/Laws/Store.lean ====
section
/-!
SUPPORT. What the operations of the frame store keep of `Device.StoreSound`: the collections agree with the frames' records, the
tracker's sets with their exposures, the frame-waiter queue with the landing buffers. `Device.SameStore` says that an operation
touches none of these; `Device.StoreBut.change` is the one lemma about a change of one frame; each operation has its one lemma.
-/

namespace Sys2Proof.Machine

/-! ### Operations that touch none of it -/

/-- The frames, the numbers and sets of the tracker and the landing buffers are as before. -/
structure Device.SameStore (d d' : Device) : Prop where
  frames : d'.frames = d.frames
  next : d'.tracker.nextWrite = d.tracker.nextWrite
  unwritten : d'.tracker.unwritten = d.tracker.unwritten
  held : d'.tracker.held = d.tracker.held
  landing : ∀ p, (d'.port p).landing = (d.port p).landing
  reset : d'.resetAsserted = d.resetAsserted

theorem Device.SameStore.refl (d : Device) : d.SameStore d := ⟨rfl, rfl, rfl, rfl, fun _ => rfl, rfl⟩

theorem Device.SameStore.trans {d₁ d₂ d₃ : Device} (h : d₁.SameStore d₂) (k : d₂.SameStore d₃) : d₁.SameStore d₃ :=
  ⟨k.frames.trans h.frames, k.next.trans h.next, k.unwritten.trans h.unwritten, k.held.trans h.held,
    fun p => (k.landing p).trans (h.landing p), k.reset.trans h.reset⟩

theorem Device.SameStore.frame {d d' : Device} (h : d.SameStore d') (f : FrameNo) : d'.frame f = d.frame f := by
  unfold Device.frame
  rw [h.frames]

theorem Device.same_foldl {α : Type} {f : Device → α → Device} (h : ∀ (d : Device) x, d.SameStore (f d x)) (l : List α)
    (d : Device) : d.SameStore (l.foldl f d) := by
  induction l generalizing d with
  | nil => exact .refl d
  | cons x xs ih => exact (h d x).trans (ih _)

theorem Device.same_setPort {p : Port} {u : PortUnit} {d : Device} (h : u.landing = (d.port p).landing) :
    d.SameStore (d.setPort p u) := by
  refine ⟨by simp, by simp, by simp, by simp, fun q => ?_, by simp⟩
  obtain rfl | rfl := Port.eq_or_other p q
  · simpa using h
  · simp

theorem Device.same_onPort {p : Port} {f : PortUnit → PortUnit} {d : Device} (h : ∀ u, (f u).landing = u.landing) :
    d.SameStore (d.onPort p f) := Device.same_setPort (h _)

theorem Device.same_channel (d : Device) (c : Channel) : d.SameStore { d with channel := c } :=
  ⟨rfl, rfl, rfl, rfl, fun p => by cases p <;> rfl, rfl⟩

theorem Device.same_remap (d : Device) (r : Remap) : d.SameStore { d with remap := r } :=
  ⟨rfl, rfl, rfl, rfl, fun p => by cases p <;> rfl, rfl⟩

theorem Device.same_reservations (d : Device) (r : Reservations) : d.SameStore { d with reservations := r } :=
  ⟨rfl, rfl, rfl, rfl, fun p => by cases p <;> rfl, rfl⟩

theorem Device.same_mode (d : Device) (m : ModeCtl) : d.SameStore { d with mode := m } :=
  ⟨rfl, rfl, rfl, rfl, fun p => by cases p <;> rfl, rfl⟩

theorem Device.same_mgmt (d : Device) (m : Mgmt) : d.SameStore { d with mgmt := m } :=
  ⟨rfl, rfl, rfl, rfl, fun p => by cases p <;> rfl, rfl⟩

theorem Device.same_raise (c : Condition) (d : Device) : d.SameStore (d.raise c) := d.same_mgmt _

theorem Device.same_onRemap (f : Remap → Remap) (d : Device) : d.SameStore (d.onRemap f) := d.same_remap _

theorem Device.same_onChannel (f : Channel → Channel) (d : Device) : d.SameStore (d.onChannel f) := d.same_channel _

theorem Device.same_setEntry (id : ResId) (e : Option Reservation) (d : Device) : d.SameStore (d.setEntry id e) :=
  d.same_reservations _

theorem Device.same_setFlushList (l : List FlushEntry) (d : Device) : d.SameStore (d.setFlushList l) :=
  ⟨rfl, rfl, rfl, rfl, fun p => by cases p <;> rfl, rfl⟩

theorem PortUnit.landing_enqueue (m : OutMsg) (u : PortUnit) : (u.enqueue m).landing = u.landing := by
  unfold PortUnit.enqueue
  split <;> rfl

theorem Device.same_send (p : Port) (m : OutMsg) (d : Device) : d.SameStore (d.send p m) :=
  Device.same_onPort (PortUnit.landing_enqueue m)

theorem Device.same_notify (p : Port) (n : Notice) (d : Device) : d.SameStore (d.notify p n) := by
  unfold Device.notify
  split
  · exact d.same_send _ _
  · exact .refl d

theorem Device.same_notifyBoth (n : Notice) (d : Device) : d.SameStore (d.notifyBoth n) :=
  (d.same_notify .a n).trans (Device.same_notify .b n _)

theorem Device.same_setCommand (p : Port) (t : Tag) (c : Option OpenCmd) (d : Device) : d.SameStore (d.setCommand p t c) :=
  Device.same_onPort fun _ => rfl

theorem Device.same_reply (p : Port) (t : Tag) (st : Status) (pl : Payload) (d : Device) : d.SameStore (d.reply p t st pl) :=
  d.same_send _ _

theorem Device.same_answer (p : Port) (t : Tag) (st : Status) (moved : Nat) (failing : Option Nat) (pl : Payload)
    (d : Device) : d.SameStore (d.answer p t st moved failing pl) :=
  (d.same_setCommand p t none).trans (Device.same_send _ _ _)

theorem Device.same_tellWindow (w : WindowRef) (st : WindowState) (d : Device) : d.SameStore (d.tellWindow w st) :=
  Device.same_onPort fun _ => rfl

theorem Device.same_tellAll (ws : List WindowRef) (st : WindowState) (d : Device) :
    d.SameStore (ws.foldl (fun d w => d.tellWindow w st) d) := Device.same_foldl (fun d w => d.same_tellWindow w st) ws d

theorem Device.same_answerReserve (p : Port) (t : Tag) (st : Status) (pl : Payload) (d : Device) :
    d.SameStore (d.answerReserve p t st pl) := by
  unfold Device.answerReserve
  split
  · exact d.same_answer _ _ _ _ _ _
  · exact .refl d

theorem Device.same_grantEntry (p : Port) (id : ResId) (d : Device) : d.SameStore (d.grantEntry p id) := by
  unfold Device.grantEntry
  split
  · split
    · exact (d.same_setEntry _ _).trans (Device.same_answerReserve _ _ _ _ _)
    · exact .refl d
  · exact .refl d

theorem Device.same_testPending (p : Port) (d : Device) : d.SameStore (d.testPending p) :=
  Device.same_foldl (fun d id => d.same_grantEntry p id) _ d

theorem Device.same_faultEntry (id : ResId) (d : Device) : d.SameStore (d.faultEntry id) := by
  unfold Device.faultEntry
  split
  · exact (d.same_setEntry _ _).trans (Device.same_answerReserve _ _ _ _ _)
  · exact .refl d

theorem Device.same_faultPending (d : Device) : d.SameStore d.faultPending :=
  Device.same_foldl (fun d id => d.same_faultEntry id) _ d

theorem Device.same_lapseEntry (id : ResId) (d : Device) : d.SameStore (d.lapseEntry id) := by
  unfold Device.lapseEntry
  split
  · exact (d.same_setEntry _ _).trans (Device.same_notify _ _ _)
  · exact .refl d

theorem Device.same_tickEntry (id : ResId) (d : Device) : d.SameStore (d.tickEntry id) := by
  unfold Device.tickEntry
  split
  · exact (d.same_setEntry _ _).trans (Device.same_lapseEntry _ _)
  · exact .refl d

theorem Device.same_leaseTick (d : Device) : d.SameStore d.leaseTick :=
  (d.same_reservations _).trans (Device.same_foldl (fun d id => d.same_tickEntry id) _ _)

theorem Device.same_answerFlush (e : FlushEntry) (st : Status) (d : Device) : d.SameStore (d.answerFlush e st) := by
  unfold Device.answerFlush
  split
  · exact d.same_answer _ _ _ _ _ _
  · exact d.same_answer _ _ _ _ _ _
  · exact .refl d

theorem same_flushLoop (n : Nat) (d : Device) : d.SameStore (flushLoop n d) := by
  induction n generalizing d with
  | zero => exact .refl d
  | succ n ih =>
    unfold flushLoop
    split
    · exact .refl d
    · split
      · exact .refl d
      · exact ((d.same_setFlushList _).trans (Device.same_answerFlush _ _ _)).trans (ih _)
      · exact ((d.same_setFlushList _).trans (Device.same_answerFlush _ _ _)).trans (ih _)

theorem Device.same_testFlush (d : Device) : d.SameStore d.testFlush := same_flushLoop _ d

theorem Device.same_joinFlush (e : FlushEntry) (d : Device) : d.SameStore (d.joinFlush e) := by
  unfold Device.joinFlush
  split
  · exact (d.same_setFlushList _).trans (Device.same_testFlush _)
  · exact d.same_setFlushList _

theorem Device.same_dropFlush (leaves : FlushEntry → Bool) (d : Device) : d.SameStore (d.dropFlush leaves) := by
  unfold Device.dropFlush
  dsimp only
  split
  · split
    · exact (d.same_setFlushList _).trans (Device.same_testFlush _)
    · exact d.same_setFlushList _
  · exact d.same_setFlushList _

theorem Device.same_reportWriting (d : Device) : d.SameStore d.reportWriting := d.same_testFlush

theorem Device.same_countCommit (p : Port) (t : Tag) (n : Nat) (d : Device) : d.SameStore (d.countCommit p t n) := by
  unfold Device.countCommit
  split
  · dsimp only
    split_ifs
    · exact (d.same_setCommand _ _ _).trans (Device.same_joinFlush _ _)
    · exact d.same_answer _ _ _ _ _ _
    · exact d.same_setCommand _ _ _
  · exact .refl d

theorem Device.same_requestFill (r : FillReq) (d : Device) : d.SameStore (d.requestFill r) := d.same_channel _

theorem Device.same_requestSpare (q : SpareReq) (d : Device) : d.SameStore (d.requestSpare q) := d.same_channel _

theorem Device.same_requestTable (qs : List TableReq) (d : Device) : d.SameStore (d.requestTable qs) := d.same_channel _

theorem Device.same_reportPending (block : Nat) (r : Suspicion) (d : Device) : d.SameStore (d.reportPending block r) := by
  unfold Device.reportPending
  split_ifs
  · split
    · exact d.same_remap _
    · exact .refl d
  · exact d.same_remap _
  · exact d.same_raise _

theorem Device.same_reportOutcome (block : Nat) (o : ReadOutcome) (d : Device) : d.SameStore (d.reportOutcome block o) := by
  unfold Device.reportOutcome
  split
  · exact .refl d
  · exact d.same_reportPending _ _
  · exact d.same_reportPending _ _

/-! ### Frames by their kind -/

theorem Frame.kind_clean_iff {fr : Frame} : fr.kind = .clean ↔ ∃ b h, fr.served = some { block := b, hold := h, state := .clean } := by
  unfold Frame.kind
  rcases fr.served with _ | ⟨b, h, st⟩
  · simp
  · cases st <;> simp

theorem Frame.available_iff {fr : Frame} : fr.available = true ↔
    fr.served = none ∨ ∃ b, fr.served = some { block := b, hold := 0, state := .clean } := by
  unfold Frame.available Frame.evictable
  rcases fr.served with _ | ⟨b, h, st⟩
  · simp
  · rcases h with _ | h <;> cases st <;> simp

theorem Frame.serves_iff {fr : Frame} {b : Nat} : fr.serves b = true ↔ ∃ sv, fr.served = some sv ∧ sv.block = b := by
  unfold Frame.serves
  rcases fr.served with _ | sv <;> simp

theorem Frame.mem_numbers_of_unwritten {fr : Frame} {n : Nat} (h : fr.unwritten = some n) : n ∈ fr.numbers := by
  obtain ⟨bytes, _ | ⟨b, hold, st⟩⟩ := fr
  · cases h
  · cases st with
    | writing e m ph => cases m <;> simp_all [Frame.unwritten, Frame.numbers]
    | _ => simp_all [Frame.unwritten, Frame.numbers]

theorem Frame.mem_numbers_of_heldAt {fr : Frame} {n : Nat} (h : fr.heldAt = some n) : n ∈ fr.numbers := by
  obtain ⟨bytes, _ | ⟨b, hold, st⟩⟩ := fr
  · cases h
  · cases st with
    | writing e m ph => simp_all [Frame.heldAt]
    | _ => simp_all [Frame.heldAt, Frame.numbers]

/-- The exposure by which a frame stands in the dirty queue, read from its record (R8). -/
def Frame.rank (fr : Frame) : Nat :=
  match fr.served with
  | some { state := .dirty e _, .. } => e
  | _ => 0

theorem FrameStore.exposureAt_eq (fs : FrameStore) (f : FrameNo) : fs.exposureAt f = fs.frames[f].rank := rfl

theorem Frame.rank_of_dirty {fr : Frame} (h : fr.kind = .dirty) : fr.unwritten = some fr.rank := by
  obtain ⟨bytes, _ | ⟨b, hold, st⟩⟩ := fr
  · cases h
  · cases st <;> simp_all [Frame.kind, Frame.unwritten, Frame.rank]

/-! ### Lists and sets -/

theorem mem_insertAsc_iff {n x : Nat} {l : List Nat} : x ∈ insertAsc n l ↔ x = n ∨ x ∈ l := by
  induction l with
  | nil => simp [insertAsc]
  | cons m ms ih =>
    simp only [insertAsc]
    split_ifs with h₁ h₂
    · simp
    · subst h₂; simp
    · simp only [List.mem_cons, ih]
      tauto

theorem mem_removeNum_iff {n x : Nat} {l : List Nat} : x ∈ removeNum n l ↔ x ∈ l ∧ x ≠ n := by
  simp [removeNum]

theorem mem_insertByExposure {ex : FrameNo → Nat} {f g : FrameNo} {l : List FrameNo} :
    g ∈ insertByExposure ex f l ↔ g = f ∨ g ∈ l := by
  induction l with
  | nil => simp [insertByExposure]
  | cons m ms ih =>
    simp only [insertByExposure]
    split_ifs
    · simp
    · simp only [List.mem_cons, ih]
      tauto

theorem pairwise_insertByExposure {ex : FrameNo → Nat} {f : FrameNo} {l : List FrameNo} (h : l.Pairwise fun a b => ex a < ex b)
    (hf : ∀ g ∈ l, ex g ≠ ex f) : (insertByExposure ex f l).Pairwise fun a b => ex a < ex b := by
  induction l with
  | nil => simp [insertByExposure]
  | cons m ms ih =>
    obtain ⟨hm, hms⟩ := List.pairwise_cons.mp h
    simp only [insertByExposure]
    split_ifs with hlt
    · refine List.pairwise_cons.mpr ⟨fun g hg => ?_, h⟩
      rcases List.mem_cons.mp hg with rfl | hg
      · exact hlt
      · exact hlt.trans (hm g hg)
    · refine List.pairwise_cons.mpr ⟨fun g hg => ?_, ih hms fun g hg => hf g (List.mem_cons_of_mem _ hg)⟩
      rcases mem_insertByExposure.mp hg with rfl | hg
      · have := hf m (by simp)
        omega
      · exact hm g hg

theorem pairwise_of_agree {ex ex' : FrameNo → Nat} {l : List FrameNo} (h : l.Pairwise fun a b => ex a < ex b)
    (he : ∀ g ∈ l, ex' g = ex g) : l.Pairwise fun a b => ex' a < ex' b := by
  refine h.imp_of_mem fun {a b} ha hb hab => ?_
  rw [he a ha, he b hb]
  exact hab

/-! ### The invariant inside an event -/

/-- `Device.StoreSound` inside an event: the entries that name the block `ex` may wait although it is served, and the frame `loose`
may be available although entries wait. -/
structure Device.StoreBut (ex : Option Nat) (loose : Option FrameNo) (d : Device) : Prop where
  oneFrame : ∀ f g sv sw, (d.frame f).served = some sv → (d.frame g).served = some sw → sv.block = sw.block → f = g
  cleanOnce : d.frames.cleanList.Nodup
  clean : ∀ f, f ∈ d.frames.cleanList ↔ (d.frame f).kind = .clean
  dirtyAsc : d.frames.dirtyQueue.Pairwise fun f g => (d.frame f).rank < (d.frame g).rank
  dirty : ∀ f, f ∈ d.frames.dirtyQueue ↔ (d.frame f).kind = .dirty
  cap : d.frames.count .held ≤ 896
  waiting : ∀ e ∈ d.frames.waiterQueue, ex ≠ some e.block → ∀ f, (d.frame f).serves e.block = false
  short : d.frames.waiterQueue ≠ [] → ∀ f, loose ≠ some f → (d.frame f).available = false
  apart : ∀ f g, f ≠ g → ∀ n ∈ (d.frame f).numbers, n ∉ (d.frame g).numbers
  rising : ∀ f, (d.frame f).numbers.Pairwise (· < ·)
  given : ∀ f, ∀ n ∈ (d.frame f).numbers, n < d.tracker.nextWrite
  unwritten : ∀ n, n ∈ d.tracker.unwritten ↔ ∃ f, (d.frame f).unwritten = some n
  held : ∀ n, n ∈ d.tracker.held ↔ ∃ f, (d.frame f).heldAt = some n
  landed : ∀ e ∈ d.frames.waiterQueue, ∀ p b, e.requester = .landing p b →
    ∃ tag index bytes, (d.port p).landing[b] = .occupied tag index e.block bytes
  once : d.frames.waiterQueue.Pairwise fun x y => ∀ p b, x.requester = .landing p b → y.requester ≠ .landing p b

theorem Device.storeSound_iff (d : Device) :
    d.StoreSound ↔ d.StoreBut none none ∧ (d.resetAsserted = true → d.frames.waiterQueue = []) := by
  constructor
  · intro h
    exact ⟨⟨h.store.oneFrame, h.store.clean.1, h.store.clean.2, h.store.dirty.1, h.store.dirty.2, h.store.cap,
      fun e he _ => h.store.waiting e he, fun hq f _ => h.store.short hq f, h.apart, h.rising, h.given, h.unwritten, h.held,
      h.landed, h.once⟩, h.inReset⟩
  · rintro ⟨h, hr⟩
    exact ⟨⟨h.oneFrame, ⟨h.cleanOnce, h.clean⟩, ⟨h.dirtyAsc, h.dirty⟩, h.cap, fun e he => h.waiting e he (by simp),
      fun hq f => h.short hq f (by simp)⟩, h.apart, h.rising, h.given, h.unwritten, h.held, h.landed, h.once, hr⟩

theorem Device.StoreBut.same {ex : Option Nat} {loose : Option FrameNo} {d d' : Device} (h : d.StoreBut ex loose)
    (s : d.SameStore d') : d'.StoreBut ex loose := by
  have hf := s.frame
  refine ⟨?_, ?_, ?_, ?_, ?_, ?_, ?_, ?_, ?_, ?_, ?_, ?_, ?_, ?_, ?_⟩ <;>
    simp only [hf, s.frames, s.next, s.unwritten, s.held, s.landing]
  exacts [h.oneFrame, h.cleanOnce, h.clean, h.dirtyAsc, h.dirty, h.cap, h.waiting, h.short, h.apart, h.rising, h.given,
    h.unwritten, h.held, h.landed, h.once]

/-- A frame the invariant exempts need not be exempt. -/
theorem Device.StoreBut.weaken {ex : Option Nat} {d : Device} (h : d.StoreBut ex none) (loose : Option FrameNo) :
    d.StoreBut ex loose := { h with short := fun hq f _ => h.short hq f (by simp) }

/-- How the clean list follows a change of frame f: it stays, f goes to its tail, or f leaves it. -/
def CleanFollows (f : FrameNo) (old new : Frame) (l l' : List FrameNo) : Prop :=
  (l' = l ∧ (old.kind = .clean ↔ new.kind = .clean)) ∨ (l' = l.erase f ++ [f] ∧ new.kind = .clean)
    ∨ (l' = l.erase f ∧ new.kind ≠ .clean)

/-- How the dirty queue follows a change of frame f: it stays, f enters at its place, or f leaves it. -/
def DirtyFollows (f : FrameNo) (rank : FrameNo → Nat) (old new : Frame) (l l' : List FrameNo) : Prop :=
  (l' = l ∧ (old.kind = .dirty ↔ new.kind = .dirty) ∧ (new.kind = .dirty → new.rank = old.rank))
    ∨ (l' = insertByExposure rank f l ∧ old.kind ≠ .dirty ∧ new.kind = .dirty) ∨ (l' = l.erase f ∧ new.kind ≠ .dirty)

/-- How a set of the tracker follows a change of frame f: the number f had in it goes, the number f has now comes. -/
def SetFollows (old new : Option Nat) (l l' : List Nat) : Prop :=
  (l' = l ∧ new = old) ∨ ∀ n, n ∈ l' ↔ (n ∈ l ∧ old ≠ some n) ∨ new = some n

theorem Frame.kind_ne_of_available {fr : Frame} (h : fr.available = true) : fr.kind = .free ∨ fr.kind = .clean := by
  rcases Frame.available_iff.mp h with h | ⟨b, h⟩ <;> simp [Frame.kind, h]

theorem FrameStore.count_set {fs fs' : FrameStore} (k : FrameKind) {f : FrameNo} {fr : Frame}
    (h : fs'.frames = fs.frames.set f.val fr f.isLt) :
    fs'.count k + (if fs.frames[f].kind = k then 1 else 0) = fs.count k + (if fr.kind = k then 1 else 0) := by
  unfold FrameStore.count
  simp only [h, Vector.toList_set]
  have hl : f.val < fs.frames.toList.length := by simp
  rw [List.countP_set (h := hl)]
  have hg : fs.frames.toList[f.val] = fs.frames[f] := by simp
  rw [hg]
  have hpos : fs.frames[f].kind = k → 0 < fs.frames.toList.countP fun fr => fr.kind == k := fun hk =>
    List.countP_pos_iff.mpr ⟨fs.frames[f], hg ▸ List.getElem_mem hl, by simpa using hk⟩
  simp only [beq_iff_eq]
  split_ifs with h₁ <;> first | (have := hpos h₁; omega) | omega

/-- One frame changes, and the collections, the sets and the exemptions follow it. -/
theorem Device.StoreBut.change {ex : Option Nat} {loose loose' : Option FrameNo} {d d' : Device} (f : FrameNo)
    (h : d.StoreBut ex loose) (hfr : d'.frames.frames = d.frames.frames.set f.val (d'.frame f) f.isLt)
    (hq : d'.frames.waiterQueue = d.frames.waiterQueue) (hl : ∀ p, (d'.port p).landing = (d.port p).landing)
    (hn : d.tracker.nextWrite ≤ d'.tracker.nextWrite)
    (hc : CleanFollows f (d.frame f) (d'.frame f) d.frames.cleanList d'.frames.cleanList)
    (hd : DirtyFollows f (fun g => (d'.frame g).rank) (d.frame f) (d'.frame f) d.frames.dirtyQueue d'.frames.dirtyQueue)
    (hs : ∀ sv, (d'.frame f).served = some sv → (∃ sw, (d.frame f).served = some sw ∧ sw.block = sv.block) ∨
      ((∀ g, g ≠ f → (d.frame g).serves sv.block = false) ∧ ∀ e ∈ d.frames.waiterQueue, e.block = sv.block → ex = some e.block))
    (hcap : (d'.frame f).kind = .held → (d.frame f).kind = .held ∨ d.frames.count .held < 896)
    (hsh : d.frames.waiterQueue ≠ [] → (d'.frame f).available = false ∨ loose' = some f)
    (hlo : loose = none ∨ loose = some f ∨ loose' = loose)
    (hnum : ∀ n ∈ (d'.frame f).numbers, n ∈ (d.frame f).numbers ∨ (d.tracker.nextWrite ≤ n ∧ n < d'.tracker.nextWrite))
    (hris : (d'.frame f).numbers.Pairwise (· < ·))
    (hun : SetFollows (d.frame f).unwritten (d'.frame f).unwritten d.tracker.unwritten d'.tracker.unwritten)
    (hhe : SetFollows (d.frame f).heldAt (d'.frame f).heldAt d.tracker.held d'.tracker.held) : d'.StoreBut ex loose' := by
  have other (g : FrameNo) (hg : g ≠ f) : d'.frame g = d.frame g := by
    have : (f : Nat) ≠ g := fun e => hg (Fin.ext e.symm)
    unfold Device.frame
    rw [hfr]
    exact Vector.getElem_set_ne _ _ this
  have blockOf (g : FrameNo) (sv : Served) (hg : (d'.frame g).served = some sv) (b : Nat) (hb : sv.block = b)
      (e : WaiterEntry) (he : e ∈ d.frames.waiterQueue) (hx : ex ≠ some e.block) : e.block ≠ b := fun heb => by
    subst hb
    by_cases hgf : g = f
    · subst hgf
      rcases hs sv hg with ⟨sw, hw, hwb⟩ | ⟨-, hw⟩
      · have := h.waiting e he hx g
        rw [Bool.eq_false_iff] at this
        exact this (Frame.serves_iff.mpr ⟨sw, hw, hwb.trans heb.symm⟩)
      · exact hx (hw e he heb)
    · rw [other g hgf] at hg
      have := h.waiting e he hx g
      rw [Bool.eq_false_iff] at this
      exact this (Frame.serves_iff.mpr ⟨sv, hg, heb.symm⟩)
  have newApart (g : FrameNo) (hg : g ≠ f) (sv sw : Served) (hv : (d'.frame f).served = some sv)
      (hw : (d.frame g).served = some sw) : sv.block ≠ sw.block := fun hb => by
    rcases hs sv hv with ⟨sx, hx, hxb⟩ | ⟨hx, -⟩
    · exact hg (h.oneFrame g f sw sx hw hx (hb.symm.trans hxb.symm))
    · have := hx g hg
      rw [Bool.eq_false_iff] at this
      exact this (Frame.serves_iff.mpr ⟨sw, hw, hb.symm⟩)
  have numApart (g : FrameNo) (hg : g ≠ f) (n : Nat) (hnf : n ∈ (d'.frame f).numbers) : n ∉ (d.frame g).numbers := fun hng => by
    rcases hnum n hnf with h₁ | ⟨h₁, -⟩
    · exact h.apart g f hg n hng h₁
    · have := h.given g n hng
      omega
  have sets {num : Frame → Option Nat} (hin : ∀ {fr : Frame} {n}, num fr = some n → n ∈ fr.numbers) {l l' : List Nat}
      (hold : ∀ n, n ∈ l ↔ ∃ g, num (d.frame g) = some n) (hf : SetFollows (num (d.frame f)) (num (d'.frame f)) l l') (n : Nat) :
      n ∈ l' ↔ ∃ g, num (d'.frame g) = some n := by
    have hf' : n ∈ l' ↔ (n ∈ l ∧ num (d.frame f) ≠ some n) ∨ num (d'.frame f) = some n := by
      rcases hf with ⟨rfl, he⟩ | hf
      · rw [he]
        constructor
        · intro hn
          by_cases hx : num (d.frame f) = some n
          · exact .inr hx
          · exact .inl ⟨hn, hx⟩
        · rintro (h₁ | h₁)
          · exact h₁.1
          · exact (hold n).mpr ⟨f, h₁⟩
      · exact hf n
    rw [hf', hold]
    constructor
    · rintro (⟨⟨g, hg⟩, hne⟩ | hg)
      · have hgf : g ≠ f := fun e => hne (e ▸ hg)
        exact ⟨g, by rw [other g hgf]; exact hg⟩
      · exact ⟨f, hg⟩
    · rintro ⟨g, hg⟩
      by_cases hgf : g = f
      · exact .inr (hgf ▸ hg)
      · rw [other g hgf] at hg
        exact .inl ⟨⟨g, hg⟩, fun hx => h.apart g f hgf n (hin hg) (hin hx)⟩
  refine ⟨?_, ?_, ?_, ?_, ?_, ?_, ?_, ?_, ?_, ?_, ?_, ?_, ?_, ?_, ?_⟩
  · intro a b sv sw ha hb hab
    by_cases haf : a = f <;> by_cases hbf : b = f
    · exact haf.trans hbf.symm
    · subst haf
      rw [other b hbf] at hb
      exact (newApart b hbf sv sw ha hb hab).elim
    · subst hbf
      rw [other a haf] at ha
      exact (newApart a haf sw sv hb ha hab.symm).elim
    · rw [other a haf] at ha
      rw [other b hbf] at hb
      exact h.oneFrame a b sv sw ha hb hab
  · rcases hc with ⟨e, -⟩ | ⟨e, -⟩ | ⟨e, -⟩ <;> rw [e]
    · exact h.cleanOnce
    · refine (h.cleanOnce.erase f).append (by simp) ?_
      simp [h.cleanOnce.not_mem_erase]
    · exact h.cleanOnce.erase f
  · intro g
    by_cases hg : g = f
    · subst hg
      rcases hc with ⟨e, k⟩ | ⟨e, k⟩ | ⟨e, k⟩ <;> rw [e]
      · rw [h.clean, k]
      · simp [k]
      · simp [k, h.cleanOnce.not_mem_erase]
    · rw [other g hg, ← h.clean]
      rcases hc with ⟨e, k⟩ | ⟨e, k⟩ | ⟨e, k⟩ <;> rw [e]
      · simp [hg, List.mem_erase_of_ne]
      · exact List.mem_erase_of_ne hg
  · rcases hd with ⟨e, k, r⟩ | ⟨e, k, r⟩ | ⟨e, k⟩ <;> rw [e]
    · refine pairwise_of_agree h.dirtyAsc fun g hg => ?_
      by_cases hgf : g = f
      · subst hgf
        exact r (k.mp ((h.dirty g).mp hg))
      · rw [other g hgf]
    · have nf : ∀ g ∈ d.frames.dirtyQueue, g ≠ f := fun g hg e => k ((h.dirty f).mp (e ▸ hg))
      refine pairwise_insertByExposure (pairwise_of_agree h.dirtyAsc fun g hg => by rw [other g (nf g hg)]) fun g hg he => ?_
      have h₁ := Frame.rank_of_dirty r
      have h₂ := Frame.rank_of_dirty ((h.dirty g).mp hg)
      rw [other g (nf g hg)] at he
      rw [he] at h₂
      exact numApart g (nf g hg) _ (Frame.mem_numbers_of_unwritten h₁) (Frame.mem_numbers_of_unwritten h₂)
    · have hnd : d.frames.dirtyQueue.Nodup := h.dirtyAsc.imp fun hlt e => by subst e; exact absurd hlt (lt_irrefl _)
      refine pairwise_of_agree (h.dirtyAsc.sublist List.erase_sublist) fun g hg => ?_
      have hgf : g ≠ f := fun e => hnd.not_mem_erase (e ▸ hg)
      rw [other g hgf]
  · intro g
    have hnd : d.frames.dirtyQueue.Nodup := h.dirtyAsc.imp fun hlt e => by subst e; exact absurd hlt (lt_irrefl _)
    by_cases hg : g = f
    · subst hg
      rcases hd with ⟨e, k, r⟩ | ⟨e, k, r⟩ | ⟨e, k⟩ <;> rw [e]
      · rw [h.dirty, k]
      · simp [mem_insertByExposure, r]
      · simp [k, hnd.not_mem_erase]
    · rw [other g hg, ← h.dirty]
      rcases hd with ⟨e, k, r⟩ | ⟨e, k, r⟩ | ⟨e, k⟩ <;> rw [e]
      · simp [mem_insertByExposure, hg]
      · exact List.mem_erase_of_ne hg
  · have hcount := FrameStore.count_set .held hfr
    have hcap0 := h.cap
    change _ + (if (d.frame f).kind = .held then 1 else 0) = _ at hcount
    split_ifs at hcount with h₁ h₂ h₂
    · omega
    · omega
    · have := (hcap h₂).resolve_left h₁
      omega
    · omega
  · intro e he hx g
    rw [hq] at he
    rw [Bool.eq_false_iff]
    intro hsv
    obtain ⟨sv, hv, hb⟩ := Frame.serves_iff.mp hsv
    exact blockOf g sv hv e.block hb e he hx rfl
  · intro hne g hg
    rw [hq] at hne
    by_cases hgf : g = f
    · subst hgf
      exact (hsh hne).resolve_right hg
    · rw [other g hgf]
      refine h.short hne g ?_
      rcases hlo with e | e | e
      · simp [e]
      · rw [e]
        simpa using Ne.symm hgf
      · exact e ▸ hg
  · intro a b hab n hna hnb
    by_cases haf : a = f <;> by_cases hbf : b = f
    · exact hab (haf.trans hbf.symm)
    · subst haf
      rw [other b hbf] at hnb
      exact numApart b hbf n hna hnb
    · subst hbf
      rw [other a haf] at hna
      exact numApart a haf n hnb hna
    · rw [other a haf] at hna
      rw [other b hbf] at hnb
      exact h.apart a b hab n hna hnb
  · intro g
    by_cases hgf : g = f
    · exact hgf ▸ hris
    · rw [other g hgf]
      exact h.rising g
  · intro g n hgn
    by_cases hgf : g = f
    · subst hgf
      rcases hnum n hgn with h₁ | h₁
      · exact (h.given g n h₁).trans_le hn
      · exact h₁.2
    · rw [other g hgf] at hgn
      exact (h.given g n hgn).trans_le hn
  · exact sets Frame.mem_numbers_of_unwritten h.unwritten hun
  · exact sets Frame.mem_numbers_of_heldAt h.held hhe
  · intro e he p b hr
    rw [hq] at he
    rw [hl]
    exact h.landed e he p b hr
  · rw [hq]
    exact h.once

end Sys2Proof.Machine
end

