-- ==== Sys2Proof/Laws/StoreOps.lean ====
section
/-!
SUPPORT. The operations of the frame store keep `Device.StoreBut`: holds, commits, allocation, hand-out, fills, settlement, release.
-/

namespace Sys2Proof.Machine

/-! ### What the list updates read and leave -/

section
variable (d : Device) (f g : FrameNo)

@[simp] theorem Device.cleanTail_frame : (d.cleanTail f).frame g = d.frame g := rfl
@[simp] theorem Device.leaveClean_frame : (d.leaveClean f).frame g = d.frame g := rfl
@[simp] theorem Device.enterDirty_frame : (d.enterDirty f).frame g = d.frame g := rfl
@[simp] theorem Device.leaveDirty_frame : (d.leaveDirty f).frame g = d.frame g := rfl
@[simp] theorem Device.setWaiterQueue_frame (q : List WaiterEntry) : (d.setWaiterQueue q).frame g = d.frame g := rfl
@[simp] theorem Device.setWaiterQueue_queue (q : List WaiterEntry) : (d.setWaiterQueue q).frames.waiterQueue = q := rfl

end

theorem Device.setServed_frame_same (f : FrameNo) (sv : Option Served) (d : Device) :
    (d.setServed f sv).frame f = ⟨(d.frame f).bytes, sv⟩ := by simp [Device.setServed]

theorem Device.setServed_frame_other {f g : FrameNo} (h : g ≠ f) (sv : Option Served) (d : Device) :
    (d.setServed f sv).frame g = d.frame g := Device.setFrame_frame_other d h _

theorem Device.setServed_frames (f : FrameNo) (sv : Option Served) (d : Device) :
    (d.setServed f sv).frames.frames = d.frames.frames.set f.val ((d.setServed f sv).frame f) f.isLt := by
  rw [Device.setServed_frame_same]
  rfl

theorem Device.landing_setServed (f : FrameNo) (sv : Option Served) (d : Device) (p : Port) :
    ((d.setServed f sv).port p).landing = (d.port p).landing := by cases p <;> rfl

/-! ### The queue and the landing buffers change -/

/-- Entries leave the frame-waiter queue. -/
theorem Device.StoreBut.shrink {ex ex' : Option Nat} {loose : Option FrameNo} {d : Device} (h : d.StoreBut ex loose)
    {q : List WaiterEntry} (hq : q.Sublist d.frames.waiterQueue) (hx : ∀ e ∈ q, ex' ≠ some e.block → ex ≠ some e.block) :
    (d.setWaiterQueue q).StoreBut ex' loose := by
  have hl (p : Port) : ((d.setWaiterQueue q).port p).landing = (d.port p).landing := by cases p <;> rfl
  refine ⟨h.oneFrame, h.cleanOnce, h.clean, h.dirtyAsc, h.dirty, h.cap, fun e he hn => h.waiting e (hq.subset he) (hx e he hn),
    fun hne => ?_, h.apart, h.rising, h.given, h.unwritten, h.held, fun e he p b hr => ?_, h.once.sublist hq⟩
  · refine h.short fun hnil => hne ?_
    rw [hnil] at hq
    exact List.sublist_nil.mp hq
  · rw [hl]
    exact h.landed e (hq.subset he) p b hr

/-- With no entry waiting, a loose frame is no exception. -/
theorem Device.StoreBut.of_empty {ex : Option Nat} {loose : Option FrameNo} {d : Device} (h : d.StoreBut ex loose)
    (hq : d.frames.waiterQueue = []) : d.StoreBut none none :=
  { h with waiting := fun _ he => (List.not_mem_nil (hq ▸ he)).elim, short := fun hne => (hne hq).elim }

/-- An entry joins the frame-waiter queue. -/
theorem Device.StoreBut.join {d : Device} (h : d.StoreBut none none) {e : WaiterEntry}
    (hs : ∀ f, (d.frame f).serves e.block = false) (ha : ∀ f, (d.frame f).available = false)
    (hl : ∀ p b, e.requester = .landing p b →
      (∀ x ∈ d.frames.waiterQueue, x.requester ≠ e.requester) ∧
        ∃ tag index bytes, (d.port p).landing[b] = .occupied tag index e.block bytes) :
    (d.joinWaiters e).StoreBut none none := by
  have hp (p : Port) : ((d.joinWaiters e).port p).landing = (d.port p).landing := by cases p <;> rfl
  refine { h with waiting := fun x hx _ f => ?_, short := fun _ f _ => ha f, landed := fun x hx p b hr => ?_, once := ?_ }
  · rcases List.mem_append.mp hx with hx | hx
    · exact h.waiting x hx (by simp) f
    · exact List.mem_singleton.mp hx ▸ hs f
  · rw [hp]
    rcases List.mem_append.mp hx with hx | hx
    · exact h.landed x hx p b hr
    · obtain rfl := List.mem_singleton.mp hx
      exact (hl p b hr).2
  · refine List.pairwise_append.mpr ⟨h.once, by simp, fun x hx y hy p b hr hr' => ?_⟩
    obtain rfl := List.mem_singleton.mp hy
    exact (hl p b hr').1 x hx (hr.trans hr'.symm)

/-- A landing buffer that does not wait for a frame changes. -/
theorem Device.StoreBut.setPort {ex : Option Nat} {loose : Option FrameNo} {d : Device} (h : d.StoreBut ex loose) {p : Port}
    {u : PortUnit} (hu : ∀ e ∈ d.frames.waiterQueue, ∀ b, e.requester = .landing p b → u.landing[b] = (d.port p).landing[b]) :
    (d.setPort p u).StoreBut ex loose := by
  have hf (f : FrameNo) : (d.setPort p u).frame f = d.frame f := by simp [Device.frame]
  refine ⟨?_, ?_, ?_, ?_, ?_, ?_, ?_, ?_, ?_, ?_, ?_, ?_, ?_, ?_, ?_⟩ <;>
    simp only [hf, Device.setPort_frames, Device.setPort_tracker]
  exacts [h.oneFrame, h.cleanOnce, h.clean, h.dirtyAsc, h.dirty, h.cap, h.waiting, h.short, h.apart, h.rising, h.given,
    h.unwritten, h.held, fun e he q b hr => by
      obtain ⟨t, i, y, hy⟩ := h.landed e he q b hr
      obtain rfl | rfl := Port.eq_or_other p q
      · rw [Device.setPort_port_same, hu e he b hr]
        exact ⟨t, i, y, hy⟩
      · rw [Device.setPort_port_other]
        exact ⟨t, i, y, hy⟩, h.once]

theorem PortUnit.setLanding_other {b c : BufNo} (h : c ≠ b) (v : LandingBuffer) (u : PortUnit) :
    (u.setLanding b v).landing[c] = u.landing[c] := by
  have : (b : Nat) ≠ c := fun e => h (Fin.ext e.symm)
  simp [PortUnit.setLanding, Vector.getElem_set_ne, this]

theorem PortUnit.setLanding_same (b : BufNo) (v : LandingBuffer) (u : PortUnit) : (u.setLanding b v).landing[b] = v := by
  simp [PortUnit.setLanding]

/-- Landing buffer b of a port changes, and no entry of the frame-waiter queue is its. -/
theorem Device.StoreBut.setBuffer {ex : Option Nat} {loose : Option FrameNo} {d : Device} (h : d.StoreBut ex loose) {p : Port}
    {b : BufNo} {f : PortUnit → PortUnit} (hf : ∀ u c, c ≠ b → (f u).landing[c] = u.landing[c])
    (hq : ∀ e ∈ d.frames.waiterQueue, e.requester ≠ .landing p b) : (d.onPort p f).StoreBut ex loose :=
  h.setPort fun e he c hr => hf _ c fun hc => hq e he (hc ▸ hr)

/-- A buffer that is not OCCUPIED waits for no frame. -/
theorem Device.StoreBut.not_waiting {ex : Option Nat} {loose : Option FrameNo} {d : Device} (h : d.StoreBut ex loose) {p : Port}
    {b : BufNo} (hb : ∀ t i k y, (d.port p).landing[b] ≠ .occupied t i k y) :
    ∀ e ∈ d.frames.waiterQueue, e.requester ≠ .landing p b := fun e he hr => by
  obtain ⟨t, i, y, hy⟩ := h.landed e he p b hr
  exact hb t i _ y hy

/-! ### Holds and bytes -/

theorem Device.StoreBut.setBytes {ex : Option Nat} {loose : Option FrameNo} {d : Device} (h : d.StoreBut ex loose) (f : FrameNo)
    (bytes : Block) : (d.setBytes f bytes).StoreBut ex loose := by
  have hf : (d.setBytes f bytes).frame f = ⟨bytes, (d.frame f).served⟩ := by simp [Device.setBytes]
  refine h.change f (loose' := loose) ?_ rfl (fun p => by cases p <;> rfl) le_rfl ?_ ?_ ?_ ?_ ?_ (.inr (.inr rfl)) ?_ ?_ ?_ ?_
  · rw [hf]; rfl
  · exact .inl ⟨rfl, by rw [hf]; rfl⟩
  · exact .inl ⟨rfl, by rw [hf]; rfl, fun _ => by rw [hf]; rfl⟩
  · intro sv hv
    rw [hf] at hv
    exact .inl ⟨sv, hv, rfl⟩
  · rw [hf]; exact fun hk => .inl hk
  · intro hq
    by_cases hl : loose = some f
    · exact .inr hl
    · rw [hf]
      exact .inl (h.short hq f hl)
  · rw [hf]; exact fun n hn => .inl hn
  · rw [hf]; exact h.rising f
  · exact .inl ⟨rfl, by rw [hf]; rfl⟩
  · exact .inl ⟨rfl, by rw [hf]; rfl⟩

/-- The record of a frame changes in what no collection looks at: its hold, its waiters, its phase, its fill outstanding. -/
def Frame.Alike (fr fr' : Frame) : Prop :=
  ∃ sv sv', fr.served = some sv ∧ fr'.served = some sv' ∧ sv'.block = sv.block ∧ fr'.kind = fr.kind ∧ fr'.numbers = fr.numbers
    ∧ fr'.rank = fr.rank ∧ fr'.unwritten = fr.unwritten ∧ fr'.heldAt = fr.heldAt

/-- Two states with the same data not on the medium. -/
def FrameState.SameData : FrameState → FrameState → Prop
  | .filling _, .filling _ => True
  | .clean, .clean => True
  | .dirty e _, .dirty e' _ => e' = e
  | .writing e n _, .writing e' n' _ => e' = e ∧ n' = n
  | .held e, .held e' => e' = e
  | _, _ => False

theorem FrameState.SameData.refl (st : FrameState) : st.SameData st := by cases st <;> simp [FrameState.SameData]

theorem Frame.alike_of {fr fr' : Frame} {b h h' : Nat} {st st' : FrameState}
    (hs : fr.served = some { block := b, hold := h, state := st })
    (hs' : fr'.served = some { block := b, hold := h', state := st' }) (hd : st.SameData st') : fr.Alike fr' := by
  obtain ⟨bytes, _⟩ := fr
  obtain ⟨bytes', _⟩ := fr'
  subst hs hs'
  refine ⟨_, _, rfl, rfl, rfl, ?_⟩
  cases st with
  | writing e n ph =>
    cases st' <;> cases n <;> simp_all [FrameState.SameData, Frame.kind, Frame.numbers, Frame.rank, Frame.unwritten, Frame.heldAt]
  | _ =>
    cases st' <;> simp_all [FrameState.SameData, Frame.kind, Frame.numbers, Frame.rank, Frame.unwritten, Frame.heldAt]

theorem Device.StoreBut.alike {ex : Option Nat} {loose loose' : Option FrameNo} {d d' : Device} (f : FrameNo)
    (h : d.StoreBut ex loose) (hfr : d'.frames.frames = d.frames.frames.set f.val (d'.frame f) f.isLt)
    (hq : d'.frames.waiterQueue = d.frames.waiterQueue) (hl : ∀ p, (d'.port p).landing = (d.port p).landing)
    (ht : d'.tracker = d.tracker) (hd : d'.frames.dirtyQueue = d.frames.dirtyQueue)
    (hc : CleanFollows f (d.frame f) (d'.frame f) d.frames.cleanList d'.frames.cleanList)
    (ha : (d.frame f).Alike (d'.frame f)) (hsh : d.frames.waiterQueue ≠ [] → (d'.frame f).available = false ∨ loose' = some f)
    (hlo : loose = none ∨ loose = some f ∨ loose' = loose) : d'.StoreBut ex loose' := by
  obtain ⟨sv, sv', h₁, h₂, hb, hk, hn, hr, hu, hh⟩ := ha
  refine h.change f hfr hq hl (by rw [ht]) hc (.inl ⟨hd, by rw [hk], fun _ => hr⟩) ?_ (by rw [hk]; exact .inl) hsh hlo ?_ ?_ ?_ ?_
  · intro x hx
    rw [h₂] at hx
    cases hx
    exact .inl ⟨sv, h₁, hb.symm⟩
  · rw [hn]; exact fun n hn => .inl hn
  · rw [hn]; exact h.rising f
  · exact .inl ⟨by rw [ht], hu⟩
  · exact .inl ⟨by rw [ht], hh⟩

theorem Device.StoreBut.takeHold {ex : Option Nat} {loose : Option FrameNo} {d : Device} (h : d.StoreBut ex loose) (f : FrameNo) :
    (d.takeHold f).StoreBut ex loose := by
  unfold Device.takeHold
  split
  · rename_i sv hsv
    obtain ⟨b, k, st⟩ := sv
    dsimp only
    have hf := Device.setServed_served d f (some { block := b, hold := k + 1, state := st })
    have na : ((d.setServed f (some { block := b, hold := k + 1, state := st })).frame f).available = false := by
      cases st <;> simp [Frame.available, Frame.evictable, hf]
    have al := Frame.alike_of hsv hf (.refl st)
    split
    · refine h.alike f (loose' := loose) (d.setServed_frames f (some { block := b, hold := k + 1, state := .clean })) rfl
        (d.landing_setServed f (some { block := b, hold := k + 1, state := .clean })) rfl rfl ?_ al (fun _ => .inl na)
        (.inr (.inr rfl))
      exact .inr (.inl ⟨rfl, by simp [Frame.kind]⟩)
    · obtain ⟨_, _, _, _, _, hk, _⟩ := id al
      exact h.alike f (loose' := loose) (d.setServed_frames f _) rfl (d.landing_setServed f _) rfl rfl
        (.inl ⟨rfl, by rw [hk]⟩) al (fun _ => .inl na) (.inr (.inr rfl))
  · exact h

/-! ### Eviction -/

theorem Device.StoreBut.evict {ex : Option Nat} {loose : Option FrameNo} {d : Device} (h : d.StoreBut ex loose) {f : FrameNo}
    (ha : (d.frame f).available = true) (hlo : loose = none ∨ loose = some f) : (d.evict f).StoreBut ex (some f) := by
  have hf : ((d.evict f).frame f).served = none := Device.setServed_served d f none
  have hk : ((d.evict f).frame f).kind = .free := by simp [Frame.kind, hf]
  have hnone {α : Type} : ∀ x : α, (none : Option α) ≠ some x := by simp
  have old : (d.frame f).kind ≠ .dirty ∧ (d.frame f).unwritten = none ∧ (d.frame f).heldAt = none := by
    rcases Frame.available_iff.mp ha with h' | ⟨b, h'⟩ <;> simp [Frame.kind, Frame.unwritten, Frame.heldAt, h']
  refine h.change f (Device.setServed_frames f none d) rfl (d.landing_setServed f none) le_rfl ?_ ?_ ?_ ?_ (fun _ => .inr rfl) ?_
    ?_ ?_ ?_ ?_
  · exact .inr (.inr ⟨rfl, by simp [hk]⟩)
  · exact .inl ⟨rfl, by simp [hk, old.1], by simp [hk]⟩
  · intro sv hv
    rw [hf] at hv
    cases hv
  · simp [hk]
  · exact hlo.imp id .inl
  · simp [Frame.numbers, hf]
  · simp [Frame.numbers, hf]
  · exact .inl ⟨rfl, by rw [old.2.1]; simp [Frame.unwritten, hf]⟩
  · exact .inl ⟨rfl, by rw [old.2.2]; simp [Frame.heldAt, hf]⟩

/-! ### Commits -/

/-- The frame serves the block and its data is not CLEAN: no hand-out and no eviction takes it. -/
def Device.Busy (f : FrameNo) (b : Nat) (d : Device) : Prop :=
  ∃ h st, (d.frame f).served = some { block := b, hold := h, state := st } ∧ st ≠ .clean

theorem Device.Busy.not_available {f : FrameNo} {b : Nat} {d : Device} (h : d.Busy f b) : (d.frame f).available = false := by
  obtain ⟨k, st, hs, hn⟩ := h
  rw [Bool.eq_false_iff]
  intro ha
  rcases Frame.available_iff.mp ha with h' | ⟨x, h'⟩
  · rw [hs] at h'
    cases h'
  · rw [hs] at h'
    cases h'
    exact hn rfl

theorem Device.Busy.serves {f : FrameNo} {b : Nat} {d : Device} (h : d.Busy f b) : (d.frame f).serves b = true := by
  obtain ⟨k, st, hs, -⟩ := h
  exact Frame.serves_iff.mpr ⟨_, hs, rfl⟩

/-- Frame f becomes DIRTY with exposure n, from a state without data of its own, and n enters the unwritten set. -/
def Device.dirtied (f : FrameNo) (sv : Served) (n : Nat) (wasClean : Bool) (d : Device) : Device :=
  let d := d.setServed f (some sv)
  let d := (if wasClean then d.leaveClean f else d).enterDirty f
  { d with tracker := { d.tracker with unwritten := insertAsc n d.tracker.unwritten } }

theorem Device.dirtied_frame (f g : FrameNo) (sv : Served) (n : Nat) (c : Bool) (d : Device) :
    (d.dirtied f sv n c).frame g = (d.setServed f (some sv)).frame g := by cases c <;> rfl

theorem Device.SameStore.reportSet {d d' : Device} (h : d.SameStore d') (n : Nat) :
    ({ d with tracker := { d.tracker with unwritten := insertAsc n d.tracker.unwritten } } : Device).SameStore (d'.reportSet n) := by
  unfold Device.reportSet Device.report
  refine Device.SameStore.trans ?_ (Device.same_testFlush _)
  refine ⟨h.frames, h.next, by simp [h.unwritten], h.held, fun p => ?_, h.reset⟩
  have := h.landing p
  cases p <;> exact this

/-- The three ways a commit changes a frame's record (Table 2-1). -/
theorem Device.commitFrame_cases (f : FrameNo) (block n : Nat) (bytes : Block) (d : Device) :
    (∃ sv o c, sv.state = .dirty n o ∧ sv.block = (((d.frame f).served.map fun sv => sv.block).getD block)
      ∧ ((d.frame f).kind = .free ∨ (d.frame f).kind = .clean ∨ (d.frame f).kind = .filling)
      ∧ (c = true ↔ (d.frame f).kind = .clean)
      ∧ ((d.setBytes f bytes).dirtied f sv n c).SameStore (d.commitFrame f block n bytes))
    ∨ (∃ sv, (d.frame f).served = some sv ∧ ((∃ e o, sv.state = .dirty e o) ∨ ∃ e, sv.state = .held e)
      ∧ d.commitFrame f block n bytes = d.setBytes f bytes)
    ∨ ∃ b h e m ph, (d.frame f).served = some { block := b, hold := h, state := .writing e m ph }
      ∧ d.commitFrame f block n bytes =
        (d.setBytes f bytes).setServed f (some { block := b, hold := h, state := .writing e (some (m.getD n)) ph }) := by
  unfold Device.commitFrame
  dsimp only
  rw [Device.setBytes_served]
  rcases hs : (d.frame f).served with _ | ⟨b, h, st⟩
  · refine .inl ⟨{ block := block, hold := 0, state := .dirty n false }, false, false, rfl, rfl, .inl (by simp [Frame.kind, hs]), by simp [Frame.kind, hs], ?_⟩
    exact (Device.SameStore.refl _).reportSet n
  · cases st with
    | clean =>
      refine .inl ⟨{ block := b, hold := h, state := .dirty n false }, false, true, rfl, rfl, .inr (.inl (by simp [Frame.kind, hs])),
        by simp [Frame.kind, hs], ?_⟩
      exact (Device.SameStore.refl _).reportSet n
    | filling ws =>
      refine .inl ⟨{ block := b, hold := h, state := .dirty n (withdrawFill f d.channel.fillQueue).2 },
        (withdrawFill f d.channel.fillQueue).2, false, rfl, rfl, .inr (.inr (by simp [Frame.kind, hs])), by simp [Frame.kind, hs], ?_⟩
      have s := (Device.same_tellAll ws (.ready f) (((d.setBytes f bytes).setServed f (some
        { block := b, hold := h, state := .dirty n (withdrawFill f d.channel.fillQueue).2 })).enterDirty f)).trans
        (Device.same_channel _ { (ws.foldl (fun d w => d.tellWindow w (.ready f)) (((d.setBytes f bytes).setServed f (some
        { block := b, hold := h, state := .dirty n (withdrawFill f d.channel.fillQueue).2 })).enterDirty f)).channel with
          fillQueue := (withdrawFill f d.channel.fillQueue).1 })
      exact s.reportSet n
    | dirty e o => exact .inr (.inl ⟨_, rfl, .inl ⟨e, o, rfl⟩, rfl⟩)
    | writing e m ph => exact .inr (.inr ⟨b, h, e, m, ph, rfl, rfl⟩)
    | held e => exact .inr (.inl ⟨_, rfl, .inr ⟨e, rfl⟩, rfl⟩)

theorem Device.setBytes_frame_other {f g : FrameNo} (h : g ≠ f) (bytes : Block) (d : Device) :
    (d.setBytes f bytes).frame g = d.frame g := Device.setFrame_frame_other d h _

/-- What a commit does to the frames: frame f is busy with its block, or with the one committed, and no other frame changes. -/
theorem Device.commitFrame_frames (f : FrameNo) (block n : Nat) (bytes : Block) (d : Device) :
    (∀ g, g ≠ f → (d.commitFrame f block n bytes).frame g = d.frame g)
      ∧ (d.commitFrame f block n bytes).Busy f (((d.frame f).served.map fun sv => sv.block).getD block)
      ∧ (d.commitFrame f block n bytes).frames.waiterQueue = d.frames.waiterQueue
      ∧ ∀ p, ((d.commitFrame f block n bytes).port p).landing = (d.port p).landing := by
  rcases d.commitFrame_cases f block n bytes with ⟨sv, o, c, hst, hb, -, -, s⟩ | ⟨sv, hs, hst, he⟩ | ⟨b, h, e, m, ph, hs, he⟩
  · refine ⟨fun g hg => ?_, ?_, ?_, fun p => ?_⟩
    · rw [s.frame, Device.dirtied_frame, Device.setServed_frame_other hg, Device.setBytes_frame_other hg]
    · obtain ⟨b, h, st⟩ := sv
      obtain rfl : st = _ := hst
      obtain rfl : b = _ := hb
      exact ⟨h, _, by rw [s.frame, Device.dirtied_frame, Device.setServed_served], by simp⟩
    · rw [s.frames]
      cases c <;> rfl
    · rw [s.landing]
      cases c <;> cases p <;> rfl
  · rw [he]
    refine ⟨fun g hg => Device.setBytes_frame_other hg _ _, ?_, rfl, fun p => by cases p <;> rfl⟩
    obtain ⟨b, h, st⟩ := sv
    refine ⟨h, st, by simp [hs], ?_⟩
    rcases hst with ⟨e, o, hst⟩ | ⟨e, hst⟩ <;> simp only at hst <;> simp [hst]
  · rw [he]
    refine ⟨fun g hg => (Device.setServed_frame_other hg _ _).trans (Device.setBytes_frame_other hg _ _), ?_, rfl,
      fun p => by cases p <;> rfl⟩
    exact ⟨h, _, by rw [Device.setServed_served, hs]; rfl, by simp⟩

theorem Device.Busy.commitFrame {g : FrameNo} {b : Nat} {d : Device} (h : d.Busy g b) (f : FrameNo) (block n : Nat)
    (bytes : Block) : (d.commitFrame f block n bytes).Busy g b := by
  obtain ⟨h₁, h₂, -, -⟩ := d.commitFrame_frames f block n bytes
  obtain ⟨k, st, hs, hn⟩ := h
  by_cases hg : g = f
  · subst hg
    rw [hs] at h₂
    exact h₂
  · exact ⟨k, st, by rw [h₁ g hg]; exact hs, hn⟩

/-- A commit of the next write number keeps the invariant; a FREE frame must be about to serve a block of its own. -/
theorem Device.StoreBut.commitFrame {ex : Option Nat} {loose : Option FrameNo} {d : Device} (h : d.StoreBut ex loose)
    {f : FrameNo} {block : Nat} {bytes : Block} (hlo : loose = none ∨ loose = some f)
    (hnew : (d.frame f).served = none → (∀ g, (d.frame g).serves block = false) ∧
      ∀ e ∈ d.frames.waiterQueue, e.block = block → ex = some e.block) :
    (({ d with tracker := { d.tracker with nextWrite := d.tracker.nextWrite + 1 } } : Device).commitFrame
      f block d.tracker.nextWrite bytes).StoreBut ex none := by
  have hb := h.setBytes f bytes
  set n := d.tracker.nextWrite with hn
  rcases ({ d with tracker := { d.tracker with nextWrite := n + 1 } } : Device).commitFrame_cases f block n bytes with
    ⟨sv, o, c, hst, hbl, hk, hc, s⟩ | ⟨sv, hs, hst, he⟩ | ⟨b, k, e, m, ph, hs, he⟩
  · refine Device.StoreBut.same ?_ s
    obtain ⟨b, k, st⟩ := sv
    obtain rfl : st = _ := hst
    set d' := (({ d with tracker := { d.tracker with nextWrite := n + 1 } } : Device).setBytes f bytes).dirtied f
      { block := b, hold := k, state := .dirty n o } n c with hd'
    have hf : (d'.frame f).served = some { block := b, hold := k, state := .dirty n o } := by
      rw [hd', Device.dirtied_frame, Device.setServed_served]
    change b = (((d.frame f).served.map fun sv => sv.block).getD block) at hbl
    change (d.frame f).kind = .free ∨ (d.frame f).kind = .clean ∨ (d.frame f).kind = .filling at hk
    change c = true ↔ (d.frame f).kind = .clean at hc
    have ho : (d.frame f).numbers = [] ∧ (d.frame f).unwritten = none ∧ (d.frame f).heldAt = none
        ∧ (d.frame f).kind ≠ .dirty := by
      generalize d.frame f = fr at hk
      obtain ⟨bt, _ | ⟨b', h', st'⟩⟩ := fr
      · simp [Frame.numbers, Frame.unwritten, Frame.heldAt, Frame.kind]
      · cases st' <;> simp_all [Frame.numbers, Frame.unwritten, Frame.heldAt, Frame.kind]
    have hk' : (d'.frame f).kind = .dirty := by simp [Frame.kind, hf]
    have hnw : d'.tracker.nextWrite = n + 1 := by cases c <;> rfl
    refine h.change f (loose' := none) ?_ ?_ (fun p => ?_) (by rw [hnw]; exact Nat.le_succ _) ?_ ?_ ?_ (by simp [hk']) ?_ ?_ ?_ ?_ ?_ ?_
    · have : d'.frames.frames = (({ d with tracker := { d.tracker with nextWrite := n + 1 } } : Device).setBytes f
          bytes).frames.frames.set f.val (d'.frame f) f.isLt := by
        rw [hd', Device.dirtied_frame, ← Device.setServed_frames]
        cases c <;> rfl
      rw [this]
      exact Vector.set_set ..
    · cases c <;> rfl
    · cases c <;> cases p <;> rfl
    · cases c with
      | true => exact .inr (.inr ⟨rfl, by simp [hk']⟩)
      | false => exact .inl ⟨rfl, by simpa [hk'] using hc⟩
    · refine .inr (.inl ⟨?_, ho.2.2.2, hk'⟩)
      cases c <;> rfl
    · intro sv hv
      rw [hf] at hv
      cases hv
      rcases hs : (d.frame f).served with _ | sw
      · have hbl' : b = block := by rw [hbl, hs]; rfl
        obtain ⟨h₁, h₂⟩ := hnew hs
        exact .inr ⟨fun g _ => hbl' ▸ h₁ g, fun e he heb => h₂ e he (heb.trans hbl')⟩
      · refine .inl ⟨sw, rfl, ?_⟩
        rw [hbl, hs]
        rfl
    · exact fun _ => .inl (by simp [Frame.available, Frame.evictable, hf])
    · exact hlo.imp id .inl
    · intro x hx
      simp only [Frame.numbers, hf, List.mem_singleton] at hx
      subst hx
      refine .inr ⟨le_rfl, ?_⟩
      rw [hnw]
      exact Nat.lt_succ_self _
    · simp [Frame.numbers, hf]
    · refine .inr fun x => ?_
      have hu : d'.tracker.unwritten = insertAsc n d.tracker.unwritten := by cases c <;> rfl
      rw [hu, mem_insertAsc_iff, ho.2.1]
      simp only [Frame.unwritten, hf, Option.some.injEq]
      simp [or_comm, eq_comm]
    · refine .inl ⟨by cases c <;> rfl, ?_⟩
      rw [ho.2.2.1]
      simp [Frame.heldAt, hf]
  · rw [he]
    have h₁ : (d.setBytes f bytes).StoreBut ex none := by
      refine { hb with short := fun hq g _ => ?_ }
      by_cases hg : g = f
      · subst hg
        have : ((d.setBytes g bytes).frame g).served = some sv := by
          have hs' : (d.frame g).served = some sv := hs
          simpa using hs'
        rcases hst with ⟨e, o, hst⟩ | ⟨e, hst⟩ <;> cases sv <;> simp_all [Frame.available, Frame.evictable]
      · refine hb.short hq g ?_
        rcases hlo with e | e <;> simp [e, Ne.symm hg]
    exact { h₁ with given := fun g x hx => (h₁.given g x hx).trans (Nat.lt_succ_self _) }
  · rw [he]
    have hs' : (d.frame f).served = some { block := b, hold := k, state := .writing e m ph } := hs
    set d' := (({ d with tracker := { d.tracker with nextWrite := n + 1 } } : Device).setBytes f bytes).setServed f
      (some { block := b, hold := k, state := .writing e (some (m.getD n)) ph }) with hd'
    have hf : (d'.frame f).served = some { block := b, hold := k, state := .writing e (some (m.getD n)) ph } := by
      rw [hd', Device.setServed_served]
    have hmn : (m.getD n ∈ (d.frame f).numbers ∨ m.getD n = n) ∧ e ∈ (d.frame f).numbers ∧ e < m.getD n := by
      have hg := h.given f e
      have hr := h.rising f
      cases m with
      | none =>
        simp only [Frame.numbers, hs'] at hg ⊢
        exact ⟨.inr rfl, by simp, hg (by simp)⟩
      | some x =>
        simp only [Frame.numbers, hs'] at hr ⊢
        exact ⟨.inl (by simp), by simp, by simpa using hr⟩
    refine h.change f (loose' := none) ?_ rfl (fun p => by cases p <;> rfl) (Nat.le_succ _) ?_ ?_ ?_ ?_ ?_ (hlo.imp id .inl) ?_ ?_ ?_ ?_
    · have := Device.setServed_frames f (some { block := b, hold := k, state := .writing e (some (m.getD n)) ph })
        (({ d with tracker := { d.tracker with nextWrite := n + 1 } } : Device).setBytes f bytes)
      rw [← hd'] at this
      rw [this]
      exact Vector.set_set ..
    · exact .inl ⟨rfl, by simp [Frame.kind, hf, hs']⟩
    · exact .inl ⟨rfl, by simp [Frame.kind, hf, hs'], by simp [Frame.kind, hf]⟩
    · intro sv hv
      rw [hf] at hv
      cases hv
      exact .inl ⟨_, hs', rfl⟩
    · simp [Frame.kind, hf]
    · exact fun _ => .inl (by simp [Frame.available, Frame.evictable, hf])
    · intro x hx
      simp only [Frame.numbers, hf, List.mem_cons, List.not_mem_nil, or_false] at hx
      rcases hx with rfl | rfl
      · exact .inl hmn.2.1
      · rcases hmn.1 with h₁ | h₁
        · exact .inl h₁
        · exact .inr ⟨h₁.ge, by rw [h₁]; exact Nat.lt_succ_self _⟩
    · simpa [Frame.numbers, hf] using hmn.2.2
    · exact .inl ⟨rfl, by simp [Frame.unwritten, hf, hs']⟩
    · exact .inl ⟨rfl, by simp [Frame.heldAt, hf, hs']⟩

theorem PortUnit.landing_freeBuffer {b : BufNo} (u : PortUnit) (c : BufNo) :
    (u.freeBuffer b).landing[c] = if c = b then .free else u.landing[c] := by
  split_ifs with h
  · subst h
    exact u.setLanding_same c .free
  · exact u.setLanding_other h .free

/-- The commit of a landing buffer that holds no block does nothing. -/
theorem Device.commitInto_of_empty {p : Port} {buf : BufNo} {f : FrameNo} {block : Nat} {d : Device}
    (h : ∀ t i k y, (d.port p).landing[buf] ≠ .occupied t i k y) : d.commitInto p buf f block = d := by
  unfold Device.commitInto
  split
  · rename_i t i k y ho
    exact (h t i k y ho).elim
  · rfl

/-- The commit of a landing buffer that holds a block: the commit on its frame, the buffer freed, the WRITE's count. -/
theorem Device.commitInto_of_occupied {p : Port} {buf : BufNo} {f : FrameNo} {block : Nat} {d : Device} {t : Tag} {i k : Nat}
    {y : Block} (h : (d.port p).landing[buf] = .occupied t i k y) : d.commitInto p buf f block =
      (((({ d with tracker := { d.tracker with nextWrite := d.tracker.nextWrite + 1 } } : Device).commitFrame f block
        d.tracker.nextWrite y).onPort p (PortUnit.freeBuffer buf)).countCommit p t d.tracker.nextWrite) := by
  unfold Device.commitInto
  rw [h]

theorem Device.occupied_or {p : Port} (buf : BufNo) (d : Device) :
    (∃ t i k y, (d.port p).landing[buf] = .occupied t i k y) ∨ ∀ t i k y, (d.port p).landing[buf] ≠ .occupied t i k y := by
  rcases h : (d.port p).landing[buf] with _ | _ | ⟨t, i, k, y⟩
  · exact .inr fun _ _ _ _ => by simp
  · exact .inr fun _ _ _ _ => by simp
  · exact .inl ⟨t, i, k, y, rfl⟩

/-- What a commit leaves: the queue, and every landing buffer that still holds a block. -/
theorem Device.commitInto_leaves (p : Port) (buf : BufNo) (f : FrameNo) (block : Nat) (d : Device) :
    (d.commitInto p buf f block).frames.waiterQueue = d.frames.waiterQueue
      ∧ (∀ (q : Port) (c : BufNo) t i k y, ((d.commitInto p buf f block).port q).landing[c] = .occupied t i k y →
          (d.port q).landing[c] = .occupied t i k y)
      ∧ ∀ g b, d.Busy g b → (d.commitInto p buf f block).Busy g b := by
  rcases d.occupied_or (p := p) buf with ⟨t, i, k, y, ho⟩ | hn
  · rw [Device.commitInto_of_occupied ho]
    set d₁ : Device := { d with tracker := { d.tracker with nextWrite := d.tracker.nextWrite + 1 } } with hd₁
    obtain ⟨-, -, hq, hl⟩ := d₁.commitFrame_frames f block d.tracker.nextWrite y
    have s := Device.same_countCommit p t d.tracker.nextWrite
      ((d₁.commitFrame f block d.tracker.nextWrite y).onPort p (PortUnit.freeBuffer buf))
    refine ⟨?_, fun q c t' i' k' y' h => ?_, fun g b hb => ?_⟩
    · rw [s.frames, Device.onPort_frames, hq]
    · rw [s.landing] at h
      have hsame : (d₁.port q).landing = (d.port q).landing := by cases q <;> rfl
      obtain rfl | rfl := Port.eq_or_other p q
      · rw [Device.onPort_port_same, PortUnit.landing_freeBuffer] at h
        split_ifs at h
        rw [hl, hsame] at h
        exact h
      · rw [Device.onPort_port_other, hl, hsame] at h
        exact h
    · have hb' : (d₁.commitFrame f block d.tracker.nextWrite y).Busy g b := Device.Busy.commitFrame (d := d₁) hb _ _ _ _
      obtain ⟨h', st, hs, hn⟩ := hb'
      refine ⟨h', st, ?_, hn⟩
      rw [s.frame, show ((d₁.commitFrame f block d.tracker.nextWrite y).onPort p (PortUnit.freeBuffer buf)).frame g
        = (d₁.commitFrame f block d.tracker.nextWrite y).frame g by simp [Device.frame]]
      exact hs
  · rw [Device.commitInto_of_empty hn]
    exact ⟨rfl, fun _ _ _ _ _ _ h => h, fun _ _ h => h⟩

/-- A FREE frame that takes a commit is busy with the block committed. -/
theorem Device.commitInto_serves {p : Port} {buf : BufNo} {f : FrameNo} {block : Nat} {d : Device} {t : Tag} {i k : Nat}
    {y : Block} (ho : (d.port p).landing[buf] = .occupied t i k y) (hf : (d.frame f).served = none) :
    (d.commitInto p buf f block).Busy f block := by
  rw [Device.commitInto_of_occupied ho]
  set d₁ : Device := { d with tracker := { d.tracker with nextWrite := d.tracker.nextWrite + 1 } } with hd₁
  obtain ⟨-, hb, -, -⟩ := d₁.commitFrame_frames f block d.tracker.nextWrite y
  rw [show (d₁.frame f).served = none from hf] at hb
  have s := Device.same_countCommit p t d.tracker.nextWrite
    ((d₁.commitFrame f block d.tracker.nextWrite y).onPort p (PortUnit.freeBuffer buf))
  obtain ⟨h', st, hs, hn⟩ := hb
  refine ⟨h', st, ?_, hn⟩
  rw [s.frame, show ((d₁.commitFrame f block d.tracker.nextWrite y).onPort p (PortUnit.freeBuffer buf)).frame f
    = (d₁.commitFrame f block d.tracker.nextWrite y).frame f by simp [Device.frame]]
  exact hs

theorem Device.StoreBut.commitInto {ex : Option Nat} {loose : Option FrameNo} {d : Device} (h : d.StoreBut ex loose)
    {p : Port} {buf : BufNo} {f : FrameNo} {block : Nat} {t : Tag} {i k : Nat} {y : Block}
    (ho : (d.port p).landing[buf] = .occupied t i k y) (hlo : loose = none ∨ loose = some f)
    (hq : ∀ e ∈ d.frames.waiterQueue, e.requester ≠ .landing p buf)
    (hnew : (d.frame f).served = none → (∀ g, (d.frame g).serves block = false) ∧
      ∀ e ∈ d.frames.waiterQueue, e.block = block → ex = some e.block) : (d.commitInto p buf f block).StoreBut ex none := by
  rw [Device.commitInto_of_occupied ho]
  refine Device.StoreBut.same ?_ (Device.same_countCommit _ _ _ _)
  refine (h.commitFrame hlo hnew).setBuffer (b := buf) (fun u c hc => ?_) ?_
  · rw [PortUnit.landing_freeBuffer, if_neg hc]
  · obtain ⟨-, -, hq', -⟩ := ({ d with tracker := { d.tracker with nextWrite := d.tracker.nextWrite + 1 } } :
      Device).commitFrame_frames f block d.tracker.nextWrite y
    rw [hq']
    exact hq

/-- A commit to a frame in use. -/
theorem Device.StoreBut.commitServed {ex : Option Nat} {d : Device} (h : d.StoreBut ex none) {p : Port} {buf : BufNo}
    {f : FrameNo} {block : Nat} (hq : ∀ e ∈ d.frames.waiterQueue, e.requester ≠ .landing p buf)
    (hs : (d.frame f).served ≠ none) : (d.commitInto p buf f block).StoreBut ex none := by
  rcases d.occupied_or (p := p) buf with ⟨t, i, k, y, ho⟩ | hn
  · exact h.commitInto ho (.inl rfl) hq fun e => (hs e).elim
  · rw [Device.commitInto_of_empty hn]
    exact h

/-! ### Look-up and allocation -/

theorem FrameStore.firstFrame_some {test : Frame → Bool} {fs : FrameStore} {f : FrameNo} (h : fs.firstFrame test = some f) :
    test fs.frames[f] = true := by
  unfold FrameStore.firstFrame at h
  rw [Option.bind_eq_some_iff] at h
  obtain ⟨i, hi, h⟩ := h
  split_ifs at h with hlt
  cases h
  obtain ⟨hl, ht, -⟩ := List.findIdx?_eq_some_iff_getElem.mp hi
  simpa using ht

theorem FrameStore.firstFrame_none {test : Frame → Bool} {fs : FrameStore} (h : fs.firstFrame test = none) (f : FrameNo) :
    test fs.frames[f] = false := by
  unfold FrameStore.firstFrame at h
  rw [Option.bind_eq_none_iff] at h
  cases hi : fs.frames.toList.findIdx? test with
  | none =>
    have := List.findIdx?_eq_none_iff.mp hi fs.frames[f] (by simp)
    simpa using this
  | some i =>
    obtain ⟨hl, -, -⟩ := List.findIdx?_eq_some_iff_getElem.mp hi
    have := h i hi
    rw [dif_pos (by simpa using hl)] at this
    cases this

/-- The first frame that meets a test, by the frames before it. -/
theorem FrameStore.firstFrame_of_first {test : Frame → Bool} {fs : FrameStore} {f : FrameNo} (h : test fs.frames[f] = true)
    (hl : ∀ g < f, test fs.frames[g] = false) : fs.firstFrame test = some f := by
  have : fs.frames.toList.findIdx? test = some f.val := by
    rw [List.findIdx?_eq_some_iff_getElem]
    exact ⟨by simp, by simpa using h, fun j hj => by simpa using hl ⟨j, by omega⟩ (by simpa [Fin.lt_def] using hj)⟩
  simp [FrameStore.firstFrame, this]

theorem FrameStore.firstFrame_of_none {test : Frame → Bool} {fs : FrameStore} (h : ∀ f : FrameNo, test fs.frames[f] = false) :
    fs.firstFrame test = none := by
  cases hf : fs.firstFrame test with
  | none => rfl
  | some f =>
    have := FrameStore.firstFrame_some hf
    rw [h f] at this
    cases this

theorem Device.lookup_some {d : Device} {block : Nat} {f : FrameNo} (h : d.frames.lookup block = some f) :
    (d.frame f).serves block = true := FrameStore.firstFrame_some h

theorem Device.lookup_none {d : Device} {block : Nat} (h : d.frames.lookup block = none) (f : FrameNo) :
    (d.frame f).serves block = false := FrameStore.firstFrame_none h f

theorem Device.served_of_lookup {d : Device} {block : Nat} {f : FrameNo} (h : d.frames.lookup block = some f) :
    (d.frame f).served ≠ none := fun e => by
  obtain ⟨sv, hs, -⟩ := Frame.serves_iff.mp (Device.lookup_some h)
  rw [e] at hs
  cases hs

/-- An allocation that is answered gives an available frame, and no entry waits. -/
theorem Device.allocChoice_some {d : Device} {f : FrameNo} (h : d.allocChoice = some f) :
    (d.frame f).available = true ∧ d.frames.waiterQueue = [] := by
  unfold Device.allocChoice at h
  split_ifs at h with hq
  refine ⟨?_, List.isEmpty_iff.mp hq⟩
  rcases hl : d.frames.lowestFree with _ | g
  · rw [hl] at h
    have := List.find?_some h
    simp [Frame.available, this]
  · rw [hl] at h
    cases h
    have := FrameStore.firstFrame_some hl
    simp only [Frame.available, Bool.or_eq_true]
    exact .inl this

/-- An allocation that is not answered finds no frame available. -/
theorem Device.StoreBut.allocChoice_none {d : Device} (h : d.StoreBut none none) (ha : d.allocChoice = none) (f : FrameNo) :
    (d.frame f).available = false := by
  unfold Device.allocChoice at ha
  split_ifs at ha with hq
  · rcases hl : d.frames.lowestFree with _ | g
    · rw [hl] at ha
      rw [Bool.eq_false_iff]
      intro hav
      rcases Frame.available_iff.mp hav with h' | ⟨b, h'⟩
      · have := FrameStore.firstFrame_none hl f
        rw [show d.frames.frames[f] = d.frame f from rfl, h'] at this
        cases this
      · have hm : f ∈ d.frames.cleanList := (h.clean f).mpr (by simp [Frame.kind, h'])
        have := List.find?_eq_none.mp ha f hm
        simp [Frame.evictable, h'] at this
    · rw [hl] at ha
      cases ha
  · exact h.short (fun e => hq (by simp [e])) f (by simp)

/-! ### The commits of a port, and hand-out -/

/-- Entries about to be given a frame that serves their block b: none waits, and a landing buffer among them holds block b. -/
def Device.Given (b : Nat) (l : List WaiterEntry) (d : Device) : Prop :=
  ∀ e ∈ l, ∀ q c, e.requester = .landing q c →
    (∀ x ∈ d.frames.waiterQueue, x.requester ≠ .landing q c) ∧ ∀ t i k y, (d.port q).landing[c] = .occupied t i k y → k = b

/-- A commit keeps what is about to be given. -/
theorem Device.Given.commitInto {b : Nat} {l : List WaiterEntry} {d : Device} (h : d.Given b l) (p : Port) (buf : BufNo)
    (f : FrameNo) (block : Nat) : (d.commitInto p buf f block).Given b l := by
  obtain ⟨hq, hl, -⟩ := d.commitInto_leaves p buf f block
  intro e he q c hr
  obtain ⟨h₁, h₂⟩ := h e he q c hr
  exact ⟨by rw [hq]; exact h₁, fun t i k y ho => h₂ t i k y (hl q c t i k y ho)⟩

/-- What an operation keeps while a frame is given out. -/
structure Device.Carries (d d' : Device) : Prop where
  store : d'.StoreBut none none
  busy : ∀ f b, d.Busy f b → d'.Busy f b
  given : ∀ f b l, d.Busy f b → d.Given b l → d'.Given b l

theorem Device.Carries.trans {d₁ d₂ d₃ : Device} (h : d₁.Carries d₂) (k : d₂.Carries d₃) : d₁.Carries d₃ :=
  ⟨k.store, fun f b hb => k.busy f b (h.busy f b hb), fun f b l hb hg => k.given f b l (h.busy f b hb) (h.given f b l hb hg)⟩

theorem Device.StoreBut.carries {d : Device} (h : d.StoreBut none none) : d.Carries d := ⟨h, fun _ _ h => h, fun _ _ _ _ h => h⟩

theorem Device.Busy.evict {f g : FrameNo} {b : Nat} {d : Device} (h : d.Busy f b) (ha : (d.frame g).available = true) :
    (d.evict g).Busy f b := by
  have hne : f ≠ g := fun e => by
    subst e
    rw [h.not_available] at ha
    cases ha
  obtain ⟨k, st, hs, hn⟩ := h
  exact ⟨k, st, (congrArg Frame.served (Device.setServed_frame_other hne none d)).trans hs, hn⟩

theorem carries_tryHead (n : Nat) (p : Port) {d : Device} (h : d.StoreBut none none) : d.Carries (tryHead n p d) := by
  induction n generalizing d with
  | zero => exact h.carries
  | succ n ih =>
    unfold tryHead
    split
    · exact h.carries
    · rename_i buf rest hc
      split_ifs with hw
      · exact h.carries
      · have hq : ∀ e ∈ d.frames.waiterQueue, e.requester ≠ .landing p buf := fun e he hr =>
          hw (List.any_eq_true.mpr ⟨e, he, by simp [hr]⟩)
        have into {e : Device} (hs : e.StoreBut none none) (hbusy : ∀ g b, d.Busy g b → e.Busy g b)
            (hgiven : ∀ b l, d.Given b l → e.Given b l) : d.Carries (tryHead n p e) :=
          Device.Carries.trans ⟨hs, hbusy, fun _ b l _ => hgiven b l⟩ (ih hs)
        split
        · rename_i t i block y ho
          split
          · rename_i f hf
            refine into (h.commitServed hq (Device.served_of_lookup hf)) (fun g b => (d.commitInto_leaves p buf f block).2.2 g b)
              fun b l hg => hg.commitInto p buf f block
          · rename_i hf
            split
            · rename_i f ha
              obtain ⟨hav, hnil⟩ := Device.allocChoice_some ha
              have hev := h.evict hav (.inl rfl)
              refine into ?_ (fun g b hb => ((d.evict f).commitInto_leaves p buf f block).2.2 g b (hb.evict hav)) fun b l hg => ?_
              · refine hev.commitInto (t := t) (i := i) (k := block) (y := y) ?_ (.inr rfl) hq fun _ => ⟨fun g => ?_, ?_⟩
                · exact ho ▸ (by cases p <;> rfl)
                · by_cases hg : g = f
                  · subst hg
                    rw [Frame.serves, show ((d.evict g).frame g).served = none from Device.setServed_served d g none]
                  · rw [show (d.evict f).frame g = d.frame g from Device.setServed_frame_other hg none d]
                    exact Device.lookup_none hf g
                · intro e he
                  rw [show (d.evict f).frames.waiterQueue = d.frames.waiterQueue from rfl, hnil] at he
                  cases he
              · exact Device.Given.commitInto (d := d.evict f) (fun e he q c hr => by
                  obtain ⟨h₁, h₂⟩ := hg e he q c hr
                  exact ⟨h₁, fun t i k y ho' => h₂ t i k y (by cases q <;> exact ho')⟩) p buf f block
            · rename_i ha
              refine ⟨h.join (Device.lookup_none hf) (h.allocChoice_none ha) fun q c hr => ?_, fun f b hb => hb, fun f b l hb hg => ?_⟩
              · cases hr
                exact ⟨hq, t, i, y, ho⟩
              · intro e he q c hr
                obtain ⟨h₁, h₂⟩ := hg e he q c hr
                refine ⟨fun x hx hxr => ?_, fun t i k y ho' => h₂ t i k y (by cases q <;> exact ho')⟩
                rcases List.mem_append.mp hx with hx | hx
                · exact h₁ x hx hxr
                · obtain rfl := List.mem_singleton.mp hx
                  cases hxr
                  have hbk := h₂ t i block y ho
                  have := Device.lookup_none hf f
                  rw [hbk, hb.serves] at this
                  cases this
        · exact h.carries

theorem Device.carries_tryCommit (p : Port) {d : Device} (h : d.StoreBut none none) : d.Carries (d.tryCommit p) :=
  carries_tryHead _ p h

theorem Device.StoreBut.tryCommit {d : Device} (h : d.StoreBut none none) (p : Port) : (d.tryCommit p).StoreBut none none :=
  (Device.carries_tryCommit p h).store

theorem Device.SameStore.busy {d d' : Device} (s : d.SameStore d') {f : FrameNo} {b : Nat} (h : d.Busy f b) : d'.Busy f b := by
  obtain ⟨k, st, hs, hn⟩ := h
  exact ⟨k, st, by rw [s.frame]; exact hs, hn⟩

theorem Device.SameStore.given {d d' : Device} (s : d.SameStore d') {b : Nat} {l : List WaiterEntry} (h : d.Given b l) :
    d'.Given b l := by
  intro e he q c hr
  obtain ⟨h₁, h₂⟩ := h e he q c hr
  exact ⟨by rw [s.frames]; exact h₁, by rw [s.landing]; exact h₂⟩

/-- A window block takes a hold on a frame, and joins its waiters if its fill is outstanding. -/
def Device.holdFor (w : WindowRef) (f : FrameNo) (d : Device) : Device :=
  let d := d.takeHold f
  match (d.frame f).served with
  | some { block := b, hold := h, state := .filling ws } =>
    (d.setServed f (some { block := b, hold := h, state := .filling (ws ++ [w]) })).tellWindow w (.waitingFill f)
  | _ => d.tellWindow w (.ready f)

theorem Device.StoreBut.holdFor {ex : Option Nat} {loose : Option FrameNo} {d : Device} (h : d.StoreBut ex loose) (w : WindowRef)
    (f : FrameNo) : (d.holdFor w f).StoreBut ex loose := by
  unfold Device.holdFor
  have h' := h.takeHold f
  generalize d.takeHold f = e at h'
  dsimp only
  split
  · rename_i b k ws hs
    refine Device.StoreBut.same ?_ (Device.same_tellWindow _ _ _)
    have hf := Device.setServed_served e f (some { block := b, hold := k, state := .filling (ws ++ [w]) })
    refine h'.alike f (Device.setServed_frames f _ e) rfl (Device.landing_setServed f _ e) rfl rfl
      (.inl ⟨rfl, by simp [Frame.kind, hs]⟩) (Frame.alike_of hs hf trivial) (fun _ => .inl ?_) (.inr (.inr rfl))
    simp [Frame.available, Frame.evictable]
  · exact h'.same (Device.same_tellWindow _ _ _)

theorem Device.takeHold_frames (f : FrameNo) (d : Device) :
    (d.takeHold f).frames.waiterQueue = d.frames.waiterQueue ∧ (∀ p, ((d.takeHold f).port p).landing = (d.port p).landing)
      ∧ ∀ g b, d.Busy g b → (d.takeHold f).Busy g b := by
  unfold Device.takeHold
  split
  · rename_i sv hs
    have busy : ∀ g b, d.Busy g b → (d.setServed f (some { sv with hold := sv.hold + 1 })).Busy g b := by
      rintro g b ⟨k, st, hg, hn⟩
      by_cases hgf : g = f
      · subst hgf
        rw [hs] at hg
        cases hg
        exact ⟨k + 1, st, by simp, hn⟩
      · exact ⟨k, st, by rw [Device.setServed_frame_other hgf]; exact hg, hn⟩
    dsimp only
    split
    · exact ⟨rfl, fun p => by cases p <;> rfl, busy⟩
    · exact ⟨rfl, fun p => by cases p <;> rfl, busy⟩
  · exact ⟨rfl, fun _ => rfl, fun _ _ h => h⟩

theorem Device.holdFor_frames (w : WindowRef) (f : FrameNo) (d : Device) :
    (d.holdFor w f).frames.waiterQueue = d.frames.waiterQueue ∧ (∀ p, ((d.holdFor w f).port p).landing = (d.port p).landing)
      ∧ ∀ g b, d.Busy g b → (d.holdFor w f).Busy g b := by
  unfold Device.holdFor
  obtain ⟨h₁, h₂, h₃⟩ := d.takeHold_frames f
  generalize d.takeHold f = e at h₁ h₂ h₃
  dsimp only
  split
  · rename_i b k ws hs
    have s := Device.same_tellWindow w (.waitingFill f) (e.setServed f (some { block := b, hold := k, state := .filling (ws ++ [w]) }))
    refine ⟨by rw [s.frames]; exact h₁, fun p => ?_, fun g b' hg => s.busy ?_⟩
    · rw [s.landing, Device.landing_setServed]
      exact h₂ p
    · obtain ⟨k', st, hs', hn⟩ := h₃ g b' hg
      by_cases hgf : g = f
      · subst hgf
        rw [hs] at hs'
        cases hs'
        exact ⟨k, _, Device.setServed_served _ _ _, by simp⟩
      · exact ⟨k', st, by rw [Device.setServed_frame_other hgf]; exact hs', hn⟩
  · have s := Device.same_tellWindow w (.ready f) e
    exact ⟨by rw [s.frames]; exact h₁, fun p => by rw [s.landing]; exact h₂ p, fun g b hg => s.busy (h₃ g b hg)⟩

theorem Device.Busy.served {f : FrameNo} {b : Nat} {d : Device} (h : d.Busy f b) : (d.frame f).served ≠ none := by
  obtain ⟨k, st, hs, -⟩ := h
  rw [hs]
  simp

theorem Device.given_giveFrame {f : FrameNo} {b : Nat} {e : WaiterEntry} {l : List WaiterEntry} {d : Device}
    (h : d.StoreBut none none) (hb : d.Busy f b) (hg : d.Given b (e :: l)) :
    (d.giveFrame f e).StoreBut none none ∧ (d.giveFrame f e).Busy f b ∧ (d.giveFrame f e).Given b l := by
  have hl : d.Given b l := fun x hx => hg x (List.mem_cons_of_mem _ hx)
  unfold Device.giveFrame
  split
  · rename_i w hr
    obtain ⟨h₁, h₂, h₃⟩ := d.holdFor_frames w f
    refine ⟨h.holdFor w f, h₃ f b hb, fun x hx q c hxr => ?_⟩
    obtain ⟨k₁, k₂⟩ := hl x hx q c hxr
    exact ⟨fun z hz => k₁ z (h₁ ▸ hz), fun t i k y ho => k₂ t i k y (h₂ q ▸ ho)⟩
  · rename_i p buf hr
    have hs := h.commitServed (block := e.block) (hg e (by simp) p buf hr).1 hb.served
    have hb' := (d.commitInto_leaves p buf f e.block).2.2 f b hb
    have c := Device.carries_tryCommit p hs
    exact ⟨c.store, c.busy f b hb', c.given f b l hb' (hl.commitInto p buf f e.block)⟩

theorem Device.given_fold {f : FrameNo} {b : Nat} {l : List WaiterEntry} {d : Device} (h : d.StoreBut none none)
    (hb : d.Busy f b) (hg : d.Given b l) :
    (l.foldl (fun d e => d.giveFrame f e) d).StoreBut none none ∧ (l.foldl (fun d e => d.giveFrame f e) d).Busy f b := by
  induction l generalizing d with
  | nil => exact ⟨h, hb⟩
  | cons e l ih =>
    obtain ⟨h₁, h₂, h₃⟩ := Device.given_giveFrame h hb hg
    exact ih h₁ h₂ h₃

/-- A frame just indexed is given to the entries that name its block, which were the exception until then. -/
theorem Device.StoreBut.giveIndexed {f : FrameNo} {b : Nat} {d : Device} (h : d.StoreBut (some b) none) (hb : d.Busy f b) :
    (d.giveIndexed f b).StoreBut none none := by
  unfold Device.giveIndexed
  have hsub : (d.frames.waiterQueue.filter fun e => e.block != b).Sublist d.frames.waiterQueue := List.filter_sublist
  refine (Device.given_fold (b := b) (d := d.setWaiterQueue (d.frames.waiterQueue.filter fun e => e.block != b)) ?_ hb ?_).1
  · refine h.shrink hsub fun e he _ hx => ?_
    simp only [Option.some.injEq] at hx
    simpa [← hx] using (List.mem_filter.mp he).2
  · intro e he q c hr
    obtain ⟨he', hbk⟩ := List.mem_filter.mp he
    have hbk' : e.block = b := by simpa using hbk
    refine ⟨fun x hx hxr => ?_, fun t i k y ho => ?_⟩
    · obtain ⟨hx', hxb⟩ := List.mem_filter.mp hx
      have hne : x ≠ e := fun e' => by simp [e', hbk'] at hxb
      have sym : Std.Symm fun x y : WaiterEntry => ∀ p b, x.requester = .landing p b → y.requester ≠ .landing p b :=
        ⟨fun x y hxy p b hy hx => hxy p b hx hy⟩
      exact h.once.forall hx' he' hne q c hxr hr
    · obtain ⟨t', i', y', ho'⟩ := h.landed e he' q c hr
      have ho'' : (d.port q).landing[c] = .occupied t i k y := by cases q <;> exact ho
      rw [ho''] at ho'
      cases ho'
      exact hbk'

theorem Device.evict_served (f : FrameNo) (d : Device) : ((d.evict f).frame f).served = none := Device.setServed_served d f none

/-- A cleared frame that serves a block of its own: only the entries that name the block become the exception. -/
theorem Device.StoreBut.fillFor {loose : Option FrameNo} {d : Device} (h : d.StoreBut none loose) {f : FrameNo}
    (hlo : loose = none ∨ loose = some f) (hf : (d.frame f).served = none) (w : WindowRef) {b : Nat}
    (hs : ∀ g, (d.frame g).serves b = false) : (d.fillFor w b f).StoreBut (some b) none ∧ (d.fillFor w b f).Busy f b := by
  unfold Device.fillFor
  have s := (Device.same_requestFill { frame := f, block := b } (d.setServed f (some
    { block := b, hold := 1, state := .filling [w] }))).trans (Device.same_tellWindow w (.waitingFill f) _)
  have hf' := Device.setServed_served d f (some { block := b, hold := 1, state := .filling [w] })
  refine ⟨Device.StoreBut.same ?_ s, s.busy ⟨1, _, hf', by simp⟩⟩
  have h' : d.StoreBut (some b) loose := { h with waiting := fun e he _ => h.waiting e he (by simp) }
  refine h'.change f (Device.setServed_frames f _ d) rfl (Device.landing_setServed f _ d) le_rfl ?_ ?_ ?_ ?_ ?_ ?_ ?_ ?_ ?_ ?_
  · exact .inl ⟨rfl, by simp [Frame.kind, hf]⟩
  · exact .inl ⟨rfl, by simp [Frame.kind, hf], by simp [Frame.kind]⟩
  · intro sv hv
    rw [hf'] at hv
    cases hv
    exact .inr ⟨fun g _ => hs g, fun e _ he => by rw [he]⟩
  · simp [Frame.kind]
  · exact fun _ => .inl (by simp [Frame.available, Frame.evictable])
  · exact hlo.imp id .inl
  · simp [Frame.numbers]
  · simp [Frame.numbers]
  · exact .inl ⟨rfl, by simp [Frame.unwritten, hf]⟩
  · exact .inl ⟨rfl, by simp [Frame.heldAt, hf]⟩

/-- R16: the hand-out of an available frame. -/
theorem Device.StoreBut.handOut {d : Device} {f : FrameNo} (h : d.StoreBut none (some f)) (ha : (d.frame f).available = true) :
    (d.handOut f).StoreBut none none := by
  unfold Device.handOut
  split
  · rename_i hq
    exact h.of_empty hq
  · rename_i e rest hq
    have hsub : rest.Sublist d.frames.waiterQueue := by rw [hq]; exact List.sublist_cons_self e rest
    have hrest := h.shrink hsub (ex' := none) fun x _ _ => by simp
    have hev := hrest.evict (f := f) ha (.inr rfl)
    have hfree := Device.evict_served f (d.setWaiterQueue rest)
    have hs : ∀ g, (((d.setWaiterQueue rest).evict f).frame g).serves e.block = false := fun g => by
      by_cases hg : g = f
      · subst hg
        rw [Frame.serves, hfree]
      · rw [show ((d.setWaiterQueue rest).evict f).frame g = d.frame g from Device.setServed_frame_other hg none _]
        exact h.waiting e (by rw [hq]; simp) (by simp) g
    dsimp only
    split
    · rename_i w hr
      obtain ⟨h₁, h₂⟩ := hev.fillFor (.inr rfl) hfree w hs
      exact h₁.giveIndexed h₂
    · rename_i p buf hr
      obtain ⟨t, i, y, ho⟩ := h.landed e (by rw [hq]; simp) p buf hr
      have ho' : (((d.setWaiterQueue rest).evict f).port p).landing[buf] = .occupied t i e.block y := by cases p <;> exact ho
      have hn : ∀ x ∈ ((d.setWaiterQueue rest).evict f).frames.waiterQueue, x.requester ≠ .landing p buf := fun x hx => by
        have ho := h.once
        rw [hq] at ho
        exact (List.pairwise_cons.mp ho).1 x hx p buf hr
      have hev' : ((d.setWaiterQueue rest).evict f).StoreBut (some e.block) (some f) :=
        { hev with waiting := fun x hx _ => hev.waiting x hx (by simp) }
      have hc := hev'.commitInto (block := e.block) ho' (.inr rfl) hn fun _ => ⟨hs, fun x _ hx => by rw [hx]⟩
      exact (hc.giveIndexed (Device.commitInto_serves ho' hfree)).tryCommit p

/-- A loose frame that is not available is no exception. -/
theorem Device.StoreBut.tighten {ex : Option Nat} {d : Device} {f : FrameNo} (h : d.StoreBut ex (some f))
    (ha : (d.frame f).available = false) : d.StoreBut ex none := by
  refine { h with short := fun hq g _ => ?_ }
  by_cases hg : g = f
  · exact hg ▸ ha
  · exact h.short hq g (by simpa using Ne.symm hg)

theorem Frame.available_of_evictable {fr : Frame} (h : fr.evictable = true) : fr.available = true := by
  simp [Frame.available, h]

theorem Device.StoreBut.dropHold {d : Device} (h : d.StoreBut none none) (w : WindowRef) (f : FrameNo) :
    (d.dropHold w f).StoreBut none none := by
  unfold Device.dropHold
  split
  · rename_i sv hs
    obtain ⟨b, k, st⟩ := sv
    dsimp only
    have key (st' : FrameState) (hsd : st.SameData st') : (if ((d.setServed f (some
        { block := b, hold := k - 1, state := st' })).frame f).evictable = true then (d.setServed f (some
        { block := b, hold := k - 1, state := st' })).handOut f else d.setServed f (some
        { block := b, hold := k - 1, state := st' })).StoreBut none none := by
      have hf := Device.setServed_served d f (some { block := b, hold := k - 1, state := st' })
      have al := Frame.alike_of hs hf hsd
      obtain ⟨_, _, _, _, _, hk, _⟩ := id al
      have h' : (d.setServed f (some { block := b, hold := k - 1, state := st' })).StoreBut none (some f) :=
        h.alike f (Device.setServed_frames f _ d) rfl (Device.landing_setServed f _ d) rfl rfl (.inl ⟨rfl, by rw [hk]⟩) al
          (fun _ => .inr rfl) (.inl rfl)
      split_ifs with he
      · exact h'.handOut (Frame.available_of_evictable he)
      · refine h'.tighten ?_
        rw [Bool.eq_false_iff]
        intro ha
        simp only [Frame.available, Bool.or_eq_true, he] at ha
        simp at ha
    refine key _ ?_
    cases st <;> simp [FrameState.SameData]
  · exact h

/-! ### Look-up -/

theorem Device.StoreBut.lookupWindow {d : Device} (h : d.StoreBut none none) (w : WindowRef) (b : Nat) :
    (d.lookupWindow w b).StoreBut none none := by
  unfold Device.lookupWindow
  split
  · exact h.holdFor w _
  · rename_i hl
    split
    · rename_i f ha
      obtain ⟨hav, hq⟩ := Device.allocChoice_some ha
      have hs : ∀ g, ((d.evict f).frame g).serves b = false := fun g => by
        by_cases hg : g = f
        · subst hg
          rw [Frame.serves, Device.evict_served]
        · rw [show (d.evict f).frame g = d.frame g from Device.setServed_frame_other hg none _]
          exact Device.lookup_none hl g
      obtain ⟨h₁, h₂⟩ := (h.evict hav (.inl rfl)).fillFor (.inr rfl) (Device.evict_served f d) w hs
      refine h₁.of_empty ?_
      have s := (Device.same_requestFill { frame := f, block := b } ((d.evict f).setServed f (some
        { block := b, hold := 1, state := .filling [w] }))).trans (Device.same_tellWindow w (.waitingFill f) _)
      rw [Device.fillFor, s.frames]
      exact hq
    · rename_i ha
      refine Device.StoreBut.same ?_ (Device.same_tellWindow _ _ _)
      exact h.join (Device.lookup_none hl) (h.allocChoice_none ha) fun p c hr => by cases hr

/-! ### Release, fills, settlement -/

theorem Device.SameStore.reportLost {d d' : Device} (h : d.SameStore d') (e : Nat) :
    ({ d with tracker := { d.tracker with unwritten := removeNum e d.tracker.unwritten,
                                          held := removeNum e d.tracker.held } } : Device).SameStore (d'.reportLost e) := by
  unfold Device.reportLost Device.report
  refine Device.SameStore.trans ?_ (Device.same_testFlush _)
  refine ⟨h.frames, h.next, by simp [h.unwritten], by simp [h.held], fun p => ?_, h.reset⟩
  have := h.landing p
  cases p <;> exact this

/-- A frame's record cleared, out of both collections, and its exposure out of the tracker's sets. -/
theorem Device.StoreBut.clear {d : Device} (h : d.StoreBut none none) (f : FrameNo) {t : Tracker}
    (hn : t.nextWrite = d.tracker.nextWrite)
    (hu : SetFollows (d.frame f).unwritten none d.tracker.unwritten t.unwritten)
    (hh : SetFollows (d.frame f).heldAt none d.tracker.held t.held) :
    ({ ((d.setServed f none).leaveDirty f).leaveClean f with tracker := t } : Device).StoreBut none (some f) := by
  have hf := Device.setServed_served d f none
  have hk : ((d.setServed f none).frame f).kind = .free := by simp [Frame.kind]
  refine h.change f (Device.setServed_frames f none d) rfl (fun p => by cases p <;> rfl) hn.ge ?_ ?_ ?_ ?_ (fun _ => .inr rfl) (.inl rfl) ?_
    ?_ ?_ ?_
  · exact .inr (.inr ⟨rfl, fun e => by have := hk.symm.trans e; cases this⟩)
  · exact .inr (.inr ⟨rfl, fun e => by have := hk.symm.trans e; cases this⟩)
  · intro sv hv
    have := hf.symm.trans hv
    cases this
  · intro hk
    have : ((d.setServed f none).frame f).kind = .held := hk
    simp [Frame.kind] at this
  · intro n hn
    have : n ∈ ((d.setServed f none).frame f).numbers := hn
    simp [Frame.numbers] at this
  · have : ((d.setServed f none).frame f).numbers = [] := by simp [Frame.numbers]
    exact this ▸ List.Pairwise.nil
  · have : ((d.setServed f none).frame f).unwritten = none := by simp [Frame.unwritten]
    exact this ▸ hu
  · have : ((d.setServed f none).frame f).heldAt = none := by simp [Frame.heldAt]
    exact this ▸ hh

theorem SetFollows.remove {old : Option Nat} {e : Nat} {l : List Nat} (h : old = some e ∨ (old = none ∧ e ∉ l)) :
    SetFollows old none l (removeNum e l) := by
  refine .inr fun n => ?_
  rw [mem_removeNum_iff]
  rcases h with rfl | ⟨rfl, h⟩
  · simp [eq_comm]
  · simp only [ne_eq, reduceCtorEq, not_false_eq_true, and_true, or_false, and_iff_left_iff_imp]
    rintro hn rfl
    exact h hn

/-- A number in one frame's record is in no set for another reason. -/
theorem Device.StoreBut.not_held {ex : Option Nat} {loose : Option FrameNo} {d : Device} (h : d.StoreBut ex loose) {f : FrameNo}
    {e : Nat} (he : e ∈ (d.frame f).numbers) (hf : (d.frame f).heldAt = none) : e ∉ d.tracker.held := fun hm => by
  obtain ⟨g, hg⟩ := (h.held e).mp hm
  have hne : f ≠ g := fun e => by
    subst e
    rw [hf] at hg
    cases hg
  exact h.apart f g hne e he (Frame.mem_numbers_of_heldAt hg)

theorem Device.StoreBut.not_unwritten {ex : Option Nat} {loose : Option FrameNo} {d : Device} (h : d.StoreBut ex loose)
    {f : FrameNo} {e : Nat} (he : e ∈ (d.frame f).numbers) (hf : (d.frame f).unwritten = none) : e ∉ d.tracker.unwritten :=
  fun hm => by
  obtain ⟨g, hg⟩ := (h.unwritten e).mp hm
  have hne : f ≠ g := fun e => by
    subst e
    rw [hf] at hg
    cases hg
  exact h.apart f g hne e he (Frame.mem_numbers_of_unwritten hg)

/-- The operation keeps the frame store sound. -/
def Device.Stores (d d' : Device) : Prop := d.StoreBut none none → d'.StoreBut none none

theorem Device.Stores.refl (d : Device) : d.Stores d := id

theorem Device.Stores.trans {d₁ d₂ d₃ : Device} (h : d₁.Stores d₂) (k : d₂.Stores d₃) : d₁.Stores d₃ := fun x => k (h x)

theorem Device.SameStore.stores {d d' : Device} (s : d.SameStore d') : d.Stores d' := fun h => h.same s

theorem Device.stores_foldl {α : Type} {f : Device → α → Device} (h : ∀ (d : Device) x, d.Stores (f d x)) (l : List α)
    (d : Device) : d.Stores (l.foldl f d) := by
  induction l generalizing d with
  | nil => exact .refl d
  | cons x xs ih => exact (h d x).trans (ih _)

theorem Device.stores_handOut {f : FrameNo} {d : Device} (ha : (d.frame f).available = true) : d.Stores (d.handOut f) :=
  fun h => (h.weaken (some f)).handOut ha

/-- R18: a released frame is out of every collection and its exposure out of the sets, and it is handed out. -/
theorem Device.stores_releaseFrame (f : FrameNo) (kind : FailKind) (d : Device) : d.Stores (d.releaseFrame f kind) := by
  intro h
  unfold Device.releaseFrame
  split
  · exact h
  · rename_i sv hs
    have s : d.SameStore ((d.onPort .a (PortUnit.failHolders f kind)).onPort .b (PortUnit.failHolders f kind)) :=
      (Device.same_onPort (f := PortUnit.failHolders f kind) fun _ => rfl).trans (Device.same_onPort fun _ => rfl)
    have h' := h.same s
    rw [← s.frame] at hs
    dsimp only
    generalize (d.onPort .a (PortUnit.failHolders f kind)).onPort .b (PortUnit.failHolders f kind) = e at hs h'
    have out {x : Device} {t : Tracker}
        (hx : ({ ((e.setServed f none).leaveDirty f).leaveClean f with tracker := t } : Device).SameStore x)
        (hn : t.nextWrite = e.tracker.nextWrite) (hu : SetFollows (e.frame f).unwritten none e.tracker.unwritten t.unwritten)
        (hh : SetFollows (e.frame f).heldAt none e.tracker.held t.held) : (x.handOut f).StoreBut none none := by
      refine ((h'.clear f hn hu hh).same hx).handOut ?_
      rw [hx.frame]
      exact Frame.available_iff.mpr (.inl (Device.setServed_served e f none))
    obtain ⟨b, k, st⟩ := sv
    have lost (n : Nat) (hn : n ∈ (e.frame f).numbers)
        (hk : ((e.frame f).unwritten = some n ∧ (e.frame f).heldAt = none)
          ∨ ((e.frame f).heldAt = some n ∧ (e.frame f).unwritten = none)) :
        (((((e.setServed f none).leaveDirty f).leaveClean f).reportLost n).handOut f).StoreBut none none := by
      refine out ((Device.SameStore.refl _).reportLost n) rfl (SetFollows.remove ?_) (SetFollows.remove ?_)
      · exact hk.imp (·.1) fun hk => ⟨hk.2, h'.not_unwritten hn hk.2⟩
      · rcases hk with hk | hk
        · exact .inr ⟨hk.2, h'.not_held hn hk.2⟩
        · exact .inl hk.1
    have none_of (h₁ : (e.frame f).unwritten = none) (h₂ : (e.frame f).heldAt = none) :
        ((((e.setServed f none).leaveDirty f).leaveClean f).handOut f).StoreBut none none :=
      out (.refl _) rfl (.inl ⟨rfl, h₁.symm⟩) (.inl ⟨rfl, h₂.symm⟩)
    cases st with
    | filling ws => exact none_of (by simp [Frame.unwritten, hs]) (by simp [Frame.heldAt, hs])
    | clean => exact none_of (by simp [Frame.unwritten, hs]) (by simp [Frame.heldAt, hs])
    | dirty n o => exact lost n (by simp [Frame.numbers, hs]) (.inl (by simp [Frame.unwritten, Frame.heldAt, hs]))
    | writing n m ph =>
      exact lost n (by cases m <;> simp [Frame.numbers, hs]) (.inl (by simp [Frame.unwritten, Frame.heldAt, hs]))
    | held n => exact lost n (by simp [Frame.numbers, hs]) (.inr (by simp [Frame.unwritten, Frame.heldAt, hs]))

/-- A frame becomes CLEAN at the tail of the clean list, and is handed out unless it is held: the end of a fill and of a write. -/
theorem Device.StoreBut.becomesClean {d x : Device} (h : d.StoreBut none none) {f : FrameNo} {b k : Nat} {t : Tracker}
    {fr : Frame} (hf : fr.served = some { block := b, hold := k, state := .clean })
    (hb : ∃ sv, (d.frame f).served = some sv ∧ sv.block = b) (hk : (d.frame f).kind ≠ .dirty)
    (hn : t.nextWrite = d.tracker.nextWrite)
    (hu : SetFollows (d.frame f).unwritten none d.tracker.unwritten t.unwritten)
    (hh : SetFollows (d.frame f).heldAt none d.tracker.held t.held)
    (hx : ({ (d.setFrame f fr).cleanTail f with tracker := t } : Device).SameStore x) :
    (if k = 0 then x.handOut f else x).StoreBut none none := by
  have hfr : ({ (d.setFrame f fr).cleanTail f with tracker := t } : Device).frame f = fr := Device.setFrame_frame d f fr
  have hd : ({ (d.setFrame f fr).cleanTail f with tracker := t } : Device).StoreBut none (some f) := by
    refine h.change f (by rw [hfr]; rfl) rfl (fun p => by cases p <;> rfl) hn.ge ?_ ?_ ?_ ?_ (fun _ => .inr rfl) (.inl rfl) ?_ ?_ ?_
      ?_ <;> rw [hfr]
    · exact .inr (.inl ⟨rfl, by simp [Frame.kind, hf]⟩)
    · exact .inl ⟨rfl, ⟨fun e => (hk e).elim, fun e => by simp [Frame.kind, hf] at e⟩, by simp [Frame.kind, hf]⟩
    · intro sv hv
      rw [hf] at hv
      cases hv
      exact .inl hb
    · simp [Frame.kind, hf]
    · simp [Frame.numbers, hf]
    · simp [Frame.numbers, hf]
    · rw [show fr.unwritten = none by simp [Frame.unwritten, hf]]
      exact hu
    · rw [show fr.heldAt = none by simp [Frame.heldAt, hf]]
      exact hh
  have hxf : (x.frame f).served = some { block := b, hold := k, state := .clean } := by rw [hx.frame, hfr, hf]
  split_ifs with hz
  · subst hz
    exact (hd.same hx).handOut (Frame.available_iff.mpr (.inr ⟨b, hxf⟩))
  · refine (hd.same hx).tighten ?_
    rw [Bool.eq_false_iff]
    intro ha
    rcases Frame.available_iff.mp ha with h' | ⟨b', h'⟩ <;> rw [hxf] at h' <;> cases h'
    exact hz rfl

theorem Device.stores_fillGood {f : FrameNo} {b k : Nat} {ws : List WindowRef} (bytes : Block) {d : Device}
    (hs : (d.frame f).served = some { block := b, hold := k, state := .filling ws }) :
    d.Stores (d.fillGood f { block := b, hold := k, state := .filling ws } ws bytes) := by
  intro h
  unfold Device.fillGood
  have hset : (d.setBytes f bytes).setServed f (some { block := b, hold := k, state := .clean })
      = d.setFrame f { bytes := bytes, served := some { block := b, hold := k, state := .clean } } := by
    simp [Device.setServed, Device.setBytes, Device.setFrame, Device.frame]
  dsimp only
  rw [hset]
  exact h.becomesClean (t := d.tracker) rfl ⟨_, hs, rfl⟩ (by simp [Frame.kind, hs]) rfl
    (.inl ⟨rfl, by simp [Frame.unwritten, hs]⟩) (.inl ⟨rfl, by simp [Frame.heldAt, hs]⟩) (Device.same_tellAll _ _ _)

/-- R35 to R40: the completion of a fill. -/
theorem Device.stores_fillDone (f : FrameNo) (o : ReadOutcome) (d : Device) : d.Stores (d.fillDone f o) := by
  unfold Device.fillDone
  split
  · rename_i sv hs
    obtain ⟨b, k, st⟩ := sv
    dsimp only
    split
    · rename_i ws
      split
      · exact (Device.stores_fillGood _ hs).trans (Device.same_reportOutcome _ _ _).stores
      · exact (d.stores_releaseFrame _ _).trans (Device.same_reportOutcome _ _ _).stores
    · rename_i e
      intro h
      refine Device.StoreBut.same ?_ (Device.same_reportOutcome _ _ _)
      have hf := Device.setServed_served d f (some { block := b, hold := k, state := .dirty e false })
      refine h.alike f (Device.setServed_frames f _ d) rfl (Device.landing_setServed f _ d) rfl rfl
        (.inl ⟨rfl, by simp [Frame.kind, hs]⟩) (Frame.alike_of hs hf rfl) (fun _ => .inl ?_) (.inl rfl)
      simp [Frame.available, Frame.evictable]
    · exact .refl d
  · exact .refl d

/-- R46: the settlement of a write. -/
theorem Device.stores_settleFrame (f : FrameNo) (d : Device) : d.Stores (d.settleFrame f) := by
  intro h
  unfold Device.settleFrame
  split
  · rename_i b k e ph hs
    refine h.becomesClean (t := { d.tracker with unwritten := removeNum e d.tracker.unwritten }) (fr := _) rfl ⟨_, hs, rfl⟩
      (by simp [Frame.kind, hs]) rfl (.remove (.inl (by simp [Frame.unwritten, hs])))
      (.inl ⟨rfl, by simp [Frame.heldAt, hs]⟩) (Device.same_testFlush _)
  · rename_i b k e n ph hs
    refine Device.StoreBut.same ?_ (Device.same_testFlush _)
    set d' : Device := { (d.setServed f (some { block := b, hold := k, state := .dirty n false })).enterDirty f with
      tracker := { d.tracker with unwritten := insertAsc n (removeNum e d.tracker.unwritten) } } with hd'
    change d'.StoreBut none none
    have hf : (d'.frame f).served = some { block := b, hold := k, state := .dirty n false } := Device.setServed_served d f _
    have hin : n ∈ (d.frame f).numbers := by simp [Frame.numbers, hs]
    refine h.change f (loose' := none) (Device.setServed_frames f _ d) rfl (fun p => by cases p <;> rfl) le_rfl ?_ ?_ ?_ ?_ ?_ (.inl rfl)
      ?_ ?_ ?_ ?_
    · exact .inl ⟨rfl, by simp [Frame.kind, hf, hs]⟩
    · exact .inr (.inl ⟨rfl, by simp [Frame.kind, hs], by simp [Frame.kind, hf]⟩)
    · intro sv hv
      rw [hf] at hv
      cases hv
      exact .inl ⟨_, hs, rfl⟩
    · simp [Frame.kind, hf]
    · exact fun _ => .inl (by simp [Frame.available, Frame.evictable, hf])
    · intro x hx
      simp only [Frame.numbers, hf, List.mem_singleton] at hx
      exact .inl (hx ▸ hin)
    · simp [Frame.numbers, hf]
    · have hn : (d'.frame f).unwritten = some n := by simp [Frame.unwritten, hf]
      have ho : (d.frame f).unwritten = some e := by simp [Frame.unwritten, hs]
      refine .inr fun x => mem_insertAsc_iff.trans ?_
      rw [hn, ho, mem_removeNum_iff]
      simp [or_comm, eq_comm]
    · exact .inl ⟨rfl, by simp [Frame.heldAt, hf, hs]⟩
  · exact h

/-- R90: a frame becomes HELD below the cap, or is dropped. -/
theorem Device.stores_makeHeld (f : FrameNo) (d : Device) : d.Stores (d.makeHeld f) := by
  unfold Device.makeHeld
  split
  · rename_i b k e m ph hs
    split_ifs with hcap
    · intro h
      refine Device.StoreBut.same ?_ (Device.same_testFlush _)
      set d' : Device := { d.setServed f (some { block := b, hold := k, state := .held e }) with
        tracker := { d.tracker with unwritten := removeNum e d.tracker.unwritten, held := insertAsc e d.tracker.held } } with hd'
      change d'.StoreBut none none
      have hf : (d'.frame f).served = some { block := b, hold := k, state := .held e } := Device.setServed_served d f _
      have hin : e ∈ (d.frame f).numbers := by cases m <;> simp [Frame.numbers, hs]
      refine h.change f (loose' := none) (Device.setServed_frames f _ d) rfl (fun p => by cases p <;> rfl) le_rfl ?_ ?_ ?_ ?_ ?_ (.inl rfl)
        ?_ ?_ ?_ ?_
      · exact .inl ⟨rfl, by simp [Frame.kind, hf, hs]⟩
      · exact .inl ⟨rfl, by simp [Frame.kind, hf, hs], by simp [Frame.kind, hf]⟩
      · intro sv hv
        rw [hf] at hv
        cases hv
        exact .inl ⟨_, hs, rfl⟩
      · exact fun _ => .inr hcap
      · exact fun _ => .inl (by simp [Frame.available, Frame.evictable, hf])
      · intro x hx
        simp only [Frame.numbers, hf, List.mem_singleton] at hx
        exact .inl (hx ▸ hin)
      · simp [Frame.numbers, hf]
      · rw [show (d'.frame f).unwritten = none by simp [Frame.unwritten, hf]]
        exact .remove (.inl (by simp [Frame.unwritten, hs]))
      · have hn : (d'.frame f).heldAt = some e := by simp [Frame.heldAt, hf]
        have ho : (d.frame f).heldAt = none := by simp [Frame.heldAt, hs]
        refine .inr fun x => mem_insertAsc_iff.trans ?_
        rw [hn, ho]
        simp [or_comm, eq_comm]
    · exact d.stores_releaseFrame _ _
  · exact .refl d

theorem Device.stores_discardHeldFrames (d : Device) : d.Stores d.discardHeldFrames :=
  Device.stores_foldl (fun d f => d.stores_releaseFrame f _) _ d

end Sys2Proof.Machine
end

