-- ==== Sys2Proof/Laws/Commit.lean ====
section
/-!
SUPPORT. What the operations of a commit do to the commit orders, and the try of a head as one step of a recursion that its fuel does
not bound (R24, R25): the lemmas a proof about `tryCommit` cites in place of `tryHead`. And that the entry to FAULTED commits nothing
(R158), said once for each operation it is made of.
-/

namespace Sys2Proof.Machine

/-- The commit order of a port. -/
abbrev Device.orderOf (p : Port) (d : Device) : List BufNo := (d.port p).commitOrder

theorem Device.order_setCommand (p q : Port) (t : Tag) (c : Option OpenCmd) (d : Device) :
    (d.setCommand q t c).orderOf p = d.orderOf p := by cases p <;> cases q <;> rfl

theorem Device.order_answer (p q : Port) (t : Tag) (st : Status) (moved : Nat) (failing : Option Nat) (pl : Payload) (d : Device) :
    (d.answer q t st moved failing pl).orderOf p = d.orderOf p := by
  have enq (u : PortUnit) (m : OutMsg) : (u.enqueue m).commitOrder = u.commitOrder := by
    simp only [PortUnit.enqueue]
    first | rfl | (split <;> rfl)
  cases p <;> cases q <;> first | rfl | exact enq _ _

theorem Device.order_setFlushList (p : Port) (l : List FlushEntry) (d : Device) : (d.setFlushList l).orderOf p = d.orderOf p := by
  cases p <;> rfl

theorem Device.order_answerFlush (p : Port) (e : FlushEntry) (st : Status) (d : Device) :
    (d.answerFlush e st).orderOf p = d.orderOf p := by
  unfold Device.answerFlush
  split
  · exact Device.order_answer ..
  · exact Device.order_answer ..
  · rfl

theorem order_flushLoop (n : Nat) (p : Port) (d : Device) : (flushLoop n d).orderOf p = d.orderOf p := by
  induction n generalizing d with
  | zero => rfl
  | succ n ih =>
    unfold flushLoop
    split
    · rfl
    · split
      · rfl
      · rw [ih, Device.order_answerFlush, Device.order_setFlushList]
      · rw [ih, Device.order_answerFlush, Device.order_setFlushList]

theorem Device.order_testFlush (p : Port) (d : Device) : d.testFlush.orderOf p = d.orderOf p := order_flushLoop _ p d

theorem Device.order_countCommit (p q : Port) (t : Tag) (n : Nat) (d : Device) : (d.countCommit q t n).orderOf p = d.orderOf p := by
  unfold Device.countCommit Device.joinFlush
  split
  · dsimp only
    split_ifs
    · rw [Device.order_testFlush, Device.order_setFlushList, Device.order_setCommand]
    · rw [Device.order_setFlushList, Device.order_setCommand]
    · exact Device.order_answer ..
    · exact Device.order_setCommand ..
  · rfl

theorem Device.order_tellAll (p : Port) (ws : List WindowRef) (st : WindowState) (d : Device) :
    (ws.foldl (fun d w => d.tellWindow w st) d).orderOf p = d.orderOf p := by
  induction ws generalizing d with
  | nil => rfl
  | cons w ws ih =>
    rw [List.foldl_cons, ih]
    unfold Device.tellWindow Device.onPort Device.setPort
    cases p <;> cases w.port <;> rfl

theorem Device.order_commitFrame (p : Port) (f : FrameNo) (block n : Nat) (bytes : Block) (d : Device) :
    (d.commitFrame f block n bytes).orderOf p = d.orderOf p := by
  have set (d : Device) : (d.reportSet n).orderOf p = d.orderOf p := by
    unfold Device.reportSet Device.report
    rw [Device.order_testFlush]
    cases p <;> rfl
  unfold Device.commitFrame
  dsimp only
  split
  · rw [set]
    cases p <;> rfl
  · split
    · rw [set]
      cases p <;> rfl
    · generalize withdrawFill _ _ = x
      obtain ⟨q, o⟩ := x
      dsimp only
      rw [set]
      show Device.orderOf p (List.foldl _ _ _) = _
      rw [Device.order_tellAll]
      cases p <;> rfl
    · cases p <;> rfl
    · cases p <;> rfl
    · cases p <;> rfl

/-- A commit takes its landing buffer out of the commit order of its port. -/
theorem Device.order_commitInto {p : Port} {b : BufNo} {f : FrameNo} {block index named : Nat} {t : Tag} {bytes : Block} {d : Device}
    (h : (d.port p).landing[b] = .occupied t index named bytes) : (d.commitInto p b f block).orderOf p = (d.orderOf p).erase b := by
  rw [Device.commitInto_of_occupied h, Device.order_countCommit]
  show ((Device.onPort _ _ _).port p).commitOrder = _
  rw [Device.onPort_port_same]
  show (Device.orderOf p _).erase b = _
  rw [Device.order_commitFrame]
  cases p <;> rfl

theorem Device.port_evict (p : Port) (f : FrameNo) (d : Device) : (d.evict f).port p = d.port p := by cases p <;> rfl

/-- Fuel beyond the length of the commit order is not used. -/
theorem tryHead_succ (n : Nat) (p : Port) (d : Device) (h : (d.orderOf p).length ≤ n) : tryHead (n + 1) p d = tryHead n p d := by
  induction n generalizing d with
  | zero =>
    have : (d.port p).commitOrder = [] := List.length_eq_zero_iff.mp (Nat.le_zero.mp h)
    simp [tryHead, this]
  | succ n ih =>
    rw [tryHead]
    conv_rhs => rw [tryHead]
    cases hc : (d.port p).commitOrder with
    | nil => rfl
    | cons b rest =>
      dsimp only
      split
      · rfl
      · cases hl : (d.port p).landing[b] with
        | occupied t index block bytes =>
          dsimp only
          have hlen : ((d.orderOf p).erase b).length ≤ n := by simpa [Device.orderOf, hc] using h
          cases d.frames.lookup block with
          | some f => exact ih _ (by rw [Device.order_commitInto hl]; exact hlen)
          | none =>
            cases d.allocChoice with
            | some f =>
              refine ih _ ?_
              rw [Device.order_commitInto (by rw [Device.port_evict]; exact hl), Device.orderOf, Device.port_evict]
              exact hlen
            | none => rfl
        | _ => rfl

/-- R25: the head of a commit order of at most nine is committed to a frame, and the next head tried; or joins the frame-waiter
queue. -/
theorem Device.tryCommit_of_head {p : Port} {b : BufNo} {rest : List BufNo} {t : Tag} {index block : Nat} {bytes : Block}
    {d : Device} (hc : d.orderOf p = b :: rest) (hr : rest.length ≤ 8) (hl : (d.port p).landing[b] = .occupied t index block bytes)
    (hw : ∀ e ∈ d.frames.waiterQueue, e.requester ≠ .landing p b) :
    d.tryCommit p = match d.frames.lookup block with
      | some f => (d.commitInto p b f block).tryCommit p
      | none => match d.allocChoice with
        | some f => ((d.evict f).commitInto p b f block).tryCommit p
        | none => d.joinWaiters { requester := .landing p b, block := block } := by
  have waits : (d.frames.waiterQueue.any fun e => decide (e.requester = .landing p b)) = false := by
    rw [List.any_eq_false]
    intro e he
    simp [hw e he]
  have hlen : ((d.orderOf p).erase b).length ≤ 8 := by simpa [hc] using hr
  rw [Device.tryCommit, commitFuel, tryHead, show (d.port p).commitOrder = b :: rest from hc]
  dsimp only
  rw [waits, if_neg (by simp), hl]
  dsimp only
  cases d.frames.lookup block with
  | some f => exact (tryHead_succ 8 p _ (by rw [Device.order_commitInto hl]; exact hlen)).symm
  | none =>
    cases d.allocChoice with
    | some f =>
      refine (tryHead_succ 8 p _ ?_).symm
      rw [Device.order_commitInto (by rw [Device.port_evict]; exact hl), Device.orderOf, Device.port_evict]
      exact hlen
    | none => rfl

/-! ### Operations that commit nothing -/

/-- What an operation keeps that commits nothing: the tracker but for its flush list, the frames' bytes, and the frame-waiter queue but
for entries that leave. -/
structure Device.Uncommitting (d d' : Device) : Prop where
  tracker : { d'.tracker with flushList := d.tracker.flushList } = d.tracker
  bytes : ∀ f, (d'.frame f).bytes = (d.frame f).bytes
  queue : ∀ e ∈ d'.frames.waiterQueue, e ∈ d.frames.waiterQueue

/-- No landing buffer waits for a frame. -/
def Device.NoBufferWaits (d : Device) : Prop := ∀ e ∈ d.frames.waiterQueue, ∀ p b, e.requester ≠ .landing p b

theorem Device.Uncommitting.refl (d : Device) : d.Uncommitting d := ⟨rfl, fun _ => rfl, fun _ h => h⟩

theorem Device.Uncommitting.trans {d₁ d₂ d₃ : Device} (h : d₁.Uncommitting d₂) (k : d₂.Uncommitting d₃) : d₁.Uncommitting d₃ :=
  ⟨by rw [← h.tracker, ← k.tracker], fun f => (k.bytes f).trans (h.bytes f), fun e he => h.queue e (k.queue e he)⟩

theorem Device.Uncommitting.noBufferWaits {d d' : Device} (h : d.Uncommitting d') (hn : d.NoBufferWaits) : d'.NoBufferWaits :=
  fun e he => hn e (h.queue e he)

theorem Device.uncommitting_foldl {α : Type} {f : Device → α → Device} (h : ∀ (d : Device) (a : α), d.NoBufferWaits → d.Uncommitting (f d a))
    (l : List α) {d : Device} (hn : d.NoBufferWaits) : d.Uncommitting (l.foldl f d) := by
  induction l generalizing d with
  | nil => exact .refl d
  | cons a l ih => exact (h d a hn).trans (ih ((h d a hn).noBufferWaits hn))

theorem Device.uncommitting_onPort (p : Port) (f : PortUnit → PortUnit) (d : Device) : d.Uncommitting (d.onPort p f) := by
  cases p <;> exact ⟨rfl, fun _ => rfl, fun _ h => h⟩

theorem Device.uncommitting_answer (p : Port) (t : Tag) (st : Status) (moved : Nat) (failing : Option Nat) (pl : Payload)
    (d : Device) : d.Uncommitting (d.answer p t st moved failing pl) := by
  cases p <;> exact ⟨rfl, fun _ => rfl, fun _ h => h⟩

theorem Device.uncommitting_setServed (f : FrameNo) (sv : Option Served) (d : Device) : d.Uncommitting (d.setServed f sv) := by
  refine ⟨rfl, fun g => ?_, fun _ h => h⟩
  by_cases h : g = f
  · subst h
    simp [Device.setServed, Device.setFrame, Device.frame]
  · rw [Device.setServed_frame_other h]

theorem Device.uncommitting_dropWaiters (leaves : WaiterEntry → Bool) (d : Device) : d.Uncommitting (d.dropWaiters leaves) :=
  ⟨rfl, fun _ => rfl, fun _ h => (List.mem_filter.mp h).1⟩

theorem Device.uncommitting_leaveWaiters (r : Requester) (d : Device) : d.Uncommitting (d.leaveWaiters r) :=
  ⟨rfl, fun _ => rfl, fun _ h => (List.mem_filter.mp h).1⟩

theorem Device.uncommitting_takeHold (f : FrameNo) (d : Device) : d.Uncommitting (d.takeHold f) := by
  unfold Device.takeHold
  split
  · dsimp only
    split
    · exact (d.uncommitting_setServed f _).trans ⟨rfl, fun _ => rfl, fun _ h => h⟩
    · exact d.uncommitting_setServed f _
  · exact .refl d

theorem Device.uncommitting_tellWindow (w : WindowRef) (st : WindowState) (d : Device) : d.Uncommitting (d.tellWindow w st) :=
  d.uncommitting_onPort _ _

theorem Device.uncommitting_giveFrame (f : FrameNo) (d : Device) {e : WaiterEntry} (h : ∀ p b, e.requester ≠ .landing p b) :
    d.Uncommitting (d.giveFrame f e) := by
  unfold Device.giveFrame
  split
  · dsimp only
    split
    · exact ((d.uncommitting_takeHold f).trans (Device.uncommitting_setServed _ _ _)).trans (Device.uncommitting_tellWindow _ _ _)
    · exact (d.uncommitting_takeHold f).trans (Device.uncommitting_tellWindow _ _ _)
  · rename_i p b hr
    exact (h p b hr).elim

theorem Device.uncommitting_giveIndexed (f : FrameNo) (block : Nat) {d : Device} (hn : d.NoBufferWaits) :
    d.Uncommitting (d.giveIndexed f block) := by
  unfold Device.giveIndexed
  have given : ∀ (l : List WaiterEntry) (d : Device), (∀ e ∈ l, ∀ p b, e.requester ≠ .landing p b) →
      d.Uncommitting (l.foldl (fun d e => d.giveFrame f e) d) := by
    intro l
    induction l with
    | nil => exact fun d _ => .refl d
    | cons e l ih =>
      exact fun d h => (d.uncommitting_giveFrame f (h e List.mem_cons_self)).trans (ih _ fun x hx => h x (List.mem_cons_of_mem _ hx))
  dsimp only
  exact Device.Uncommitting.trans (d₂ := d.setWaiterQueue (d.frames.waiterQueue.filter fun e => e.block != block))
    ⟨rfl, fun _ => rfl, fun _ h => (List.mem_filter.mp h).1⟩ (given _ _ fun e he => hn e (List.mem_filter.mp he).1)

theorem Device.uncommitting_evict (f : FrameNo) (d : Device) : d.Uncommitting (d.evict f) :=
  (d.uncommitting_setServed f none).trans ⟨rfl, fun _ => rfl, fun _ h => h⟩

theorem Device.uncommitting_fillFor (w : WindowRef) (block : Nat) (f : FrameNo) (d : Device) :
    d.Uncommitting (d.fillFor w block f) :=
  (d.uncommitting_setServed f _).trans
    (Device.Uncommitting.trans (d₂ := (d.setServed f _).requestFill _) ⟨rfl, fun _ => rfl, fun _ h => h⟩
      (Device.uncommitting_tellWindow _ _ _))

/-- R16: a hand-out commits nothing where no landing buffer waits. -/
theorem Device.uncommitting_handOut (f : FrameNo) {d : Device} (hn : d.NoBufferWaits) : d.Uncommitting (d.handOut f) := by
  unfold Device.handOut
  split
  · exact .refl d
  · rename_i e rest hq
    dsimp only
    split
    · rename_i w _
      have h : d.Uncommitting (((d.setWaiterQueue rest).evict f).fillFor w e.block f) := by
        refine Device.Uncommitting.trans (d₂ := d.setWaiterQueue rest) ⟨rfl, fun _ => rfl, fun x hx => ?_⟩
          ((Device.uncommitting_evict f _).trans (Device.uncommitting_fillFor w e.block f _))
        rw [hq]
        exact List.mem_cons_of_mem _ hx
      exact h.trans (Device.uncommitting_giveIndexed f e.block (h.noBufferWaits hn))
    · rename_i p b hr
      exact (hn e (by rw [hq]; exact List.mem_cons_self) p b hr).elim

theorem Device.uncommitting_dropHold (w : WindowRef) (f : FrameNo) {d : Device} (hn : d.NoBufferWaits) :
    d.Uncommitting (d.dropHold w f) := by
  unfold Device.dropHold
  split
  · rename_i sv hs
    dsimp only
    generalize some (Served.mk _ _ _) = x
    have h := d.uncommitting_setServed f x
    split
    · exact h.trans (Device.uncommitting_handOut f (h.noBufferWaits hn))
    · exact h
  · exact .refl d

theorem Device.uncommitting_departs (p : Port) (wb : WindowBlock) {d : Device} (hn : d.NoBufferWaits) :
    d.Uncommitting (d.departs p wb) := by
  unfold Device.departs
  dsimp only
  split
  · exact Device.uncommitting_dropHold _ _ hn
  · exact Device.uncommitting_dropHold _ _ hn
  · exact d.uncommitting_leaveWaiters _
  · exact .refl d
  · exact .refl d

theorem uncommitting_leaveWindow (leaves : WindowBlock → Bool) (n : Nat) (p : Port) {d : Device} (hn : d.NoBufferWaits) :
    d.Uncommitting (leaveWindow leaves n p d) := by
  induction n generalizing d with
  | zero => exact .refl d
  | succ n ih =>
    unfold leaveWindow
    split
    · rename_i wb _
      have h := d.uncommitting_onPort p fun u => { u with window := u.window.erase wb }
      have k := h.trans (Device.uncommitting_departs p wb (h.noBufferWaits hn))
      exact k.trans (ih (k.noBufferWaits hn))
    · exact .refl d

theorem Device.uncommitting_faultRead (p : Port) (t : Tag) {d : Device} (hn : d.NoBufferWaits) :
    d.Uncommitting (d.faultRead p t) := by
  unfold Device.faultRead
  split
  · exact ((uncommitting_leaveWindow _ _ p hn).trans (Device.uncommitting_answer ..)).trans (Device.uncommitting_onPort _ _ _)
  · exact .refl d

theorem Device.uncommitting_faultWrite (p : Port) (t : Tag) {d : Device} (hn : d.NoBufferWaits) :
    d.Uncommitting (d.faultWrite p t) := by
  unfold Device.faultWrite
  split
  · exact ((Device.uncommitting_foldl (fun (d : Device) _ _ => (d.uncommitting_leaveWaiters _).trans
      (Device.uncommitting_onPort _ _ _)) _ hn).trans (Device.uncommitting_onPort _ _ _)).trans (Device.uncommitting_answer ..)
  · exact .refl d

theorem Device.uncommitting_faultPort (p : Port) {d : Device} (hn : d.NoBufferWaits) : d.Uncommitting (d.faultPort p) := by
  have h := Device.uncommitting_foldl (fun (d : Device) t => Device.uncommitting_faultRead (d := d) p t) (d.port p).readList hn
  exact h.trans (Device.uncommitting_foldl (fun (d : Device) t => Device.uncommitting_faultWrite (d := d) p t) _ (h.noBufferWaits hn))

theorem Device.noBufferWaits_withdrawBuffers (d : Device) : d.withdrawBuffers.NoBufferWaits := fun e he p b hr => by
  have := (List.mem_filter.mp he).2
  cases p <;> simp [WaiterEntry.landingOf, hr] at this

theorem Device.uncommitting_faultFlush (e : FlushEntry) (d : Device) : d.Uncommitting (d.faultFlush e) := by
  unfold Device.faultFlush
  split
  · exact d.uncommitting_answer ..
  · exact d.uncommitting_answer ..
  · exact .refl d

theorem Device.uncommitting_answerReserve (p : Port) (t : Tag) (st : Status) (pl : Payload) (d : Device) :
    d.Uncommitting (d.answerReserve p t st pl) := by
  unfold Device.answerReserve
  split
  · exact d.uncommitting_answer ..
  · exact .refl d

theorem Device.uncommitting_faultEntry (id : ResId) (d : Device) : d.Uncommitting (d.faultEntry id) := by
  unfold Device.faultEntry
  split
  · exact Device.Uncommitting.trans (d₂ := d.setEntry id none) ⟨rfl, fun _ => rfl, fun _ h => h⟩
      (Device.uncommitting_answerReserve ..)
  · exact .refl d

/-- R158: the entry to FAULTED commits nothing, and leaves no landing buffer waiting. -/
theorem Device.uncommitting_faultAnswers (d : Device) : d.Uncommitting d.faultAnswers ∧ d.faultAnswers.NoBufferWaits := by
  have hn := d.noBufferWaits_withdrawBuffers
  have ha := Device.uncommitting_faultPort .a hn
  have ports := ha.trans (Device.uncommitting_faultPort .b (ha.noBufferWaits hn))
  unfold Device.faultAnswers Device.faultPending
  generalize (d.withdrawBuffers.faultPort .a).faultPort .b = d₁ at ports
  have flush : d₁.Uncommitting (d₁.tracker.flushList.foldl (fun d e => d.faultFlush e) (d₁.setFlushList [])) :=
    Device.Uncommitting.trans (d₂ := d₁.setFlushList []) ⟨rfl, fun _ => rfl, fun _ h => h⟩
      (Device.uncommitting_foldl (fun d e _ => d.uncommitting_faultFlush e) _ (ports.noBufferWaits hn))
  have h := ports.trans flush
  have k := h.trans (Device.uncommitting_foldl (fun d id _ => d.uncommitting_faultEntry id) (List.finRange 16) (h.noBufferWaits hn))
  exact ⟨(d.uncommitting_dropWaiters _).trans k, k.noBufferWaits hn⟩

end Sys2Proof.Machine
end

