-- ==== Sys2Proof/Laws/Session.lean ====
section
/-!
SUPPORT. What the opening and the end of sessions do to the two port units, and that they move nothing else but what an inner
operation moves.
-/

namespace Sys2Proof.Machine

/-! ### Everything but the ports -/

/-- What an operation that changes sessions keeps of the rest of the part. -/
structure Device.Rest (d d' : Device) : Prop where
  reset : d'.resetAsserted = d.resetAsserted
  mode : d'.mode = d.mode
  mgmt : d.mgmt.GrowsTo d'.mgmt
  channel : d.channel.Sound → d'.channel.Sound
  remap : d.remap.Sound → d'.remap.Sound
  reservations : d.reservations.Sound → d'.reservations.Sound
  tracker : d.tracker.Sound → d'.tracker.Sound
  channelState : d'.channel.state = d.channel.state
  capacity : d'.channel.capacity = d.channel.capacity

theorem Device.Inner.rest {d d' : Device} (h : d.Inner d') : d.Rest d' :=
  ⟨h.reset, h.mode, h.mgmt, h.channel, h.remap, h.reservations, h.tracker, h.channelState, h.capacity⟩

theorem Device.Rest.refl (d : Device) : d.Rest d := (Device.Inner.refl d).rest

theorem Device.Rest.trans {d₁ d₂ d₃ : Device} (h : d₁.Rest d₂) (h' : d₂.Rest d₃) : d₁.Rest d₃ :=
  ⟨h'.reset.trans h.reset, h'.mode.trans h.mode, h.mgmt.trans h'.mgmt, fun s => h'.channel (h.channel s),
    fun s => h'.remap (h.remap s), fun s => h'.reservations (h.reservations s), fun s => h'.tracker (h.tracker s),
    h'.channelState.trans h.channelState, h'.capacity.trans h.capacity⟩

theorem Device.rest_setPort (p : Port) (u : PortUnit) (d : Device) : d.Rest (d.setPort p u) where
  reset := by simp
  mode := by simp
  mgmt := by simpa using Mgmt.GrowsTo.refl d.mgmt
  channel := by simp
  remap := by simp
  reservations := by simp
  tracker := by simp
  channelState := by simp
  capacity := by simp

theorem Device.rest_onPort (p : Port) (f : PortUnit → PortUnit) (d : Device) : d.Rest (d.onPort p f) := d.rest_setPort p _

theorem Device.rest_foldl {α : Type} {f : Device → α → Device} (h : ∀ (d : Device) x, d.Rest (f d x)) (l : List α)
    (d : Device) : d.Rest (l.foldl f d) := by
  induction l generalizing d with
  | nil => exact .refl d
  | cons x xs ih => exact (h d x).trans (ih _)

theorem Device.port_onPort (p q : Port) (f : PortUnit → PortUnit) (d : Device) :
    (d.onPort p f).port q = if q = p then f (d.port q) else d.port q := by
  obtain rfl | rfl := Port.eq_or_other p q
  · simp
  · simp [Port.other_ne]

/-! ### Session open -/

theorem PortUnit.openWith_fields (cap : Nat) (lock : Option LockReason) (partner : Bool) (u : PortUnit) :
    let u' := u.openWith cap lock partner
    u'.session = .attached ∧ u'.lastSession = nextSession u.lastSession ∧ u'.linkUp = u.linkUp
      ∧ u'.readCredits = u.readCredits := by
  simp only [PortUnit.openWith, PortUnit.enqueue]
  split <;> exact ⟨rfl, rfl, rfl, rfl⟩

theorem nextSession_le {n : Nat} (h : n ≤ 65535) : nextSession n ≤ 65535 := by
  unfold nextSession
  split <;> omega

/-- A port whose link is up and whose session opens is sound. -/
theorem PortUnit.sound_openWith {u : PortUnit} (h : u.Sound) (hd : u.session ≠ .down) (cap : Nat)
    (lock : Option LockReason) (partner : Bool) : (u.openWith cap lock partner).Sound := by
  obtain ⟨hs, hl, hu, hc⟩ := u.openWith_fields cap lock partner
  refine ⟨hl ▸ nextSession_le h.1, hc ▸ h.2.1, ?_, fun hn => (hn hs).elim⟩
  rw [hs, hu]
  exact ⟨fun e => by simp at e, fun e => (hd (h.2.2.1.mpr e)).elim⟩

theorem PortUnit.Keeps.sound {u u' : PortUnit} (k : u.Keeps u') (h : u.Sound) : u'.Sound := by
  refine ⟨k.lastSession ▸ h.1, k.credits.trans h.2.1, by rw [k.session, k.linkUp]; exact h.2.2.1, fun hn => ?_⟩
  rw [k.session] at hn
  obtain ⟨hc, hw, hb, hr⟩ := h.2.2.2 hn
  refine ⟨k.commands hc, ?_, k.buffers hc hb, ?_⟩
  · have := k.window hc
    rw [hw] at this
    exact List.length_eq_zero_iff.mp (Nat.le_zero.mp this)
  · have := k.credits
    omega

/-- After the WELCOME of a port that opens, only notices follow. -/
theorem Device.inner_openOne (before : Device) (ports : List Port) (d : Device) (p : Port) :
    (d.onPort p (PortUnit.openWith d.channel.logicalCapacity d.remap.lock
      ((before.port p.other).attached || ports.contains p.other))).Inner (Device.openOne before ports d p) := by
  unfold Device.openOne
  dsimp only
  generalize d.onPort p _ = e
  have h : e.Inner (if e.mode.mode = .faulted then e.notify p .mediaFault else e) := by
    split
    · exact e.inner_notify _ _
    · exact .refl e
  refine h.trans ?_
  generalize (if e.mode.mode = .faulted then e.notify p .mediaFault else e) = g
  split
  · exact g.inner_notify _ _
  · exact .refl g

theorem Device.rest_openOne (before : Device) (ports : List Port) (d : Device) (p : Port) :
    d.Rest (Device.openOne before ports d p) :=
  (d.rest_onPort p _).trans (Device.inner_openOne before ports d p).rest

theorem Device.rest_openSessions (ports : List Port) (d : Device) : d.Rest (d.openSessions ports) :=
  Device.rest_foldl (Device.rest_openOne d ports) ports d

/-- One port opens: it is ATTACHED and sound, the other keeps its session and stays sound. -/
theorem Device.openOne_ports {before : Device} {ports : List Port} {d : Device} {p : Port} (hs : ∀ q, (d.port q).Sound)
    (hp : (d.port p).session ≠ .down) (q : Port) :
    ((Device.openOne before ports d p).port q).Sound ∧
      ((Device.openOne before ports d p).port q).session = if q = p then .attached else (d.port q).session := by
  have hk := (Device.inner_openOne before ports d p).ports q
  rw [Device.port_onPort] at hk
  split_ifs at hk with hq
  · subst hq
    exact ⟨hk.sound (PortUnit.sound_openWith (hs q) hp _ _ _),
      by rw [hk.session, if_pos rfl]; exact (PortUnit.openWith_fields _ _ _ _).1⟩
  · exact ⟨hk.sound (hs q), by rw [hk.session, if_neg hq]⟩

theorem Device.openFold_ports (before : Device) (ports l : List Port) {d : Device} (hs : ∀ q, (d.port q).Sound)
    (hd : ∀ p ∈ l, (d.port p).session ≠ .down) (q : Port) :
    ((l.foldl (Device.openOne before ports) d).port q).Sound ∧
      ((l.foldl (Device.openOne before ports) d).port q).session =
        if q ∈ l then .attached else (d.port q).session := by
  induction l generalizing d with
  | nil => exact ⟨hs q, by simp⟩
  | cons p l ih =>
    have h := Device.openOne_ports (before := before) (ports := ports) hs (hd p (by simp))
    obtain ⟨h₁, h₂⟩ := ih (fun r => (h r).1) fun r hr => by
      rw [(h r).2]
      split_ifs
      · simp
      · exact hd r (List.mem_cons_of_mem _ hr)
    refine ⟨h₁, ?_⟩
    rw [List.foldl_cons, h₂, (h q).2]
    by_cases hq : q = p <;> simp [hq]

/-- R124: the named ports are ATTACHED, the others keep their sessions; all stay sound. -/
theorem Device.openSessions_ports {ports : List Port} {d : Device} (hs : ∀ q, (d.port q).Sound)
    (hd : ∀ p ∈ ports, (d.port p).session ≠ .down) (q : Port) :
    ((d.openSessions ports).port q).Sound ∧
      ((d.openSessions ports).port q).session = if q ∈ ports then .attached else (d.port q).session :=
  Device.openFold_ports d ports ports hs hd q

/-! ### Session end -/

theorem PortUnit.keeps_dropCommands_other (u : PortUnit) :
    u.dropCommands.NoCommands ∧ u.dropCommands.session = u.session ∧ u.dropCommands.lastSession = u.lastSession
      ∧ u.dropCommands.linkUp = u.linkUp ∧ u.dropCommands.readCredits = u.readCredits := by
  simp [PortUnit.dropCommands, PortUnit.NoCommands]

/-- A fold over the ports that changes one port at a time, on a port it does not name. -/
theorem Device.eachPort_onPort_not_mem {ports : List Port} {f : PortUnit → PortUnit} {q : Port} (hq : q ∉ ports)
    (d : Device) : (d.eachPort ports fun p => Device.onPort p f).port q = d.port q := by
  unfold Device.eachPort
  induction ports generalizing d with
  | nil => rfl
  | cons p l ih =>
    rw [List.foldl_cons, ih (fun h => hq (List.mem_cons_of_mem _ h)), Device.port_onPort, if_neg]
    exact fun e => hq (by simp [e])

/-- On a port it names once: the change, once. -/
theorem Device.eachPort_onPort_once {ports : List Port} {f : PortUnit → PortUnit} {q : Port} (hn : ports.Nodup)
    (hq : q ∈ ports) (d : Device) : (d.eachPort ports fun p => Device.onPort p f).port q = f (d.port q) := by
  induction ports generalizing d with
  | nil => cases hq
  | cons p l ih =>
    obtain ⟨hp, hl⟩ := List.nodup_cons.mp hn
    by_cases hqp : q = p
    · subst hqp
      exact (Device.eachPort_onPort_not_mem hp _).trans (by simp)
    · refine (ih hl (List.mem_of_ne_of_mem hqp hq) _).trans ?_
      rw [Device.port_onPort, if_neg hqp]

theorem Device.inner_eachPort {ports : List Port} {f : Port → Device → Device} (h : ∀ p (d : Device), d.Inner (f p d))
    (d : Device) : d.Inner (d.eachPort ports f) := Device.inner_foldl (fun d p => h p d) ports d

theorem Device.rest_eachPort {ports : List Port} {f : Port → Device → Device} (h : ∀ p (d : Device), d.Rest (f p d))
    (d : Device) : d.Rest (d.eachPort ports f) := Device.rest_foldl (fun d p => h p d) ports d

/-- R145: every window block leaves: with no command open none enters, and the window is empty in the end. -/
theorem leaveWindow_all {n : Nat} {p : Port} {d : Device} (hc : (d.port p).NoCommands) (hn : (d.port p).window.length ≤ n) :
    ((leaveWindow (fun _ => true) n p d).port p).window = [] := by
  induction n generalizing d with
  | zero => exact List.length_eq_zero_iff.mp (Nat.le_zero.mp hn)
  | succ n ih =>
    unfold leaveWindow
    cases hw : (d.port p).window with
    | nil => simp [hw]
    | cons wb ws =>
      simp only [List.find?_cons_of_pos]
      have hk := ((Device.inner_onPort (PortUnit.keeps_windowErase wb)).trans
        (Device.inner_departs p wb (d.onPort p fun u => { u with window := u.window.erase wb }))).ports p
      refine ih (hk.commands hc) ?_
      have hd := ((Device.inner_departs p wb (d.onPort p fun u => { u with window := u.window.erase wb })).ports p)
      have hc' : ((d.onPort p fun u => { u with window := u.window.erase wb }).port p).NoCommands := by
        simpa [PortUnit.NoCommands] using hc
      refine (hd.window hc').trans ?_
      simp only [Device.onPort_port_same, hw, List.erase_cons_head]
      rw [hw] at hn
      exact Nat.le_of_succ_le_succ hn

/-- Every window block of every port named leaves. -/
theorem Device.eachPort_leaveWindowAll {ports : List Port} {q : Port} {d : Device} (hc : (d.port q).NoCommands)
    (hq : q ∈ ports ∨ (d.port q).window = []) : ((d.eachPort ports Device.leaveWindowAll).port q).window = [] := by
  unfold Device.eachPort
  induction ports generalizing d with
  | nil => simpa using hq
  | cons p l ih =>
    rw [List.foldl_cons]
    have hk := (Device.inner_leaveWindowAll p d).ports q
    refine ih (hk.commands hc) ?_
    by_cases hp : q = p
    · subst hp
      exact .inr (leaveWindow_all hc le_rfl)
    · rcases hq with hq | hq
      · exact .inl (List.mem_of_ne_of_mem hp hq)
      · have := hk.window hc
        rw [hq] at this
        exact .inr (List.length_eq_zero_iff.mp (Nat.le_zero.mp this))

/-- The port's buffers are FREE, its commit order empty and its read credits 0. -/
def PortUnit.Cleared (u : PortUnit) : Prop := u.NoBuffers ∧ u.readCredits = 0

theorem Device.eachPort_clearBuffers {ports : List Port} {q : Port} {d : Device} (h : q ∈ ports ∨ (d.port q).Cleared) :
    ((d.eachPort ports Device.clearBuffers).port q).Cleared := by
  unfold Device.eachPort
  induction ports generalizing d with
  | nil => simpa using h
  | cons p l ih =>
    rw [List.foldl_cons]
    refine ih ?_
    have hp : (Device.clearBuffers p d).port q = if q = p then (d.port q).dropBuffers else d.port q := by
      unfold Device.clearBuffers
      rw [Device.port_onPort]
      cases q <;> rfl
    rw [hp]
    by_cases hq : q = p
    · rw [if_pos hq]
      exact .inr ⟨⟨rfl, rfl⟩, rfl⟩
    · rw [if_neg hq]
      exact h.imp (List.mem_of_ne_of_mem hq) id

/-- What `clearBuffers` keeps of every port. -/
theorem Device.rest_clearBuffers (p : Port) (d : Device) : d.Rest (Device.clearBuffers p d) :=
  (d.inner_dropWaiters _).rest.trans (Device.rest_onPort _ _ _)

theorem PortUnit.keeps_dropBuffers (u : PortUnit) : u.Keeps u.dropBuffers :=
  ⟨rfl, rfl, rfl, Nat.zero_le _, id, fun _ => le_rfl, fun _ _ => ⟨rfl, rfl⟩, fun _ _ => rfl, List.prefix_rfl⟩

theorem Device.inner_clearBuffers (p : Port) (d : Device) : d.Inner (Device.clearBuffers p d) :=
  (d.inner_dropWaiters _).trans (Device.inner_onPort PortUnit.keeps_dropBuffers)

/-- The session state a session's end leaves (R136 step 1). -/
def leftFor (linkLost : Bool) : SessionState := if linkLost then .down else .linked

/-- R136 step 1 on a port unit. -/
theorem PortUnit.leave_fields (linkLost : Bool) (bye : Option ByeReason) (u : PortUnit) :
    let u' := u.leave linkLost bye
    u'.session = leftFor linkLost ∧ u'.lastSession = u.lastSession ∧ u'.linkUp = (!linkLost && u.linkUp)
      ∧ u'.readCredits = u.readCredits ∧ u'.commands = u.commands ∧ u'.readList = u.readList
      ∧ u'.writeList = u.writeList ∧ u'.window = u.window ∧ u'.landing = u.landing ∧ u'.commitOrder = u.commitOrder := by
  unfold PortUnit.leave leftFor
  cases linkLost
  · cases bye with
    | none => simp
    | some r => by_cases h : u.outbound.length ≤ Config.outboundCap <;> simp [PortUnit.enqueue, h]
  · simp

/-- What R136 leaves of a port it ends: the state after step 1, and nothing of the session. -/
structure PortUnit.Ended (linkLost : Bool) (bye : Option ByeReason) (u u' : PortUnit) : Prop where
  session : u'.session = leftFor linkLost
  lastSession : u'.lastSession = u.lastSession
  linkUp : u'.linkUp = (!linkLost && u.linkUp)
  outbound : u'.outbound = (u.leave linkLost bye).outbound
  idle : u'.Idle

theorem Device.rest_clearPorts (ports : List Port) (linkLost : Bool) (bye : Option ByeReason) (d : Device) :
    d.Rest (d.clearPorts ports linkLost bye) := by
  unfold Device.clearPorts
  dsimp only
  refine Device.Rest.trans ?_ (Device.rest_eachPort Device.rest_clearBuffers _)
  refine Device.Rest.trans ?_ (Device.inner_eachPort Device.inner_leaveWindowAll _).rest
  have h := (Device.rest_eachPort (ports := ports) (fun p d => d.rest_onPort p (PortUnit.leave linkLost bye)) d).trans
    (Device.rest_eachPort (ports := ports) (fun p d => d.rest_onPort p PortUnit.dropCommands) _)
  refine h.trans ?_
  split
  · exact .refl _
  · exact (Device.inner_dropWaiters _ _).rest

/-- R136 steps 1 to 3 on a port that is not named: an inner change. -/
theorem Device.clearPorts_not_mem {ports : List Port} {q : Port} (hq : q ∉ ports) (linkLost : Bool)
    (bye : Option ByeReason) (d : Device) : (d.port q).Keeps ((d.clearPorts ports linkLost bye).port q) := by
  unfold Device.clearPorts
  dsimp only
  have h₁ := Device.eachPort_onPort_not_mem (f := PortUnit.leave linkLost bye) hq d
  have h₂ := Device.eachPort_onPort_not_mem (f := PortUnit.dropCommands) hq
    (d.eachPort ports fun p => Device.onPort p (PortUnit.leave linkLost bye))
  rw [h₁] at h₂
  generalize (Device.eachPort ports (fun p => Device.onPort p PortUnit.dropCommands) _) = e at h₂ ⊢
  have hi : e.Inner (if ports.length = 1 then e else e.dropWaiters fun x => ports.any fun p => x.ofPort p) := by
    split
    · exact .refl e
    · exact e.inner_dropWaiters _
  rw [← h₂]
  exact ((hi.trans (Device.inner_eachPort Device.inner_leaveWindowAll _)).trans
    (Device.inner_eachPort Device.inner_clearBuffers _)).ports q

/-- R136 steps 1 to 3 on a port that is named. -/
theorem Device.clearPorts_mem {ports : List Port} {q : Port} (hn : ports.Nodup) (hq : q ∈ ports) (linkLost : Bool)
    (bye : Option ByeReason) (d : Device) :
    (d.port q).Ended linkLost bye ((d.clearPorts ports linkLost bye).port q) := by
  unfold Device.clearPorts
  dsimp only
  set d₁ := d.eachPort ports fun p => Device.onPort p (PortUnit.leave linkLost bye) with hd₁
  set d₂ := d₁.eachPort ports fun p => Device.onPort p PortUnit.dropCommands with hd₂
  set d₃ := if ports.length = 1 then d₂ else d₂.dropWaiters fun x => ports.any fun p => x.ofPort p with hd₃
  have u₂ : d₂.port q = ((d.port q).leave linkLost bye).dropCommands := by
    rw [hd₂, Device.eachPort_onPort_once hn hq, hd₁, Device.eachPort_onPort_once hn hq]
  have c₂ : (d₂.port q).NoCommands := u₂ ▸ (PortUnit.keeps_dropCommands_other _).1
  have s₂ : (d₂.port q).session = leftFor linkLost := u₂ ▸ ((d.port q).leave_fields linkLost bye).1
  have i₃ : d₂.Inner d₃ := by
    rw [hd₃]
    split
    · exact .refl d₂
    · exact d₂.inner_dropWaiters _
  have c₃ := (i₃.ports q).commands c₂
  have w₄ : ((d₃.eachPort ports Device.leaveWindowAll).port q).window = [] :=
    Device.eachPort_leaveWindowAll c₃ (.inl hq)
  have i₄ : d₂.Inner (d₃.eachPort ports Device.leaveWindowAll) :=
    i₃.trans (Device.inner_eachPort Device.inner_leaveWindowAll _)
  set d₄ := d₃.eachPort ports Device.leaveWindowAll
  have c₄ := (i₄.ports q).commands c₂
  have i₅ : d₄.Inner (d₄.eachPort ports Device.clearBuffers) := Device.inner_eachPort Device.inner_clearBuffers _
  have b₅ := Device.eachPort_clearBuffers (d := d₄) (.inl hq)
  have k₅ := (i₄.trans i₅).ports q
  have na : (d₂.port q).session ≠ .attached := by
    rw [s₂]
    cases linkLost <;> simp [leftFor]
  refine ⟨k₅.session.trans s₂, ?_, ?_, ?_, (i₅.ports q).commands c₄, ?_, b₅.1, b₅.2⟩
  · rw [k₅.lastSession, u₂]
    exact ((d.port q).leave_fields linkLost bye).2.1
  · rw [k₅.linkUp, u₂]
    exact ((d.port q).leave_fields linkLost bye).2.2.1
  · rw [k₅.outbound c₂ na, u₂]
    rfl
  · have := (i₅.ports q).window c₄
    rw [w₄] at this
    exact List.length_eq_zero_iff.mp (Nat.le_zero.mp this)

theorem Device.inner_tellPartner (ports : List Port) (p : Port) (d : Device) : d.Inner (Device.tellPartner ports p d) := by
  unfold Device.tellPartner
  split
  · exact .refl d
  · exact d.inner_notify _ _

/-- R136 steps 4 to 7 are inner. -/
theorem Device.inner_endTail (ports : List Port) (linkLost : Bool) (bye : Option ByeReason) (d : Device) :
    (d.clearPorts ports linkLost bye).Inner (d.endSessions ports linkLost bye) := by
  unfold Device.endSessions
  dsimp only
  refine Device.Inner.trans ?_ (Device.inner_eachPort (fun p d => d.inner_raise _) _)
  refine Device.Inner.trans ?_ (Device.inner_eachPort (Device.inner_tellPartner ports) _)
  refine Device.Inner.trans ?_ (Device.inner_eachPort (fun p d => d.inner_testPending p.other) _)
  exact (Device.inner_dropFlush _ _).trans (Device.inner_freeHeldBy ports _)

theorem PortUnit.Ended.keeps {linkLost : Bool} {bye : Option ByeReason} {u v w : PortUnit} (h : u.Ended linkLost bye v)
    (k : v.Keeps w) : u.Ended linkLost bye w := by
  obtain ⟨hc, hw, hb, hr⟩ := h.idle
  have na : v.session ≠ .attached := by
    rw [h.session]
    cases linkLost <;> simp [leftFor]
  refine ⟨k.session.trans h.session, k.lastSession.trans h.lastSession, k.linkUp.trans h.linkUp,
    (k.outbound hc na).trans h.outbound, k.commands hc, ?_, k.buffers hc hb, Nat.le_zero.mp (hr ▸ k.credits)⟩
  have := k.window hc
  rw [hw] at this
  exact List.length_eq_zero_iff.mp (Nat.le_zero.mp this)

/-- R136: a port whose session ends is left idle, in LINKED or, on link loss, in DOWN. -/
theorem Device.endSessions_mem {ports : List Port} {q : Port} (hn : ports.Nodup) (hq : q ∈ ports) (linkLost : Bool)
    (bye : Option ByeReason) (d : Device) :
    (d.port q).Ended linkLost bye ((d.endSessions ports linkLost bye).port q) :=
  (Device.clearPorts_mem hn hq linkLost bye d).keeps ((Device.inner_endTail ports linkLost bye d).ports q)

/-- R136: a port whose session does not end sees an inner change. -/
theorem Device.endSessions_not_mem {ports : List Port} {q : Port} (hq : q ∉ ports) (linkLost : Bool)
    (bye : Option ByeReason) (d : Device) : (d.port q).Keeps ((d.endSessions ports linkLost bye).port q) :=
  (Device.clearPorts_not_mem hq linkLost bye d).trans ((Device.inner_endTail ports linkLost bye d).ports q)

/-- R136 moves nothing outside the ports but what an inner operation moves. -/
theorem Device.rest_endSessions (ports : List Port) (linkLost : Bool) (bye : Option ByeReason) (d : Device) :
    d.Rest (d.endSessions ports linkLost bye) :=
  (d.rest_clearPorts ports linkLost bye).trans (Device.inner_endTail ports linkLost bye d).rest

theorem PortUnit.Ended.sound {linkLost : Bool} {bye : Option ByeReason} {u v : PortUnit} (h : u.Ended linkLost bye v)
    (hu : u.Sound) (hd : u.session ≠ .down) : v.Sound := by
  refine ⟨h.lastSession ▸ hu.1, ?_, ?_, fun _ => h.idle⟩
  · rw [h.idle.2.2.2]; exact Nat.zero_le _
  · have hl : u.linkUp = true := by
      cases hx : u.linkUp with
      | true => rfl
      | false => exact (hd (hu.2.2.1.mpr hx)).elim
    rw [h.session, h.linkUp, hl]
    cases linkLost <;> simp [leftFor]

end Sys2Proof.Machine
end

