-- ==== Sys2Proof/Laws/Outer.lean ====
section
/-!
SUPPORT. The events that change sessions or the mode keep the part sound, and move the management port only by raising flags.
`Device.Outer d d'` says so; each operation below has its one lemma.
-/

namespace Sys2Proof.Machine

/-- What every event but a reset and the management port's own keeps. -/
structure Device.Outer (d d' : Device) : Prop where
  reset : d'.resetAsserted = d.resetAsserted
  mgmt : d.mgmt.GrowsTo d'.mgmt
  sound : d.Sound → d'.Sound

theorem Device.Outer.refl (d : Device) : d.Outer d := ⟨rfl, .refl _, id⟩

theorem Device.Outer.trans {d₁ d₂ d₃ : Device} (h : d₁.Outer d₂) (h' : d₂.Outer d₃) : d₁.Outer d₃ :=
  ⟨h'.reset.trans h.reset, h.mgmt.trans h'.mgmt, fun s => h'.sound (h.sound s)⟩

theorem Device.Inner.outer {d d' : Device} (h : d.Inner d') : d.Outer d' := by
  refine ⟨h.reset, h.mgmt, fun ⟨hp, hm, hc, hr, hv, ht⟩ => ⟨fun p => ?_, ?_, h.channel hc, h.remap hr, h.reservations hv,
    h.tracker ht⟩⟩
  · rw [h.mode, (h.ports p).session]
    exact ⟨(h.ports p).sound (hp p).1, (hp p).2⟩
  · rw [h.mode]; exact hm

theorem Device.outer_channel {d : Device} {c : Channel} (h : d.channel.Sound → c.Sound) : d.Outer { d with channel := c } := by
  refine ⟨rfl, .refl _, fun ⟨hp, hm, hc, hr⟩ => ⟨fun p => ?_, hm, h hc, hr⟩⟩
  have := hp p
  cases p <;> exact this

/-- A change of one port that keeps it sound, in a state the mode allows. -/
theorem Device.outer_setPort {p : Port} {u : PortUnit} {d : Device}
    (h : (d.port p).Sound → (d.port p).session.allowedIn d.mode.mode → u.Sound ∧ u.session.allowedIn d.mode.mode) :
    d.Outer (d.setPort p u) := by
  have hr := d.rest_setPort p u
  refine ⟨hr.reset, hr.mgmt, fun ⟨hp, hm, hc, hv, hz, ht⟩ => ⟨fun q => ?_, ?_, hr.channel hc, hr.remap hv,
    hr.reservations hz, hr.tracker ht⟩⟩
  · rw [hr.mode]
    obtain rfl | rfl := Port.eq_or_other p q
    · simpa using h (hp q).1 (hp q).2
    · simpa using hp p.other
  · rw [hr.mode]; exact hm

/-- A change of an ATTACHED port that keeps its session, its link and its numbers in range. -/
theorem Device.outer_attachedPort {p : Port} {u : PortUnit} {d : Device} (ha : (d.port p).session = .attached)
    (hs : u.session = .attached) (hl : u.lastSession = (d.port p).lastSession) (hu : u.linkUp = (d.port p).linkUp)
    (hc : (d.port p).Sound → u.readCredits ≤ Config.readCreditCap) : d.Outer (d.setPort p u) := by
  refine Device.outer_setPort fun h hal => ⟨⟨hl ▸ h.1, hc h, ?_, fun hn => (hn hs).elim⟩, ?_⟩
  · rw [hs, hu, ← ha]
    exact h.2.2.1
  · rw [hs, ← ha]
    exact hal

/-! ### Sessions -/

theorem Device.outer_openSessions {ports : List Port} {d : Device} (hm : d.mode.mode = .serving ∨ d.mode.mode = .faulted)
    (hd : ∀ p ∈ ports, (d.port p).session ≠ .down) : d.Outer (d.openSessions ports) := by
  have hr := d.rest_openSessions ports
  refine ⟨hr.reset, hr.mgmt, fun ⟨hp, hmo, hc, hv, hz, ht⟩ => ⟨fun q => ?_, ?_, hr.channel hc, hr.remap hv,
    hr.reservations hz, hr.tracker ht⟩⟩
  · obtain ⟨h₁, h₂⟩ := Device.openSessions_ports (fun q => (hp q).1) hd q
    refine ⟨h₁, ?_⟩
    rw [h₂, hr.mode]
    split_ifs
    · exact hm
    · exact (hp q).2
  · rw [hr.mode]; exact hmo

theorem allowedIn_leftFor (linkLost : Bool) (m : DeviceMode) : (leftFor linkLost).allowedIn m := by
  cases linkLost <;> trivial

theorem Device.outer_endSessions {ports : List Port} {d : Device} (hn : ports.Nodup)
    (hd : ∀ p ∈ ports, (d.port p).session ≠ .down) (linkLost : Bool) (bye : Option ByeReason) : d.Outer (d.endSessions ports linkLost bye) := by
  have hr := d.rest_endSessions ports linkLost bye
  refine ⟨hr.reset, hr.mgmt, fun ⟨hp, hmo, hc, hv, hz, ht⟩ => ⟨fun q => ?_, ?_, hr.channel hc, hr.remap hv,
    hr.reservations hz, hr.tracker ht⟩⟩
  · by_cases hq : q ∈ ports
    · have he := Device.endSessions_mem hn hq linkLost bye d
      refine ⟨he.sound (hp q).1 (hd q hq), ?_⟩
      rw [he.session]
      exact allowedIn_leftFor _ _
    · have hk := Device.endSessions_not_mem hq linkLost bye d
      refine ⟨hk.sound (hp q).1, ?_⟩
      rw [hk.session, hr.mode]
      exact (hp q).2
  · rw [hr.mode]; exact hmo

/-- A port without a session leaves for LINKED or DOWN. -/
theorem Device.outer_leave {p : Port} {d : Device} (ha : (d.port p).session ≠ .attached) (hn : (d.port p).session ≠ .down)
    (linkLost : Bool) (bye : Option ByeReason) : d.Outer (d.onPort p (PortUnit.leave linkLost bye)) := by
  refine Device.outer_setPort fun h _ => ?_
  obtain ⟨h₁, h₂, h₃, h₄, h₅, h₆, h₇, h₈, h₉, h₀⟩ := (d.port p).leave_fields linkLost bye
  obtain ⟨hc, hw, hb, hr⟩ := h.2.2.2 ha
  have hi : ((d.port p).leave linkLost bye).Idle := by
    refine ⟨⟨h₅ ▸ hc.1, h₆ ▸ hc.2.1, h₇ ▸ hc.2.2⟩, h₈ ▸ hw, ⟨h₉ ▸ hb.1, h₀ ▸ hb.2⟩, h₄ ▸ hr⟩
  refine ⟨PortUnit.Ended.sound ⟨h₁, h₂, h₃, rfl, hi⟩ h hn, ?_⟩
  rw [h₁]
  exact allowedIn_leftFor _ _

theorem Device.outer_linkLoss (p : Port) (d : Device) : d.Outer (d.linkLoss p) := by
  unfold Device.linkLoss
  split
  · rename_i h
    exact Device.outer_endSessions (by simp) (by simp [h]) _ _
  · rename_i h
    refine Device.outer_setPort fun hs _ => ⟨⟨hs.1, hs.2.1, ?_, hs.2.2.2⟩, ?_⟩
    · simp [h]
    · simp only [h]
      trivial
  · rename_i h₁ h₂
    exact Device.outer_leave h₁ h₂ _ _

theorem Device.outer_violation (p : Port) (d : Device) : d.Outer (d.violation p) := by
  unfold Device.violation
  split
  · exact .refl d
  · rename_i h
    exact Device.outer_endSessions (by simp) (by simp [h]) _ _
  · rename_i h₁ h₂
    exact Device.outer_leave h₂ h₁ _ _

/-! ### The closing of an event -/

theorem Device.inner_portStep {d d' : Device} (h : d.portStep = some d') : d.Inner d' := by
  unfold Device.portStep at h
  split at h
  · rename_i ea
    cases h
    exact Device.inner_engineStep ea
  · exact Device.inner_engineStep h

theorem inner_settleLoop (n : Nat) (d : Device) : d.Inner (settleLoop n d) := by
  induction n generalizing d with
  | zero => exact .refl d
  | succ n ih =>
    unfold settleLoop
    split
    · rename_i d' h
      exact (Device.inner_portStep h).trans (ih _)
    · exact .refl d

theorem Device.inner_settlePorts (d : Device) : d.Inner d.settlePorts := inner_settleLoop _ d

/-- What an overflow does: both sessions end jointly, or one link is lost after the other, or one alone. -/
theorem Device.overflowStep_cases {d d' : Device} (h : d.overflowStep = some d') :
    (d.overflows .a = true ∧ d.overflows .b = true ∧ d.portA.session = .attached ∧ d.portB.session = .attached
      ∧ d' = d.endSessions [.a, .b] true none)
    ∨ (d.overflows .a = true ∧ d.overflows .b = true ∧ d' = (d.linkLoss .a).linkLoss .b)
    ∨ ∃ p, d.overflows p = true ∧ d.overflows p.other = false ∧ d' = d.linkLoss p := by
  unfold Device.overflowStep at h
  split at h
  · rename_i ha hb
    split at h
    · rename_i hs
      simp only [Bool.and_eq_true, PortUnit.attached, decide_eq_true_iff] at hs
      obtain rfl := Option.some.inj h
      exact .inl ⟨ha, hb, hs.1, hs.2, rfl⟩
    · obtain rfl := Option.some.inj h
      exact .inr (.inl ⟨ha, hb, rfl⟩)
  · rename_i ha hb
    cases h
    exact .inr (.inr ⟨.a, ha, hb, rfl⟩)
  · rename_i ha hb
    cases h
    exact .inr (.inr ⟨.b, hb, ha, rfl⟩)
  · cases h

theorem Device.outer_overflowStep {d d' : Device} (h : d.overflowStep = some d') : d.Outer d' := by
  obtain ⟨_, _, sa, sb, rfl⟩ | ⟨_, _, rfl⟩ | ⟨p, _, _, rfl⟩ := Device.overflowStep_cases h
  · refine Device.outer_endSessions (by decide) (fun p _ => ?_) _ _
    cases p <;> simp [Device.port, sa, sb]
  · exact (d.outer_linkLoss .a).trans (Device.outer_linkLoss .b _)
  · exact d.outer_linkLoss p

theorem outer_closeLoop (n : Nat) (d : Device) : d.Outer (closeLoop n d) := by
  induction n generalizing d with
  | zero =>
    rw [closeLoop]
    cases h : d.overflowStep with
    | none => exact .refl d
    | some e => exact Device.outer_overflowStep h
  | succ n ih =>
    unfold closeLoop
    dsimp only
    have h : d.Outer d.settlePorts.runArbiter := (d.inner_settlePorts.trans (Device.inner_runArbiter _)).outer
    split
    · exact h.trans (ih _)
    · cases e : d.settlePorts.runArbiter.overflowStep with
      | none => exact h
      | some d' =>
        exact (h.trans (Device.outer_overflowStep e)).trans (ih _)

theorem Device.outer_quieten (d : Device) : d.Outer d.quieten := outer_closeLoop _ d

theorem Device.outer_settle (d : Device) : d.Outer d.settle :=
  d.outer_quieten.trans ((Device.inner_testPending .a _).trans (Device.inner_testPending .b _)).outer

theorem Device.outer_close (d : Device) : d.Outer d.close :=
  (d.outer_settle.trans (Device.inner_grantCredits .a _).outer).trans (Device.inner_grantCredits .b _).outer

/-! ### Modes -/

theorem Port.mem_waitingPorts {d : Device} {p : Port} : p ∈ d.waitingPorts ↔ (d.port p).waiting = true := by
  cases p <;> simp [Device.waitingPorts]

theorem Port.mem_attachedPorts {d : Device} {p : Port} : p ∈ d.attachedPorts ↔ (d.port p).session = .attached := by
  cases p <;> simp only [Device.attachedPorts, PortUnit.attached, List.mem_filter, List.mem_cons, decide_eq_true_iff] <;>
    simp

theorem PortUnit.waiting_iff (u : PortUnit) : u.waiting = true ↔ ∃ v, u.session = .waiting v := by
  unfold PortUnit.waiting
  split
  · rename_i v h
    simp [h]
  · rename_i h
    simpa using h

/-- The held HELLOs open their sessions in a mode that admits them: whatever the mode before, the ports end in states the new
mode allows. -/
theorem Device.sound_openWaiting {d : Device} (hp : ∀ p, (d.port p).Sound)
    (hm : d.mode.mode = .serving ∨ d.mode.mode = .faulted) (hmo : d.mode.Sound) (hc : d.channel.Sound) (hr : d.remap.Sound)
    (hv : d.reservations.Sound) (ht : d.tracker.Sound) : (d.openSessions d.waitingPorts).Sound := by
  have hrest := d.rest_openSessions d.waitingPorts
  refine ⟨fun q => ?_, hrest.mode ▸ hmo, hrest.channel hc, hrest.remap hr, hrest.reservations hv, hrest.tracker ht⟩
  have hd : ∀ p ∈ d.waitingPorts, (d.port p).session ≠ .down := fun p h => by
    obtain ⟨v, hv⟩ := (PortUnit.waiting_iff _).mp (Port.mem_waitingPorts.mp h)
    simp [hv]
  obtain ⟨h₁, h₂⟩ := Device.openSessions_ports hp hd q
  refine ⟨h₁, ?_⟩
  rw [h₂, hrest.mode]
  split_ifs with hq
  · exact hm
  · cases hs : (d.port q).session with
    | down => trivial
    | linked => trivial
    | waiting v => exact (hq (Port.mem_waitingPorts.mpr ((PortUnit.waiting_iff _).mpr ⟨v, hs⟩))).elim
    | attached => exact hm

theorem Device.outer_enterServing {d : Device} (hm : d.mode.mode = .starting) : d.Outer d.enterServing := by
  unfold Device.enterServing
  dsimp only
  set e : Device := { d with mode := { d.mode with mode := .serving, step := .none, cause := none } } with he
  have hrest := e.rest_openSessions e.waitingPorts
  have hmode : (e.openSessions e.waitingPorts).mode =
      { d.mode with mode := .serving, step := .none, cause := none } := hrest.mode
  refine ⟨?_, ?_, fun ⟨hp, hmo, hc, hr, hv, ht⟩ => ?_⟩
  · unfold Device.restartDone
    split
    · exact hrest.reset
    · exact hrest.reset
  · unfold Device.restartDone
    split
    · exact hrest.mgmt.trans (Mgmt.raise_grows _ _)
    · exact hrest.mgmt
  · have hpe : ∀ q, (e.port q).Sound := fun q => by
      have := (hp q).1
      cases q <;> exact this
    have hd : ∀ p ∈ e.waitingPorts, (e.port p).session ≠ .down := fun p h => by
      obtain ⟨v, hv⟩ := (PortUnit.waiting_iff _).mp (Port.mem_waitingPorts.mp h)
      simp [hv]
    have hports : ∀ q, ((e.openSessions e.waitingPorts).port q).Sound ∧
        ((e.openSessions e.waitingPorts).port q).session.allowedIn .serving := fun q => by
      obtain ⟨h₁, h₂⟩ := Device.openSessions_ports hpe hd q
      refine ⟨h₁, ?_⟩
      rw [h₂]
      split_ifs with hq
      · exact .inl rfl
      · have hold := (hp q).2
        rw [hm] at hold
        have hsame : (e.port q).session = (d.port q).session := by cases q <;> rfl
        cases hs : (e.port q).session with
        | down => trivial
        | linked => trivial
        | waiting v => exact (hq (Port.mem_waitingPorts.mpr ((PortUnit.waiting_iff _).mpr ⟨v, hs⟩))).elim
        | attached => exact .inl rfl
    unfold Device.restartDone
    split
    · refine ⟨fun q => ?_, ?_, hrest.channel hc, hrest.remap hr, hrest.reservations hv, hrest.tracker ht⟩
      · have := hports q
        simp only [Device.raise_mode, hmode]
        cases q <;> exact this
      · simp [ModeCtl.Sound, hmode]
    · rename_i hre
      refine ⟨fun q => ?_, ?_, hrest.channel hc, hrest.remap hr, hrest.reservations hv, hrest.tracker ht⟩
      · rw [hmode]
        exact hports q
      · simp only [hmode] at hre ⊢
        simp [ModeCtl.Sound, hre]

theorem Device.outer_tableLoaded (d : Device) : d.Outer d.tableLoaded := by
  unfold Device.tableLoaded
  split
  · rename_i h
    exact Device.outer_enterServing h.1
  · exact .refl d

theorem Device.outer_enterFaulted (cause : FaultCause) (d : Device) : d.Outer (d.enterFaulted cause) := by
  unfold Device.enterFaulted
  dsimp only
  set e : Device := { d with mode := { mode := .faulted, step := .none, restart := false, cause := some cause } } with he
  have hme : e.mode.Sound := by simp [he, ModeCtl.Sound]
  have hpe : d.PortsSound → ∀ q, (e.port q).Sound := fun hp q => by
    have := (hp q).1
    cases q <;> exact this
  have opening : d.Outer (e.openSessions e.waitingPorts) := by
    have hrest := e.rest_openSessions e.waitingPorts
    refine ⟨hrest.reset, hrest.mgmt, fun ⟨hp, _, hc, hr, hv, ht⟩ => ?_⟩
    exact Device.sound_openWaiting (hpe hp) (.inr rfl) hme hc hr hv ht
  split
  · rename_i h
    have hi := (e.inner_faultAnswers.trans (Device.inner_notifyBoth .mediaFault _)).outer
    refine ⟨hi.reset, hi.mgmt, fun ⟨hp, _, hc, hr, hv, ht⟩ => hi.sound ⟨fun q => ⟨hpe hp q, ?_⟩, hme, hc, hr, hv, ht⟩⟩
    have hold := (hp q).2
    rw [h] at hold
    have hsame : (e.port q).session = (d.port q).session := by cases q <;> rfl
    rw [hsame]
    cases hs : (d.port q).session with
    | down => trivial
    | linked => trivial
    | waiting v => rw [hs] at hold; simp [SessionState.allowedIn] at hold
    | attached => exact .inr rfl
  · rename_i h
    refine ⟨rfl, .refl _, fun ⟨hp, hm, hc, hr, hv, ht⟩ => ⟨fun q => ?_, ?_, hc, hr, hv, ht⟩⟩
    · have := hp q
      cases q <;> exact this
    · obtain ⟨-, h₂, h₃, h₄⟩ := hm
      exact ⟨by simp [h], h₂, h₃, h₄⟩
  · exact opening
  · exact opening

theorem Device.outer_capacityOutOfRange (d : Device) : d.Outer d.capacityOutOfRange := by
  unfold Device.capacityOutOfRange
  split
  · exact (d.inner_raise _).outer.trans (Device.outer_enterFaulted _ _)
  · exact .refl d

theorem Device.outer_tableUnreadable (d : Device) : d.Outer d.tableUnreadable := by
  unfold Device.tableUnreadable
  split
  · exact (d.inner_raise _).outer.trans (Device.outer_enterFaulted _ _)
  · exact .refl d

theorem Device.outer_mediumLost (d : Device) : d.Outer d.mediumLost := by
  unfold Device.mediumLost
  dsimp only
  refine Device.Outer.trans ?_ (Device.outer_enterFaulted _ _)
  refine Device.Outer.trans ?_ (Device.inner_raise _ _).outer
  have h₁ : d.Outer { d with channel :=
      { d.channel with slots := Vector.replicate 4 none, retrySet := [], state := .lost } } :=
    Device.outer_channel fun h => ⟨h.1, by simp, by simp, by simp⟩
  exact h₁.trans (Device.Inner.outer (Device.inner_remap fun h => h))

/-! ### The soft restart -/

theorem Channel.sound_cleared_identify (c : Channel) : c.cleared.identify.Sound := by
  have h : c.cleared.identify = c.cleared.place 0 (Operation.fresh .identify none false) := by
    simp [Channel.identify, Channel.cleared, Channel.reset]
  rw [h]
  refine ⟨by simp [Channel.place, Channel.cleared, Channel.reset], by simp [Channel.place, Channel.cleared, Channel.reset],
    fun i op hi => ?_, by simp [Channel.place, Channel.cleared, Channel.reset]⟩
  by_cases h0 : (0 : Nat) = i
  · simp only [Channel.place, Fin.getElem_fin, Vector.getElem_set, Fin.val_zero, h0, if_true, Option.some.injEq] at hi
    subst hi
    refine ⟨by simp [Channel.place, Channel.cleared, Channel.reset],
      by simp [Channel.place, Channel.cleared, Channel.reset, Operation.fresh], fun _ => Fin.ext h0.symm⟩
  · simp [Channel.place, Channel.cleared, Channel.reset, h0] at hi

theorem Tracker.sound_reset : Tracker.reset.Sound := by simp [Tracker.reset, Tracker.Sound]

theorem Remap.sound_reset : Remap.reset.Sound :=
  ⟨Nat.zero_le _, Nat.zero_le _, ⟨Nat.zero_le _, .nil⟩, ⟨.nil, .nil, fun s => by simp [Remap.reset], by simp [Remap.reset],
    by simp [Remap.reset]⟩⟩

theorem Device.rest_clearing (d : Device) :
    d.clearing.resetAsserted = d.resetAsserted ∧ d.mgmt.GrowsTo d.clearing.mgmt ∧ d.clearing.portA = d.portA
      ∧ d.clearing.portB = d.portB := by
  unfold Device.clearing
  dsimp only
  split
  · exact ⟨rfl, Mgmt.raise_grows _ _, rfl, rfl⟩
  · exact ⟨rfl, .refl _, rfl, rfl⟩

/-- R168: with no session open, the clearing leaves a sound part in STARTING. -/
theorem Device.sound_clearing {d : Device} (hp : ∀ p, (d.port p).Sound ∧ (d.port p).session.allowedIn .starting)
    (hv : d.reservations.Sound) : d.clearing.Sound := by
  unfold Device.clearing
  dsimp only
  generalize he : (if d.frames.holdsUnwritten then d.raise .dataLost else d) = e
  have hpe : ∀ p, (e.port p).Sound ∧ (e.port p).session.allowedIn .starting := by
    subst he
    split
    · exact fun p => by have := hp p; cases p <;> exact this
    · exact hp
  have hve : e.reservations.Sound := by
    subst he
    split <;> exact hv
  refine ⟨fun q => ?_, ?_, Channel.sound_cleared_identify _, Remap.sound_reset, hve, Tracker.sound_reset⟩
  · have := hpe q
    cases q <;> exact this
  · simp [Device.startUp, ModeCtl.Sound]

theorem Device.outer_drainTest (d : Device) : d.Outer d.drainTest := by
  unfold Device.drainTest
  split
  · rename_i h
    obtain ⟨h₁, h₂, -, -⟩ := d.rest_clearing
    refine ⟨h₁, h₂, fun ⟨hp, _, _, _, hv, _⟩ => Device.sound_clearing (fun p => ⟨(hp p).1, ?_⟩) hv⟩
    have := (hp p).2
    rw [h.1] at this
    cases hs : (d.port p).session with
    | down => trivial
    | linked => trivial
    | waiting v => exact .inl rfl
    | attached => rw [hs] at this; simp [SessionState.allowedIn] at this
  · exact .refl d

/-- R165 steps 2 and 3: no session is left open, and every port stays sound. -/
theorem Device.restartSessions_spec (d : Device) :
    d.restartSessions.resetAsserted = d.resetAsserted ∧ d.mgmt.GrowsTo d.restartSessions.mgmt
      ∧ d.restartSessions.mode = d.mode ∧
      ((∀ p, (d.port p).Sound) → d.channel.Sound → d.remap.Sound → d.reservations.Sound → d.tracker.Sound →
        (∀ p, (d.restartSessions.port p).Sound ∧ (d.restartSessions.port p).session ≠ .attached ∧
          ∀ v, (d.restartSessions.port p).session = .waiting v → (d.port p).session = .waiting v) ∧
        d.restartSessions.channel.Sound ∧ d.restartSessions.remap.Sound ∧ d.restartSessions.reservations.Sound ∧
        d.restartSessions.tracker.Sound) := by
  unfold Device.restartSessions
  dsimp only
  have hr := d.rest_endSessions d.attachedPorts false (some .restart)
  have hi := Device.inner_freeHeldBy [.a, .b] (d.endSessions d.attachedPorts false (some .restart))
  refine ⟨hi.reset.trans hr.reset, hr.mgmt.trans hi.mgmt, hi.mode.trans hr.mode, fun hp hc hm hv ht =>
    ⟨fun p => ?_, hi.channel (hr.channel hc), hi.remap (hr.remap hm), hi.reservations (hr.reservations hv),
      hi.tracker (hr.tracker ht)⟩⟩
  have hk := hi.ports p
  have hn : d.attachedPorts.Nodup := List.Nodup.filter _ (by decide)
  by_cases hq : p ∈ d.attachedPorts
  · have he := (Device.endSessions_mem hn hq false (some .restart) d).keeps hk
    have hs := Port.mem_attachedPorts.mp hq
    refine ⟨he.sound (hp p) (by simp [hs]), by rw [he.session]; simp [leftFor], fun v h => ?_⟩
    rw [he.session] at h
    simp [leftFor] at h
  · have he := (Device.endSessions_not_mem hq false (some .restart) d).trans hk
    refine ⟨he.sound (hp p), ?_, fun v h => by rw [← he.session, h]⟩
    rw [he.session]
    exact fun h => hq (Port.mem_attachedPorts.mpr h)

theorem Device.outer_softRestart (d : Device) : d.Outer d.softRestart := by
  unfold Device.softRestart
  split
  · rename_i hm
    dsimp only
    refine Device.Outer.trans ?_ (Device.outer_drainTest _)
    obtain ⟨h₁, h₂, h₃, h₄⟩ :=
      Device.restartSessions_spec { d with mode := { d.mode with restart := true, mode := .draining } }
    refine ⟨h₁, h₂, fun ⟨hp, hmo, hc, hr, hv, ht⟩ => ?_⟩
    obtain ⟨k₁, k₂, k₃, k₄, k₅⟩ := h₄ (fun q => by have := (hp q).1; cases q <;> exact this) hc hr hv ht
    refine ⟨fun q => ⟨(k₁ q).1, ?_⟩, ?_, k₂, k₃, k₄, k₅⟩
    · rw [h₃]
      have hold := (hp q).2
      rw [hm] at hold
      cases hs : (Device.restartSessions _).port q |>.session with
      | down => trivial
      | linked => trivial
      | waiting v => exact .inr rfl
      | attached => exact ((k₁ q).2.1 hs).elim
    · rw [h₃]
      obtain ⟨g₁, g₂, -, -⟩ := hmo
      refine ⟨?_, fun hs => ?_, fun _ => rfl, fun _ => .inr rfl⟩
      · rw [hm] at g₁
        simpa using g₁
      · have := g₂ hs
        rw [hm] at this
        cases this
  · rename_i hm
    dsimp only
    refine Device.Outer.trans ?_ (Device.outer_drainTest _)
    refine ⟨rfl, .refl _, fun ⟨hp, hmo, hc, hr, hv, ht⟩ => ⟨fun q => ?_, ?_, hc, hr, hv, ht⟩⟩
    · have hold := hp q
      rw [hm] at hold
      have hsame : (({ d with mode := { d.mode with restart := true, mode := .draining, step := .none } } :
          Device).port q) = d.port q := by cases q <;> rfl
      rw [hsame]
      refine ⟨hold.1, ?_⟩
      cases hs : (d.port q).session with
      | down => trivial
      | linked => trivial
      | waiting v => exact .inr rfl
      | attached => rw [hs] at hold; simp [SessionState.allowedIn] at hold
    · obtain ⟨g₁, -, -, -⟩ := hmo
      rw [hm] at g₁
      exact ⟨by simpa using g₁, by simp, fun _ => rfl, fun _ => .inr rfl⟩
  · exact .refl d
  · rename_i hm
    dsimp only
    obtain ⟨h₁, h₂, h₃, h₄⟩ := Device.restartSessions_spec { d with mode := { d.mode with restart := true } }
    obtain ⟨c₁, c₂, -, -⟩ :=
      Device.rest_clearing ({ d with mode := { d.mode with restart := true } } : Device).restartSessions
    refine ⟨c₁.trans h₁, h₂.trans c₂, fun ⟨hp, hmo, hc, hr, hv, ht⟩ => ?_⟩
    obtain ⟨k₁, k₂, k₃, k₄, k₅⟩ := h₄ (fun q => by have := (hp q).1; cases q <;> exact this) hc hr hv ht
    refine Device.sound_clearing (fun q => ⟨(k₁ q).1, ?_⟩) k₄
    cases hs : (Device.restartSessions _).port q |>.session with
    | down => trivial
    | linked => trivial
    | waiting v => exact .inl rfl
    | attached => exact ((k₁ q).2.1 hs).elim

/-! ### The load of the table -/

theorem beValue_lt (bs : List Byte) : beValue bs < 256 ^ bs.length := by
  have key : ∀ (bs : List Byte) (acc : Nat), bs.foldl (fun acc b => acc * 256 + b.toNat) acc < (acc + 1) * 256 ^ bs.length := by
    intro bs
    induction bs with
    | nil => intro acc; simp
    | cons b bs ih =>
      intro acc
      rw [List.foldl_cons, List.length_cons, pow_succ']
      refine (ih _).trans_le ?_
      rw [← Nat.mul_assoc]
      exact Nat.mul_le_mul_right _ (by have := b.isLt; omega)
  simpa [beValue] using key bs 0

theorem field_length_le (bs : List Byte) (pos len : Nat) : (field bs pos len).length ≤ len := by
  simp [field]

/-- A generation read from an image fits four bytes. -/
theorem judgeCopy_generation (blocks : List (Option Block)) {g : Nat} (h : (judgeCopy blocks).generation = some g) :
    g ≤ Config.lastGeneration := by
  unfold judgeCopy at h
  split at h
  · rename_i headBlock _
    by_cases hs : hasSignature headBlock.toList = true
    · by_cases hg : headerGood headBlock.toList = true
      · simp only [hs, hg, if_true, Option.some.injEq] at h
        rw [← h]
        have hlt := beValue_lt (field headBlock.toList 4 4)
        have hle := Nat.pow_le_pow_right (show 0 < 256 by decide) (field_length_le headBlock.toList 4 4)
        have := hlt.trans_le hle
        simp only [Config.lastGeneration]
        omega
      · simp [hs, hg] at h
    · simp [hs] at h
  · cases h

theorem ascendingBlocks_pairwise {l : List RemapEntry} (h : ascendingBlocks l = true) :
    l.Pairwise fun a b => a.block < b.block := by
  have tr : IsTrans RemapEntry fun a b => a.block < b.block := ⟨fun _ _ _ => Nat.lt_trans⟩
  refine List.isChain_iff_pairwise.mp ?_
  induction l with
  | nil => exact .nil
  | cons e l ih =>
    cases l with
    | nil => exact .singleton e
    | cons f l =>
      simp only [ascendingBlocks, Bool.and_eq_true, decide_eq_true_eq] at h
      exact .cons_cons h.1 (ih h.2)

/-- The entries a load may take: ascending, and no two on one spare (R184). -/
def Loadable (entries : List RemapEntry) : Prop :=
  (entries.Pairwise fun a b => a.block < b.block) ∧ entries.Pairwise fun a b => a.spare ≠ b.spare

/-- A valid copy's entries may be loaded (R100). -/
theorem judgeCopy_loadable (blocks : List (Option Block)) {image : List Byte} {entries : List RemapEntry}
    (h : (judgeCopy blocks).valid = some (image, entries)) : Loadable entries := by
  unfold judgeCopy at h
  split at h
  · dsimp only at h
    split_ifs at h with h₁ h₂ h₃ h₄
    simp only [Option.some.injEq, Prod.mk.injEq] at h
    obtain ⟨-, rfl⟩ := h
    simp only [entriesGood, Bool.and_eq_true, decide_eq_true_eq] at h₄
    exact ⟨ascendingBlocks_pairwise h₄.2.1.1.2, List.pairwise_map.mp h₄.2.1.2⟩
  · cases h

/-- The pool a load makes: IN_USE for the entries' spares, RETIRED and FREE for the others (R103). -/
theorem Spared.loaded {entries : List RemapEntry} (h : Loadable entries) {v : Vector SpareState 256} {rest : SpareNo → SpareState}
    (hv : ∀ s : SpareNo, v[s] = if entries.any (fun e => e.spare.val == s.val) then .inUse else rest s)
    (hr : ∀ s, rest s ≠ .inUse) : Spared entries (some v) [] := by
  refine ⟨h.1, h.2, fun s => ?_, by simp, by simp⟩
  rw [Option.map_some, hv]
  split_ifs with ha
  · obtain ⟨e, he, hs⟩ := List.any_eq_true.mp ha
    exact ⟨fun _ => ⟨e, he, Fin.ext (by simpa using hs)⟩, fun _ => rfl⟩
  · refine ⟨fun e => (hr s (Option.some.inj e)).elim, ?_⟩
    rintro ⟨e, he, rfl⟩
    exact (ha (List.any_eq_true.mpr ⟨e, he, by simp⟩)).elim

theorem Device.outer_loadEnd {entries : List RemapEntry} (hl : Loadable entries) (retired : Nat → Bool) (d : Device) :
    d.Outer (d.loadEnd entries retired) := by
  unfold Device.loadEnd
  dsimp only
  refine Device.Outer.trans ?_ (Device.outer_tableLoaded _)
  generalize he : d.onRemap _ = e
  have h : d.Inner e := by
    rw [← he]
    refine Device.inner_onRemap fun _ h => ⟨h.1, Nat.zero_le _, ⟨Nat.zero_le _, .nil⟩, Spared.loaded hl
      (rest := fun s => if retired s then .retired else .free) (fun s => by simp) fun s => by split_ifs <;> simp⟩
  split
  · exact (h.trans e.inner_enterNoSpares).outer
  · exact h.outer

theorem Device.outer_loadCopy {copy : Copy} {chosen other : CopyFinding} {d : Device}
    (hl : ∀ image entries, chosen.valid = some (image, entries) → Loadable entries)
    (hc : ∀ g, chosen.generation = some g → g ≤ Config.lastGeneration)
    (ho : ∀ g, other.generation = some g → g ≤ Config.lastGeneration) : d.Outer (d.loadCopy copy chosen other) := by
  unfold Device.loadCopy
  split
  · rename_i image entries hv
    dsimp only
    refine Device.Outer.trans ?_ (Device.outer_loadEnd (hl image entries hv) _ _)
    have hg : max (chosen.generation.getD 0) (other.generation.getD 0) ≤ Config.lastGeneration := by
      refine max_le ?_ ?_
      · cases h : chosen.generation with
        | none => exact Nat.zero_le _
        | some g => exact hc g h
      · cases h : other.generation with
        | none => exact Nat.zero_le _
        | some g => exact ho g h
    generalize he : d.onRemap _ = e
    have h : d.Inner e := by
      rw [← he]
      exact Device.inner_onRemap fun r hr =>
        Remap.sound_setDegraded _ _ (Remap.sound_setDegraded _ _ ⟨hg, hr.2.1, hr.2.2⟩)
    split
    · exact (h.trans (e.inner_raise _)).outer
    · exact h.outer
  · exact .refl d

theorem Device.outer_chooseCopy {a b : CopyFinding} {d : Device}
    (la : ∀ image entries, a.valid = some (image, entries) → Loadable entries)
    (lb : ∀ image entries, b.valid = some (image, entries) → Loadable entries)
    (ha : ∀ g, a.generation = some g → g ≤ Config.lastGeneration)
    (hb : ∀ g, b.generation = some g → g ≤ Config.lastGeneration) : d.Outer (d.chooseCopy a b) := by
  unfold Device.chooseCopy
  split
  · split
    · exact Device.outer_loadCopy la ha hb
    · exact Device.outer_loadCopy lb hb ha
  · exact Device.outer_loadCopy la ha hb
  · exact Device.outer_loadCopy lb hb ha
  · split
    · exact d.inner_beginFormat.outer
    · refine Device.Outer.trans ?_ (Device.outer_tableUnreadable _)
      refine Device.Inner.outer ?_
      exact Device.inner_onRemap fun _ h => h

theorem Device.outer_tableReadDone (phys : Nat) (o : ReadOutcome) (d : Device) : d.Outer (d.tableReadDone phys o) := by
  unfold Device.tableReadDone
  split
  · rename_i reads _
    dsimp only
    generalize he : d.onRemap _ = e
    have h : d.Inner e := by
      rw [← he]
      exact Device.inner_onRemap fun _ h => h
    split
    · exact h.outer.trans (Device.outer_chooseCopy (fun _ _ => judgeCopy_loadable _) (fun _ _ => judgeCopy_loadable _)
        (fun g => judgeCopy_generation _) (fun g => judgeCopy_generation _))
    · exact h.outer
  · exact .refl d

theorem Device.outer_flip {copy : Copy} {generation : Nat} {format : Bool} {d : Device}
    (hg : d.Sound → generation ≤ Config.lastGeneration) : d.Outer (d.flip copy generation format) := by
  unfold Device.flip
  dsimp only
  generalize he : d.onRemap _ = e
  have h : d.Outer e := by
    rw [← he]
    refine ⟨rfl, .refl _, fun hd => (Device.Inner.outer ?_).sound hd⟩
    refine Device.inner_onRemap fun r hr => ?_
    have := Remap.sound_setDegraded copy false hr
    obtain ⟨ha, hs, hu, hc, hx⟩ := this.2.2.2
    have hb (e : RemapEntry) : (if d.remap.inFlight.contains e.block then { e with state := EntryState.active } else e).block = e.block
        ∧ (if d.remap.inFlight.contains e.block then { e with state := EntryState.active } else e).spare = e.spare := by
      split_ifs <;> exact ⟨rfl, rfl⟩
    have ht (c : Copy) : (r.setDegraded c false).table = r.table ∧ (r.setDegraded c false).spares = r.spares
        ∧ (r.setDegraded c false).workList = r.workList := by cases c <;> exact ⟨rfl, rfl, rfl⟩
    rw [(ht copy).1] at ha hs hu
    refine ⟨hg hd, this.2.1, this.2.2.1, List.pairwise_map.mpr (ha.imp fun h => by rwa [(hb _).1, (hb _).1]),
      List.pairwise_map.mpr (hs.imp fun h => by rwa [(hb _).2, (hb _).2]), fun s => (hu s).trans ?_, hc, hx⟩
    constructor
    · rintro ⟨e, he, rfl⟩
      exact ⟨_, List.mem_map_of_mem he, (hb e).2⟩
    · rintro ⟨_, he, rfl⟩
      obtain ⟨e, hm, rfl⟩ := List.mem_map.mp he
      exact ⟨e, hm, (hb e).2.symm⟩
  have h₂ := h.trans (Device.inner_foldl (fun d b => d.inner_settleEntry b) d.remap.inFlight e).outer
  generalize (d.remap.inFlight.foldl (fun d b => d.settleEntry b) e) = e₂ at h₂ ⊢
  generalize he₃ : e₂.onRemap _ = e₃
  have h₃ : d.Outer e₃ := by
    rw [← he₃]
    refine h₂.trans (Device.Inner.outer ?_)
    exact Device.inner_onRemap fun _ h => ⟨h.1, Nat.zero_le _, h.2.2⟩
  split
  · exact h₃.trans (Device.outer_loadEnd ⟨.nil, .nil⟩ _ _)
  · exact h₃.trans e₃.inner_beginPersist.outer

theorem Device.outer_formatFailed (d : Device) : d.Outer d.formatFailed := by
  unfold Device.formatFailed
  refine Device.Outer.trans ?_ (Device.outer_tableUnreadable _)
  refine Device.Outer.trans ?_ (Device.inner_raise _ _).outer
  refine Device.Outer.trans d.inner_withdrawWrites.outer ?_
  refine Device.Inner.outer ?_
  exact Device.inner_onRemap fun _ h => ⟨h.1, Nat.zero_le _, h.2.2⟩

theorem Device.outer_tableWriteDone (phys : Nat) (done : Bool) (image : Block) (d : Device) :
    d.Outer (d.tableWriteDone phys done image) := by
  unfold Device.tableWriteDone
  split
  · exact .refl d
  · rename_i copy generation progress format hp
    have hg (hr : d.remap.Sound) : generation ≤ Config.lastGeneration := by
      have := hr.2.1
      rw [hp] at this
      exact this
    have mark (v : Vector Progress 5) :
        d.Inner (d.onRemap fun r => { r with persist := .writingImage copy generation v format }) :=
      Device.inner_remap fun h => ⟨h.1, hg h, h.2.2⟩
    split
    · dsimp only
      split
      · exact .refl d
      · split
        · exact (mark _).outer.trans (Device.outer_flip fun h => h.2.2.2.1.2.1)
        · exact (mark _).outer
      · exact ((mark _).trans (Device.inner_requestTable _ _)).outer
      · split
        · exact d.outer_formatFailed
        · exact (d.inner_persistLoss _).outer
    · exact .refl d

end Sys2Proof.Machine
end

