-- ==== Sys2Proof/Laws/Events.lean ====
section
/-!
SUPPORT. Every event of the ports, of the media channel and of the part's own steps keeps the part sound.
-/

namespace Sys2Proof.Machine

/-! ### An ATTACHED port -/

/-- A change of a port unit that leaves its session, its link and its numbers. -/
def PortUnit.SameSession (u v : PortUnit) : Prop :=
  v.session = u.session ∧ v.lastSession = u.lastSession ∧ v.linkUp = u.linkUp ∧ v.readCredits = u.readCredits

theorem Device.outer_onAttached {p : Port} {f : PortUnit → PortUnit} {d : Device} (ha : (d.port p).session = .attached)
    (hf : ∀ u, PortUnit.SameSession u (f u)) : d.Outer (d.onPort p f) := by
  obtain ⟨h₁, h₂, h₃, h₄⟩ := hf (d.port p)
  exact Device.outer_attachedPort ha (h₁.trans ha) h₂ h₃ fun h => h₄ ▸ h.2.1

theorem Device.session_onPort {p : Port} {f : PortUnit → PortUnit} {d : Device} (ha : (d.port p).session = .attached)
    (hf : ∀ u, PortUnit.SameSession u (f u)) : ((d.onPort p f).port p).session = .attached := by
  rw [Device.onPort_port_same, (hf _).1, ha]

theorem Device.Inner.attached {d d' : Device} (h : d.Inner d') {p : Port} (ha : (d.port p).session = .attached) :
    (d'.port p).session = .attached := by rw [(h.ports p).session, ha]

theorem PortUnit.sameSession_setCommand (t : Tag) (c : Option OpenCmd) (u : PortUnit) :
    u.SameSession (u.setCommand t c) := ⟨rfl, rfl, rfl, rfl⟩

/-! ### Acceptance -/

theorem Device.outer_acceptRead {p : Port} {tag : Tag} {start count : Nat} {d : Device}
    (ha : (d.port p).session = .attached) : d.Outer (d.acceptRead p tag start count) := by
  unfold Device.acceptRead
  split_ifs
  · exact (Device.inner_reply (.inl ha)).outer
  · exact (Device.inner_reply (.inl ha)).outer
  · exact (Device.inner_reply (.inl ha)).outer
  · refine Device.Outer.trans ?_ (Device.inner_refill _ _).outer
    have hc := PortUnit.sameSession_setCommand tag
      (some (.read { start := start, count := count, state := .queued, sent := 0 }))
    exact (Device.outer_onAttached ha hc).trans
      (Device.outer_onAttached (Device.session_onPort ha hc) fun _ => ⟨rfl, rfl, rfl, rfl⟩)

theorem Device.outer_acceptWrite {p : Port} {tag : Tag} {durable : Bool} {start count : Nat} {d : Device}
    (ha : (d.port p).session = .attached) : d.Outer (d.acceptWrite p tag durable start count) := by
  have hc (c : Option OpenCmd) := PortUnit.sameSession_setCommand tag c
  have accepted (c : Option OpenCmd) :
      d.Outer ((d.setCommand p tag c).onPort p fun u => { u with writeList := u.writeList ++ [tag] }) :=
    (Device.outer_onAttached ha (hc _)).trans
      (Device.outer_onAttached (Device.session_onPort ha (hc _)) fun _ => ⟨rfl, rfl, rfl, rfl⟩)
  unfold Device.acceptWrite
  split_ifs
  · exact (Device.inner_reply (.inl ha)).outer
  · exact (Device.inner_reply (.inl ha)).outer
  · exact (Device.inner_reply (.inl ha)).outer
  · exact (Device.inner_reply (.inl ha)).outer
  · exact (Device.inner_reply (.inl ha)).outer
  · exact accepted _
  · exact accepted _

theorem Device.outer_acceptFlush {p : Port} {tag : Tag} {d : Device} (ha : (d.port p).session = .attached) :
    d.Outer (d.acceptFlush p tag) := by
  unfold Device.acceptFlush
  split
  · exact (Device.inner_reply (.inl ha)).outer
  · exact (Device.outer_onAttached ha (PortUnit.sameSession_setCommand tag _)).trans (Device.inner_joinFlush _ _).outer

theorem Device.outer_decideReserve {p : Port} {tag : Tag} {start count ticks : Nat} {d : Device}
    (ha : (d.port p).session = .attached) (hc : 1 ≤ count ∧ count ≤ Config.maxReserve)
    (ht : 1 ≤ ticks ∧ ticks ≤ Config.maxLease) : d.Outer (d.decideReserve p tag start count ticks) := by
  unfold Device.decideReserve
  split
  · exact (Device.inner_reply (.inl ha)).outer
  · rename_i hn
    have clear (v : Reservation) (hs : v.start = start) (hk : v.count = count) (j : ResId) (b : Reservation)
        (hb : d.reservations.entries[j] = some b) : v.Clear b := fun _ pb => by
      have hnil : d.reservations.protecting start count = [] := by simpa using hn
      by_contra hx
      have hmem : b ∈ d.reservations.protecting start count := by
        simp only [Reservations.protecting, List.mem_filterMap]
        refine ⟨some b, hb ▸ (by simp), ?_⟩
        rw [hs, hk, Bool.not_eq_false, rangesOverlap_comm] at hx
        simp [pb, hx]
      rw [hnil] at hmem
      cases hmem
    split
    · exact (Device.inner_reply (.inl ha)).outer
    · split
      · have h : d.Inner (d.setEntry ‹ResId› (some
            { holder := p, start := start, count := count, state := .pending ticks tag })) :=
          Device.inner_setEntry fun _ v hv => by cases hv; exact ⟨⟨hc, ht⟩, fun j _ b => clear _ rfl rfl j b⟩
        exact h.outer.trans (Device.outer_onAttached (h.attached ha) (PortUnit.sameSession_setCommand tag _))
      · have h : d.Inner (d.setEntry ‹ResId› (some
            { holder := p, start := start, count := count, state := .granted ticks })) :=
          Device.inner_setEntry fun _ v hv => by cases hv; exact ⟨⟨hc, ht.2⟩, fun j _ b => clear _ rfl rfl j b⟩
        exact (h.trans (Device.inner_reply (h.speaks ha))).outer

theorem Device.outer_acceptReserve {p : Port} {tag : Tag} {start count ticks : Nat} {d : Device}
    (ha : (d.port p).session = .attached) : d.Outer (d.acceptReserve p tag start count ticks) := by
  unfold Device.acceptReserve
  split_ifs with h₁ h₂ h₃
  · exact (Device.inner_reply (.inl ha)).outer
  · exact (Device.inner_reply (.inl ha)).outer
  · exact (Device.inner_reply (.inl ha)).outer
  · exact Device.outer_decideReserve ha (by omega) (by omega)

theorem Reservations.entryAt_some {r : Reservations} {id : Nat} {i : ResId} {e : Reservation}
    (he : r.entryAt id = some (i, e)) : r.entries[i] = some e := by
  unfold Reservations.entryAt at he
  split at he
  · simp only [Option.map_eq_some_iff, Prod.mk.injEq] at he
    obtain ⟨v, hv, rfl, rfl⟩ := he
    exact hv
  · cases he

theorem Device.inner_freeEntry (i : ResId) (d : Device) : d.Inner (d.setEntry i none) :=
  Device.inner_setEntry fun _ v hv => by cases hv

theorem Device.inner_acceptRenew {p : Port} {tag : Tag} {id ticks : Nat} {d : Device}
    (ha : (d.port p).session = .attached) : d.Inner (d.acceptRenew p tag id ticks) := by
  unfold Device.acceptRenew
  split_ifs with ht
  · exact Device.inner_reply (.inl ha)
  · split
    · rename_i i e he
      split
      · split
        · rename_i hst
          have h : d.Inner (d.setEntry i (some { e with state := .granted ticks })) :=
            Device.inner_restate (Reservations.entryAt_some he) rfl rfl (fun _ => by simp [Reservation.protects, hst])
              fun h => ⟨h.1, by simp only; omega⟩
          exact h.trans (Device.inner_reply (h.speaks ha))
        · exact (Device.inner_freeEntry i d).trans (Device.inner_reply ((Device.inner_freeEntry i d).speaks ha))
        · exact Device.inner_reply (.inl ha)
      · exact Device.inner_reply (.inl ha)
    · exact Device.inner_reply (.inl ha)

theorem Device.inner_acceptRelease {p : Port} {tag : Tag} {id : Nat} {d : Device}
    (ha : (d.port p).session = .attached) : d.Inner (d.acceptRelease p tag id) := by
  have free (i : ResId) (st : Status) : d.Inner ((d.setEntry i none).reply p tag st .none) :=
    (Device.inner_freeEntry i d).trans (Device.inner_reply ((Device.inner_freeEntry i d).speaks ha))
  unfold Device.acceptRelease
  split
  · split
    · exact Device.inner_reply (.inl ha)
    · split
      · exact free _ _
      · exact Device.inner_reply (.inl ha)
    · split
      · exact free _ _
      · exact Device.inner_reply (.inl ha)
  · exact Device.inner_reply (.inl ha)

theorem Device.outer_takeCommand {p : Port} {tag : Tag} {accept : Device → Device} {d : Device}
    (h : (d.port p).session = .attached → d.Outer (accept d)) : d.Outer (d.takeCommand p tag accept) := by
  unfold Device.takeCommand
  split
  · rename_i ha
    split
    · exact (d.inner_notify _ _).outer
    · exact h ha
  · exact d.outer_violation p

/-! ### DATA, CREDIT, CANCEL -/

theorem PortUnit.sameSession_promoteHead (u : PortUnit) : u.SameSession u.promoteHead := by
  unfold PortUnit.promoteHead
  split
  · exact ⟨rfl, rfl, rfl, rfl⟩
  · split
    · exact u.sameSession_setCommand _ _
    · exact ⟨rfl, rfl, rfl, rfl⟩

theorem PortUnit.sameSession_leaveWriteList (t : Tag) (u : PortUnit) : u.SameSession (u.leaveWriteList t) := by
  unfold PortUnit.leaveWriteList
  split
  · exact PortUnit.sameSession_promoteHead _
  · exact ⟨rfl, rfl, rfl, rfl⟩

theorem Device.outer_acceptData {p : Port} {buf : BufNo} {tag : Tag} {w : WriteCmd} {index : Nat} {bytes : Block}
    {d : Device} (ha : (d.port p).session = .attached) : d.Outer (d.acceptData p buf tag w index bytes) := by
  unfold Device.acceptData
  dsimp only
  generalize he : d.onPort p _ = e
  have h : d.Outer e := by
    rw [← he]
    refine Device.outer_onAttached ha fun u => ?_
    split
    · exact PortUnit.sameSession_leaveWriteList tag _
    · exact ⟨rfl, rfl, rfl, rfl⟩
  split
  · exact h.trans (e.inner_tryCommit p).outer
  · exact h

theorem Device.outer_landData {p : Port} {tag : Tag} {index : Nat} {bytes : Block} {d : Device}
    (ha : (d.port p).session = .attached) : d.Outer (d.landData p tag index bytes) := by
  unfold Device.landData
  split
  · exact d.outer_violation p
  · split
    · split
      · exact Device.outer_acceptData ha
      · exact d.outer_violation p
    · exact (Device.inner_onPort (PortUnit.keeps_freeLanding _)).outer

theorem Device.outer_takeData (p : Port) (tag : Tag) (index : Nat) (bytes : Block) (d : Device) :
    d.Outer (d.takeData p tag index bytes) := by
  unfold Device.takeData
  split
  · rename_i ha
    exact Device.outer_landData ha
  · exact d.outer_violation p

theorem Device.outer_takeCredit (p : Port) (count : Nat) (d : Device) : d.Outer (d.takeCredit p count) := by
  unfold Device.takeCredit
  split
  · rename_i ha
    split
    · exact d.outer_violation p
    · rename_i hc
      exact Device.outer_attachedPort ha ha rfl rfl fun _ => Nat.not_lt.mp hc
  · exact d.outer_violation p

theorem Device.outer_cancelOpen {p : Port} {tag : Tag} {d : Device} (ha : (d.port p).session = .attached) :
    d.Outer (d.cancelOpen p tag) := by
  have flush (moved : Nat) : d.Inner (d.cancelFlush p tag moved) :=
    (Device.inner_answer (.inl ha)).trans (Device.inner_dropFlush _ _)
  unfold Device.cancelOpen
  split
  · exact (d.inner_notify _ _).outer
  · exact (((d.inner_leaveWindowTag _ _).answerRead (.inl ha)).trans (Device.inner_refill _ _)).outer
  · split
    · exact (flush _).outer
    · unfold Device.cancelMoving
      dsimp only
      refine (Device.outer_onAttached ha (PortUnit.sameSession_leaveWriteList tag)).trans ?_
      have ha' := Device.session_onPort ha (PortUnit.sameSession_leaveWriteList tag)
      exact (((Device.inner_discardBuffers _ _ _).trans (Device.inner_tryCommit _ _)).answer (.inl ha')).outer
  · exact (flush 0).outer
  · exact ((Device.inner_freeEntry _ d).answer (.inl ha)).outer

theorem Device.outer_takeCancel (p : Port) (tag : Tag) (d : Device) : d.Outer (d.takeCancel p tag) := by
  unfold Device.takeCancel
  split
  · rename_i ha
    exact Device.outer_cancelOpen ha
  · exact d.outer_violation p

/-! ### Session messages -/

theorem Device.outer_helloLinked {p : Port} {version : BitVec 16} {d : Device} (hl : (d.port p).session = .linked) :
    d.Outer (d.helloLinked p version) := by
  unfold Device.helloLinked
  split_ifs with hv hm
  · refine Device.outer_setPort fun h ha => ?_
    rw [PortUnit.enqueue_fields]
    exact ⟨⟨h.1, h.2.1, h.2.2.1, h.2.2.2⟩, ha⟩
  · exact Device.outer_openSessions hm fun q hq => by simp_all
  · refine Device.outer_setPort fun h _ => ⟨⟨h.1, h.2.1, ?_, fun _ => ?_⟩, ?_⟩
    · have := h.2.2.1
      rw [hl] at this
      simpa using this
    · exact h.2.2.2 (by simp [hl])
    · cases hmode : d.mode.mode <;> simp_all [SessionState.allowedIn]

theorem Device.outer_takeHello (p : Port) (version : BitVec 16) (d : Device) : d.Outer (d.takeHello p version) := by
  unfold Device.takeHello
  split
  · exact .refl d
  · rename_i h
    exact Device.outer_helloLinked h
  · rename_i v h
    split_ifs
    · exact Device.outer_leave (by simp [h]) (by simp [h]) _ _
    · refine Device.outer_setPort fun hs ha => ⟨⟨hs.1, hs.2.1, ?_, fun _ => hs.2.2.2 (by simp [h])⟩, ?_⟩
      · have := hs.2.2.1
        rw [h] at this
        simpa using this
      · rw [h] at ha
        exact ha
  · rename_i h
    split_ifs
    · exact Device.outer_endSessions (by simp) (by simp [h]) _ _
    · refine (Device.outer_endSessions (by simp) (by simp [h]) false none).trans (Device.outer_helloLinked ?_)
      exact (Device.endSessions_mem (by simp) (by simp) false none d).session

theorem Device.outer_takeBye (p : Port) (d : Device) : d.Outer (d.takeBye p) := by
  unfold Device.takeBye
  split
  · exact .refl d
  · exact d.outer_violation p
  · rename_i h
    exact Device.outer_leave (by simp [h]) (by simp [h]) _ _
  · rename_i h
    exact Device.outer_endSessions (by simp) (by simp [h]) _ _

/-! ### The taking of messages -/

theorem Device.outer_takeMessage (p : Port) (m : Inbound) (d : Device) : d.Outer (d.takeMessage p m) := by
  have close {d e : Device} (h : d.Outer e) : d.Outer e.close := h.trans e.outer_close
  unfold Device.takeMessage
  cases m with
  | damaged => exact close (d.outer_linkLoss p)
  | unknownKind _ => exact close (d.outer_violation p)
  | unknownOpcode _ => exact close (d.outer_violation p)
  | hello v => exact close (d.outer_takeHello p v)
  | read => exact close (Device.outer_takeCommand Device.outer_acceptRead)
  | write => exact close (Device.outer_takeCommand Device.outer_acceptWrite)
  | flush => exact close (Device.outer_takeCommand Device.outer_acceptFlush)
  | reserve => exact Device.outer_takeCommand Device.outer_acceptReserve
  | renew => exact Device.outer_takeCommand fun ha => (Device.inner_acceptRenew ha).outer
  | release => exact Device.outer_takeCommand fun ha => (Device.inner_acceptRelease ha).outer
  | query => exact Device.outer_takeCommand fun ha => (Device.inner_reply (.inl ha)).outer
  | data t i b => exact close (d.outer_takeData p t i b)
  | credit n => exact close (d.outer_takeCredit p n)
  | cancel t => exact close (d.outer_takeCancel p t)
  | bye => exact close (d.outer_takeBye p)

theorem PortUnit.keeps_backlog (l : List Inbound) (u : PortUnit) : u.Keeps { u with backlog := l } :=
  ⟨rfl, rfl, rfl, le_rfl, id, fun _ => le_rfl, fun _ h => h, fun _ _ => rfl, List.prefix_rfl⟩

theorem outer_drainInbound (n : Nat) (p : Port) (d : Device) : d.Outer (drainInbound n p d) := by
  induction n generalizing d with
  | zero => exact .refl d
  | succ n ih =>
    unfold drainInbound
    split
    · exact .refl d
    · split
      · exact .refl d
      · refine Device.Outer.trans ?_ (ih _)
        exact (Device.inner_onPort (PortUnit.keeps_backlog _)).outer.trans (Device.outer_takeMessage _ _ _)

theorem Device.outer_receive (p : Port) (m : Inbound) (d : Device) : d.Outer (d.receive p m) := by
  unfold Device.receive
  split
  · exact .refl d
  · dsimp only
    refine Device.Outer.trans ?_ (outer_drainInbound _ _ _)
    exact (Device.inner_onPort fun u => u.keeps_backlog _).outer

theorem Device.outer_messageSent (p : Port) (d : Device) : d.Outer (d.messageSent p) := by
  unfold Device.messageSent
  split
  · exact .refl d
  · dsimp only
    refine Device.Outer.trans ?_ (outer_drainInbound _ _ _)
    exact Device.outer_setPort fun h ha => ⟨⟨h.1, h.2.1, h.2.2.1, h.2.2.2⟩, ha⟩

/-! ### The media channel -/

theorem Channel.sound_emptySlot (i : SlotNo) {c : Channel} (h : c.Sound) : (c.emptySlot i).Sound := by
  refine ⟨h.1, h.2.1, fun j op hj => ?_, h.2.2.2⟩
  by_cases hij : (i : Nat) = j
  · simp [Channel.emptySlot, hij] at hj
  · exact h.2.2.1 j op (by simpa [Channel.emptySlot, Vector.getElem_set, hij] using hj)

theorem Device.inner_emptySlot (i : SlotNo) (d : Device) : d.Inner (d.onChannel (Channel.emptySlot i)) :=
  Device.inner_channel (Channel.sound_emptySlot i)

theorem Device.outer_closeMedia (d : Device) : d.Outer d.closeMedia :=
  (d.inner_placeReset.outer.trans (Device.outer_close _)).trans (Device.outer_drainTest _)

theorem identifyOutcome_le {code : Byte} {body : List Byte} {cap : Nat} (h : identifyOutcome code body = some cap) :
    cap ≤ Config.maxCapacity := by
  unfold identifyOutcome at h
  dsimp only at h
  split_ifs at h with _ hle
  cases h
  exact hle

theorem Device.outer_enterLoading {d : Device} (hm : d.mode.mode = .starting) :
    d.Outer { d with mode := { d.mode with step := .loading } } := by
  refine ⟨rfl, .refl _, fun ⟨hp, ⟨h₁, _, h₃, h₄⟩, hc, hr, hv, ht⟩ => ⟨fun q => ?_, ⟨h₁, fun _ => hm, h₃, h₄⟩, hc, hr, hv, ht⟩⟩
  have := hp q
  cases q <;> exact this

/-- R74: an IDENTIFY completes; in a sound part every slot is empty after it. -/
theorem Device.outer_identified {outcome : Option Nat} {d : Device} (ho : ∀ cap, outcome = some cap → cap ≤ Config.maxCapacity)
    (hs : d.Sound → (∀ i : SlotNo, d.channel.slots[i] = none) ∧ d.channel.retrySet = []) :
    d.Outer (d.identified outcome) := by
  unfold Device.identified
  split
  · rename_i cap
    split
    · rename_i hcap
      dsimp only
      have h : d.Outer (d.onChannel fun c => { c with capacity := some cap, state := .running }) := by
        refine ⟨rfl, .refl _, fun hd => (Device.outer_channel fun hc => ⟨fun c h => ?_, fun _ => rfl, fun i op hi => ?_,
          fun op hop => ?_⟩).sound hd⟩
        · cases h
          exact ⟨hcap, ho _ rfl⟩
        · have := (hs hd).1 i
          exact absurd hi (by rw [this]; simp)
        · rw [(hs hd).2] at hop
          cases hop
      refine h.trans ?_
      split
      · rename_i hm
        exact (Device.outer_enterLoading hm.1).trans (Device.inner_beginLoad _).outer
      · exact .refl _
    · exact d.outer_capacityOutOfRange
  · exact d.outer_mediumLost

theorem Channel.reissue_fold {l : List Operation} {c : Channel} (h : c.Sound) (hs : c.state = .running ∨ c.state = .recovering)
    (hl : ∀ op ∈ l, op.isTransfer = true) :
    (l.foldl Channel.reissue c).Sound ∧ (l.foldl Channel.reissue c).state = c.state
      ∧ (l.foldl Channel.reissue c).retrySet = c.retrySet := by
  induction l generalizing c with
  | nil => exact ⟨h, rfl, rfl⟩
  | cons op l ih =>
    have hstep : (c.reissue op).Sound ∧ (c.reissue op).state = c.state ∧ (c.reissue op).retrySet = c.retrySet := by
      unfold Channel.reissue
      split
      · refine ⟨Channel.sound_place h _ ?_ hs, rfl, rfl⟩
        have := hl op (by simp)
        intro e
        simp [Operation.fresh] at e
        simp [Operation.isTransfer, e, Work.kind] at this
      · exact ⟨h, rfl, rfl⟩
    obtain ⟨h₁, h₂, h₃⟩ := ih hstep.1 (hstep.2.1 ▸ hs) fun o ho => hl o (List.mem_cons_of_mem _ ho)
    exact ⟨h₁, h₂.trans hstep.2.1, h₃.trans hstep.2.2⟩

/-- R77: a RESET completes; in a sound part the channel works and its slots hold no IDENTIFY. -/
theorem Device.outer_resetDone {done : Bool} {d : Device}
    (hs : d.Sound → d.channel.state = .running ∨ d.channel.state = .recovering) : d.Outer (d.resetDone done) := by
  unfold Device.resetDone
  split
  · refine ⟨rfl, .refl _, fun hd => (Device.outer_channel fun hc => ?_).sound hd⟩
    have hbase : ({ d.channel with retrySet := [] } : Channel).Sound := ⟨hc.1, hc.2.1, hc.2.2.1, by simp⟩
    have hstate : ({ d.channel with retrySet := [] } : Channel).state = .running
        ∨ ({ d.channel with retrySet := [] } : Channel).state = .recovering := hs hd
    obtain ⟨h₁, h₂, h₃⟩ := Channel.reissue_fold (l := d.channel.retrySet) hbase hstate fun op hop => (hc.2.2.2 op hop).2
    refine ⟨h₁.1, fun _ => h₁.2.1 (by rw [h₂]; exact hstate), fun i op hi => ?_, fun op hop => ?_⟩
    · obtain ⟨g₁, g₂, g₃⟩ := h₁.2.2.1 i op hi
      refine ⟨by simp, ?_, g₃⟩
      have hni : op.work ≠ .identify := fun e => by
        have := g₂.mpr e
        rw [h₂] at this
        rcases hs hd with hs | hs <;> simp [hs] at this
      simp [hni]
    · rw [h₃] at hop
      cases hop
  · exact d.outer_mediumLost

/-- Without soundness: what both completions leave of the reset pin and the management port. -/
theorem Device.loud_identified {outcome : Option Nat} (d : Device) :
    (d.identified outcome).resetAsserted = d.resetAsserted ∧ d.mgmt.GrowsTo (d.identified outcome).mgmt := by
  unfold Device.identified
  split
  · split
    · dsimp only
      split
      · have h := Device.inner_beginLoad { d.onChannel (fun c => { c with capacity := some ‹Nat›, state := .running }) with
          mode := { (d.onChannel fun c => { c with capacity := some ‹Nat›, state := .running }).mode with step := .loading } }
        exact ⟨h.reset, h.mgmt⟩
      · exact ⟨rfl, .refl _⟩
    · exact ⟨d.outer_capacityOutOfRange.reset, d.outer_capacityOutOfRange.mgmt⟩
  · exact ⟨d.outer_mediumLost.reset, d.outer_mediumLost.mgmt⟩

theorem Device.loud_resetDone {done : Bool} (d : Device) :
    (d.resetDone done).resetAsserted = d.resetAsserted ∧ d.mgmt.GrowsTo (d.resetDone done).mgmt := by
  unfold Device.resetDone
  split
  · exact ⟨rfl, .refl _⟩
  · exact ⟨d.outer_mediumLost.reset, d.outer_mediumLost.mgmt⟩

/-- In a sound part, what is in the slots beside an IDENTIFY: nothing. -/
theorem Channel.sound_identify_alone {c : Channel} (hc : c.Sound) {i : SlotNo} {op : Operation} (hop : c.slots[i] = some op)
    (hw : op.work = .identify) :
    (∀ j : SlotNo, (c.emptySlot i).slots[j] = none) ∧ (c.emptySlot i).retrySet = [] := by
  obtain ⟨-, g₂, g₃⟩ := hc.2.2.1 i op hop
  have hidle := g₂.mpr hw
  refine ⟨fun j => ?_, List.eq_nil_iff_forall_not_mem.mpr fun o ho => ?_⟩
  · by_cases hij : (i : Nat) = j
    · simp [Channel.emptySlot, hij]
    · cases hj : c.slots[j] with
      | none => simpa [Channel.emptySlot, Vector.getElem_set, hij] using hj
      | some o =>
        obtain ⟨-, k₂, k₃⟩ := hc.2.2.1 j o hj
        exact absurd (congrArg Fin.val ((k₃ (k₂.mp hidle)).trans (g₃ hw).symm)) (Ne.symm hij)
  · have := (hc.2.2.2 o ho).1
    rw [hidle] at this
    cases this

/-- In a sound part a channel with an operation other than an IDENTIFY in a slot works. -/
theorem Channel.sound_works {c : Channel} (hc : c.Sound) {i : SlotNo} {op : Operation} (hop : c.slots[i] = some op)
    (hw : op.work ≠ .identify) : c.state = .running ∨ c.state = .recovering := by
  obtain ⟨g₁, g₂, -⟩ := hc.2.2.1 i op hop
  cases hst : c.state with
  | idle => exact absurd (g₂.mp hst) hw
  | lost => exact absurd hst g₁
  | running => exact .inl rfl
  | recovering => exact .inr rfl

theorem Device.sound_of_outer_emptied {d e : Device} {i : SlotNo} (h : (d.onChannel (Channel.emptySlot i)).Outer e) :
    d.Outer e := (d.inner_emptySlot i).outer.trans h

theorem Device.outer_applyCompletion {i : SlotNo} {op : Operation} {code : Byte} {body : List Byte} {d : Device}
    (hop : d.channel.slots[i] = some op) : d.Outer (d.applyCompletion i op code body) := by
  have empty {e : Device} (h : d.Outer e) : d.Outer (e.onChannel (Channel.emptySlot i)) :=
    h.trans (e.inner_emptySlot i).outer
  unfold Device.applyCompletion
  split
  · exact empty (d.inner_fillDone _ _).outer
  · exact empty (d.outer_tableReadDone _ _)
  · refine empty ?_
    split
    · exact (d.inner_settleFrame _).outer
    · exact (d.inner_handOver _ _).outer
  · exact empty (d.inner_spareCompletion _ _ _).outer
  · exact empty (d.outer_tableWriteDone _ _ _)
  · rename_i hw
    have hl := Device.loud_identified (outcome := identifyOutcome code body) (d.onChannel (Channel.emptySlot i))
    refine ⟨hl.1, hl.2, fun hd => ?_⟩
    exact (Device.outer_identified (fun cap => identifyOutcome_le) fun _ =>
      Channel.sound_identify_alone hd.2.2.1 hop hw).sound ((d.inner_emptySlot i).outer.sound hd)
  · rename_i hw
    have hl := Device.loud_resetDone (done := doneCode code) (d.onChannel (Channel.emptySlot i))
    refine ⟨hl.1, hl.2, fun hd => ?_⟩
    have hworks := Channel.sound_works hd.2.2.1 hop (by simp [hw])
    exact (Device.outer_resetDone (d := d.onChannel (Channel.emptySlot i)) fun _ => hworks).sound
      ((d.inner_emptySlot i).outer.sound hd)

theorem Device.outer_completion (slot issue code : Byte) (body : List Byte) (d : Device) :
    d.Outer (d.completion slot issue code body) := by
  unfold Device.completion
  split
  · rename_i i op h
    refine Device.Outer.trans (Device.outer_applyCompletion ?_) (Device.outer_closeMedia _)
    unfold Channel.completes at h
    split at h
    · dsimp only at h
      split at h
      · rename_i hs _ op' hop'
        split at h
        · cases h
          exact hop'
        · cases h
      · cases h
    · cases h
  · exact .refl d

theorem Device.outer_timeout (i : SlotNo) (d : Device) : d.Outer (d.timeout i) := by
  unfold Device.timeout
  split
  · rename_i op hop
    split
    · rename_i ht
      refine Device.Outer.trans ?_ (Device.outer_closeMedia _)
      refine Device.outer_channel fun hc => ?_
      have htr : op.isTransfer = true := by simpa using (Bool.and_eq_true_iff.mp ht).1
      have hw : op.work ≠ .identify := fun e => by simp [Operation.isTransfer, e, Work.kind] at htr
      have hworks := Channel.sound_works hc hop hw
      have he := Channel.sound_emptySlot i hc
      have hst : (if d.channel.state = .running then ChannelState.recovering else d.channel.state) = .recovering := by
        rcases hworks with h | h <;> simp [h]
      simp only [hst]
      refine ⟨hc.1, fun _ => hc.2.1 hworks, fun j o hj => ?_, fun o ho => ⟨rfl, ?_⟩⟩
      · obtain ⟨k₁, k₂, k₃⟩ := he.2.2.1 j o hj
        refine ⟨by simp, ?_, k₃⟩
        have hni : o.work ≠ .identify := fun e => by
          have := k₂.mpr e
          simp only [Channel.emptySlot] at this
          rcases hworks with h | h <;> simp [h] at this
        simp [hni]
      · rcases List.mem_append.mp ho with ho | ho
        · exact (hc.2.2.2 o ho).2
        · rw [List.mem_singleton.mp ho]
          exact htr
    · exact .refl d
  · exact .refl d

theorem Device.outer_reissueTimeout (i : SlotNo) (d : Device) : d.Outer (d.reissueTimeout i) := by
  unfold Device.reissueTimeout
  split
  · split
    · exact d.outer_mediumLost.trans (Device.outer_close _)
    · exact .refl d
  · exact .refl d

theorem Device.outer_controlTimeout (k : OpKind) (d : Device) : d.Outer (d.controlTimeout k) := by
  unfold Device.controlTimeout
  split
  · split
    · exact d.outer_mediumLost.trans (Device.outer_close _)
    · exact .refl d
  · exact .refl d

/-! ### The links and the part's own steps -/

theorem Device.outer_linkCameUp (p : Port) (d : Device) : d.Outer (d.onPort p PortUnit.linkCameUp) := by
  refine Device.outer_setPort fun h ha => ?_
  unfold PortUnit.linkCameUp
  split
  · rename_i hs
    refine ⟨⟨h.1, h.2.1, by simp, fun _ => h.2.2.2 (by simp [hs])⟩, trivial⟩
  · exact ⟨h, ha⟩

theorem Device.outer_releaseHellos (d : Device) : d.Outer d.releaseHellos := by
  have waiting : ∀ p ∈ d.waitingPorts, (d.port p).session ≠ .down := fun p h => by
    obtain ⟨v, hv⟩ := (PortUnit.waiting_iff _).mp (Port.mem_waitingPorts.mp h)
    simp [hv]
  unfold Device.releaseHellos
  split
  · rename_i h
    exact (Device.outer_openSessions (.inl h) waiting).trans (Device.outer_close _)
  · rename_i h
    exact (Device.outer_openSessions (.inr h) waiting).trans (Device.outer_close _)
  · exact .refl d
  · exact .refl d

theorem Device.outer_offerFrame (f : FrameNo) (d : Device) : d.Outer (d.offerFrame f) := by
  unfold Device.offerFrame
  split
  · exact (d.inner_handOut f).outer.trans (Device.outer_close _)
  · exact .refl d

end Sys2Proof.Machine
end

