-- ==== Sys2Proof/Laws/Exec.lean ====
section
/-!
SUPPORT. What the closing of an event does and leaves alone, when a message is taken as it arrives, and that every meaning is
one event of the part: the lemmas a proof about `exec` and `step` cites.
-/

namespace Sys2Proof.Machine

/-! ### The closing -/

theorem Device.settlePorts_of_none {d : Device} (h : d.portStep = none) : d.settlePorts = d := by
  unfold Device.settlePorts
  cases d.settleFuel with
  | zero => rfl
  | succ n => simp [settleLoop, h]

theorem Device.runArbiter_of_none {d : Device} (h : d.arbiterStep = none) : d.runArbiter = d := by
  unfold Device.runArbiter
  cases d.frames.dirtyQueue.length + 16 with
  | zero => rfl
  | succ n => simp [arbiterLoop, h]

theorem Device.quieten_of_calm {d : Device} (h : d.Calm) (ho : d.overflowStep = none) : d.quieten = d := by
  unfold Device.quieten
  rw [closeLoop, Device.settlePorts_of_none h.1, Device.runArbiter_of_none h.2]
  simp [h.1, ho]

/-- A part without a PENDING entry has none to test. -/
theorem Device.testPending_of_none {p : Port} {d : Device}
    (h : ∀ (id : ResId) (e : Reservation), d.reservations.entries[id] = some e → ∀ n tag, e.state ≠ .pending n tag) :
    d.testPending p = d := by
  have one (id : ResId) : d.grantEntry p id = d := by
    unfold Device.grantEntry
    split
    · rename_i h' s c n tag he
      exact (h id _ he n tag rfl).elim
    · rfl
  unfold Device.testPending
  induction List.finRange 16 with
  | nil => rfl
  | cons id ids ih => rw [List.foldl_cons, one, ih]

/-- The rest of an event that leaves nothing to do but write credits changes nothing. -/
theorem Device.settle_of_quiet {d : Device} (h : d.Quiet) : d.settle = d := by
  rw [Device.settle, Device.quieten_of_calm h.1 h.2.1, h.2.2, h.2.2]

theorem Device.grantCredits_of_zero {p : Port} {d : Device} (h : (d.port p).grantSize = 0) : d.grantCredits p = d := by
  unfold Device.grantCredits Device.onPort PortUnit.grant
  simp only [h, if_true]
  cases p <;> rfl

/-- The closing of an event that leaves nothing to do changes nothing. -/
theorem Device.close_of_settled {d : Device} (h : d.Settled) : d.close = d := by
  unfold Device.close
  rw [Device.settle_of_quiet h.1, Device.grantCredits_of_zero (h.2 .a), Device.grantCredits_of_zero (h.2 .b)]

theorem Device.rest_linkLoss (p : Port) (d : Device) : d.Rest (d.linkLoss p) := by
  unfold Device.linkLoss
  split
  · exact d.rest_endSessions _ _ _
  · exact d.rest_onPort p _
  · exact d.rest_onPort p _

theorem Device.rest_overflowStep {d d' : Device} (h : d.overflowStep = some d') : d.Rest d' := by
  obtain ⟨_, _, _, _, rfl⟩ | ⟨_, _, rfl⟩ | ⟨p, _, _, rfl⟩ := Device.overflowStep_cases h
  · exact d.rest_endSessions _ _ _
  · exact (d.rest_linkLoss .a).trans (Device.rest_linkLoss .b _)
  · exact d.rest_linkLoss p

theorem rest_closeLoop (n : Nat) (d : Device) : d.Rest (closeLoop n d) := by
  induction n generalizing d with
  | zero =>
    rw [closeLoop]
    cases h : d.overflowStep with
    | none => exact .refl d
    | some e => exact Device.rest_overflowStep h
  | succ n ih =>
    unfold closeLoop
    dsimp only
    have h : d.Rest d.settlePorts.runArbiter := (d.inner_settlePorts.trans (Device.inner_runArbiter _)).rest
    split
    · exact h.trans (ih _)
    · cases e : d.settlePorts.runArbiter.overflowStep with
      | none => exact h
      | some d' =>
        exact (h.trans (Device.rest_overflowStep e)).trans (ih _)

theorem Device.rest_settle (d : Device) : d.Rest d.settle :=
  (rest_closeLoop _ d).trans ((Device.inner_testPending .a _).trans (Device.inner_testPending .b _)).rest

/-- The closing changes no mode, and the management port only by flags raised. -/
theorem Device.rest_close (d : Device) : d.Rest d.close :=
  (d.rest_settle.trans (Device.inner_grantCredits .a _).rest).trans (Device.inner_grantCredits .b _).rest

/-- A port without a session, idle, its order within bounds: the closing has nothing to do on it. -/
def PortUnit.AtRest (u : PortUnit) : Prop := u.session ≠ .attached ∧ u.Idle ∧ u.overflowed = false

theorem PortUnit.Keeps.idle {u u' : PortUnit} (h : u.Keeps u') (hi : u.Idle) : u'.Idle := by
  obtain ⟨hc, hw, hb, hr⟩ := hi
  refine ⟨h.commands hc, ?_, h.buffers hc hb, Nat.le_zero.mp (hr ▸ h.credits)⟩
  have := h.window hc
  rw [hw] at this
  exact List.length_eq_zero_iff.mp (Nat.le_zero.mp this)

theorem PortUnit.Keeps.atRest {u u' : PortUnit} (h : u.Keeps u') (hr : u.AtRest) : u'.AtRest := by
  refine ⟨h.session ▸ hr.1, h.idle hr.2.1, ?_⟩
  have := hr.2.2
  unfold PortUnit.overflowed at this ⊢
  rw [h.outbound hr.2.1.1 hr.1]
  exact this

theorem Device.linkLoss_other {p q : Port} (hq : q ≠ p) (d : Device) : (d.port q).Keeps ((d.linkLoss p).port q) := by
  have on (f : PortUnit → PortUnit) : (d.port q).Keeps ((d.onPort p f).port q) := by
    rw [Device.port_onPort, if_neg hq]
    exact .refl _
  unfold Device.linkLoss
  split
  · exact Device.endSessions_not_mem (by simpa using hq) _ _ _
  · exact on _
  · exact on _

theorem PortUnit.AtRest.overflows {u : PortUnit} (h : u.AtRest) : u.overflows = false := by
  simp [PortUnit.overflows, h.2.2, PortUnit.grantSize_zero h.2.1.1]

theorem Device.overflows_atRest {d : Device} {q : Port} (h : (d.port q).AtRest) : d.overflows q = false :=
  (((d.inner_testPending q).ports q).atRest h).overflows

theorem Device.keeps_overflowStep {d d' : Device} {q : Port} (h : d.overflowStep = some d') (hr : (d.port q).AtRest) :
    (d.port q).Keeps (d'.port q) := by
  have hq := Device.overflows_atRest hr
  obtain ⟨ha, hb, _⟩ | ⟨ha, hb, _⟩ | ⟨p, hp, _, rfl⟩ := Device.overflowStep_cases h
  · cases q <;> simp_all
  · cases q <;> simp_all
  · refine d.linkLoss_other ?_
    rintro rfl
    rw [hq] at hp
    cases hp

theorem keeps_closeLoop (n : Nat) {d : Device} {q : Port} (hr : (d.port q).AtRest) :
    (d.port q).Keeps ((closeLoop n d).port q) := by
  induction n generalizing d with
  | zero =>
    rw [closeLoop]
    cases h : d.overflowStep with
    | none => exact .refl _
    | some e => exact Device.keeps_overflowStep h hr
  | succ n ih =>
    unfold closeLoop
    dsimp only
    have h : (d.port q).Keeps (d.settlePorts.runArbiter.port q) :=
      (d.inner_settlePorts.trans (Device.inner_runArbiter _)).ports q
    split
    · exact h.trans (ih (h.atRest hr))
    · cases e : d.settlePorts.runArbiter.overflowStep with
      | none => exact h
      | some d' =>
        have k := h.trans (Device.keeps_overflowStep e (h.atRest hr))
        exact k.trans (ih (k.atRest hr))

theorem Device.keeps_settle {d : Device} {q : Port} (hr : (d.port q).AtRest) : (d.port q).Keeps (d.settle.port q) :=
  (keeps_closeLoop _ hr).trans (((Device.inner_testPending .a _).trans (Device.inner_testPending .b _)).ports q)

/-- The closing of an event leaves a port at rest as it stands: its session, its link, its order, and nothing of a session. -/
theorem Device.keeps_close {d : Device} {q : Port} (hr : (d.port q).AtRest) : (d.port q).Keeps (d.close.port q) :=
  ((Device.keeps_settle hr).trans ((Device.inner_grantCredits .a _).ports q)).trans ((Device.inner_grantCredits .b _).ports q)

/-- A port whose link was taken DOWN in the event: its order emptied, and nothing of a session. -/
def PortUnit.Fallen (u : PortUnit) : Prop := u.session = .down ∧ u.linkUp = false ∧ u.outbound = [] ∧ u.Idle

/-- A port whose order overflowed, in session or idle outside one. -/
def PortUnit.Falls (u : PortUnit) : Prop :=
  u.overflowed = true ∧ (u.session = .attached ∨ (u.session ≠ .down ∧ u.Idle))

theorem PortUnit.Fallen.atRest {u : PortUnit} (h : u.Fallen) : u.AtRest :=
  ⟨by rw [h.1]; decide, h.2.2.2, by unfold PortUnit.overflowed; rw [h.2.2.1]; rfl⟩

theorem PortUnit.Keeps.fallen {u u' : PortUnit} (k : u.Keeps u') (h : u.Fallen) : u'.Fallen :=
  ⟨k.session.trans h.1, k.linkUp.trans h.2.1, (k.outbound h.2.2.2.1 (by rw [h.1]; decide)).trans h.2.2.1, k.idle h.2.2.2⟩

theorem PortUnit.Keeps.falls {u u' : PortUnit} (k : u.Keeps u') (h : u.Falls) : u'.Falls := by
  refine ⟨?_, h.2.imp (k.session.trans ·) fun ⟨hs, hi⟩ => ⟨k.session ▸ hs, k.idle hi⟩⟩
  have := h.1
  unfold PortUnit.overflowed at this ⊢
  exact decide_eq_true (lt_of_lt_of_le (of_decide_eq_true this) k.order.length_le)

theorem PortUnit.Ended.fallen {u u' : PortUnit} (h : u.Ended true none u') : u'.Fallen :=
  ⟨h.session, h.linkUp, h.outbound, h.idle⟩

theorem Device.linkLoss_fallen {p : Port} {d : Device}
    (h : (d.port p).session = .attached ∨ ((d.port p).session ≠ .down ∧ (d.port p).Idle)) : ((d.linkLoss p).port p).Fallen := by
  unfold Device.linkLoss
  split
  · exact (Device.endSessions_mem (by simp) (by simp) true none d).fallen
  · rename_i hs
    rw [hs] at h
    simp at h
  · rename_i ha hd
    obtain h | ⟨_, hi⟩ := h
    · exact (ha h).elim
    · rw [Device.onPort_port_same]
      exact ⟨rfl, rfl, rfl, hi⟩

theorem Device.eachPort_raises {ports : List Port} {q : Port} (hq : q ∈ ports) (d : Device) :
    (d.eachPort ports fun p => Device.raise (.ended p)).mgmt.raised (.ended q) = true := by
  unfold Device.eachPort
  induction ports generalizing d with
  | nil => cases hq
  | cons x xs ih =>
    rw [List.foldl_cons]
    by_cases hx : q ∈ xs
    · exact ih hx _
    · obtain rfl : q = x := by simpa [hx] using hq
      exact (Device.inner_foldl (fun d p => d.inner_raise (.ended p)) xs _).mgmt.raised (Mgmt.raised_raise _ _)

/-- R136 step 7: the end of a session raises its condition. -/
theorem Device.endSessions_raises {ports : List Port} {q : Port} (hq : q ∈ ports) (linkLost : Bool) (bye : Option ByeReason)
    (d : Device) : (d.endSessions ports linkLost bye).mgmt.raised (.ended q) = true := Device.eachPort_raises hq _

theorem Device.linkLoss_raises {p : Port} {d : Device} (h : (d.port p).session = .attached) :
    (d.linkLoss p).mgmt.raised (.ended p) = true := by
  unfold Device.linkLoss
  rw [h]
  exact Device.endSessions_raises (by simp) _ _ d

/-- R127: a port whose order overflowed is taken DOWN by the overflow's step, and a session of it ends. -/
theorem Device.falls_overflowStep {q : Port} {d : Device} (h : (d.port q).Falls) : ∃ d', d.overflowStep = some d'
    ∧ (d'.port q).Fallen ∧ ((d.port q).session = .attached → d'.mgmt.raised (.ended q) = true) := by
  have ho : d.overflows q = true := by
    simp [Device.overflows, PortUnit.overflows, (((d.inner_testPending q).ports q).falls h).1]
  cases e : d.overflowStep with
  | none =>
    unfold Device.overflowStep at e
    split at e
    · split at e <;> cases e
    · cases e
    · cases e
    · rename_i ha hb
      cases q <;> simp_all
  | some d' =>
    refine ⟨d', rfl, ?_⟩
    obtain ⟨_, _, _, _, rfl⟩ | ⟨_, _, rfl⟩ | ⟨p, _, hp, rfl⟩ := Device.overflowStep_cases e
    · have hq : q ∈ [Port.a, Port.b] := by cases q <;> decide
      exact ⟨(Device.endSessions_mem (by decide) hq true none d).fallen, fun _ => Device.endSessions_raises hq _ _ d⟩
    · cases q
      · exact ⟨(Device.linkLoss_other (by decide) _).fallen (Device.linkLoss_fallen h.2),
          fun ha => (Device.rest_linkLoss .b _).mgmt.raised (Device.linkLoss_raises ha)⟩
      · have k : (d.port .b).Keeps ((d.linkLoss .a).port .b) := Device.linkLoss_other (by decide) d
        exact ⟨Device.linkLoss_fallen (k.falls h).2, fun ha => Device.linkLoss_raises (k.session.trans ha)⟩
    · obtain rfl | rfl := Port.eq_or_other p q
      · exact ⟨Device.linkLoss_fallen h.2, Device.linkLoss_raises⟩
      · rw [hp] at ho
        cases ho

/-- R127: so it is by the closing of the event, whatever else the closing does. -/
theorem falls_closeLoop (n : Nat) {q : Port} {d : Device} (h : (d.port q).Falls) : ((closeLoop n d).port q).Fallen
    ∧ ((d.port q).session = .attached → (closeLoop n d).mgmt.raised (.ended q) = true) := by
  induction n generalizing d with
  | zero =>
    obtain ⟨d', e, hd⟩ := Device.falls_overflowStep h
    rw [closeLoop]
    rw [e]
    exact hd
  | succ n ih =>
    unfold closeLoop
    dsimp only
    have k : (d.port q).Keeps (d.settlePorts.runArbiter.port q) :=
      (d.inner_settlePorts.trans (Device.inner_runArbiter _)).ports q
    split
    · obtain ⟨hf, hr⟩ := ih (k.falls h)
      exact ⟨hf, fun ha => hr (k.session.trans ha)⟩
    · obtain ⟨d', e, hd⟩ := Device.falls_overflowStep (k.falls h)
      rw [e]
      exact ⟨(keeps_closeLoop n hd.1.atRest).fallen hd.1,
        fun ha => (rest_closeLoop n d').mgmt.raised (hd.2 (k.session.trans ha))⟩

/-- The closing takes the link of a port DOWN whose order overflowed. -/
theorem Device.falls_close {q : Port} {d : Device} (h : (d.port q).Falls) : (d.close.port q).Fallen
    ∧ ((d.port q).session = .attached → d.close.mgmt.raised (.ended q) = true) := by
  obtain ⟨hf, hr⟩ := falls_closeLoop (d.frames.dirtyQueue.length + 16) h
  have g := ((Device.inner_testPending .a d.quieten).trans (Device.inner_testPending .b _)).trans
    ((Device.inner_grantCredits .a d.settle).trans (Device.inner_grantCredits .b _))
  exact ⟨(g.ports q).fallen hf, fun ha => g.mgmt.raised (hr ha)⟩

/-! ### Messages -/

/-- A message that finds its port ready is taken as it arrives. -/
theorem Device.receive_of_takes {p : Port} {m : Inbound} {d : Device} (h : d.Takes p) :
    d.receive p m = d.takeMessage p m := by
  obtain ⟨_, hs, hb, hp⟩ := h
  have hfill : (d.onPort p fun u => { u with backlog := u.backlog ++ [m] }).onPort p (fun u => { u with backlog := [] }) = d := by
    cases p <;> simp_all [Device.onPort, Device.port, Device.setPort]
    · cases hd : d.portA; simp_all
      cases d; simp_all
    · cases hd : d.portB; simp_all
      cases d; simp_all
  have hbk : ((d.onPort p fun u => { u with backlog := u.backlog ++ [m] }).port p).backlog = [m] := by
    rw [Device.port_onPort, if_pos rfl]
    simp [hb]
  have hpz : ((d.onPort p fun u => { u with backlog := u.backlog ++ [m] }).port p).paused = false := by
    rw [Device.port_onPort, if_pos rfl]
    exact hp
  unfold Device.receive
  split
  · rename_i h
    exact (hs h).elim
  · dsimp only
    rw [hbk]
    simp only [List.length_singleton, drainInbound, hbk, hpz, hfill]
    rfl

/-- With the link down there is no message to take. -/
theorem Device.receive_of_down {p : Port} {m : Inbound} {d : Device} (h : (d.port p).session = .down) :
    d.receive p m = d := by
  simp [Device.receive, h]

/-- During the pause a message waits in the link layer. -/
theorem Device.receive_of_paused {p : Port} {m : Inbound} {d : Device} (hs : (d.port p).session ≠ .down)
    (hp : (d.port p).paused = true) : d.receive p m = d.onPort p fun u => { u with backlog := u.backlog ++ [m] } := by
  have hpz : ((d.onPort p fun u => { u with backlog := u.backlog ++ [m] }).port p).paused = true := by
    rw [Device.port_onPort, if_pos rfl]
    exact hp
  unfold Device.receive
  split
  · rename_i h
    exact (hs h).elim
  · dsimp only
    generalize hd : (d.onPort p fun u => { u with backlog := u.backlog ++ [m] }) = d' at hpz ⊢
    cases hn : (d'.port p).backlog with
    | nil => rfl
    | cons x xs => simp [drainInbound, hn, hpz]

/-! ### Outbound orders with room, and commands of a session -/

theorem Device.onPort_congr {p : Port} {d : Device} {f g : PortUnit → PortUnit} (h : f (d.port p) = g (d.port p)) :
    d.onPort p f = d.onPort p g := by
  unfold Device.onPort
  rw [h]

theorem Device.setPort_port_self (p : Port) (d : Device) : d.setPort p (d.port p) = d := by cases p <;> rfl

theorem PortUnit.enqueue_of_room {u : PortUnit} (h : u.outbound.length ≤ 256) (m : OutMsg) :
    u.enqueue m = { u with outbound := u.outbound ++ [m] } := by
  simp [PortUnit.enqueue, h]

/-- A message queued on an order with room stands at its tail. -/
theorem Device.send_of_room {p : Port} {d : Device} (h : (d.port p).outbound.length ≤ 256) (m : OutMsg) :
    d.send p m = d.says p [m] := by
  unfold Device.send Device.says Device.onPort
  rw [PortUnit.enqueue_of_room h]

theorem Device.reply_of_room {p : Port} {d : Device} (h : (d.port p).outbound.length ≤ 256) (t : Tag) (st : Status)
    (pl : Payload) : d.reply p t st pl = d.says p [.response t st 0 none pl] := Device.send_of_room h _

theorem Device.leave_of_room {p : Port} {d : Device} (h : (d.port p).outbound.length ≤ 256) (r : ByeReason) :
    d.onPort p (PortUnit.leave false (some r)) = d.linksWith p (.bye r) :=
  Device.onPort_congr (by simp [PortUnit.leave, PortUnit.enqueue_of_room, h])

/-- A port that takes messages as they arrive has room. -/
theorem Device.Takes.room {p : Port} {d : Device} (h : d.Takes p) : (d.port p).outbound.length < 192 :=
  Nat.lt_of_not_le (of_decide_eq_false h.2.2.2)

/-- A COMMAND of a session on a free tag goes to its acceptance. -/
theorem Device.takeCommand_of_hears {p : Port} {tag : Tag} {d : Device} (h : d.Hears p) (hf : d.TagFree p tag)
    (accept : Device → Device) : d.takeCommand p tag accept = accept d := by
  unfold Device.takeCommand
  rw [h.2]
  unfold Device.TagFree at hf
  simp [hf]

/-- The entry an id names. -/
theorem Reservations.entryAt_of_eq {r : Reservations} {id : Nat} {i : ResId} (h : id = i.val) :
    r.entryAt id = r.entries[i].map fun e => (i, e) := by
  subst h
  simp [Reservations.entryAt]

/-- The slot and operation a completion is taken for. -/
theorem Channel.completes_of {slot issue : Byte} {i : SlotNo} {op : Operation} {c : Channel} (h : slot.toNat = i.val)
    (hop : c.slots[i] = some op) (hi : c.issueCounts[i] = issue) : c.completes slot issue = some (i, op) := by
  unfold Channel.completes
  have hl : slot.toNat < 4 := by omega
  rw [dif_pos hl]
  obtain rfl : (⟨slot.toNat, hl⟩ : SlotNo) = i := Fin.ext h
  dsimp only at hop hi ⊢
  rw [hop]
  simp only [hi, if_true]

/-! ### One command as one event -/

/-- Two next states of one state are equal when their parts are. -/
theorem State.next_congr {s : State} {d d' : Device} (h : d = d') :
    (Host.Outcome.next { s with toDevice := d } : Host.Outcome State Fault Refusal) = .next { s with toDevice := d' } := by
  rw [h]

theorem State.event_of_reset {f : Device → Device} {s : State} (h : s.resetAsserted = true) : s.event f = .next s := by
  simp [State.event, State.always, h]

theorem State.event_of_released {f : Device → Device} {s : State} (h : s.resetAsserted = false) :
    s.event f = .next { s with toDevice := f s.toDevice } := by
  simp [State.event, State.always, h]

/-- A message to a port that takes it as it arrives is one event. -/
theorem State.event_of_takes {p : Port} {s : State} (h : s.Takes p) (m : Inbound) :
    s.event (Device.receive p m) = .next { s with toDevice := s.toDevice.takeMessage p m } := by
  rw [State.event_of_released h.1, Device.receive_of_takes h]

/-- A request of the right length in the mailbox is executed. -/
theorem State.event_execute {code : Byte} {params : List Byte} {s : State} (hr : s.resetAsserted = false)
    (hm : s.mgmt.mailbox = .executing (code :: params)) (hl : requestLength code = some (params.length + 1))
    (act : List Byte → Device → Device) :
    s.event (Device.execute code act) = .next { s with toDevice := act params s.toDevice } := by
  rw [State.event_of_released hr]
  unfold Device.execute
  rw [hm]
  simp [hl]

/-! ### Soundness of the events that are not `Outer`: resets and the management port's own -/

theorem PortUnit.sound_reset (up : Bool) : (PortUnit.reset up).Sound ∧ ∀ m, (PortUnit.reset up).session.allowedIn m := by
  refine ⟨⟨?_, ?_, ?_, fun _ => ?_⟩, fun m => ?_⟩
  · simp [PortUnit.reset]
  · simp [PortUnit.reset]
  · cases up <;> simp [PortUnit.reset]
  · exact ⟨⟨rfl, rfl, rfl⟩, rfl, ⟨rfl, rfl⟩, rfl⟩
  · cases up <;> simp [PortUnit.reset, SessionState.allowedIn]

theorem Reservations.sound_reset (r : Reservations) : ({ Reservations.reset with clockRunning := r.clockRunning } : Reservations).Sound := by
  refine ⟨fun id e h => ?_, fun i j _ a b h => ?_⟩ <;> simp [Reservations.reset] at h

theorem Device.sound_resetPorts {d : Device} {a b : Bool} (ha : d.portA = PortUnit.reset a) (hb : d.portB = PortUnit.reset b) :
    d.PortsSound := by
  intro p
  cases p
  · simp only [Device.port, ha]
    exact ⟨(PortUnit.sound_reset a).1, (PortUnit.sound_reset a).2 _⟩
  · simp only [Device.port, hb]
    exact ⟨(PortUnit.sound_reset b).1, (PortUnit.sound_reset b).2 _⟩

theorem Channel.sound_reset : Channel.reset.Sound := by
  refine ⟨by simp [Channel.reset], by simp [Channel.reset], fun i op h => ?_, by simp [Channel.reset]⟩
  simp [Channel.reset] at h

theorem Channel.sound_startUp : Channel.reset.identify.Sound := Channel.sound_cleared_identify Channel.reset

theorem Device.sound_powerOn (straps : BitVec 2) (a b : Bool) (d : Device) : (d.powerOn straps a b).Sound := by
  refine ⟨Device.sound_resetPorts (a := a) (b := b) rfl rfl, ?_, Channel.sound_startUp, Remap.sound_reset, ?_,
    Tracker.sound_reset⟩
  · simp [Device.powerOn, Device.startUp, Device.toReset, Device.reset, ModeCtl.reset, ModeCtl.Sound]
  · exact Reservations.sound_reset Reservations.reset

theorem Device.sound_resetAssert (d : Device) : d.resetAssert.Sound := by
  refine ⟨Device.sound_resetPorts (a := d.portA.linkUp) (b := d.portB.linkUp) rfl rfl, ?_, Channel.sound_reset,
    Remap.sound_reset, ?_, Tracker.sound_reset⟩
  · simp [Device.resetAssert, Device.toReset, Device.reset, ModeCtl.reset, ModeCtl.Sound]
  · exact Reservations.sound_reset { Reservations.reset with clockRunning := false }

theorem Device.sound_resetRelease {straps : BitVec 2} {d : Device} (h : d.Sound) (hr : d.HeldInReset) :
    (d.resetRelease straps).Sound := by
  unfold Device.resetRelease
  split
  · rename_i hra
    obtain ⟨hm, hc⟩ := hr hra
    refine ⟨Device.sound_resetPorts (a := d.portA.linkUp) (b := d.portB.linkUp) rfl rfl, ?_, ?_, h.2.2.2.1, ?_,
      h.2.2.2.2.2⟩
    · simp [Device.startUp, hm, ModeCtl.reset, ModeCtl.Sound]
    · simp only [Device.startUp, hc]
      exact Channel.sound_startUp
    · exact h.2.2.2.2.1
  · exact h

theorem Device.sound_linkInReset {p : Port} {up : Bool} {d : Device} (h : d.Sound) : (d.linkInReset p up).Sound :=
  (Device.outer_setPort fun _ _ => ⟨(PortUnit.sound_reset up).1, (PortUnit.sound_reset up).2 _⟩).sound h

/-- What the management port changes of itself is nothing of the part's soundness. -/
theorem Device.sound_onMgmt {f : Mgmt → Mgmt} {d : Device} (h : d.Sound) : (d.onMgmt f).Sound := by
  refine ⟨fun p => ?_, h.2⟩
  have := h.1 p
  cases p <;> exact this

theorem Device.sound_respond {code : Byte} {result : MgmtResult} {fields : List Byte} {d : Device} (h : d.Sound) :
    (d.respond code result fields).Sound := Device.sound_onMgmt h

theorem Device.outer_discardHeldFrames (d : Device) : d.Outer d.discardHeldFrames := (d.inner_discardHeldFrames).outer

theorem Device.sound_detach {p : Port} {d : Device} (h : d.Sound) : (d.detach p).Sound := by
  unfold Device.detach
  have same : ∀ (c : Byte) (r : MgmtResult) (f : List Byte), ((d.respond c r f).port p) = d.port p := by
    intro c r f
    cases p <;> rfl
  split
  · rename_i hs
    refine (Device.outer_endSessions (by simp) (fun q hq => ?_) _ _).sound (Device.sound_respond h)
    obtain rfl : q = p := by simpa using hq
    rw [same, hs]
    simp
  · rename_i v hs
    exact (Device.outer_leave (by rw [same, hs]; simp) (by rw [same, hs]; simp) _ _).sound (Device.sound_respond h)
  · exact Device.sound_respond h
  · exact Device.sound_respond h

/-- An execution keeps the part sound when its act does. -/
theorem Device.sound_execute {code : Byte} {act : List Byte → Device → Device} {d : Device} (h : d.Sound)
    (ha : ∀ params, (act params d).Sound) : (d.execute code act).Sound := by
  unfold Device.execute
  split
  · split
    · exact ha _
    · exact h
  · exact h

end Sys2Proof.Machine
end

