-- ==== Sys2Proof/Laws/StoreEvents.lean ====
section
/-!
SUPPORT. Every event of the part keeps the frame store sound, in the terms of `Device.Stores`: the remap unit, the media channel, the
read engines, the sessions, the messages, the modes.
-/

namespace Sys2Proof.Machine

theorem Device.stores_onPort {p : Port} {f : PortUnit → PortUnit} {d : Device} (h : ∀ u, (f u).landing = u.landing) :
    d.Stores (d.onPort p f) := (Device.same_onPort h).stores

theorem Device.stores_shrink {q : List WaiterEntry} {d : Device} (hq : q.Sublist d.frames.waiterQueue) :
    d.Stores (d.setWaiterQueue q) := fun h => h.shrink hq fun _ _ _ => by simp

/-- A frame's record changes in what no collection looks at, and is not available after. -/
theorem Device.stores_alike {f : FrameNo} {b k k' : Nat} {st st' : FrameState} {d : Device}
    (hs : (d.frame f).served = some { block := b, hold := k, state := st }) (hd : st.SameData st') (hn : st' ≠ .clean) :
    d.Stores (d.setServed f (some { block := b, hold := k', state := st' })) := fun h => by
  have hf := Device.setServed_served d f (some { block := b, hold := k', state := st' })
  have al := Frame.alike_of hs hf hd
  obtain ⟨_, _, _, _, _, hk, _⟩ := id al
  refine h.alike f (Device.setServed_frames f _ d) rfl (Device.landing_setServed f _ d) rfl rfl (.inl ⟨rfl, by rw [hk]⟩) al
    (fun _ => .inl ?_) (.inl rfl)
  rw [Bool.eq_false_iff]
  intro ha
  rcases Frame.available_iff.mp ha with h' | ⟨b', h'⟩ <;> rw [hf] at h' <;> cases h'
  exact hn rfl

theorem FrameState.sameData_phase (e : Nat) (n : Option Nat) (ph ph' : Phase) :
    (FrameState.writing e n ph).SameData (.writing e n ph') := ⟨rfl, rfl⟩

/-! ### The remap unit -/

theorem Device.same_lockWith (r : LockReason) (d : Device) : d.SameStore (d.lockWith r) :=
  ((d.same_remap _).trans (Device.same_raise _ _)).trans (Device.same_notifyBoth _ _)

theorem Device.same_enterNoSpares (d : Device) : d.SameStore d.enterNoSpares := by
  unfold Device.enterNoSpares
  split
  · exact d.same_lockWith _
  · exact .refl d

theorem Device.same_enterTableLost (d : Device) : d.SameStore d.enterTableLost := by
  unfold Device.enterTableLost
  split
  · exact .refl d
  · exact d.same_lockWith _

theorem Device.stores_withoutSpare (w : RemapRecord) (d : Device) : d.Stores (d.withoutSpare w) := by
  unfold Device.withoutSpare
  dsimp only
  refine d.same_enterNoSpares.stores.trans ?_
  split
  · exact (Device.same_onRemap _ _).stores.trans (Device.same_requestSpare _ _).stores
  · exact (Device.same_onRemap _ _).stores.trans (Device.stores_makeHeld _ _)

theorem Device.stores_placeRecord (w : RemapRecord) (d : Device) : d.Stores (d.placeRecord w) := by
  unfold Device.placeRecord
  split
  · exact (Device.same_onRemap _ _).stores.trans (Device.same_requestSpare _ _).stores
  · exact d.stores_withoutSpare w

theorem Device.stores_takeIn (f : FrameNo) (block : Nat) (o : Origin) (image : Block) (d : Device) :
    d.Stores (d.takeIn f block o image) := (d.same_onRemap _).stores.trans (Device.stores_placeRecord _ _)

theorem Device.stores_handOver (f : FrameNo) (image : Block) (d : Device) : d.Stores (d.handOver f image) := by
  unfold Device.handOver
  split
  · rename_i b h e n ph hs
    exact (Device.stores_alike hs (FrameState.sameData_phase _ _ _ _) (by simp)).trans (Device.stores_takeIn _ _ _ _ _)
  · exact .refl d

theorem Device.stores_holdEntry (block : Nat) (d : Device) : d.Stores (d.holdEntry block) := by
  unfold Device.holdEntry
  split
  · exact (d.same_onRemap _).stores.trans (Device.stores_makeHeld _ _)
  · exact .refl d

theorem Device.stores_loseBatches (d : Device) : d.Stores d.loseBatches := by
  unfold Device.loseBatches
  dsimp only
  refine Device.Stores.trans ?_ (Device.same_onRemap _ _).stores
  exact ((d.same_onRemap _).trans (Device.same_enterTableLost _)).stores.trans
    (Device.stores_foldl (fun d b => d.stores_holdEntry b) _ _)

theorem Device.stores_persistLoss (c : Copy) (d : Device) : d.Stores (d.persistLoss c) :=
  (((d.same_onRemap _).trans (Device.same_raise _ _)).trans (Device.same_channel _ _)).stores.trans (Device.stores_loseBatches _)

theorem Device.stores_beginPersist (d : Device) : d.Stores d.beginPersist := by
  unfold Device.beginPersist
  split_ifs
  · exact d.stores_loseBatches
  · exact ((d.same_onRemap _).trans (Device.same_requestTable _ _)).stores
  · exact .refl d

theorem Device.stores_settleEntry (block : Nat) (d : Device) : d.Stores (d.settleEntry block) := by
  unfold Device.settleEntry
  split
  · exact (d.same_onRemap _).stores.trans (Device.stores_settleFrame _ _)
  · exact .refl d

theorem Device.stores_toTablePhase (f : FrameNo) (d : Device) : d.Stores (d.toTablePhase f) := by
  unfold Device.toTablePhase
  split
  · rename_i b h e n ph hs
    exact Device.stores_alike hs (FrameState.sameData_phase _ _ _ _) (by simp)
  · exact .refl d

theorem Device.same_testSpares (d : Device) : d.SameStore d.testSpares := by
  unfold Device.testSpares
  split
  · exact d.same_enterNoSpares
  · exact .refl d

theorem Device.stores_spareWriteDone (w : RemapRecord) (s : SpareNo) (d : Device) : d.Stores (d.spareWriteDone w s) := by
  unfold Device.spareWriteDone
  dsimp only
  refine (d.same_onRemap (Remap.placed w s)).stores.trans ?_
  split
  · exact ((Device.same_onRemap _ _).stores.trans (Device.stores_makeHeld _ _)).trans (Device.same_testSpares _).stores
  · exact (((Device.same_onRemap _ _).stores.trans (Device.stores_toTablePhase _ _)).trans (Device.same_testSpares _).stores).trans
      (Device.stores_beginPersist _)

theorem Device.stores_spareCompletion (f : FrameNo) (s : SpareNo) (done : Bool) (d : Device) :
    d.Stores (d.spareCompletion f s done) := by
  unfold Device.spareCompletion
  split
  · split_ifs
    · exact d.stores_spareWriteDone _ s
    · exact ((d.same_onRemap _).stores.trans (Device.stores_placeRecord _ _)).trans (Device.same_testSpares _).stores
    · split
      · exact (d.same_onRemap _).stores.trans (Device.stores_settleFrame _ _)
      · exact (d.same_onRemap _).stores.trans (Device.stores_makeHeld _ _)
      · exact .refl d
  · exact .refl d

/-! ### Holds, windows and the read engines -/

theorem Device.stores_departs (p : Port) (wb : WindowBlock) (d : Device) : d.Stores (d.departs p wb) := by
  unfold Device.departs
  dsimp only
  split
  · exact fun h => h.dropHold _ _
  · exact fun h => h.dropHold _ _
  · exact Device.stores_shrink List.filter_sublist
  · exact .refl d
  · exact .refl d

theorem PortUnit.landing_markMoving (t : Tag) (u : PortUnit) : (u.markMoving t).landing = u.landing := by
  unfold PortUnit.markMoving
  split <;> rfl

theorem stores_refillLoop (n : Nat) (p : Port) (d : Device) : d.Stores (refillLoop n p d) := by
  induction n generalizing d with
  | zero => exact .refl d
  | succ n ih =>
    unfold refillLoop
    split
    · split
      · rename_i t i block _
        refine Device.Stores.trans (d₂ := d.onPort p fun u =>
          { u.markMoving t with window := u.window ++ [WindowBlock.mk t i block .lookup] }) ?_ ?_
        · exact Device.stores_onPort fun u => u.landing_markMoving t
        · exact Device.Stores.trans (fun h => h.lookupWindow _ _) (ih _)
      · exact .refl d
    · exact .refl d

theorem Device.stores_refill (p : Port) (d : Device) : d.Stores (d.refill p) := stores_refillLoop _ p d

theorem stores_leaveWindow (leaves : WindowBlock → Bool) (n : Nat) (p : Port) (d : Device) :
    d.Stores (leaveWindow leaves n p d) := by
  induction n generalizing d with
  | zero => exact .refl d
  | succ n ih =>
    unfold leaveWindow
    split
    · rename_i wb _
      exact ((Device.stores_onPort (f := fun u => { u with window := u.window.erase wb }) fun _ => rfl).trans
        (Device.stores_departs p wb _)).trans (ih _)
    · exact .refl d

theorem Device.stores_leaveWindowTag (p : Port) (t : Tag) (d : Device) : d.Stores (d.leaveWindowTag p t) :=
  stores_leaveWindow _ _ p d

theorem Device.stores_leaveWindowAll (p : Port) (d : Device) : d.Stores (d.leaveWindowAll p) := stores_leaveWindow _ _ p d

theorem Device.same_answerRead (p : Port) (t : Tag) (st : Status) (moved : Nat) (failing : Option Nat) (d : Device) :
    d.SameStore (d.answerRead p t st moved failing) := (d.same_answer _ _ _ _ _ _).trans (Device.same_onPort fun _ => rfl)

theorem Device.same_finishRead (p : Port) (t : Tag) (d : Device) : d.SameStore (d.finishRead p t) := by
  unfold Device.finishRead
  split
  · split
    · exact d.same_answerRead _ _ _ _ _
    · exact .refl d
  · exact .refl d

theorem PortUnit.landing_formData (wb : WindowBlock) (bytes : Block) (u : PortUnit) :
    (u.formData wb bytes).landing = u.landing := by
  unfold PortUnit.formData
  dsimp only
  split
  · exact u.landing_enqueue _
  · exact u.landing_enqueue _

theorem Device.stores_formData (p : Port) (wb : WindowBlock) (f : FrameNo) (d : Device) : d.Stores (d.formData p wb f) := by
  unfold Device.formData
  refine Device.Stores.trans (d₂ := d.onPort p (PortUnit.formData wb (d.frame f).bytes)) ?_ ?_
  · exact Device.stores_onPort fun u => u.landing_formData wb _
  · exact (Device.Stores.trans (fun h => h.dropHold _ f) (Device.same_finishRead _ _ _).stores).trans (Device.stores_refill _ _)

theorem Device.stores_failRead (p : Port) (wb : WindowBlock) (k : FailKind) (d : Device) : d.Stores (d.failRead p wb k) :=
  ((d.same_answerRead _ _ _ _ _).stores.trans (Device.stores_leaveWindowTag _ _ _)).trans (Device.stores_refill _ _)

theorem Device.stores_engineStep {p : Port} {d d' : Device} (h : d.engineStep p = some d') : d.Stores d' := by
  unfold Device.engineStep at h
  split at h
  · split at h
    · split at h
      · split_ifs at h
        cases h
        exact d.stores_formData _ _ _
      · cases h
        exact d.stores_failRead _ _ _
      · cases h
    · cases h
  · cases h

theorem stores_engineLoop (n : Nat) (p : Port) (d : Device) : d.Stores (engineLoop n p d) := by
  induction n generalizing d with
  | zero => exact .refl d
  | succ n ih =>
    unfold engineLoop
    split
    · rename_i e
      exact (Device.stores_engineStep e).trans (ih _)
    · exact .refl d

theorem Device.stores_portStep {d d' : Device} (h : d.portStep = some d') : d.Stores d' := by
  unfold Device.portStep at h
  split at h
  · rename_i e
    cases h
    exact Device.stores_engineStep e
  · exact Device.stores_engineStep h

theorem Device.stores_settlePorts (d : Device) : d.Stores d.settlePorts := by
  unfold Device.settlePorts
  generalize d.settleFuel = n
  induction n generalizing d with
  | zero => exact .refl d
  | succ n ih =>
    unfold settleLoop
    split
    · rename_i e
      exact (Device.stores_portStep e).trans (ih _)
    · exact .refl d

/-! ### The slot arbiter -/

theorem Device.stores_issueWriteback (i : SlotNo) (f : FrameNo) (d : Device) : d.Stores (d.issueWriteback i f) := by
  unfold Device.issueWriteback
  split
  · rename_i b k e o hs
    have issued (ph : Phase) : d.Stores ((d.leaveDirty f).setServed f (some { block := b, hold := k, state := .writing e none ph })) :=
      fun h => by
      have hf := Device.setServed_served (d.leaveDirty f) f (some { block := b, hold := k, state := .writing e none ph })
      refine h.change f (loose' := none) (Device.setServed_frames f _ (d.leaveDirty f)) rfl
        (Device.landing_setServed f _ (d.leaveDirty f)) le_rfl ?_ ?_ ?_ ?_ ?_ (.inl rfl) ?_ ?_ ?_ ?_
      · exact .inl ⟨rfl, by simp [Frame.kind, hs]⟩
      · exact .inr (.inr ⟨rfl, by simp [Frame.kind]⟩)
      · intro sv hv
        rw [hf] at hv
        cases hv
        exact .inl ⟨_, hs, rfl⟩
      · simp [Frame.kind]
      · exact fun _ => .inl (by simp [Frame.available, Frame.evictable])
      · intro x hx
        simp only [Frame.numbers, hf, List.mem_singleton] at hx
        exact .inl (by simp [Frame.numbers, hs, hx])
      · simp [Frame.numbers, hf]
      · exact .inl ⟨rfl, by simp [Frame.unwritten, hs]⟩
      · exact .inl ⟨rfl, by simp [Frame.heldAt, hs]⟩
    dsimp only
    split
    · exact ((issued .spare).trans (Device.same_reportWriting _).stores).trans (Device.stores_takeIn _ _ _ _ _)
    · exact (issued .home).trans ((Device.same_onChannel _ _).trans (Device.same_reportWriting _)).stores
  · exact .refl d

theorem Device.stores_arbiterStep {d d' : Device} (h : d.arbiterStep = some d') : d.Stores d' := by
  unfold Device.arbiterStep at h
  split at h
  · split at h
    · rw [Option.map_eq_some_iff] at h
      obtain ⟨k, -, rfl⟩ := h
      cases k with
      | writeback f => exact d.stores_issueWriteback _ f
      | _ => exact Device.SameStore.stores ⟨rfl, rfl, rfl, rfl, fun p => by cases p <;> rfl, rfl⟩
    · cases h
  · cases h

theorem Device.stores_runArbiter (d : Device) : d.Stores d.runArbiter := by
  unfold Device.runArbiter
  generalize d.frames.dirtyQueue.length + 16 = n
  induction n generalizing d with
  | zero => exact .refl d
  | succ n ih =>
    unfold arbiterLoop
    split
    · rename_i e
      exact (Device.stores_arbiterStep e).trans (ih _)
    · exact .refl d

/-! ### Sessions -/

theorem Device.stores_eachPort {f : Port → Device → Device} (h : ∀ p (d : Device), d.Stores (f p d)) (ports : List Port) (d : Device) :
    d.Stores (d.eachPort ports f) := Device.stores_foldl (fun d p => h p d) ports d

theorem Device.same_openOne (before : Device) (ports : List Port) (d : Device) (p : Port) :
    d.SameStore (Device.openOne before ports d p) := by
  unfold Device.openOne
  dsimp only
  have h : d.SameStore (d.onPort p (PortUnit.openWith d.channel.logicalCapacity d.remap.lock
      ((before.port p.other).attached || ports.contains p.other))) := Device.same_onPort fun _ => PortUnit.landing_enqueue _ _
  split_ifs
  · exact (h.trans (Device.same_notify _ _ _)).trans (Device.same_notify _ _ _)
  · exact h.trans (Device.same_notify _ _ _)
  · exact h.trans (Device.same_notify _ _ _)
  · exact h

theorem Device.same_openSessions (ports : List Port) (d : Device) : d.SameStore (d.openSessions ports) :=
  Device.same_foldl (fun e p => Device.same_openOne d ports e p) ports d

theorem PortUnit.landing_leave (lost : Bool) (bye : Option ByeReason) (u : PortUnit) : (u.leave lost bye).landing = u.landing := by
  unfold PortUnit.leave
  split_ifs
  · rfl
  · cases bye
    · rfl
    · exact PortUnit.landing_enqueue _ _

theorem Device.stores_leave (p : Port) (lost : Bool) (bye : Option ByeReason) (d : Device) :
    d.Stores (d.onPort p (PortUnit.leave lost bye)) := Device.stores_onPort fun u => u.landing_leave lost bye

/-- R136 step 3: the landing buffers are freed once their entries have left the queue. -/
theorem Device.stores_clearBuffers (p : Port) (d : Device) : d.Stores (d.clearBuffers p) := fun h => by
  unfold Device.clearBuffers Device.dropWaiters
  refine (h.shrink List.filter_sublist fun _ _ _ => by simp).setPort fun e he b hr => ?_
  have := (List.mem_filter.mp he).2
  simp [WaiterEntry.landingOf, hr] at this

theorem Device.stores_clearPorts (ports : List Port) (lost : Bool) (bye : Option ByeReason) (d : Device) :
    d.Stores (d.clearPorts ports lost bye) := by
  unfold Device.clearPorts
  dsimp only
  have h : d.Stores ((d.eachPort ports fun p => Device.onPort p (PortUnit.leave lost bye)).eachPort ports fun p =>
      Device.onPort p PortUnit.dropCommands) :=
    (Device.stores_eachPort (fun p d => d.stores_leave p lost bye) ports d).trans
      (Device.stores_eachPort (fun p d => Device.stores_onPort (f := PortUnit.dropCommands) fun _ => rfl) ports _)
  refine Device.Stores.trans (d₂ := if ports.length = 1 then _ else _) ?_
    ((Device.stores_eachPort (fun p d => d.stores_leaveWindowAll p) ports _).trans
      (Device.stores_eachPort (fun p d => d.stores_clearBuffers p) ports _))
  split
  · exact h
  · exact h.trans (Device.stores_shrink List.filter_sublist)

theorem Device.same_tellPartner (ports : List Port) (p : Port) (d : Device) : d.SameStore (d.tellPartner ports p) := by
  unfold Device.tellPartner
  split
  · exact .refl d
  · exact d.same_notify _ _

theorem Device.stores_endSessions (ports : List Port) (lost : Bool) (bye : Option ByeReason) (d : Device) :
    d.Stores (d.endSessions ports lost bye) := by
  unfold Device.endSessions
  dsimp only
  refine Device.Stores.trans ?_ (Device.stores_eachPort (fun p d => (d.same_raise _).stores) ports _)
  refine Device.Stores.trans ?_ (Device.stores_eachPort (fun p d => (d.same_tellPartner ports p).stores) ports _)
  refine Device.Stores.trans ?_ (Device.stores_eachPort (fun p d => (d.same_testPending _).stores) ports _)
  exact (d.stores_clearPorts ports lost bye).trans ((Device.same_dropFlush _ _).trans (Device.same_reservations _ _)).stores

theorem Device.stores_linkLoss (p : Port) (d : Device) : d.Stores (d.linkLoss p) := by
  unfold Device.linkLoss
  split
  · exact d.stores_endSessions _ _ _
  · exact Device.stores_onPort fun _ => rfl
  · exact d.stores_leave _ _ _

theorem Device.stores_violation (p : Port) (d : Device) : d.Stores (d.violation p) := by
  unfold Device.violation
  split
  · exact .refl d
  · exact d.stores_endSessions _ _ _
  · exact d.stores_leave _ _ _

/-! ### The closing -/

theorem PortUnit.landing_promise {l : List BufNo} {b : BufNo} (h : b ∉ l) (u : PortUnit) :
    (l.foldl (fun u b => u.setLanding b .promised) u).landing[b] = u.landing[b] := by
  induction l generalizing u with
  | nil => rfl
  | cons c l ih =>
    obtain ⟨hc, hl⟩ := not_or.mp (mt List.mem_cons.mpr h)
    exact (ih hl _).trans (u.setLanding_other hc .promised)

/-- R130: only FREE buffers are promised, and none of them waits for a frame. -/
theorem Device.stores_grantCredits (p : Port) (d : Device) : d.Stores (d.grantCredits p) := fun h => by
  unfold Device.grantCredits Device.onPort
  refine h.setPort fun e he b hr => ?_
  obtain ⟨t, i, y, ho⟩ := h.landed e he p b hr
  unfold PortUnit.grant
  dsimp only
  split
  · rfl
  · have hb : b ∉ (d.port p).freeBuffers.take (d.port p).grantSize := fun hm => by
      have := (List.mem_filter.mp (List.mem_of_mem_take hm)).2
      simp [ho] at this
    simp only [PortUnit.landing_enqueue]
    exact PortUnit.landing_promise hb _

theorem Device.stores_overflowStep {d d' : Device} (h : d.overflowStep = some d') : d.Stores d' := by
  obtain ⟨_, _, _, _, rfl⟩ | ⟨_, _, rfl⟩ | ⟨p, _, _, rfl⟩ := Device.overflowStep_cases h
  · exact d.stores_endSessions _ _ _
  · exact (d.stores_linkLoss .a).trans (Device.stores_linkLoss .b _)
  · exact d.stores_linkLoss p

theorem stores_closeLoop (n : Nat) (d : Device) : d.Stores (closeLoop n d) := by
  induction n generalizing d with
  | zero =>
    rw [closeLoop]
    cases h : d.overflowStep with
    | none => exact .refl d
    | some e => exact Device.stores_overflowStep h
  | succ n ih =>
    unfold closeLoop
    dsimp only
    have h := d.stores_settlePorts.trans (Device.stores_runArbiter _)
    split
    · exact h.trans (ih _)
    · cases e : d.settlePorts.runArbiter.overflowStep with
      | none => exact h
      | some d' =>
        exact h.trans ((Device.stores_overflowStep e).trans (ih _))

theorem Device.stores_settle (d : Device) : d.Stores d.settle :=
  (stores_closeLoop _ d).trans ((Device.same_testPending _ _).trans (Device.same_testPending _ _)).stores

theorem Device.stores_close (d : Device) : d.Stores d.close :=
  (d.stores_settle.trans (Device.stores_grantCredits .a _)).trans (Device.stores_grantCredits .b _)

/-! ### Landing buffers discarded -/

theorem Device.stores_discardBuffer (p : Port) (b : BufNo) (d : Device) : d.Stores (d.discardBuffer p b) := fun h => by
  unfold Device.discardBuffer Device.leaveWaiters
  refine (h.shrink List.filter_sublist fun _ _ _ => by simp).setBuffer (b := b) (fun u c hc => ?_) fun e he hr => ?_
  · rw [PortUnit.landing_freeBuffer, if_neg hc]
  · have := (List.mem_filter.mp he).2
    simp [hr] at this

theorem Device.stores_discardBuffers (p : Port) (t : Tag) (d : Device) : d.Stores (d.discardBuffers p t) :=
  Device.stores_foldl (fun d b => d.stores_discardBuffer p b) _ d

/-! ### Modes -/

theorem Device.stores_faultRead (p : Port) (t : Tag) (d : Device) : d.Stores (d.faultRead p t) := by
  unfold Device.faultRead
  split
  · exact (d.stores_leaveWindowTag p t).trans (Device.same_answerRead _ _ _ _ _ _).stores
  · exact .refl d

theorem Device.stores_faultWrite (p : Port) (t : Tag) (d : Device) : d.Stores (d.faultWrite p t) := by
  unfold Device.faultWrite
  split
  · exact ((d.stores_discardBuffers p t).trans (Device.stores_onPort fun _ => by rfl)).trans (Device.same_answer _ _ _ _ _ _ _).stores
  · exact .refl d

theorem Device.stores_faultPort (p : Port) (d : Device) : d.Stores (d.faultPort p) :=
  (Device.stores_foldl (fun d t => d.stores_faultRead p t) _ d).trans (Device.stores_foldl (fun d t => d.stores_faultWrite p t) _ _)

theorem Device.same_faultFlush (e : FlushEntry) (d : Device) : d.SameStore (d.faultFlush e) := by
  unfold Device.faultFlush
  split
  · exact d.same_answer _ _ _ _ _ _
  · exact d.same_answer _ _ _ _ _ _
  · exact .refl d

theorem Device.stores_faultAnswers (d : Device) : d.Stores d.faultAnswers := by
  unfold Device.faultAnswers
  dsimp only
  refine Device.Stores.trans ?_ (Device.same_faultPending _).stores
  refine Device.Stores.trans ?_ (Device.same_foldl (fun d e => d.same_faultFlush e) _ _).stores
  exact (((Device.stores_shrink List.filter_sublist).trans (Device.stores_faultPort .a _)).trans
    (Device.stores_faultPort .b _)).trans (Device.same_setFlushList _ _).stores

theorem Device.stores_enterFaulted (c : FaultCause) (d : Device) : d.Stores (d.enterFaulted c) := by
  unfold Device.enterFaulted
  dsimp only
  split
  · exact ((d.same_mode _).stores.trans (Device.stores_faultAnswers _)).trans (Device.same_notifyBoth _ _).stores
  · exact (d.same_mode _).stores
  · exact ((d.same_mode _).trans (Device.same_openSessions _ _)).stores
  · exact ((d.same_mode _).trans (Device.same_openSessions _ _)).stores

theorem Device.stores_capacityOutOfRange (d : Device) : d.Stores d.capacityOutOfRange := by
  unfold Device.capacityOutOfRange
  split
  · exact (d.same_raise _).stores.trans (Device.stores_enterFaulted _ _)
  · exact .refl d

theorem Device.stores_tableUnreadable (d : Device) : d.Stores d.tableUnreadable := by
  unfold Device.tableUnreadable
  split
  · exact (d.same_raise _).stores.trans (Device.stores_enterFaulted _ _)
  · exact .refl d

theorem Device.stores_mediumLost (d : Device) : d.Stores d.mediumLost := by
  unfold Device.mediumLost
  dsimp only
  refine Device.Stores.trans ?_ (Device.stores_enterFaulted _ _)
  refine Device.SameStore.stores (.trans ?_ (Device.same_raise _ _))
  exact ⟨rfl, rfl, rfl, rfl, fun p => by cases p <;> rfl, rfl⟩

theorem Device.same_restartDone (d : Device) : d.SameStore d.restartDone := by
  unfold Device.restartDone
  split
  · exact (d.same_mode _).trans (Device.same_raise _ _)
  · exact .refl d

theorem Device.same_tableLoaded (d : Device) : d.SameStore d.tableLoaded := by
  unfold Device.tableLoaded
  split
  · exact ((d.same_mode _).trans (Device.same_openSessions _ _)).trans (Device.same_restartDone _)
  · exact .refl d

/-- A frame store whose frames are all FREE, with nothing in a collection or a set, is sound. -/
theorem Device.storeBut_of_free {d : Device} (hf : ∀ f, (d.frame f).served = none) (hc : d.frames.cleanList = [])
    (hd : d.frames.dirtyQueue = []) (hq : d.frames.waiterQueue = []) (hu : d.tracker.unwritten = []) (hh : d.tracker.held = []) :
    d.StoreBut none none := by
  have hk (f : FrameNo) : (d.frame f).kind = .free := by simp [Frame.kind, hf f]
  have hn (f : FrameNo) : (d.frame f).numbers = [] := by simp [Frame.numbers, hf f]
  have hcount : d.frames.count .held = 0 := by
    unfold FrameStore.count
    refine List.countP_eq_zero.mpr fun fr hm => ?_
    obtain ⟨i, hi, rfl⟩ := List.getElem_of_mem hm
    have := hk ⟨i, by simpa using hi⟩
    simp only [Device.frame, Fin.getElem_fin] at this
    simp [this]
  refine ⟨?_, by simp [hc], by simp [hc, hk], by simp [hd], by simp [hd, hk], by omega, by simp [hq], by simp [hq], by simp [hn],
    by simp [hn], by simp [hn], by simp [hu, Frame.unwritten, hf], by simp [hh, Frame.heldAt, hf], by simp [hq], by simp [hq]⟩
  intro f g sv sw h
  rw [hf] at h
  cases h

theorem FrameStore.cleared_free (fs : FrameStore) (f : FrameNo) : fs.cleared.frames[f].served = none := by
  simp [FrameStore.cleared, vecMap]

theorem Device.stores_clearing (d : Device) : d.Stores d.clearing := fun _ => by
  unfold Device.clearing
  dsimp only
  split <;> exact Device.storeBut_of_free (fun f => FrameStore.cleared_free _ f) rfl rfl rfl rfl rfl

theorem Device.stores_drainTest (d : Device) : d.Stores d.drainTest := by
  unfold Device.drainTest
  split
  · exact d.stores_clearing
  · exact .refl d

theorem Device.stores_restartSessions (d : Device) : d.Stores d.restartSessions :=
  (d.stores_endSessions _ _ _).trans (Device.same_reservations _ _).stores

theorem Device.stores_softRestart (d : Device) : d.Stores d.softRestart := by
  unfold Device.softRestart
  split
  · exact ((d.same_mode _).stores.trans (Device.stores_restartSessions _)).trans (Device.stores_drainTest _)
  · exact (d.same_mode _).stores.trans (Device.stores_drainTest _)
  · exact .refl d
  · exact ((d.same_mode _).stores.trans (Device.stores_restartSessions _)).trans (Device.stores_clearing _)

/-! ### The table reads and writes -/

theorem Device.same_loadEnd (entries : List RemapEntry) (retired : Nat → Bool) (d : Device) :
    d.SameStore (d.loadEnd entries retired) := by
  unfold Device.loadEnd
  dsimp only
  split
  · exact ((d.same_onRemap _).trans (Device.same_enterNoSpares _)).trans (Device.same_tableLoaded _)
  · exact (d.same_onRemap _).trans (Device.same_tableLoaded _)

theorem Device.same_loadCopy (c : Copy) (chosen other : CopyFinding) (d : Device) : d.SameStore (d.loadCopy c chosen other) := by
  unfold Device.loadCopy
  split
  · dsimp only
    split
    · exact ((d.same_onRemap _).trans (Device.same_raise _ _)).trans (Device.same_loadEnd _ _ _)
    · exact (d.same_onRemap _).trans (Device.same_loadEnd _ _ _)
  · exact .refl d

theorem Device.same_beginFormat (d : Device) : d.SameStore d.beginFormat :=
  ((d.same_onRemap _).trans (Device.same_raise _ _)).trans (Device.same_requestTable _ _)

theorem Device.stores_chooseCopy (a b : CopyFinding) (d : Device) : d.Stores (d.chooseCopy a b) := by
  unfold Device.chooseCopy
  split
  · split
    · exact (d.same_loadCopy _ _ _).stores
    · exact (d.same_loadCopy _ _ _).stores
  · exact (d.same_loadCopy _ _ _).stores
  · exact (d.same_loadCopy _ _ _).stores
  · split
    · exact d.same_beginFormat.stores
    · exact (d.same_onRemap _).stores.trans (Device.stores_tableUnreadable _)

theorem Device.stores_tableReadDone (phys : Nat) (o : ReadOutcome) (d : Device) : d.Stores (d.tableReadDone phys o) := by
  unfold Device.tableReadDone
  split
  · dsimp only
    split
    · exact (d.same_onRemap _).stores.trans (Device.stores_chooseCopy _ _ _)
    · exact (d.same_onRemap _).stores
  · exact .refl d

theorem Device.stores_flip (c : Copy) (g : Nat) (format : Bool) (d : Device) : d.Stores (d.flip c g format) := by
  unfold Device.flip
  dsimp only
  have h : d.Stores (Device.onRemap (fun r => { r with inFlight := [], persist := .idle })
      (d.remap.inFlight.foldl (fun d b => d.settleEntry b) (d.onRemap fun r =>
        { r.setDegraded c false with
            activeCopy := some c, generation := g,
            table := r.table.map fun e => if d.remap.inFlight.contains e.block then { e with state := .active } else e }))) :=
    ((d.same_onRemap _).stores.trans (Device.stores_foldl (fun d b => d.stores_settleEntry b) _ _)).trans
      (Device.same_onRemap _ _).stores
  split
  · exact h.trans (Device.same_loadEnd _ _ _).stores
  · exact h.trans (Device.stores_beginPersist _)

theorem Device.stores_formatFailed (d : Device) : d.Stores d.formatFailed :=
  (((d.same_channel _).trans (Device.same_onRemap _ _)).trans (Device.same_raise _ _)).stores.trans
    (Device.stores_tableUnreadable _)

theorem Device.stores_tableWriteDone (phys : Nat) (done : Bool) (image : Block) (d : Device) :
    d.Stores (d.tableWriteDone phys done image) := by
  unfold Device.tableWriteDone
  split
  · exact .refl d
  · split
    · dsimp only
      split
      · exact .refl d
      · split
        · exact (d.same_onRemap _).stores.trans (Device.stores_flip _ _ _ _)
        · exact (d.same_onRemap _).stores
      · exact ((d.same_onRemap _).trans (Device.same_requestTable _ _)).stores
      · split
        · exact d.stores_formatFailed
        · exact d.stores_persistLoss _
    · exact .refl d

theorem Device.stores_identified (outcome : Option Nat) (d : Device) : d.Stores (d.identified outcome) := by
  unfold Device.identified
  split
  · split
    · dsimp only
      split
      · exact (((d.same_onChannel _).trans (Device.same_mode _ _)).trans (Device.same_onRemap _ _)).stores.trans
          (Device.same_requestTable _ _).stores
      · exact (d.same_onChannel _).stores
    · exact d.stores_capacityOutOfRange
  · exact d.stores_mediumLost

theorem Device.stores_resetDone (done : Bool) (d : Device) : d.Stores (d.resetDone done) := by
  unfold Device.resetDone
  split
  · exact (d.same_onChannel _).stores
  · exact d.stores_mediumLost

/-! ### Completions and timeouts -/

theorem Device.stores_placeReset (d : Device) : d.Stores d.placeReset := by
  unfold Device.placeReset
  split
  · exact (d.same_onChannel _).stores
  · exact .refl d

theorem Device.stores_closeMedia (d : Device) : d.Stores d.closeMedia :=
  (d.stores_placeReset.trans (Device.stores_close _)).trans (Device.stores_drainTest _)

theorem Device.stores_applyCompletion (i : SlotNo) (op : Operation) (code : Byte) (body : List Byte) (d : Device) :
    d.Stores (d.applyCompletion i op code body) := by
  unfold Device.applyCompletion
  dsimp only
  split
  · exact (d.stores_fillDone _ _).trans (Device.same_onChannel _ _).stores
  · exact (d.stores_tableReadDone _ _).trans (Device.same_onChannel _ _).stores
  · refine Device.Stores.trans ?_ (Device.same_onChannel _ _).stores
    split
    · exact d.stores_settleFrame _
    · exact d.stores_handOver _ _
  · exact (d.stores_spareCompletion _ _ _).trans (Device.same_onChannel _ _).stores
  · exact (d.stores_tableWriteDone _ _ _).trans (Device.same_onChannel _ _).stores
  · exact (d.same_onChannel _).stores.trans (Device.stores_identified _ _)
  · exact (d.same_onChannel _).stores.trans (Device.stores_resetDone _ _)

theorem Device.stores_completion (slot issue code : Byte) (body : List Byte) (d : Device) :
    d.Stores (d.completion slot issue code body) := by
  unfold Device.completion
  split
  · exact (d.stores_applyCompletion _ _ _ _).trans (Device.stores_closeMedia _)
  · exact .refl d

theorem Device.stores_timeout (i : SlotNo) (d : Device) : d.Stores (d.timeout i) := by
  unfold Device.timeout
  split
  · split
    · exact (d.same_onChannel _).stores.trans (Device.stores_closeMedia _)
    · exact .refl d
  · exact .refl d

theorem Device.stores_reissueTimeout (i : SlotNo) (d : Device) : d.Stores (d.reissueTimeout i) := by
  unfold Device.reissueTimeout
  split
  · split
    · exact d.stores_mediumLost.trans (Device.stores_close _)
    · exact .refl d
  · exact .refl d

theorem Device.stores_controlTimeout (k : OpKind) (d : Device) : d.Stores (d.controlTimeout k) := by
  unfold Device.controlTimeout
  split
  · split
    · exact d.stores_mediumLost.trans (Device.stores_close _)
    · exact .refl d
  · exact .refl d

/-! ### Messages -/

theorem Device.stores_helloLinked (p : Port) (v : BitVec 16) (d : Device) : d.Stores (d.helloLinked p v) := by
  unfold Device.helloLinked
  split_ifs
  · exact (d.same_send _ _).stores
  · exact (d.same_openSessions _).stores
  · exact Device.stores_onPort fun _ => rfl

theorem Device.stores_takeHello (p : Port) (v : BitVec 16) (d : Device) : d.Stores (d.takeHello p v) := by
  unfold Device.takeHello
  split
  · exact .refl d
  · exact d.stores_helloLinked p v
  · split
    · exact d.stores_leave _ _ _
    · exact Device.stores_onPort fun _ => rfl
  · split
    · exact d.stores_endSessions _ _ _
    · exact (d.stores_endSessions _ _ _).trans (Device.stores_helloLinked _ _ _)

theorem Device.stores_takeBye (p : Port) (d : Device) : d.Stores (d.takeBye p) := by
  unfold Device.takeBye
  split
  · exact .refl d
  · exact d.stores_violation p
  · exact d.stores_leave _ _ _
  · exact d.stores_endSessions _ _ _

theorem Device.stores_takeCommand {p : Port} {tag : Tag} {accept : Device → Device} {d : Device} (h : d.Stores (accept d)) :
    d.Stores (d.takeCommand p tag accept) := by
  unfold Device.takeCommand
  split
  · split
    · exact (d.same_notify _ _).stores
    · exact h
  · exact d.stores_violation p

theorem Device.stores_acceptRead (p : Port) (tag : Tag) (start count : Nat) (d : Device) :
    d.Stores (d.acceptRead p tag start count) := by
  unfold Device.acceptRead
  split_ifs
  · exact (d.same_reply _ _ _ _).stores
  · exact (d.same_reply _ _ _ _).stores
  · exact (d.same_reply _ _ _ _).stores
  · refine Device.Stores.trans ?_ (Device.stores_refill _ _)
    exact ((d.same_setCommand _ _ _).trans (Device.same_onPort fun _ => by rfl)).stores

theorem Device.same_acceptWrite (p : Port) (tag : Tag) (durable : Bool) (start count : Nat) (d : Device) :
    d.SameStore (d.acceptWrite p tag durable start count) := by
  unfold Device.acceptWrite
  split_ifs
  · exact d.same_reply _ _ _ _
  · exact d.same_reply _ _ _ _
  · exact d.same_reply _ _ _ _
  · exact d.same_reply _ _ _ _
  · exact d.same_reply _ _ _ _
  · exact (d.same_setCommand _ _ _).trans (Device.same_onPort fun _ => rfl)
  · exact (d.same_setCommand _ _ _).trans (Device.same_onPort fun _ => rfl)

theorem Device.same_acceptFlush (p : Port) (tag : Tag) (d : Device) : d.SameStore (d.acceptFlush p tag) := by
  unfold Device.acceptFlush
  split
  · exact d.same_reply _ _ _ _
  · exact (d.same_setCommand _ _ _).trans (Device.same_joinFlush _ _)

theorem Device.same_acceptReserve (p : Port) (tag : Tag) (start count ticks : Nat) (d : Device) :
    d.SameStore (d.acceptReserve p tag start count ticks) := by
  unfold Device.acceptReserve
  split_ifs
  · exact d.same_reply _ _ _ _
  · exact d.same_reply _ _ _ _
  · exact d.same_reply _ _ _ _
  · unfold Device.decideReserve
    split
    · exact d.same_reply _ _ _ _
    · split
      · exact d.same_reply _ _ _ _
      · split
        · exact (d.same_setEntry _ _).trans (Device.same_setCommand _ _ _ _)
        · exact (d.same_setEntry _ _).trans (Device.same_reply _ _ _ _ _)

theorem Device.same_acceptRenew (p : Port) (tag : Tag) (id ticks : Nat) (d : Device) :
    d.SameStore (d.acceptRenew p tag id ticks) := by
  unfold Device.acceptRenew
  split
  · exact d.same_reply _ _ _ _
  · split
    · split
      · split
        · exact (d.same_setEntry _ _).trans (Device.same_reply _ _ _ _ _)
        · exact (d.same_setEntry _ _).trans (Device.same_reply _ _ _ _ _)
        · exact d.same_reply _ _ _ _
      · exact d.same_reply _ _ _ _
    · exact d.same_reply _ _ _ _

theorem Device.same_acceptRelease (p : Port) (tag : Tag) (id : Nat) (d : Device) : d.SameStore (d.acceptRelease p tag id) := by
  unfold Device.acceptRelease
  split
  · split
    · exact d.same_reply _ _ _ _
    · split
      · exact (d.same_setEntry _ _).trans (Device.same_reply _ _ _ _ _)
      · exact d.same_reply _ _ _ _
    · split
      · exact (d.same_setEntry _ _).trans (Device.same_reply _ _ _ _ _)
      · exact d.same_reply _ _ _ _
  · exact d.same_reply _ _ _ _

theorem PortUnit.landing_leaveWriteList (t : Tag) (u : PortUnit) : (u.leaveWriteList t).landing = u.landing := by
  unfold PortUnit.leaveWriteList PortUnit.promoteHead
  split
  · split
    · rfl
    · split <;> rfl
  · rfl

theorem PortUnit.lowestPromised_some {u : PortUnit} {b : BufNo} (h : u.lowestPromised = some b) : u.landing[b] = .promised := by
  have := List.find?_some h
  simpa using this

theorem Device.stores_acceptData {p : Port} {buf : BufNo} {d : Device} (hb : (d.port p).landing[buf] = .promised) (tag : Tag)
    (w : WriteCmd) (index : Nat) (bytes : Block) : d.Stores (d.acceptData p buf tag w index bytes) := by
  unfold Device.acceptData
  dsimp only
  have h : d.Stores (d.onPort p fun u =>
      let u := (u.setLanding buf (.occupied tag index (w.start + index) bytes)).setCommand tag
        (some (.write { w with received := w.received + 1 }))
      let u := { u with commitOrder := u.commitOrder ++ [buf] }
      if w.received + 1 = w.count then u.leaveWriteList tag else u) := fun h => by
    refine h.setBuffer (b := buf) (fun u c hc => ?_) (h.not_waiting fun t i k y e => by rw [hb] at e; cases e)
    dsimp only
    split
    · simp only [PortUnit.landing_leaveWriteList]
      exact u.setLanding_other hc _
    · exact u.setLanding_other hc _
  split
  · exact h.trans fun h => h.tryCommit p
  · exact h

theorem Device.stores_takeData (p : Port) (tag : Tag) (index : Nat) (bytes : Block) (d : Device) :
    d.Stores (d.takeData p tag index bytes) := by
  unfold Device.takeData
  split
  · unfold Device.landData
    split
    · exact d.stores_violation p
    · rename_i buf hb
      have hp := PortUnit.lowestPromised_some hb
      split
      · split
        · exact Device.stores_acceptData hp tag _ index bytes
        · exact d.stores_violation p
      · exact fun h => h.setBuffer (b := buf) (fun u c hc => u.setLanding_other hc _)
          (h.not_waiting fun t i k y e => by rw [hp] at e; cases e)
  · exact d.stores_violation p

theorem Device.stores_takeCredit (p : Port) (count : Nat) (d : Device) : d.Stores (d.takeCredit p count) := by
  unfold Device.takeCredit
  split
  · split
    · exact d.stores_violation p
    · exact Device.stores_onPort fun _ => rfl
  · exact d.stores_violation p

theorem Device.same_cancelFlush (p : Port) (tag : Tag) (moved : Nat) (d : Device) : d.SameStore (d.cancelFlush p tag moved) :=
  (d.same_answer _ _ _ _ _ _).trans (Device.same_dropFlush _ _)

theorem Device.stores_takeCancel (p : Port) (tag : Tag) (d : Device) : d.Stores (d.takeCancel p tag) := by
  unfold Device.takeCancel
  split
  · unfold Device.cancelOpen
    split
    · exact (d.same_notify _ _).stores
    · exact ((d.stores_leaveWindowTag p tag).trans (Device.same_answerRead _ _ _ _ _ _).stores).trans (Device.stores_refill _ _)
    · split
      · exact (d.same_cancelFlush _ _ _).stores
      · unfold Device.cancelMoving
        refine Device.Stores.trans (d₂ := ((d.onPort p (PortUnit.leaveWriteList tag)).discardBuffers p tag).tryCommit p) ?_
          (Device.same_answer _ _ _ _ _ _ _).stores
        exact ((Device.stores_onPort fun u => u.landing_leaveWriteList tag).trans (Device.stores_discardBuffers _ _ _)).trans
          fun h => h.tryCommit p
    · exact (d.same_cancelFlush _ _ _).stores
    · exact ((d.same_setEntry _ _).trans (Device.same_answer _ _ _ _ _ _ _)).stores
  · exact d.stores_violation p

/-- One inbound message, whole. -/
theorem Device.stores_takeMessage (p : Port) (m : Inbound) (d : Device) : d.Stores (d.takeMessage p m) := by
  cases m with
  | damaged => exact (d.stores_linkLoss p).trans (Device.stores_close _)
  | unknownKind k => exact (d.stores_violation p).trans (Device.stores_close _)
  | unknownOpcode o => exact (d.stores_violation p).trans (Device.stores_close _)
  | hello v => exact (d.stores_takeHello p v).trans (Device.stores_close _)
  | read t s c => exact (Device.stores_takeCommand (d.stores_acceptRead p t s c)).trans (Device.stores_close _)
  | write t du s c => exact (Device.stores_takeCommand (d.same_acceptWrite p t du s c).stores).trans (Device.stores_close _)
  | flush t => exact (Device.stores_takeCommand (d.same_acceptFlush p t).stores).trans (Device.stores_close _)
  | reserve t s c k => exact Device.stores_takeCommand (d.same_acceptReserve p t s c k).stores
  | renew t i k => exact Device.stores_takeCommand (d.same_acceptRenew p t i k).stores
  | release t i => exact Device.stores_takeCommand (d.same_acceptRelease p t i).stores
  | query t => exact Device.stores_takeCommand (d.same_reply _ _ _ _).stores
  | data t i b => exact (d.stores_takeData p t i b).trans (Device.stores_close _)
  | credit c => exact (d.stores_takeCredit p c).trans (Device.stores_close _)
  | cancel t => exact (d.stores_takeCancel p t).trans (Device.stores_close _)
  | bye => exact (d.stores_takeBye p).trans (Device.stores_close _)

theorem stores_drainInbound (n : Nat) (p : Port) (d : Device) : d.Stores (drainInbound n p d) := by
  induction n generalizing d with
  | zero => exact .refl d
  | succ n ih =>
    unfold drainInbound
    split
    · exact .refl d
    · split
      · exact .refl d
      · rename_i m rest _ _
        exact ((Device.stores_onPort (f := fun u => { u with backlog := rest }) fun _ => rfl).trans
          (Device.stores_takeMessage p m _)).trans (ih _)

theorem Device.stores_receive (p : Port) (m : Inbound) (d : Device) : d.Stores (d.receive p m) := by
  unfold Device.receive
  split
  · exact .refl d
  · exact (Device.stores_onPort (f := fun u => { u with backlog := u.backlog ++ [m] }) fun _ => rfl).trans (stores_drainInbound _ p _)

theorem Device.stores_messageSent (p : Port) (d : Device) : d.Stores (d.messageSent p) := by
  unfold Device.messageSent
  split
  · exact .refl d
  · rename_i m rest _
    exact (Device.stores_onPort (f := fun u => { u with outbound := rest, lineOut := m.bytes }) fun _ => rfl).trans
      (stores_drainInbound _ p _)

/-! ### The part's own steps, the links and the management port -/

theorem Device.stores_offerFrame (f : FrameNo) (d : Device) : d.Stores (d.offerFrame f) := by
  unfold Device.offerFrame
  split
  · rename_i ha
    exact (Device.stores_handOut ha).trans (Device.stores_close _)
  · exact .refl d

theorem Device.stores_releaseHellos (d : Device) : d.Stores d.releaseHellos := by
  unfold Device.releaseHellos
  split
  · exact (d.same_openSessions _).stores.trans (Device.stores_close _)
  · exact (d.same_openSessions _).stores.trans (Device.stores_close _)
  · exact .refl d
  · exact .refl d

theorem Device.stores_linkCameUp (p : Port) (d : Device) : d.Stores (d.onPort p PortUnit.linkCameUp) :=
  Device.stores_onPort fun u => by
    unfold PortUnit.linkCameUp
    split <;> rfl

theorem Device.same_onMgmt (f : Mgmt → Mgmt) (d : Device) : d.SameStore (d.onMgmt f) := d.same_mgmt _

theorem Device.stores_execute {code : Byte} {act : List Byte → Device → Device} {d : Device} (h : ∀ params, d.Stores (act params d)) :
    d.Stores (d.execute code act) := by
  unfold Device.execute
  split
  · split
    · exact h _
    · exact .refl d
  · exact .refl d

theorem Device.stores_detach (p : Port) (d : Device) : d.Stores (d.detach p) := by
  unfold Device.detach
  split
  · exact (d.same_onMgmt _).stores.trans (Device.stores_endSessions _ _ _ _)
  · exact (d.same_onMgmt _).stores.trans (Device.stores_leave _ _ _ _)
  · exact (d.same_onMgmt _).stores
  · exact (d.same_onMgmt _).stores

theorem Device.stores_detachPort (which : Nat) (d : Device) : d.Stores (d.detachPort which) := by
  unfold Device.detachPort
  split
  · exact (d.stores_detach .a).trans (Device.stores_close _)
  · exact (d.stores_detach .b).trans (Device.stores_close _)
  · exact (d.same_onMgmt _).stores

theorem Device.stores_discardHeld (d : Device) : d.Stores d.discardHeld :=
  ((d.same_onMgmt _).stores.trans (Device.stores_discardHeldFrames _)).trans (Device.stores_close _)

theorem Device.stores_takeSoftRestart (d : Device) : d.Stores d.takeSoftRestart :=
  ((d.same_onMgmt _).stores.trans (Device.stores_softRestart _)).trans (Device.stores_close _)

end Sys2Proof.Machine
end

