-- ==== Sys2Proof/Tests/Slice0.lean ====
section
/-!
SUPPORT. The model's own tests: the checks of WellFormed each refusing an ill-formed term, the CRC and the decoding of messages
written out byte by byte, one-step tests of the commands on small states, and for each obligation with hypotheses a state and
operands that meet them, clause by clause.
-/

namespace Sys2Proof.Machine.Tests

set_option Elab.async false

/-! ### Small states -/

/-- A state with no command waiting. -/
def st (d : Device) : State := { toDevice := d, pending := [] }

/-- A port whose link is up, in a session state, after one session. -/
def portIn (session : SessionState) : PortUnit := { PortUnit.reset true with session := session, lastSession := 1 }

def serving : ModeCtl := { mode := .serving, step := .none, restart := false, cause := none }
def faulted : ModeCtl := { mode := .faulted, step := .none, restart := false, cause := some .medium }
def draining : ModeCtl := { mode := .draining, step := .none, restart := true, cause := none }

/-- A channel that works, on a medium of the smallest capacity: 4096 logical blocks. -/
def running : Channel := { Channel.reset with state := .running, capacity := some 4368 }

/-- The channel without a medium. -/
def lost : Channel := { Channel.reset with state := .lost }

/-- A part in a mode, with a channel and two ports. -/
def part (m : ModeCtl) (c : Channel) (a b : PortUnit) : Device :=
  { Device.reset with mode := m, channel := c, portA := a, portB := b }

/-- A part that serves, Port A in session and Port B LINKED. -/
def one : Device := part serving running (portIn .attached) (portIn .linked)

/-- A part that serves both ports. -/
def both : Device := part serving running (portIn .attached) (portIn .attached)

/-- A part with a request in the mailbox. -/
def asked (request : List Byte) (d : Device) : Device := d.onMgmt fun m => { m with mailbox := .executing request }

/-- Port A with a command open under tag 3. -/
def opened (c : OpenCmd) (d : Device) : Device := d.setCommand .a 3 (some c)

/-- The part after a command. -/
def after (c : Instr) (d : Device) : Device :=
  match exec c (st d) with
  | .next t => t.toDevice
  | _ => d

/-- An operation in slot 0, first issued. -/
def working (w : Work) (reissue : Bool) (c : Channel) : Channel :=
  { c with slots := c.slots.set 0 (some { work := w, phys := none, timerMs := 2000, reissue := reissue }) }

theorem sound_portIn (session : SessionState) (h : session ≠ .down) : (portIn session).Sound :=
  ⟨by show 1 ≤ 65535; omega, Nat.zero_le _, by simpa [portIn, PortUnit.reset] using h, fun _ => ⟨⟨rfl, rfl, rfl⟩, rfl, ⟨rfl, rfl⟩, rfl⟩⟩

theorem sound_part {m : ModeCtl} {c : Channel} {x y : SessionState} (hm : m.Sound) (hc : c.Sound) (hx : x ≠ .down)
    (hy : y ≠ .down) (ax : x.allowedIn m.mode) (ay : y.allowedIn m.mode) : (part m c (portIn x) (portIn y)).Sound := by
  refine ⟨fun p => ?_, hm, hc, Remap.sound_reset, Reservations.sound_reset Reservations.reset, Tracker.sound_reset⟩
  cases p
  · exact ⟨sound_portIn x hx, ax⟩
  · exact ⟨sound_portIn y hy, ay⟩

theorem sound_empty {c : Channel} (hs : c.slots = Vector.replicate 4 none) (hr : c.retrySet = [])
    (hcap : ∀ cap, c.capacity = some cap → 4368 ≤ cap ∧ cap ≤ 2 ^ 32)
    (hw : c.state = .running ∨ c.state = .recovering → c.capacity.isSome) : c.Sound :=
  ⟨hcap, hw, fun i op h => by simp [hs] at h, fun op h => by simp [hr] at h⟩

theorem sound_running : running.Sound :=
  sound_empty rfl rfl (fun cap h => by obtain rfl : 4368 = cap := Option.some.inj h; decide) fun _ => rfl

theorem sound_lost : lost.Sound := sound_empty rfl rfl (fun cap h => by cases h) fun h => by simp [lost] at h

theorem takes_of {d : Device} {p : Port} (hr : d.resetAsserted = false) (hs : (d.port p).session ≠ .down)
    (hb : (d.port p).backlog = []) (ho : (d.port p).paused = false) : d.Takes p := ⟨hr, hs, hb, ho⟩

theorem settled_of {d : Device} (hc : d.Calm) (ho : d.overflowStep = none)
    (hr : d.reservations.entries = Vector.replicate 16 none) (hg : ∀ p, (d.port p).grantSize = 0) : d.Settled :=
  ⟨⟨hc, ho, fun _ => Device.testPending_of_none fun id e he => by simp [hr] at he⟩, hg⟩

theorem hears_one : (st one).Hears .a := ⟨⟨rfl, by decide, rfl, rfl⟩, rfl⟩

/-! ### WellFormed refuses an ill-formed term of each check -/

theorem test_wellFormed_kind : (Instr.unknownMessageKind .a 0x06).wellFormed = false := by decide
theorem test_wellFormed_opcode : (Instr.commandUnknownOpcode .b 0x07).wellFormed = false := by decide
theorem test_wellFormed_readBody : (Instr.mediaReadCompletion 0 0 0 (List.replicate 513 0)).wellFormed = false := by
  decide +kernel
theorem test_wellFormed_writeBody : (Instr.mediaWriteCompletion 0 0 0 (List.replicate 513 0)).wellFormed = false := by
  decide +kernel
theorem test_wellFormed_identifyBody : (Instr.identifyCompletion 0 0 0 (List.replicate 513 0)).wellFormed = false := by
  decide +kernel
theorem test_wellFormed_resetBody : (Instr.resetCompletion 0 0 0 (List.replicate 513 0)).wellFormed = false := by
  decide +kernel
theorem test_wellFormed_i2cRead : (Instr.i2cReadTransaction 0x2C 0).wellFormed = false := by decide

/-! ### Messages written out byte by byte (11.1) -/

theorem test_crcCheckValue : crc32 [0x31, 0x32, 0x33, 0x34, 0x35, 0x36, 0x37, 0x38, 0x39] = 0xCBF43926#32 := by
  decide +kernel

/-- A HELLO: kind 01H, payload length 2, version 1. -/
theorem test_decodeHello : decodeKind .a 0x01 [0x00, 0x01] = .hello .a 1 := by decide +kernel

/-- A READ: tag 5, opcode 01H, start 0102H, count 3. -/
theorem test_decodeRead : decodeKind .b 0x02 [0x05, 0x01, 0, 0, 0, 0, 0x01, 0x02, 0, 0, 0, 3, 0, 0, 0, 0] =
    .read .b 5 0x102 3 := by decide +kernel

/-- A RENEW: tag 1, id 7, 500 ticks. -/
theorem test_decodeRenew : decodeKind .a 0x02 [0x01, 0x05, 0, 0x07, 0, 0, 0, 0, 0, 0, 0, 0, 0x01, 0xF4, 0, 0] =
    .renew .a 1 7 500 := by decide +kernel

theorem test_decodeCancel : decodeKind .a 0x05 [0x1F] = .cancel .a 15 := by decide +kernel

/-- A BYE whose check is right, and one whose check is not. -/
theorem test_decodeFrame : decodePortMessage .a (frameMessage 0x06 []) = .inboundBye .a := by decide +kernel
theorem test_decodeBadCheck : decodePortMessage .a [0x06, 0, 0, 0, 0, 0, 0, 0] = .messageCheckFailure .a := by decide +kernel

/-! ### One step each -/

theorem test_helloOpens : (after (.hello .b 1) one).portB.outbound = [.welcome 2 4096 none true]
    ∧ (after (.hello .b 1) one).portA.outbound = [.notice .partnerAttached] := by decide +kernel

theorem test_byeEnds : (after (.inboundBye .a) one).portA.outbound = [.bye .requested]
    ∧ (after (.inboundBye .a) one).mgmt.flags = 0x010#9 := by decide +kernel

theorem test_readFills : let d := after (.read .a 3 7 2) one
    d.portA.window.map (fun w => w.state) = [.waitingFill 0, .waitingFill 1]
      ∧ d.channel.slots.toList.map (fun o => o.bind fun op => op.phys) = [some 23, some 24, none, none] := by decide +kernel

theorem test_writeGrantsCredit : (after (.write .a 3 false 0 2) one).portA.outbound = [.credit 2] := by decide +kernel

/-- DATA of a WRITE of one block: the commit, the RESPONSE, and the write-back into slot 0. -/
theorem test_dataCommits : let d := after (.inboundData .a 3 0 (Block.fill 9)) (after (.write .a 3 false 5 1) one)
    d.tracker.nextWrite = 2 ∧ d.portA.outbound = [.credit 1, .response 3 .good 1 none .none]
      ∧ d.tracker.unwritten = [1] ∧ ((d.frame 0).bytes)[511] = 9
      ∧ (d.frame 0).served = some { block := 5, hold := 0, state := .writing 1 none .home } := by decide +kernel

theorem test_flushWithNothingWritten : (after (.flush .a 3) one).portA.outbound = [.response 3 .good 0 none .none] := by
  decide +kernel

theorem test_reserveGrants : (after (.reserve .a 3 0 4 10) one).portA.outbound = [.response 3 .good 0 none (.reservation 0)] := by
  decide +kernel

theorem test_lapse : let d := after .leaseTick (after (.reserve .a 3 0 4 1) one)
    d.reservations.entries[(0 : ResId)] = some { holder := .a, start := 0, count := 4, state := .lapsed }
      ∧ d.portA.outbound.getLast? = some (.notice (.leaseLapsed 0)) := by decide +kernel

theorem test_strayCancel : (after (.cancel .a 3) one).portA.outbound = [.notice (.strayCancel 3)] := by decide +kernel

theorem test_startUpIdentifies : let d := after (.powerOn 2 true false) Device.reset
    d.mgmt.address = 0x2E#7 ∧ d.portA.session = .linked ∧ d.portB.session = .down
      ∧ (d.channel.slots[0].map fun op => op.work) = some .identify := by decide +kernel

theorem test_identifyRequestsTheTable : let d := after (.identifyCompletion 0 1 0 [0, 0, 0, 0x11, 0x10]) (after (.powerOn 0 false false) Device.reset)
    d.channel.capacity = some 4368 ∧ d.mode.step = .loading ∧ d.channel.tableQueue.map (fun q => q.phys) = [4, 8, 9, 10, 11, 12]
      ∧ d.channel.slots.toList.map (fun o => o.bind fun op => op.phys) = [some 0, some 1, some 2, some 3] := by decide +kernel

theorem test_identifyTimeoutFaults : let d := after .identifyTimeout (after (.powerOn 0 false false) Device.reset)
    d.mode = faulted ∧ d.channel.state = .lost ∧ d.mgmt.flags = 0x008#9 := by decide +kernel

theorem test_readStatusLength : ((after .readStatus (asked [1] one)).mgmt.mailbox) = .ready
    [31, 1, 0, 1, 0, 1, 0, 0, 0x10, 0, 0, 4, 0, 0, 0, 0, 0, 0, 0, 0, 0, 0, 0, 0, 0, 0, 0, 0, 0, 3, 1] := by decide +kernel

theorem test_softRestartOfAnIdlePart : let d := after .softRestart (asked [9] one)
    d.mode = { mode := .starting, step := .identifying, restart := true, cause := none }
      ∧ d.portA.outbound = [.bye .restart] ∧ d.mgmt.mailbox = .ready [4, 9, 0, 1] := by decide +kernel

/-! ### The obligations' hypotheses are met: the machine, power and reset -/

theorem witness_StepRunsTheFrontCommand : ({ State.reset with pending := [.query .a 0] } : State).pending = .query .a 0 :: [] := rfl

theorem witness_EveryStepEndsInANextState : State.reset.pending = [] := rfl

theorem sound_one : one.Sound :=
  sound_part (by simp [serving, ModeCtl.Sound]) sound_running (by decide) (by decide) (.inl rfl) trivial

theorem witness_StepKeepsThePartSound : let s : State := { st one with pending := [.hello .b 1] }
    s.toDevice.Sound ∧ s.toDevice.HeldInReset ∧ ∃ t, step s = .next t := ⟨sound_one, (by intro h; cases h), _, rfl⟩

theorem storeSound_one : one.StoreSound := by
  refine (Device.storeSound_iff _).mpr ⟨Device.storeBut_of_free (fun f => ?_) rfl rfl rfl rfl rfl, fun h => by cases h⟩
  simp [one, part, Device.frame, Device.reset, FrameStore.reset, Frame.reset]

theorem witness_StepKeepsTheFrameStoreSound : let s : State := { st one with pending := [.hello .b 1] }
    s.toDevice.StoreSound ∧ ∃ t, step s = .next t := ⟨storeSound_one, _, rfl⟩

theorem witness_StepKeepsTheManagementPortSound : let s : State := { st (asked [1] one) with pending := [.readStatus] }
    s.mgmt.Sound ∧ ∃ t, step s = .next t :=
  ⟨⟨by decide, by decide, by decide, by decide, by decide⟩, _, rfl⟩

theorem witness_AssertedResetHoldsThePartIdle : (st one.resetAssert).resetAsserted = true ∧ actsInReset .readStatus = false :=
  ⟨rfl, rfl⟩

theorem witness_ManagementStateChangesOnlyByItsOwnRules :
    (∃ t, exec .readStatus (st (asked [1] one)) = .next t) ∧ ((st one).mgmt.raise .dataLost).raised .dataLost = true :=
  ⟨⟨_, rfl⟩, by decide⟩

/-- A part at rest is settled. With 256 messages in its order a port without a session is within its bounds, a linked port is idle,
and a port may be in session. -/
theorem witness_ClosingDoesWhatIsDueAndNothingElse : Device.reset.Settled ∧
    let full (x : SessionState) : PortUnit := { portIn x with outbound := List.replicate 256 (.bye .requested) }
    (full .linked).session ≠ .attached ∧ (full .linked).Idle ∧ (full .linked).outbound.length = 256
      ∧ (full .linked).session ≠ .down ∧ (full .attached).session = .attached ∧ (full .attached).outbound.length = 256 :=
  ⟨settled_of ⟨rfl, rfl⟩ rfl rfl fun p => by cases p <;> rfl, by decide, ⟨⟨rfl, rfl, rfl⟩, rfl, ⟨rfl, rfl⟩, rfl⟩, by decide +kernel,
    by decide, rfl, by decide +kernel⟩

theorem witness_PowerAndResetSetEveryBlock : (st one.resetAssert).resetAsserted = true ∧ one.resetAssert.HeldInReset
    ∧ (st one).resetAsserted = false := ⟨rfl, fun _ => ⟨rfl, rfl⟩, rfl⟩

/-! ### Link and sessions -/

/-- A part that serves, Port A as given. -/
def portA (u : PortUnit) : Device := part serving running u (portIn .linked)

/-- Port A with one message less than the pause's 192 in its order. -/
def full (session : SessionState) : PortUnit := { portIn session with outbound := List.replicate 191 (.bye .requested) }

theorem takes_full (m : ModeCtl) {x : SessionState} (h : x ≠ .down) : (part m running (full x) (portIn .linked)).Takes .a :=
  takes_of rfl h rfl (show decide (192 ≤ (List.replicate 191 (OutMsg.bye .requested)).length) = false by decide +kernel)

theorem witness_LinkReportsMoveAPortWithoutASession :
    ((st Device.reset).resetAsserted = false ∧ ((st Device.reset).port .a).session = .down ∧ ((st Device.reset).port .a).linkUp = false)
    ∧ ((one.port .b).session ≠ .down ∧ (one.port .b).session ≠ .attached ∧ one.Takes .b) :=
  ⟨⟨rfl, rfl, rfl⟩, by decide, by decide, takes_of rfl (by decide) rfl rfl⟩

/-- What a test on the entries says of each. -/
theorem of_all {α : Type} {o : Option α} {test : α → Bool} (h : o.all test = true) : ∀ e, o = some e → test e = true :=
  fun e he => by simpa [he] using h

/-- Port B waits under tag 3 for blocks that Port A may have reserved, with 255 messages in its order. -/
def waitingB : Device :=
  (((both.setEntry 2 (some { holder := .b, start := 4, count := 1, state := .pending 5 3 })).setEntry 0
    (some { holder := .a, start := 4, count := 1, state := .granted 1 })).setCommand .b 3
      (some (.reserve { start := 4, count := 1, ticks := 5, id := 2 }))).onPort .b
        fun u => { u with outbound := List.replicate 255 (.bye .requested) }

/-- The sessions end on both roads. A flush list whose head is the other port's; one whose own head leaves while what follows still
waits. A PENDING entry of the other port, with 255 messages in its order, beside an entry of the port. -/
theorem witness_SessionEndsInOneEvent :
    (let d := portA (full .attached)
     d.resetAsserted = false ∧ (d.port .a).session = .attached ∧ d.Takes .a
       ∧ (sessionEndOf (.linkDown .a)).isSome ∧ (sessionEndOf (.messageCheckFailure .a)).isSome
       ∧ (sessionEndOf (.inboundBye .a)).isSome ∧ (sessionEndOf (.unknownMessageKind .a 0)).isSome
       ∧ (sessionEndOf (.commandUnknownOpcode .a 0)).isSome ∧ (sessionEndOf (.hello .a 0)).isSome)
    ∧ (let e (p : Port) : FlushEntry := { kind := .flush, port := p, tag := 3, mark := 1 }
       let d (l : List FlushEntry) : Device := { both with tracker := { Tracker.reset with unwritten := [1], flushList := l } }
       ((d []).port .a).window = []
         ∧ (∀ x, (d [e .b, e .a]).tracker.flushList.head? = some x → x.port ≠ .a)
         ∧ (∀ x, ([e .a, e .b].filter fun x => decide (x.port ≠ .a)).head? = some x → (d [e .a, e .b]).tracker.headTest x.mark = .waits)
         ∧ ((d [e .a, e .b]).port (Port.other .a)).session = .attached
         ∧ (((d [e .a, e .b]).endSessions [.a] false none).port (Port.other .a)).outbound.length ≤ 256)
    ∧ ((waitingB.port .a).window = [] ∧ waitingB.tracker.flushList = []
       ∧ waitingB.reservations.entries[(2 : ResId)] =
           some { holder := Port.other .a, start := 4, count := 1, state := .pending 5 3 }
       ∧ (∀ j, j ≠ (2 : ResId) → ∀ e, waitingB.reservations.entries[j] = some e → e.holder = .a)
       ∧ (waitingB.port .b).commands[(3 : Tag)] = some (.reserve { start := 4, count := 1, ticks := 5, id := 2 })
       ∧ (waitingB.port .b).session = .attached ∧ (waitingB.port .b).outbound.length ≤ 255) := by
  refine ⟨⟨rfl, rfl, takes_full serving (by decide), rfl, rfl, rfl, rfl, rfl, by decide⟩,
    ⟨rfl, fun x h => ?_, fun x h => ?_, rfl, by decide +kernel⟩, rfl, rfl, rfl, fun j hj e he => ?_, rfl, rfl, by decide +kernel⟩
  · obtain rfl := Option.some.inj h
    decide
  · obtain rfl := Option.some.inj h
    decide
  · have h : ∀ j : ResId, j ≠ 2 → (waitingB.reservations.entries[j]).all (fun e => decide (e.holder = .a)) = true := by decide
    exact of_decide_eq_true (of_all (h j hj) e he)

theorem witness_ByesAndMessagesOutOfPlaceAreDecidedBySessionState : ((portA (full .linked)).Takes .a ∧ (portA (full (.waiting 1))).Takes .a
    ∧ (portA (full .attached)).Takes .a)
    ∧ messageOf (.query .a 0) = some (.a, .query 0)
    ∧ (let d := part serving running (portIn .linked) (portIn .linked)
       d.Takes .a ∧ d.Sound ∧ (Inbound.query 0).violatesIn (d.port .a).session)
    ∧ (let d := part draining running (portIn (.waiting 1)) (portIn .linked)
       d.Takes .a ∧ d.Sound ∧ (Inbound.query 0).violatesIn (d.port .a).session) := by
  refine ⟨⟨takes_full serving (by decide), takes_full serving (by decide), takes_full serving (by decide)⟩, rfl,
    ⟨takes_of rfl (by decide) rfl rfl, ?_, ?_⟩, takes_of rfl (by decide) rfl rfl, ?_, ?_⟩
  · exact sound_part (by simp [serving, ModeCtl.Sound]) sound_running (by decide) (by decide) trivial trivial
  · exact ⟨by decide, fun v h => by cases h⟩
  · exact sound_part (by simp [draining, ModeCtl.Sound]) sound_running (by decide) (by decide) (.inr rfl) trivial
  · exact ⟨by decide, by decide, fun v h => by cases h⟩

theorem witness_HelloIsDecidedByStateVersionAndMode :
    ((part serving running (full .linked) (portIn .linked)).Takes .a ∧ (part faulted running (full .linked) (portIn .linked)).Takes .a)
    ∧ (part serving running (full .attached) (portIn .linked)).Takes .a
    ∧ ((part ModeCtl.reset running (full .linked) (portIn .linked)).Takes .a ∧ (part draining running (full .linked) (portIn .linked)).Takes .a)
    ∧ (part draining running (full (.waiting 1)) (portIn .linked)).Takes .a ∧ (2 : BitVec 16) ≠ 1 :=
  ⟨⟨takes_full _ (by decide), takes_full _ (by decide)⟩, takes_full _ (by decide),
    ⟨takes_full _ (by decide), takes_full _ (by decide)⟩, takes_full _ (by decide), by decide⟩

theorem witness_HeldHellosOpenTheirSessions :
    (let d := part faulted running (portIn (.waiting 1)) (portIn (.waiting 1))
     d.resetAsserted = false ∧ d.mode.mode = .faulted ∧ d.portA.waiting = true ∧ d.portB.waiting = true
       ∧ d.portA.outbound.length < 256 ∧ d.portB.outbound.length < 256)
    ∧ (let d := part serving running (portIn (.waiting 1)) (portIn .attached)
       d.mode.mode = .serving ∧ (d.port .a).waiting = true ∧ (d.port .b).waiting = false)
    ∧ (part draining running (portIn (.waiting 1)) (portIn .linked)).mode.mode = .draining := by decide +kernel

theorem witness_OutboundOrderSendsAndPauses :
    (let u : PortUnit := { portIn .attached with outbound := List.replicate 192 (.bye .requested) }
     u.outbound = .bye .requested :: List.replicate 191 (.bye .requested) ∧ u.backlog = []
       ∧ ({ u with backlog := [.bye] } : PortUnit).backlog = [.bye] ∧ (List.replicate 191 (OutMsg.bye .requested)).length < 192
       ∧ u.session ≠ .down ∧ 192 ≤ u.outbound.length)
    ∧ (portIn .linked).outbound = [] ∧ messageOf (.inboundBye .a) = some (.a, .bye) ∧ (portIn .down).session = .down := by
  decide +kernel

/-! ### Commands and data -/

theorem hears_full {d : Device} (hr : d.resetAsserted = false) (hb : (d.port .a).backlog = [])
    (ho : (d.port .a).paused = false) (hs : (d.port .a).session = .attached) : d.Hears .a :=
  ⟨takes_of hr (by rw [hs]; decide) hb ho, hs⟩

/-- A part with the write lock set. -/
def locked : Device := one.onRemap fun r => { r with lock := some .noSpares }

/-- Port B has reserved blocks 10 to 13. -/
def reserved : Device := both.setEntry 0 (some { holder := .b, start := 10, count := 4, state := .granted 1 })

theorem witness_RefusedCommandsAreAnsweredAndChangeNothingElse :
    one.Hears .a ∧ one.TagFree .a 3
    ∧ one.refusesRead 0 257 = some .badRequest ∧ one.refusesRead 3841 256 = some .outOfRange
    ∧ ({ one with mode := faulted } : Device).refusesRead 0 1 = some .notServing
    ∧ one.refusesWrite .a 0 0 = some .badRequest ∧ one.refusesWrite .a 4096 1 = some .outOfRange
    ∧ locked.refusesWrite .a 0 1 = some .writeLocked ∧ reserved.refusesWrite .a 13 1 = some .reserved
    ∧ ({ one with mode := faulted } : Device).mode.mode ≠ .serving
    ∧ one.refusesReserve 4096 1 1 = some .outOfRange ∧ one.refusesReserve 0 1 60001 = some .badRequest
    ∧ ((0 : BitVec 16).toNat < 1 ∨ 60000 < (60001 : BitVec 16).toNat)
    ∧ ¬ (opened .flush one).TagFree .a 3
    ∧ ((part faulted lost (portIn .attached) (portIn .linked)).says .a [.notice (.duplicateTag 3)]).Settled := by
  refine ⟨hears_one, rfl, rfl, rfl, rfl, rfl, rfl, rfl, rfl, by decide, rfl, rfl, by decide, ?_, settled_of ⟨rfl, rfl⟩ rfl rfl fun p => by cases p <;> rfl⟩
  intro h
  cases h

theorem witness_AcceptedCommandsJoinTheirLists : one.Hears .a ∧ one.TagFree .a 3
    ∧ one.refusesRead (3840 : BitVec 32).toNat (256 : BitVec 32).toNat = none
    ∧ one.refusesWrite .a (3840 : BitVec 32).toNat (256 : BitVec 32).toNat = none
    ∧ reserved.refusesWrite .a (14 : BitVec 32).toNat (1 : BitVec 32).toNat = none ∧ one.mode.mode = .serving
    ∧ one.tracker.flushList = [] ∧ one.tracker.headTest 0 = .good
    ∧ ({ Tracker.reset with nextWrite := 2, unwritten := [1] } : Tracker).headTest 1 = .waits
    ∧ ({ Tracker.reset with nextWrite := 2, held := [1] } : Tracker).headTest 1 = .incomplete
    ∧ (one.setFlushList [{ kind := .flush, port := .b, tag := 0, mark := 0 }]).tracker.flushList ≠ [] :=
  ⟨hears_one, rfl, rfl, rfl, rfl, rfl, rfl, by decide, by decide, by decide, by decide⟩

/-- Port B has a WRITE of blocks 4 to 7 open. -/
def writing : Device := both.setCommand .b 0 (some (.write
  { start := 4, count := 4, durable := false, state := .moving, received := 0, committed := 0 }))

theorem witness_ReserveIsDecidedByTheFirstTestThatHolds : both.Hears .a ∧ both.TagFree .a 3
    ∧ both.refusesReserve (0 : BitVec 32).toNat (4096 : BitVec 32).toNat (60000 : BitVec 16).toNat = none
    ∧ reserved.reservations.protecting 13 1 ≠ [] ∧ reserved.reservations.protecting 14 1 = []
    ∧ (∀ id : ResId, (vecMap (fun _ => some (Reservation.mk .b 0 1 .lapsed)) both.reservations.entries)[id] ≠ none)
    ∧ both.reservations.entries[(0 : ResId)] = none
    ∧ (writing.port (Port.other .a)).writeOverlaps 7 1 = true ∧ (writing.port (Port.other .a)).writeOverlaps 8 1 = false :=
  ⟨hears_full rfl rfl rfl rfl, rfl, by decide, by decide, by decide, by decide, rfl, by decide +kernel, by decide +kernel⟩

/-- The entries a RENEW and a RELEASE tell apart: granted, lapsed and pending of Port A, granted and lapsed of Port B. -/
def entries : Device :=
  ((((both.setEntry 0 (some { holder := .a, start := 0, count := 1, state := .granted 1 })).setEntry 1
    (some { holder := .a, start := 1, count := 1, state := .lapsed })).setEntry 2
    (some { holder := .a, start := 2, count := 1, state := .pending 5 9 })).setEntry 3
    (some { holder := .b, start := 3, count := 1, state := .granted 1 })).setEntry 15
    (some { holder := .b, start := 4, count := 1, state := .lapsed })

theorem witness_RenewIsDecidedByItsEntry : entries.Hears .a ∧ entries.TagFree .a 3
    ∧ (1 ≤ (1 : BitVec 16).toNat ∧ (60000 : BitVec 16).toNat ≤ 60000)
    ∧ entries.reservations.entries[(0 : ResId)] = some { holder := .a, start := 0, count := 1, state := .granted 1 }
    ∧ entries.reservations.entries[(1 : ResId)] = some { holder := .a, start := 1, count := 1, state := .lapsed }
    ∧ entries.reservations.entries[(2 : ResId)] = some { holder := .a, start := 2, count := 1, state := .pending 5 9 }
    ∧ entries.reservations.entries[(15 : ResId)] = some { holder := Port.other .a, start := 4, count := 1, state := .lapsed }
    ∧ entries.reservations.entries[(14 : ResId)] = none ∧ 15 < (16 : Byte).toNat :=
  ⟨hears_full rfl rfl rfl rfl, rfl, by decide, rfl, rfl, rfl, rfl, rfl, by decide⟩

theorem witness_ReleaseIsDecidedByItsEntry : entries.Hears .a ∧ entries.TagFree .a 3
    ∧ entries.reservations.entries[(3 : ResId)] = some { holder := Port.other .a, start := 3, count := 1, state := .granted 1 }
    ∧ 15 < (16 : Byte).toNat := ⟨hears_full rfl rfl rfl rfl, rfl, rfl, by decide⟩

theorem witness_QueryAnswersTheStatusRecord : one.Hears .a ∧ one.TagFree .a 3 := ⟨hears_one, rfl⟩

/-- Port A has promised buffer 2, and heads its write list with tag 3, three of four blocks received. -/
def moving : Device := portA
  { (((portIn .attached).setLanding 2 .promised).setCommand 3 (some (.write
      { start := 0, count := 4, durable := false, state := .moving, received := 3, committed := 3 }))) with writeList := [3] }

theorem witness_InboundDataAndCreditAreTakenByTheirTests : (moving.Hears .a ∧ (∀ b : BufNo, (one.port .a).landing[b] ≠ .promised)
    ∧ (moving.port .a).landing[(2 : BufNo)] = .promised ∧ (∀ j < (2 : BufNo), (moving.port .a).landing[j] ≠ .promised)
    ∧ (∀ w, (moving.port .a).commands[(4 : Tag)] ≠ some (.write w))
    ∧ (moving.port .a).commands[(3 : Tag)] = some (.write
        { start := 0, count := 4, durable := false, state := .moving, received := 3, committed := 3 })
    ∧ (moving.port .a).writeList.head? = some 3 ∧ (3 : BitVec 16).toNat = 3 ∧ (4 : BitVec 16).toNat ≠ 3)
    ∧ (one.Hears .a ∧ (one.port .a).readCredits + (64 : Byte).toNat ≤ 64 ∧ 64 < (one.port .a).readCredits + (65 : Byte).toNat) :=
  ⟨⟨hears_full rfl rfl rfl rfl, by decide, rfl, by decide, (fun w h => by cases h), rfl, rfl, by decide, by decide⟩,
    hears_one, by decide, by decide⟩

theorem witness_CancelEndsTheCommandItNames : one.Hears .a ∧ one.TagFree .a 3
    ∧ ((opened (.read { start := 0, count := 1, state := .queued, sent := 0 }) one).port .a).commands[(3 : Tag)] =
        some (.read { start := 0, count := 1, state := .queued, sent := 0 })
    ∧ (moving.port .a).commands[(3 : Tag)] = some (.write
        { start := 0, count := 4, durable := false, state := .moving, received := 3, committed := 3 })
    ∧ ((opened (.write { start := 0, count := 1, durable := true, state := .settling, received := 1, committed := 1 }) one).port
        .a).commands[(3 : Tag)] = some (.write
          { start := 0, count := 1, durable := true, state := .settling, received := 1, committed := 1 })
    ∧ ((opened .flush one).port .a).commands[(3 : Tag)] = some .flush
    ∧ ((opened (.reserve { start := 0, count := 1, ticks := 1, id := 0 }) one).port .a).commands[(3 : Tag)] =
        some (.reserve { start := 0, count := 1, ticks := 1, id := 0 }) := ⟨hears_one, rfl, rfl, rfl, rfl, rfl, rfl⟩

/-! ### The part's own steps -/

/-- Frame 0 as given. -/
def framed (sv : Option Served) : Device := one.setServed 0 sv

theorem witness_CommitPlacesItsBytesByTheStateOfTheFrame :
    ((one.onPort .a (PortUnit.setLanding 0 (.occupied 3 0 5 (Block.fill 1)))).port .a).landing[(0 : BufNo)] =
      .occupied 3 0 5 (Block.fill 1)
    ∧ (one.frame 0).served = none
    ∧ ∀ state ∈ ([.clean, .filling [], .dirty 1 true, .writing 1 none .home, .writing 1 (some 2) .spare, .held 1] : List FrameState),
        ((framed (some { block := 5, hold := 0, state := state })).frame 0).served = some { block := 5, hold := 0, state := state } := by
  refine ⟨rfl, rfl, fun state _ => ?_⟩
  simp [framed]

/-- Every frame CLEAN with the block of its number, held as given, but for one that may be FREE. -/
def cleanBut (free : Option FrameNo) (hold : FrameNo → Nat) : Device :=
  { one with frames :=
      { frames := Vector.ofFn fun f =>
          { bytes := Block.fill 0,
            served := if some f = free then none else some { block := f.val, hold := hold f, state := .clean } },
        cleanList := List.finRange 1024, dirtyQueue := [], waiterQueue := [] } }

theorem cleanBut_served {free : Option FrameNo} {hold : FrameNo → Nat} (g : FrameNo) :
    ((cleanBut free hold).frame g).served =
      if some g = free then none else some { block := g.val, hold := hold g, state := .clean } := by
  simp [cleanBut, Device.frame]

theorem cleanBut_serves {free : Option FrameNo} {hold : FrameNo → Nat} (g : FrameNo) {block : Nat}
    (h : g.val ≠ block ∨ some g = free) : ((cleanBut free hold).frame g).serves block = false := by
  unfold Frame.serves
  rw [cleanBut_served]
  by_cases hg : some g = free
  · simp [hg]
  · simpa [hg] using h

/-- A WRITE of Port A under tag 3 with so many of its blocks committed, DURABLE or not, beside a flush list. -/
def counting (committed : Nat) (durable : Bool) (t : Tracker) : Device :=
  { opened (.write { start := 5, count := 2, durable := durable, state := .moving, received := 2, committed := committed }) one with
    tracker := t }

/-- A commit short of the last, the last of a plain WRITE, and of a DURABLE one whose head test has each outcome, or finds another
entry before it. No WRITE is open under another tag. -/
theorem witness_CommitIsCountedByItsWrite :
    ((one.onPort .a (PortUnit.setLanding 0 (.occupied 3 0 5 (Block.fill 1)))).port .a).landing[(0 : BufNo)] =
      .occupied 3 0 5 (Block.fill 1)
    ∧ (∀ w, (one.port .a).commands[(3 : Tag)] ≠ some (.write w))
    ∧ (∀ n durable t, ((counting n durable t).port .a).commands[(3 : Tag)] =
          some (.write { start := 5, count := 2, durable := durable, state := .moving, received := 2, committed := n })
        ∧ ((counting n durable t).port .a).outbound.length ≤ 256 ∧ (counting n durable t).tracker = t)
    ∧ (0 + 1 ≠ 2 ∧ 1 + 1 = 2)
    ∧ (let t (unwritten held : List Nat) : Tracker := { Tracker.reset with nextWrite := 5, unwritten := unwritten, held := held }
       (t [4] []).headTest 4 = .waits ∧ (t [5] []).headTest 4 = .good ∧ (t [] [4]).headTest 4 = .incomplete
         ∧ ∀ l h, (t l h).flushList = [])
    ∧ ({ Tracker.reset with flushList := [{ kind := .flush, port := .b, tag := 0, mark := 0 }] } : Tracker).flushList ≠ [] :=
  ⟨rfl, (fun w h => by cases h), fun _ _ _ => ⟨rfl, Nat.zero_le _, rfl⟩, by decide, ⟨by decide, by decide, by decide, fun _ _ => rfl⟩,
    by decide⟩

/-- The block is in a FILLING, CLEAN, DIRTY, WRITING or HELD frame alone. -/
theorem witness_LookUpFindsItsFrame :
    ∀ state ∈ ([.filling [], .clean, .dirty 1 true, .writing 1 none .home, .held 1] : List FrameState),
      let d := framed (some { block := 5, hold := 1, state := state })
      (∀ g, (d.frame g).serves 5 = true → g = 0) ∧ (d.frame 0).served = some { block := 5, hold := 1, state := state } := by
  intro state _
  refine ⟨fun g hg => ?_, by simp [framed]⟩
  by_contra h
  rw [framed, Device.setServed_frame_other h] at hg
  simp [Frame.serves, one, part, Device.frame, Device.reset, FrameStore.reset, Frame.reset] at hg

/-- A part with two landing buffers of Port A in its commit order, the head of block 1024. -/
def heading (d : Device) : Device :=
  d.onPort .a fun u => { (u.setLanding 0 (.occupied 3 0 1024 (Block.fill 1))).setLanding 1 (.occupied 3 1 1025 (Block.fill 2)) with
    commitOrder := [0, 1] }

/-- The head waits already; a frame serves its block; none does, and the last frame alone is FREE, or the second of the clean list is
the first unheld one, or every frame is held, or another waits. A port has nothing to commit. -/
theorem witness_HeadOfTheCommitOrderIsTriedUntilOneWaits :
    (one.port .a).commitOrder = []
    ∧ (∀ d, ((heading d).port .a).commitOrder = [0, 1] ∧ ((heading d).port .a).landing[(0 : BufNo)] = .occupied 3 0 1024 (Block.fill 1)
        ∧ (heading d).frames = d.frames) ∧ ([1] : List BufNo).length ≤ 3
    ∧ (let waits : Device := one.setWaiterQueue [{ requester := .landing .a 0, block := 1024 }]
       let others : Device := one.setWaiterQueue [{ requester := .landing .b 0, block := 1024 }]
       (∃ e ∈ waits.frames.waiterQueue, e.requester = .landing .a 0)
         ∧ (∀ e ∈ others.frames.waiterQueue, e.requester ≠ .landing .a 0) ∧ others.frames.waiterQueue ≠ []
         ∧ ∀ g, (others.frame g).serves 1024 = false)
    ∧ (let d := one.setServed 7 (some { block := 1024, hold := 0, state := .clean })
       ∀ g, (d.frame g).serves 1024 = true ↔ g = 7)
    ∧ (let d := cleanBut (some 1023) fun _ => 0
       (∀ g, (d.frame g).serves 1024 = false) ∧ d.frames.waiterQueue = [] ∧ (d.frame 1023).served = none
         ∧ ∀ g < (1023 : FrameNo), (d.frame g).served ≠ none)
    ∧ (let d := cleanBut none fun g => if g = 0 then 1 else 0
       (∀ g, (d.frame g).served ≠ none) ∧ d.frames.cleanList = [0] ++ 1 :: (List.finRange 1024).drop 2
         ∧ (∀ g ∈ ([0] : List FrameNo), (d.frame g).available = false)
         ∧ (d.frame 1).served = some { block := 1, hold := 0, state := .clean })
    ∧ (let d := cleanBut none fun _ => 1
       (∀ g, (d.frame g).served ≠ none) ∧ ∀ g ∈ d.frames.cleanList, (d.frame g).available = false) := by
  have empty (g : FrameNo) : (one.frame g).serves 1024 = false := by
    simp [Frame.serves, one, part, Device.frame, Device.reset, FrameStore.reset, Frame.reset]
  refine ⟨rfl, fun d => ⟨rfl, by simp [heading, PortUnit.setLanding, Device.onPort, Device.setPort], rfl⟩, by decide, ⟨by decide, by decide, by decide, fun g => ?_⟩, fun g => ⟨fun h => ?_, fun h => ?_⟩,
    ⟨fun g => cleanBut_serves g (.inl (Nat.ne_of_lt g.isLt)), rfl, cleanBut_served 1023, fun g hg => ?_⟩,
    ⟨fun g => ?_, by decide +kernel, fun g hg => ?_, cleanBut_served 1⟩, fun g => ?_, fun g _ => ?_⟩
  · rw [Device.setWaiterQueue_frame]
    exact empty g
  · by_contra hn
    rw [Device.setServed_frame_other hn, empty] at h
    cases h
  · subst h
    simp [Frame.serves]
  · rw [cleanBut_served, if_neg (by simpa using Fin.ne_of_lt hg)]
    simp
  · simp [cleanBut_served]
  · obtain rfl := List.mem_singleton.mp hg
    simp [Frame.available, Frame.evictable, cleanBut_served]
  · simp [cleanBut_served]
  · simp [Frame.available, Frame.evictable, cleanBut_served]

/-- It is in none: the last frame alone is FREE; the second of the clean list is the first unheld one; every frame is held, and an
entry waits. A READ of the last block. -/
theorem witness_LookUpFindsItsFrameOrAllocatesOne :
    (let d := cleanBut (some 1023) fun _ => 0
     (∀ g, (d.frame g).serves 1023 = false) ∧ d.frames.waiterQueue = [] ∧ (d.frame 1023).served = none
       ∧ ∀ g < (1023 : FrameNo), (d.frame g).served ≠ none)
    ∧ (let d := cleanBut none fun g => if g = 0 then 1 else 0
       (∀ g, (d.frame g).serves 1024 = false) ∧ d.frames.waiterQueue = [] ∧ (∀ g, (d.frame g).served ≠ none)
         ∧ d.frames.cleanList = [0] ++ 1 :: (List.finRange 1024).drop 2 ∧ (∀ g ∈ ([0] : List FrameNo), (d.frame g).available = false)
         ∧ (d.frame 1).served = some { block := 1, hold := 0, state := .clean })
    ∧ (let d := (cleanBut none fun _ => 1).setWaiterQueue [{ requester := .landing .b 0, block := 4000 }]
       (∀ g, (d.frame g).serves 1024 = false) ∧ (∀ g, (d.frame g).served ≠ none)
         ∧ (∀ g ∈ d.frames.cleanList, (d.frame g).available = false) ∧ d.frames.waiterQueue ≠ [])
    ∧ (one.Hears .a ∧ one.TagFree .a 3 ∧ one.refusesRead (4095 : BitVec 32).toNat 1 = none ∧ (one.port .a).readList = []
       ∧ (one.port .a).window = []) := by
  refine ⟨⟨fun g => cleanBut_serves g ?_, rfl, cleanBut_served 1023, fun g hg => ?_⟩,
    ⟨fun g => cleanBut_serves g (.inl (Nat.ne_of_lt g.isLt)), rfl, fun g => ?_, by decide +kernel, fun g hg => ?_, cleanBut_served 1⟩,
    ⟨fun g => ?_, fun g => ?_, fun g _ => ?_, by decide⟩, hears_one, rfl, rfl, rfl, rfl⟩
  · by_cases h : g = 1023
    · exact .inr (by rw [h])
    · exact .inl fun h' => h (Fin.ext h')
  · rw [cleanBut_served, if_neg (by simpa using Fin.ne_of_lt hg)]
    simp
  · rw [cleanBut_served]
    simp
  · obtain rfl := List.mem_singleton.mp hg
    simp [Frame.available, Frame.evictable, cleanBut_served]
  · rw [Device.setWaiterQueue_frame]
    exact cleanBut_serves g (.inl (Nat.ne_of_lt g.isLt))
  · rw [Device.setWaiterQueue_frame, cleanBut_served]
    simp
  · rw [Device.setWaiterQueue_frame]
    simp [Frame.available, Frame.evictable, cleanBut_served]

/-- The queue's head and what stands behind it, by who waits: a window block with another and a block of another number; a window
block with a landing buffer; a landing buffer with a window block; one with the other port's. A frame that is FREE, or CLEAN and
unheld, and one that is neither. -/
theorem witness_AvailableFrameIsHandedToTheHeadOfTheQueue :
    (let w (i : Nat) : WindowRef := { port := .a, tag := 3, index := i }
     let named (l : List WaiterEntry) : List WaiterEntry := l.filter fun x => x.block == 9
     let land (p : Port) : WaiterEntry := { requester := .landing p 0, block := 9 }
     let d (l : List WaiterEntry) : Device :=
       ((one.setWaiterQueue l).onPort .a (PortUnit.setLanding 0 (.occupied 3 0 9 (Block.fill 1)))).onPort .b
         (PortUnit.setLanding 0 (.occupied 3 0 9 (Block.fill 2)))
     (∀ l, (d l).resetAsserted = false ∧ (d l).frames.waiterQueue = l
       ∧ ((d l).port .a).landing[(0 : BufNo)] = .occupied 3 0 9 (Block.fill 1))
     ∧ named [⟨.window (w 1), 9⟩, ⟨.window (w 2), 10⟩] = [w 1].map (fun v => { requester := .window v, block := 9 })
     ∧ named [land .b] = [{ requester := .landing .b 0, block := 9 }]
     ∧ named [⟨.window (w 2), 10⟩] = ([] : List WindowRef).map (fun v => { requester := .window v, block := 9 }))
    ∧ (one.frame 1023).served = none ∧ one.frames.waiterQueue = []
    ∧ ((framed (some { block := 5, hold := 0, state := .clean })).frame 0).served = some { block := 5, hold := 0, state := .clean }
    ∧ ((framed (some { block := 5, hold := 1, state := .clean })).frame 0).served ≠ none
    ∧ ∀ b, ((framed (some { block := 5, hold := 1, state := .clean })).frame 0).served ≠ some { block := b, hold := 0, state := .clean } := by
  refine ⟨⟨fun l => ⟨rfl, rfl, rfl⟩, by decide, by decide, by decide⟩, by decide +kernel, rfl, by simp [framed], by simp [framed],
    fun b h => ?_⟩
  simp [framed] at h

theorem witness_WriteCreditsAreGrantedForBlocksToCome : (one.Calm ∧ one.overflowStep = none ∧ one.resetAsserted = false)
    ∧ (let u := (portA { (portIn .attached).setCommand 3 (some (.write
        { start := 0, count := 4, durable := false, state := .moving, received := 3, committed := 3 })) with writeList := [3] }).portA
     u.outbound.length ≤ 256 ∧ min u.freeBuffers.length (u.toReceive - u.writeCredits) = 1)
    ∧ min moving.portA.freeBuffers.length (moving.portA.toReceive - moving.portA.writeCredits) = 0 :=
  ⟨⟨⟨by decide +kernel, by decide +kernel⟩, by decide +kernel, rfl⟩, by decide +kernel, by decide +kernel⟩

/-- Port A with one window block of its READ under tag 3. -/
def windowed (state : WindowState) (credits : Nat) : PortUnit :=
  { ((portIn .attached).setCommand 3 (some (.read { start := 5, count := 1, state := .moving, sent := 0 }))) with
      readList := [3], window := [{ tag := 3, index := 0, block := 5, state := state }], readCredits := credits }

theorem witness_ReadEngineActsOnItsHead :
    (let d := portA (windowed (.ready 0) 1)
     d.resetAsserted = false ∧ d.mode.mode = .serving ∧ (d.port .a).session = .attached ∧ (d.port .a).outbound.length ≤ 256
       ∧ (d.port .a).window = [{ tag := 3, index := 0, block := 5, state := .ready 0 }] ∧ (d.port .a).readCredits = 0 + 1
       ∧ (d.port .a).commands[(3 : Tag)] = some (.read { start := 5, count := 1, state := .moving, sent := 0 }))
    ∧ (portA (windowed (.ready 0) 0)).portA.readCredits = 0
    ∧ (portA (windowed (.waitingFill 0) 1)).portA.window = [{ tag := 3, index := 0, block := 5, state := .waitingFill 0 }]
    ∧ (portA (windowed (.failed .dataLost) 0)).portA.window = [{ tag := 3, index := 0, block := 5, state := .failed .dataLost }]
    ∧ (portA (windowed (.failed .mediumError) 0)).portA.window =
        [{ tag := 3, index := 0, block := 5, state := .failed .mediumError }] := by decide +kernel

/-- A hold given up: the last one and one of two, on a frame of each state. A READ at its last block, and short of it. -/
theorem witness_ReadEngineDropsHoldsAndFinishesReads :
    (∀ hold ∈ [1, 2], ∀ state ∈ ([.filling [{ port := .a, tag := 3, index := 0 }], .clean, .dirty 1 true, .held 1] : List FrameState),
      ((framed (some { block := 5, hold := hold, state := state })).frame 0).served = some { block := 5, hold := hold, state := state })
    ∧ ∀ sent ∈ [0, 1], let r : ReadCmd := { start := 5, count := 1, state := .moving, sent := sent }
      ((opened (.read r) one).port .a).commands[(3 : Tag)] = some (.read r) ∧ ((opened (.read r) one).port .a).outbound.length ≤ 256 :=
  ⟨fun _ _ _ _ => by simp [framed], fun _ _ => ⟨rfl, Nat.zero_le _⟩⟩

/-- The head is a FLUSH, or a DURABLE WRITE of two blocks, with another entry behind it. -/
theorem witness_HeadOfTheFlushListIsTestedAndAnswered :
    let durable : OpenCmd := .write { start := 5, count := 2, durable := true, state := .settling, received := 2, committed := 2 }
    let e (kind : FlushKind) (p : Port) : FlushEntry := { kind := kind, port := p, tag := 3, mark := 1 }
    let d (c : OpenCmd) (kind : FlushKind) (t : Tracker) : Device :=
      { opened c one with tracker := { t with flushList := [e kind .a, e .flush .b] } }
    (∀ t, (d .flush .flush t).resetAsserted = false ∧ (d .flush .flush t).tracker.flushList = e .flush .a :: [e .flush .b]
      ∧ ((d .flush .flush t).port .a).commands[(3 : Tag)] = some .flush ∧ ((d .flush .flush t).port .a).outbound.length ≤ 256)
    ∧ (∀ t, ((d durable .durableWrite t).port .a).commands[(3 : Tag)] = some durable)
    ∧ (d .flush .flush Tracker.reset).tracker.headTest 1 = .good ∧ Tracker.reset.flushList = []
    ∧ (d .flush .flush { Tracker.reset with unwritten := [1] }).tracker.headTest 1 = .waits
    ∧ (d .flush .flush { Tracker.reset with held := [1] }).tracker.headTest 1 = .incomplete
    ∧ (d .flush .flush { Tracker.reset with unwritten := [1], earliestLost := some 1 }).tracker.headTest 1 = .incomplete :=
  ⟨fun _ => ⟨rfl, rfl, rfl, Nat.zero_le _⟩, fun _ => rfl, by decide, rfl, by decide, by decide, by decide⟩

/-- Port A waits under tag 3 for the block `n` beside Port B's WRITE of blocks 4 to 7, and an entry of Port B stands. -/
def waitingA (n : Nat) : Device :=
  ((writing.setEntry 2 (some { holder := .a, start := n, count := 1, state := .pending 5 3 })).setEntry 3
    (some { holder := .b, start := n, count := 1, state := .lapsed })).setCommand .a 3
      (some (.reserve { start := n, count := 1, ticks := 5, id := 2 }))

/-- A tick with the clock running, one entry of each port at its last tick, and stopped. An entry with no ticks left. A PENDING entry
that a WRITE overlaps and one beside it, and two of them due, named in ascending order. A part with nothing else to do. -/
theorem witness_EntriesAreCountedLapsedAndGranted :
    ((st entries).resetAsserted = false ∧ entries.reservations.clockRunning = true
       ∧ ({ Reservations.reset with clockRunning := false } : Reservations).clockRunning = false
       ∧ ∀ p, (entries.port p).session = .attached ∧ (entries.port p).outbound.length + 16 ≤ 256)
    ∧ (let d := both.setEntry 0 (some { holder := .a, start := 0, count := 1, state := .granted 0 })
       (d.port .a).outbound.length ≤ 256 ∧ (d.port .a).session = .attached
         ∧ d.reservations.entries[(0 : ResId)] = some { holder := .a, start := 0, count := 1, state := .granted 0 })
    ∧ ((waitingA 8).reservations.entries[(2 : ResId)] = some { holder := .a, start := 8, count := 1, state := .pending 5 3 }
       ∧ ((waitingA 8).port .a).commands[(3 : Tag)] = some (.reserve { start := 8, count := 1, ticks := 5, id := 2 })
       ∧ ((waitingA 8).port .b).writeOverlaps 8 1 = false ∧ ((waitingA 7).port .b).writeOverlaps 7 1 = true)
    ∧ (([2, 5] : List ResId).Pairwise (· < ·) ∧ one.Calm ∧ one.overflowStep = none) := by
  refine ⟨⟨rfl, rfl, rfl, fun p => by cases p <;> exact ⟨rfl, by decide⟩⟩, by decide +kernel,
    ⟨rfl, rfl, by decide +kernel, by decide +kernel⟩, by decide, ⟨by decide +kernel, by decide +kernel⟩, by decide +kernel⟩

/-- R111: of two PENDING entries that wait for the WRITEs of Port B, both of which leave in one event, the lower id is answered first,
though the WRITE beside the higher one leaves first. -/
def twoWait : Device :=
  let wait (tag : Tag) (id : ResId) (block : Nat) (d : Device) : Device :=
    (d.setEntry id (some { holder := .a, start := block, count := 1, state := .pending 5 tag })).setCommand .a tag
      (some (.reserve { start := block, count := 1, ticks := 5, id := id }))
  let write (tag : Tag) (block : Nat) (d : Device) : Device :=
    d.setCommand .b tag (some (.write
      { start := block, count := 1, durable := true, state := .settling, received := 1, committed := 1 }))
  let d := wait 1 2 8 (wait 2 5 4 (write 0 4 (write 1 8 both)))
  d.setFlushList [{ kind := .durableWrite, port := .b, tag := 0, mark := 0 }, { kind := .durableWrite, port := .b, tag := 1, mark := 0 }]

theorem test_grantsOfOneEventAscend :
    (after .flushAnswer twoWait).portA.outbound =
        [.response 1 .good 0 none (.reservation 2), .response 2 .good 0 none (.reservation 5)]
      ∧ (after .flushAnswer twoWait).portB.outbound = [.response 0 .good 1 none .none, .response 1 .good 1 none .none] := by
  decide +kernel

/-! ### The media channel -/

theorem witness_StaleCompletionChangesNothing :
    (∀ i : SlotNo, (3 : Byte).toNat = i.val → running.slots[i] = none ∨ running.issueCounts[i] ≠ (0 : Byte))
    ∧ (∀ i : SlotNo, (4 : Byte).toNat = i.val → (working (.fill 0) false running).slots[i] = none
        ∨ (working (.fill 0) false running).issueCounts[i] ≠ (0 : Byte))
    ∧ (lost.Sound ∧ lost.state = .lost) := ⟨by decide, by decide, sound_lost, rfl⟩

/-- A completion's slot, issue count and operation, for an operation in slot 0. -/
theorem completes_working (w : Work) (c : Channel) (h : c.issueCounts = Vector.replicate 4 0) :
    (0 : Byte).toNat = (0 : SlotNo).val
    ∧ (working w false c).slots[(0 : SlotNo)] = some { work := w, phys := none, timerMs := 2000, reissue := false }
    ∧ (working w false c).issueCounts[(0 : SlotNo)] = (0 : Byte) := by
  refine ⟨rfl, ?_, ?_⟩
  · simp [working]
  · simp [working, h]

theorem witness_FillCompletionReachesItsFrame :
    running.issueCounts = Vector.replicate 4 0
    ∧ (∀ hold, ((framed (some { block := 5, hold := hold, state := .filling [] })).frame 0).served =
        some { block := 5, hold := hold, state := .filling [] })
    ∧ ((framed (some { block := 5, hold := 0, state := .dirty 1 true })).frame 0).served =
        some { block := 5, hold := 0, state := .dirty 1 true }
    ∧ 512 ≤ (List.replicate 512 (0 : Byte)).length ∧ (List.replicate 511 (0 : Byte)).length < 512 ∧ 1 < (2 : Byte).toNat := by
  refine ⟨rfl, fun hold => by simp [framed], by simp [framed], by decide +kernel, by decide +kernel, by decide⟩

theorem witness_WriteBackCompletionSettlesItsFrame :
    (∀ hold newer, ((framed (some { block := 5, hold := hold, state := .writing 1 newer .home })).frame 0).served =
      some { block := 5, hold := hold, state := .writing 1 newer .home }) ∧ (1 : Byte) ≠ 0 :=
  ⟨fun hold newer => by simp [framed], by decide⟩

theorem witness_IdentifyCompletionRecordsTheCapacity :
    (let d := Device.reset.startUp
     d.resetAsserted = false ∧ d.channel.slots[(0 : SlotNo)] = some (Operation.fresh .identify none false)
       ∧ d.channel.issueCounts[(0 : SlotNo)] = (1 : Byte) ∧ d.mode.mode = .starting ∧ d.mode.step = .identifying)
    ∧ (let cap (body : List Byte) := (body.getD 0 0).toNat % 2 * 2 ^ 32 + beValue (field body 1 4)
       cap [0, 0, 0, 0x11, 0x10] = 4368 ∧ cap [0, 0, 0, 0x11, 0x0F] < 4368 ∧ cap [1, 0, 0, 0, 0] = 2 ^ 32
         ∧ 2 ^ 32 < cap [1, 0, 0, 0, 1]) := by decide +kernel

/-- The retry set holds four transfers, or none. -/
theorem witness_ResetCompletionEndsTheRecovery : let op (n : Nat) : Operation :=
      { work := .fill 0, phys := some n, timerMs := 2000, reissue := false }
    ∀ l ∈ ([[op 16, op 17, op 18, op 19], []] : List (List Operation)),
      let c : Channel := { working .reset false running with state := .recovering, retrySet := l }
      c.slots = (Vector.replicate 4 none).set 0 (some { work := .reset, phys := none, timerMs := 2000, reissue := false })
        ∧ c.issueCounts[(0 : SlotNo)] = (0 : Byte) ∧ c.retrySet.length ≤ 4 ∧ ∀ old ∈ c.retrySet, old.isTransfer = true := by
  decide +kernel

/-- The DIRTY count below the watermark and at it. A request picked, with the first slot taken and another free; the blocks in the
slots distinct. A DIRTY frame whose block is pending, and one whose is not. One fill alone waiting. -/
theorem witness_ArbiterIssuesTheFirstEligibleRequestInClassOrder :
    one.frames.count .dirty < one.mgmt.watermark
    ∧ ({ one.mgmt with watermark := 0 } : Mgmt).watermark ≤ one.frames.count .dirty
    ∧ lost.state ≠ .running
    ∧ (let op : Operation := { work := .fill 1, phys := some 22, timerMs := 2000, reissue := false }
       let d := ({ one with channel := { running with slots := (Vector.replicate 4 none).set 0 (some op) } } : Device).requestFill
         { frame := 0, block := 5 }
       d.channel.state = .running ∧ d.channel.slots[(1 : SlotNo)] = none ∧ (∀ j < (1 : SlotNo), d.channel.slots[j] ≠ none)
         ∧ d.pick = some (.fill { frame := 0, block := 5 }) ∧ d.arbiterStep.isSome
         ∧ ∀ i j : SlotNo, ∀ a b, d.channel.slots[i] = some a → d.channel.slots[j] = some b → a.phys.isSome → a.phys = b.phys → i = j)
    ∧ (let d := framed (some { block := 5, hold := 0, state := .dirty 1 false })
       (d.frame 0).served = some { block := 5, hold := 0, state := .dirty 1 false } ∧ (∀ x ∈ d.remap.pendingList, x.block ≠ 5)
         ∧ ∃ x ∈ ({ d.remap with pendingList := [{ block := 5, reason := .weak }] } : Remap).pendingList, x.block = 5)
    ∧ (let d := one.requestFill { frame := 0, block := 5 }
       d.channel.state = .running ∧ d.channel.slots = Vector.replicate 4 none ∧ d.channel.tableQueue = [] ∧ d.channel.spareQueue = []
         ∧ d.channel.fillQueue = [{ frame := 0, block := 5 }] ∧ d.frames.dirtyQueue = []) := by
  refine ⟨by decide +kernel, by decide +kernel, by decide, ⟨rfl, rfl, by decide, by decide +kernel, by decide +kernel, ?_⟩,
    ⟨by simp [framed], by decide, by decide⟩, rfl, rfl, rfl, rfl, rfl, rfl⟩
  have only (i : SlotNo) (a : Operation) : ((Vector.replicate 4 none).set 0
      (some { work := .fill 1, phys := some 22, timerMs := 2000, reissue := false } : Option Operation))[i] = some a → i = 0 := by
    fin_cases i <;> simp
  intro i j a b ha hb _ _
  rw [only i a ha, only j b hb]

/-- A transfer first issued, in RUNNING and RECOVERING, alone or with another slot occupied; RECOVERING with every slot empty, and
with one occupied. An operation that ends the medium by each of the three roads. -/
theorem witness_TimeoutsEnterTheRecoveryOrLoseTheMedium :
    (let op : Operation := { work := .fill 0, phys := none, timerMs := 2000, reissue := false }
     let alone : Channel := working (.fill 0) false running
     let two : Channel := { alone with slots := alone.slots.set 3 (some op), state := .recovering }
     op.isTransfer = true ∧ op.reissue = false ∧ alone.slots[(0 : SlotNo)] = some op ∧ alone.state = .running
       ∧ (∀ j : SlotNo, j ≠ 0 → alone.slots[j] = none) ∧ two.slots[(0 : SlotNo)] = some op ∧ two.state = .recovering
       ∧ ∃ j : SlotNo, j ≠ 0 ∧ two.slots[j] ≠ none)
    ∧ ({ running with state := .recovering } : Channel).slots = Vector.replicate 4 none ∧ running.state ≠ .recovering
    ∧ (∃ op, (working (.fill 0) true running).slots[(0 : SlotNo)] = some op ∧ op.reissue = true)
    ∧ (∃ op, (working .reset false running).slots[(0 : SlotNo)] = some op ∧ op.work = .reset)
    ∧ (∃ op, (working .identify false Channel.reset).slots[(0 : SlotNo)] = some op ∧ op.work = .identify) :=
  ⟨by decide +kernel, rfl, by decide, ⟨_, rfl, rfl⟩, ⟨_, rfl, rfl⟩, _, rfl, rfl⟩

/-- Port A with READs of three standings, WRITEs moving, queued and settling, a FLUSH and a waiting RESERVE; Port B with a FLUSH. The
last block of a WRITE waits for a frame, and a READ alone holds a CLEAN one. -/
def occupied : Device :=
  let write (count received committed : Nat) (durable : Bool) (state : CmdState) : OpenCmd :=
    .write { start := 40, count := count, durable := durable, state := state, received := received, committed := committed }
  let commands : List (Tag × OpenCmd) :=
    [(1, .read { start := 5, count := 4, state := .moving, sent := 2 }), (2, .read { start := 50, count := 4, state := .queued, sent := 0 }),
     (3, write 3 3 2 false .moving), (4, write 4 1 0 true .moving), (5, .flush), (6, write 2 2 2 true .settling),
     (7, .reserve { start := 100, count := 3, ticks := 4, id := 2 })]
  let a : PortUnit :=
    { ((commands.foldl (fun u x => u.setCommand x.1 (some x.2)) (portIn .attached)).setLanding 1
        (.occupied 3 2 42 (Block.fill 1))).setLanding 3 (.occupied 4 0 40 (Block.fill 1)) with
        readList := [1, 2], writeList := [4], commitOrder := [1, 3], outbound := [.bye .requested],
        window := [{ tag := 1, index := 2, block := 7, state := .ready 0 }, { tag := 1, index := 3, block := 8, state := .waitingFill 1 }] }
  let d := ((part serving (working (.fill 0) true running) a ((portIn .attached).setCommand 0 (some .flush))).setServed 0
      (some { block := 7, hold := 1, state := .clean })).setServed 1
      (some { block := 8, hold := 1, state := .filling [{ port := .a, tag := 1, index := 3 }] })
  { d with
      frames := { d.frames with cleanList := [0], waiterQueue := [{ requester := .landing .a 1, block := 42 }] },
      tracker := { Tracker.reset with nextWrite := 9, unwritten := [3], flushList :=
        [{ kind := .flush, port := .a, tag := 5, mark := 3 }, { kind := .flush, port := .b, tag := 0, mark := 3 },
         { kind := .durableWrite, port := .a, tag := 6, mark := 4 }] },
      reservations := { Reservations.reset with entries := (Vector.replicate 16 none).set 2 (some
        { holder := .a, start := 100, count := 3, state := .pending 4 7 }) } }

/-- Every command of `occupied` is answered, in its place, and the block that waits is discarded beside a frame it could have had. -/
theorem test_faultedAnswersEveryCommand : let t := occupied.mediumLost
    let refused (tag : Tag) (moved : Nat) : OutMsg := .response tag .notServing moved none .none
    t.portA.outbound = [.bye .requested, refused 1 2, refused 2 0, refused 3 2, refused 4 0, refused 5 0, refused 6 2, refused 7 0,
        .notice .mediaFault]
      ∧ t.portB.outbound = [refused 0 0, .notice .mediaFault] ∧ t.portA.commands = Vector.replicate 16 none
      ∧ t.portA.landing = Vector.replicate 4 .free ∧ t.portA.window = [] ∧ t.tracker.nextWrite = 9 ∧ t.frames.waiterQueue = []
      ∧ (t.frame 0).served = some { block := 7, hold := 0, state := .clean } := by decide +kernel

/-- The messages queued behind what stands are no more than the commands in the lists and MEDIA_FAULT. An operation that ends the
medium by each of the three roads is in slot 0. -/
theorem witness_EntryToFaultedAnswersEveryOpenCommand :
    (occupied.resetAsserted = false ∧ occupied.mode.mode = .serving ∧ occupied.frames.waiterQueue ≠ []
      ∧ ∀ p, (occupied.port p).outbound.length + (occupied.port p).readList.length + (occupied.port p).writesInOrder.length
          + occupied.tracker.flushList.length + 16 + 1 ≤ 256)
    ∧ (∃ op, occupied.channel.slots[(0 : SlotNo)] = some op ∧ op.reissue = true)
    ∧ (∃ op, (working .reset false running).slots[(0 : SlotNo)] = some op ∧ op.work = .reset)
    ∧ (∃ op, (working .identify false running).slots[(0 : SlotNo)] = some op ∧ op.work = .identify) :=
  ⟨⟨rfl, rfl, by decide, fun p => by cases p <;> decide +kernel⟩, ⟨_, rfl, rfl⟩, ⟨_, rfl, rfl⟩, _, rfl, rfl⟩

/-! ### The remap unit -/

theorem witness_PersistBeginsWithTheBatch :
    (let r : Remap := { Remap.reset with batch := [5] }
     r.batch ≠ [] ∧ r.persist = .idle ∧ r.lock ≠ some .tableLost ∧ r.generation ≠ 0xFFFFFFFF)
    ∧ ({ Remap.reset with batch := [5], generation := 0xFFFFFFFF } : Remap).generation = 0xFFFFFFFF
    ∧ Remap.reset.batch = [] := by decide

/-- Block 5 is on spare 0, and block 9 on spare 1. -/
def remapped : Remap :=
  { Remap.reset with spares := some (Vector.replicate 256 .free),
                     table := [{ block := 5, spare := 0, state := .active }, { block := 9, spare := 1, state := .active }] }

theorem witness_SpareWriteDoneMakesTheEntry :
    remapped.spares.isSome ∧ remapped.entryOf 5 = some { block := 5, spare := 0, state := .active } ∧ remapped.entryOf 7 = none
    ∧ remapped.table.Pairwise (fun a b => a.block < b.block) := by decide +kernel

/-- A remap record of frame 0, of block 5. -/
def record (origin : Origin) (claim : Option SpareNo) (target : Target) : RemapRecord :=
  { frame := 0, block := 5, origin := origin, image := Block.fill 1, claim := claim, target := target }

/-- The last spare alone is FREE, and may be claimed. -/
def lastSpare (claim : Option SpareNo) : Device :=
  one.onRemap fun _ => { remapped with spares := some ((Vector.replicate 256 .retired).set 255 .free),
                                       workList := [record .fault claim .newSpare] }

theorem lastSpare_spareState (claim : Option SpareNo) (s : SpareNo) :
    (lastSpare claim).remap.spareState s = some (if s = 255 then .free else .retired) := by
  by_cases h : s = 255
  · subst h
    simp [lastSpare, Remap.spareState]
  · have : (255 : Nat) ≠ s.val := fun e => h (Fin.ext e.symm)
    simp [lastSpare, Remap.spareState, h, this]

theorem witness_WriteLockIsEnteredWhereNoSpareCanBeHad :
    (∀ p, (one.port p).outbound.length ≤ 256)
    ∧ one.remap.lock = none ∧ locked.remap.lock ≠ some .tableLost ∧ locked.remap.lock ≠ none
    ∧ (one.onRemap fun r => { r with lock := some .tableLost }).remap.lock = some .tableLost
    ∧ (lastSpare none).remap.spares.isSome ∧ (∃ s, (lastSpare none).remap.spareState s = some .free)
    ∧ (∀ s, ({ remapped with spares := some (Vector.replicate 256 .retired) } : Remap).spareState s ≠ some .free)
    ∧ ((lastSpare none).remap.spareState 255 = some .free ∧ (∀ x ∈ (lastSpare none).remap.workList, x.claim ≠ some 255)
      ∧ ∀ r < (255 : SpareNo), ¬ ((lastSpare none).remap.spareState r = some .free
          ∧ ∀ x ∈ (lastSpare none).remap.workList, x.claim ≠ some r))
    ∧ (∀ s, ¬ ((lastSpare (some 255)).remap.spareState s = some .free
        ∧ ∀ x ∈ (lastSpare (some 255)).remap.workList, x.claim ≠ some s))
    ∧ (record .pending none .newSpare).origin = .pending ∧ (record .fault none .newSpare).origin = .fault
    ∧ (lastSpare none).remap.entryOf 5 = some { block := 5, spare := 0, state := .active } := by
  refine ⟨fun p => by cases p <;> decide, rfl, by decide, by decide, rfl, rfl, ⟨255, lastSpare_spareState none 255⟩, fun s => ?_,
    ⟨lastSpare_spareState none 255, by decide, fun r hr => ?_⟩, fun s => ?_, rfl, rfl, rfl⟩
  · simp [Remap.spareState]
  · simp [lastSpare_spareState, Fin.ne_of_lt hr]
  · by_cases h : s = 255
    · subst h
      intro h
      exact h.2 (record .fault (some 255) .newSpare) (by simp [lastSpare]) rfl
    · simp [lastSpare_spareState, h]

/-- So many frames are HELD, and the rest are WRITING. -/
def heldFrames (n m : Nat) (h : n + m = 1024) : Device :=
  let frame (state : FrameState) : Frame := { bytes := Block.fill 0, served := some { block := 5, hold := 0, state := state } }
  { one with frames := { one.frames with frames :=
      (Vector.replicate n (frame (.held 1)) ++ Vector.replicate m (frame (.writing 1 none .spare))).cast h } }

theorem heldFrames_count {n m : Nat} (h : n + m = 1024) : (heldFrames n m h).frames.count .held = n := by
  have other : (FrameKind.writing == FrameKind.held) = false := rfl
  simp [heldFrames, FrameStore.count, Vector.countP_replicate, Frame.kind, other]

theorem heldFrames_last {n m : Nat} (h : n + m = 1024) (hm : 0 < m) :
    ((heldFrames n m h).frame 1023).served = some { block := 5, hold := 0, state := .writing 1 none .spare } := by
  have : n ≤ 1023 := by omega
  simp [heldFrames, Device.frame, this]

/-- The record of a frame with its claim, with TABLE_LOST clear and set; one in place; 895 frames HELD, and 896. -/
theorem witness_SpareWriteCompletionPlacesOrHoldsItsFrame :
    (let d := framed (some { block := 5, hold := 0, state := .writing 1 none .spare })
     (d.frame 0).served = some { block := 5, hold := 0, state := .writing 1 none .spare } ∧ d.remap.lock ≠ some .tableLost
       ∧ (d.onRemap fun r => { r with lock := some .tableLost }).remap.lock = some .tableLost)
    ∧ (∀ origin claim target, let w := record origin claim target
        [{ w with frame := 1 }, w] = [{ w with frame := 1 }] ++ w :: [] ∧ w.frame = 0
          ∧ ∀ x ∈ [{ w with frame := 1 }], x.frame ≠ (0 : FrameNo))
    ∧ (record .fault (some 255) .newSpare).claim = some 255
    ∧ ((record .pending none .inPlace).claim = none ∧ (record .pending none .inPlace).target = .inPlace)
    ∧ (heldFrames 895 129 rfl).frames.count .held < 896 ∧ 896 ≤ (heldFrames 896 128 rfl).frames.count .held
    ∧ ((heldFrames 896 128 rfl).frame 1023).served = some { block := 5, hold := 0, state := .writing 1 none .spare } :=
  ⟨⟨by simp [framed], by decide, rfl⟩, fun _ _ _ => ⟨rfl, rfl, by simp⟩, rfl, ⟨rfl, rfl⟩, by rw [heldFrames_count]; decide, by rw [heldFrames_count],
    heldFrames_last rfl (by decide)⟩

/-- A persist of copy B: its last block awaited, retried or done, the others done or not; and no persist. -/
theorem witness_TableWriteCompletionAdvancesThePersist :
    (let all (last : Progress) : Vector Progress 5 := (Vector.replicate 5 .done).set 4 last
     (∀ copy g format progress, ({ Remap.reset with persist := .writingImage copy g progress format } : Remap).persist =
       .writingImage copy g progress format)
     ∧ 12 = Copy.base .b + (4 : Fin 5).val
     ∧ (all .awaiting)[(4 : Fin 5)] = .awaiting ∧ (all .retrying)[(4 : Fin 5)] = .retrying ∧ (all .done)[(4 : Fin 5)] = .done
     ∧ (∀ j, j ≠ (4 : Fin 5) → (all .awaiting)[j] = .done)
     ∧ ∃ j, j ≠ (4 : Fin 5) ∧ (Vector.replicate 5 Progress.awaiting)[j] ≠ .done)
    ∧ Remap.reset.persist = .idle
    ∧ (let d := one.onRemap fun r => { r with workList := [record .fault none .newSpare] }
       d.remap.workList = [] ++ record .fault none .newSpare :: [] ∧ ∀ x ∈ ([] : List RemapRecord), x.block ≠ 5) := by
  refine ⟨⟨fun _ _ _ _ => rfl, rfl, by decide, by decide, by decide, by decide, by decide⟩, rfl, rfl, by decide⟩

/-- The nine reads before the tenth, and fewer. Two valid copies by their generations; one; none, of which both are blank or one is
not. -/
theorem witness_TenTableReadsChooseTheCopy :
    (let reads : List LoadRead := List.replicate 9 { phys := 0, data := none }
     ({ Remap.reset with load := some reads } : Remap).load = some reads ∧ reads.length = 9 ∧ (reads.drop 1).length ≠ 9)
    ∧ (let valid (g : Nat) : CopyFinding := { blank := false, generation := some g, valid := some ([], []) }
       let blank : CopyFinding := { blank := true, generation := none, valid := none }
       let broken : CopyFinding := { blank := false, generation := some 0xFFFFFFFF, valid := none }
       (valid 1).valid.isSome ∧ (valid 1).generation.getD 0 ≤ (valid 1).generation.getD 0
         ∧ (valid 1).generation.getD 0 < (valid 2).generation.getD 0 ∧ broken.valid = none ∧ (valid 1).valid = some ([], [])
         ∧ blank.blank = true ∧ blank.valid = none ∧ broken.blank = false) := by decide

/-- A HELLO held on one port, during a start-up and during a restart, with an entry and without a spare left. -/
theorem witness_EndOfLoadEntersServing :
    (let d (restart : Bool) : Device :=
       part { mode := .starting, step := .loading, restart := restart, cause := none } running (portIn (.waiting 1)) (portIn .linked)
     (∀ restart, (d restart).mode.mode = .starting ∧ (d restart).mode.step = .loading ∧ (d restart).mode.restart = restart)
       ∧ ((d true).port .a).waiting = true ∧ ((d true).port (Port.other .a)).session ≠ .attached
       ∧ ((d true).port .a).outbound.length ≤ 256 ∧ ((d true).port .b).waiting = false ∧ ((d true).port .b).session ≠ .attached)
    ∧ (∃ e ∈ remapped.table, e.spare = (1 : SpareNo)) ∧ ¬ (∃ e ∈ remapped.table, e.spare = (255 : SpareNo)) := by
  refine ⟨⟨fun _ => ⟨rfl, rfl, rfl⟩, rfl, by decide, by decide, rfl, by decide⟩, by decide, by decide⟩

theorem witness_ImageIsLoadedAsItWasBuilt : let entries := remapped.table
    (0xFFFFFFFF < 2 ^ 32 ∧ entries.length ≤ 256 ∧ entries.Pairwise (fun a b => a.block < b.block)
      ∧ (∀ e ∈ entries, e.block < 2 ^ 32) ∧ (entries.map fun e => e.spare).Nodup
      ∧ ∀ e ∈ entries, (fun s => s == 2) e.spare.val = false) := by decide

/-! ### The management port and the formats -/

theorem witness_I2cWriteFillsTheMailboxOrOverruns : (st one).resetAsserted = false ∧ one.mgmt.mailbox = .empty
    ∧ (asked [1] one).mgmt.mailbox ≠ .empty ∧ (0x2D : BitVec 7) ≠ one.mgmt.address := by decide

theorem witness_I2cReadReturnsTheResponseFromItsFirstByte : (0x2D : BitVec 7) ≠ one.mgmt.address ∧
    (let m : Mgmt := { one.mgmt with mailbox := .ready [3, 1, 1] }
     m.mailbox = .ready [3, 1, 1] ∧ m.Sound)
    ∧ ∀ resp, one.mgmt.mailbox ≠ .ready resp :=
  ⟨by decide, ⟨rfl, by decide, by decide, by decide, by decide, by decide, by decide⟩, fun resp h => by cases h⟩

theorem witness_BadRequestsAndReadStatusChangeOnlyTheMailbox :
    (asked [0x0A] one).mgmt.mailbox = .executing (0x0A :: []) ∧ 9 < (0x0A : Byte).toNat
    ∧ (0x09 : Byte) ∈ ([0x01, 0x02, 0x08, 0x09] : List Byte) ∧ (0x04 : Byte) ∈ ([0x04, 0x05] : List Byte)
    ∧ (0x07 : Byte) ∈ ([0x03, 0x06, 0x07] : List Byte) := by decide

theorem witness_ConditionsAndSettingsAreReadAndSet : (asked [2] one).mgmt.mailbox = .executing [0x02]
    ∧ (asked [3, 1, 0xFF] one).mgmt.mailbox = .executing [0x03, 1, 0xFF] ∧ (1 : Byte).toNat < 2 ∧ 2 ≤ (2 : Byte).toNat
    ∧ (asked [6, 0, 100] one).mgmt.mailbox = .executing [0x06, 0, 100]
    ∧ (asked [7, 3, 0xE8] one).mgmt.mailbox = .executing [0x07, 3, 0xE8] ∧ (3 : Byte).toNat * 256 + (0xE8 : Byte).toNat = 1000
    ∧ (0 : Byte).toNat * 256 + (0xFF : Byte).toNat < 256 ∧ 100 < (0 : Byte).toNat * 256 + (101 : Byte).toNat
    ∧ Device.reset.mgmt.alertLow = false ∧ ({ Mgmt.reset 0x2C with flags := 0x100, masks := 0 } : Mgmt).alertLow = true := by decide

theorem witness_RemapEntryIsReadByItsIndex : (asked [4, 1] one).mgmt.mailbox = .executing [0x04, 1]
    ∧ remapped.table[(1 : Byte).toNat]? = some { block := 9, spare := 1, state := .active }
    ∧ remapped.table.length ≤ (2 : Byte).toNat := by decide

theorem witness_DetachPortActsByTheSessionState : (asked [5, 0] one).mgmt.mailbox = .executing [0x05, 0]
    ∧ (one.port .a).session = .attached ∧ (one.port .b).session = .linked
    ∧ ((part draining running (portIn (.waiting 1)) (portIn .linked)).port .a).session = .waiting 1
    ∧ (asked [5, 2] one).mgmt.mailbox = .executing [0x05, 2] ∧ 2 ≤ (2 : Byte).toNat := by decide

theorem witness_DiscardHeldReleasesTheHeldFrames : (asked [8] one).mgmt.mailbox = .executing [0x08]
    ∧ ((framed (some { block := 5, hold := 1, state := .held 4 })).frame 0).served = some { block := 5, hold := 1, state := .held 4 }
    ∧ one.frames.waiterQueue = [] := ⟨rfl, by simp [framed], rfl⟩

theorem sound_asked {d : Device} (r : List Byte) (h : d.Sound) : (asked r d).Sound := Device.sound_onMgmt h

theorem witness_SoftRestartActsByTheMode : let d (m : ModeCtl) (c : Channel) (x : SessionState) := asked [9] (part m c (portIn x) (portIn .linked))
    (d serving running .attached).Sound ∧ (d faulted lost .attached).Sound ∧ (d ModeCtl.reset Channel.reset (.waiting 1)).Sound
    ∧ (d draining running (.waiting 1)).Sound ∧ (d serving running .attached).mgmt.mailbox = .executing [0x09]
    ∧ ∀ p, ((d serving running .attached).port p).outbound.length < 256 := by
  refine ⟨sound_asked _ sound_one, sound_asked _ ?_, sound_asked _ ?_, sound_asked _ ?_, rfl, fun p => by cases p <;> decide⟩
  · exact sound_part (by simp [faulted, ModeCtl.Sound]) sound_lost (by decide) (by decide) (.inr rfl) trivial
  · exact sound_part (by simp [ModeCtl.reset, ModeCtl.Sound]) Channel.sound_reset (by decide) (by decide) (.inl rfl) trivial
  · exact sound_part (by simp [draining, ModeCtl.Sound]) sound_running (by decide) (by decide) (.inr rfl) trivial

/-- From FAULTED a restart clears a DIRTY frame at once, keeps its bytes and the issue counts, and raises DATA_LOST. -/
theorem test_softRestartClearsAFaultedPart :
    let d := (asked [9] (part faulted { lost with issueCounts := Vector.replicate 4 7 } (portIn .attached) (portIn .linked))).setFrame 0
      { bytes := Block.fill 3, served := some { block := 5, hold := 0, state := .dirty 1 false } }
    let t := after .softRestart d
    (∀ p, (d.port p).window = []) ∧ (d.frame 0).kind = .dirty ∧ t.mgmt.raised .dataLost = true
      ∧ (t.frame 0).served = none ∧ ((t.frame 0).bytes)[511] = 3 ∧ t.channel.issueCounts.toList = [8, 7, 7, 7] := by
  refine ⟨fun p => by cases p <;> rfl, by decide +kernel, by decide +kernel, by decide +kernel, by decide +kernel, by decide +kernel⟩

theorem witness_DrainCompleteClearsThePart :
    (let d := part draining running (portIn .linked) (portIn .linked)
     d.mode.mode = .draining ∧ (d.frames.quiet && d.channel.allEmpty && d.channel.retrySet.isEmpty && d.channel.tableQueue.isEmpty) = true
       ∧ (d.frames.quiet && (working (.fill 0) false running).allEmpty && d.channel.retrySet.isEmpty
          && d.channel.tableQueue.isEmpty) = false)
    ∧ one.mode.mode ≠ .draining := by decide +kernel

/-- A check that is right and one that is not, a length that is its kind's and one that is not, and a kind of Table 11-2 and none. -/
theorem witness_InboundMessagesAreCheckedAndDecoded :
    let known : List (Byte × Nat) := [(0x01, 2), (0x02, 16), (0x03, 516), (0x04, 1), (0x05, 1), (0x06, 0)]
    (List.replicate 65535 (0 : Byte)).length < 65536 ∧ ([0, 0, 0, 0] : List Byte).length = 4
      ∧ (crcField [0x06, 0, 0, 0]).length = 4 ∧ crcField [0x06, 0, 0, 0] ≠ [0, 0, 0, 0]
      ∧ ((0x06 : Byte), 0) ∈ known ∧ ((0x05 : Byte), 1) ∈ known ∧ ([] : List Byte).length ≠ 1
      ∧ (∀ n, ((0x07 : Byte), n) ∉ known) ∧ 6 < (0x07 : Byte).toNat ∧ 7 < (0x08 : Byte).toNat := by
  refine ⟨by rw [List.length_replicate]; decide, rfl, rfl, by decide +kernel, by decide, by decide, by decide, fun n => ?_, by decide,
    by decide⟩
  simp

theorem witness_OutboundMessagesAreLaidOutByTheTables :
    ((.notServing, 0x0D) : Status × Byte) ∈ ([(.good, 0x00), (.notServing, 0x0D)] : List (Status × Byte))
      ∧ OutMsg.bytes (.bye .version) = [0x86, 0, 0, 1, 0x05] ++ crcField [0x86, 0, 0, 1, 0x05] := by decide +kernel

end Sys2Proof.Machine.Tests
end

section
/-!
SUPPORT and PROOF. Every step keeps the frame store sound: each command is one event, every event keeps the agreements of the store
(`Device.Stores`) and leaves RESET_N as it is, and the three resets leave every frame FREE and nothing waiting.
-/

namespace Sys2Proof.Machine

/-! ### Events and the soundness of the frame store -/

/-- An event leaves RESET_N as it is and keeps the agreements of the frame store. -/
structure Device.StoreEvent (d d' : Device) : Prop where
  reset : d'.resetAsserted = d.resetAsserted
  stores : d.Stores d'

theorem Device.StoreEvent.refl (d : Device) : d.StoreEvent d := ⟨rfl, .refl d⟩

theorem Device.StoreEvent.trans {d₁ d₂ d₃ : Device} (h : d₁.StoreEvent d₂) (k : d₂.StoreEvent d₃) : d₁.StoreEvent d₃ :=
  ⟨k.reset.trans h.reset, h.stores.trans k.stores⟩

theorem Device.Inner.storeEvent {d d' : Device} (h : d.Inner d') (k : d.Stores d') : d.StoreEvent d' := ⟨h.reset, k⟩

theorem Device.Outer.storeEvent {d d' : Device} (h : d.Outer d') (k : d.Stores d') : d.StoreEvent d' := ⟨h.reset, k⟩

theorem Device.storeEvent_close (d : Device) : d.StoreEvent d.close := d.outer_close.storeEvent d.stores_close

theorem Device.storeEvent_onMgmt (f : Mgmt → Mgmt) (d : Device) : d.StoreEvent (d.onMgmt f) := ⟨rfl, (d.same_onMgmt f).stores⟩

/-- While RESET_N is released an event that keeps the agreements keeps the frame store sound; while it is asserted nothing waits
before, and the event must leave nothing waiting. -/
theorem Device.StoreSound.of_stores {d d' : Device} (h : d.StoreSound) (hs : d.Stores d')
    (hq : d'.resetAsserted = true → d'.frames.waiterQueue = []) : d'.StoreSound :=
  d'.storeSound_iff.mpr ⟨hs (d.storeSound_iff.mp h).1, hq⟩

/-- The outcome, if it is a next state, has a sound frame store. -/
def EndsStoreSound (o : Host.Outcome State Fault Refusal) : Prop := ∀ t : State, o = .next t → t.toDevice.StoreSound

theorem State.always_storeSound {f : Device → Device} {s : State} (h : (f s.toDevice).StoreSound) : EndsStoreSound (s.always f) := by
  rintro t ⟨⟩
  exact h

theorem State.event_storeSound {f : Device → Device} {s : State} (h : s.toDevice.StoreSound) (hf : ∀ d, Device.StoreEvent d (f d)) :
    EndsStoreSound (s.event f) := by
  cases hr : s.resetAsserted with
  | true =>
    rw [State.event_of_reset hr]
    rintro t ⟨⟩
    exact h
  | false =>
    rw [State.event_of_released hr]
    rintro t ⟨⟩
    exact h.of_stores (hf _).stores fun ha => by simp [(hf _).reset, hr] at ha

theorem State.eventOr_storeSound {g f : Device → Device} {s : State} (h : s.toDevice.StoreSound)
    (hg : s.resetAsserted = true → (g s.toDevice).StoreSound) (hf : ∀ d, Device.StoreEvent d (f d)) :
    EndsStoreSound (s.eventOr g f) := by
  cases hr : s.resetAsserted with
  | true =>
    refine State.always_storeSound ?_
    simpa [hr] using hg hr
  | false =>
    refine State.always_storeSound ?_
    simpa [hr] using h.of_stores (hf _).stores fun ha => by simp [(hf _).reset, hr] at ha

/-! ### The resets -/

theorem Device.storeBut_of_cleared {d : Device} {fs : FrameStore} (hf : d.frames = fs.cleared) (ht : d.tracker = Tracker.reset) :
    d.StoreBut none none := by
  refine Device.storeBut_of_free (fun f => ?_) ?_ ?_ ?_ ?_ ?_ <;> simp [hf, ht, Device.frame, FrameStore.cleared, Tracker.reset, vecMap]

/-- POWER_ON leaves every frame FREE. -/
theorem Device.storeSound_powerOn (straps : BitVec 2) (a b : Bool) (d : Device) : (d.powerOn straps a b).StoreSound :=
  (Device.storeSound_iff _).mpr ⟨Device.storeBut_of_cleared (fs := d.frames) rfl rfl, fun _ => rfl⟩

/-- RESET_N asserted leaves every frame FREE. -/
theorem Device.storeSound_resetAssert (d : Device) : d.resetAssert.StoreSound :=
  (Device.storeSound_iff _).mpr ⟨Device.storeBut_of_cleared (fs := d.frames) rfl rfl, fun _ => rfl⟩

/-- With nothing waiting, the agreements of the frame store are about the frames and the tracker alone. -/
theorem Device.StoreBut.of_idleQueue {d d' : Device} (h : d.StoreBut none none) (hq : d.frames.waiterQueue = [])
    (hf : d'.frames = d.frames) (ht : d'.tracker = d.tracker) : d'.StoreBut none none := by
  obtain ⟨r, fs, t⟩ := d'
  subst hf ht
  exact { h with landed := fun e he => (List.not_mem_nil (hq ▸ he)).elim }

/-- RESET_N released: the ports start anew, and nothing waited for a frame while it was asserted. -/
theorem Device.StoreSound.resetRelease {d : Device} (h : d.StoreSound) (straps : BitVec 2) : (d.resetRelease straps).StoreSound := by
  unfold Device.resetRelease
  split
  · rename_i hr
    exact h.of_stores (fun h' => h'.of_idleQueue (h.inReset hr) rfl rfl) fun _ => h.inReset hr
  · exact h

/-- A link that changes while RESET_N is asserted starts its port anew. -/
theorem Device.StoreSound.linkInReset {d : Device} (h : d.StoreSound) (hr : d.resetAsserted = true) (p : Port) (up : Bool) :
    (d.linkInReset p up).StoreSound :=
  h.of_stores (fun h' => h'.of_idleQueue (h.inReset hr) (d.onPort_frames p _) (d.onPort_tracker p _))
    fun _ => (congrArg FrameStore.waiterQueue (d.onPort_frames p _)).trans (h.inReset hr)

/-! ### The events of the commands -/

theorem Device.storeEvent_writeCreditGrant (p : Port) (d : Device) : d.StoreEvent ((d.settle.grantCredits p).grantCredits p.other) :=
  ((d.outer_settle.storeEvent d.stores_settle).trans ((Device.inner_grantCredits p _).storeEvent (Device.stores_grantCredits p _))).trans
    ((Device.inner_grantCredits p.other _).storeEvent (Device.stores_grantCredits p.other _))

theorem Device.storeEvent_leaseTick (d : Device) : d.StoreEvent (if d.reservations.clockRunning then d.leaseTick.close else d) := by
  split
  · exact (d.inner_leaseTick.storeEvent d.same_leaseTick.stores).trans (Device.storeEvent_close _)
  · exact .refl d

/-! ### The events of the management port -/

theorem Device.storeEvent_execute {code : Byte} {act : List Byte → Device → Device} {d : Device}
    (h : ∀ params, d.StoreEvent (act params d)) : d.StoreEvent (d.execute code act) := by
  unfold Device.execute
  split
  · split
    · exact h _
    · exact .refl d
  · exact .refl d

theorem Device.storeEvent_respond (code : Byte) (r : MgmtResult) (fields : List Byte) (d : Device) :
    d.StoreEvent (d.respond code r fields) := d.storeEvent_onMgmt _

theorem Device.storeEvent_badRequest (d : Device) : d.StoreEvent d.badRequest := by
  unfold Device.badRequest
  split
  · split
    · exact d.storeEvent_respond _ _ _
    · split
      · exact .refl d
      · exact d.storeEvent_respond _ _ _
  · exact .refl d

theorem Device.storeEvent_maskConditions (v : Nat) (d : Device) : d.StoreEvent (d.maskConditions v) := by
  unfold Device.maskConditions
  split
  · exact (d.storeEvent_onMgmt _).trans (Device.storeEvent_respond _ _ _ _)
  · exact d.storeEvent_respond _ _ _

theorem Device.storeEvent_setLeaseTick (ms : Nat) (d : Device) : d.StoreEvent (d.setLeaseTick ms) := by
  unfold Device.setLeaseTick
  split
  · exact (d.storeEvent_onMgmt _).trans (Device.storeEvent_respond _ _ _ _)
  · exact d.storeEvent_respond _ _ _

theorem Device.storeEvent_setWatermark (n : Nat) (d : Device) : d.StoreEvent (d.setWatermark n) := by
  unfold Device.setWatermark
  split
  · exact (d.storeEvent_onMgmt _).trans (Device.storeEvent_respond _ _ _ _)
  · exact d.storeEvent_respond _ _ _

theorem Device.reset_detach (p : Port) (d : Device) : (d.detach p).resetAsserted = d.resetAsserted := by
  unfold Device.detach
  split
  · exact (Device.rest_endSessions _ _ _ _).reset
  · exact Device.onPort_resetAsserted _ _ _
  · rfl
  · rfl

theorem Device.storeEvent_detachPort (which : Nat) (d : Device) : d.StoreEvent (d.detachPort which) := by
  have port (p : Port) : d.StoreEvent (d.detach p).close :=
    (Device.StoreEvent.mk (d.reset_detach p) (d.stores_detach p)).trans (Device.storeEvent_close _)
  unfold Device.detachPort
  split
  · exact port .a
  · exact port .b
  · exact d.storeEvent_respond _ _ _

theorem Device.storeEvent_discardHeld (d : Device) : d.StoreEvent d.discardHeld :=
  ((d.storeEvent_respond _ _ _).trans
    ((Device.inner_discardHeldFrames _).storeEvent (Device.stores_discardHeldFrames _))).trans (Device.storeEvent_close _)

theorem Device.storeEvent_takeSoftRestart (d : Device) : d.StoreEvent d.takeSoftRestart :=
  ((d.storeEvent_respond _ _ _).trans ((Device.outer_softRestart _).storeEvent (Device.stores_softRestart _))).trans
    (Device.storeEvent_close _)

/-! ### Every command -/

/-- A message that arrives at a port is one event, or several, of the port's session. -/
theorem State.receive_storeSound {s : State} (h : s.toDevice.StoreSound) (p : Port) (m : Inbound) :
    EndsStoreSound (s.event (Device.receive p m)) :=
  State.event_storeSound h fun d => (d.outer_receive p m).storeEvent (d.stores_receive p m)

theorem exec_storeSound (c : Instr) {s : State} (h : s.toDevice.StoreSound) : EndsStoreSound (exec c s) := by
  cases c with
  | powerOn straps a b => exact State.always_storeSound (Device.storeSound_powerOn straps a b _)
  | resetNAssert => exact State.always_storeSound (Device.storeSound_resetAssert _)
  | resetNRelease straps => exact State.always_storeSound (h.resetRelease straps)
  | linkUp p =>
    exact State.eventOr_storeSound h (fun hr => h.linkInReset hr p true) fun d =>
      (d.outer_linkCameUp p).storeEvent (d.stores_linkCameUp p)
  | linkDown p =>
    show EndsStoreSound (execLinkDown p s)
    exact State.eventOr_storeSound h (fun hr => h.linkInReset hr p false) fun d =>
      ((d.outer_linkLoss p).storeEvent (d.stores_linkLoss p)).trans (Device.storeEvent_close _)
  | messageCheckFailure p | unknownMessageKind p | commandUnknownOpcode p | hello p | inboundBye p | read p | write p | flush p
  | reserve p | renew p | release p | query p | inboundData p | inboundCredit p | cancel p => exact State.receive_storeSound h p _
  | heldHelloRelease => exact State.event_storeSound h fun d => d.outer_releaseHellos.storeEvent d.stores_releaseHellos
  | outboundMessageSent p => exact State.event_storeSound h fun d => (d.outer_messageSent p).storeEvent (d.stores_messageSent p)
  | frameHandOut f => exact State.event_storeSound h fun d => (d.outer_offerFrame f).storeEvent (d.stores_offerFrame f)
  | writeCreditGrant p => exact State.event_storeSound h (Device.storeEvent_writeCreditGrant p)
  | dataFormed p =>
    show EndsStoreSound (execDataFormed p s)
    exact State.event_storeSound h fun d =>
      ((inner_engineLoop _ p d).storeEvent (stores_engineLoop _ p d)).trans (Device.storeEvent_close _)
  | mediaReadCompletion slot issue code body | mediaWriteCompletion slot issue code body | identifyCompletion slot issue code body
  | resetCompletion slot issue code body =>
    exact State.event_storeSound h fun d =>
      (d.outer_completion slot issue code body).storeEvent (d.stores_completion slot issue code body)
  | slotArbiterRun =>
    show EndsStoreSound (execSlotArbiterRun s)
    exact State.event_storeSound h fun d => ((d.inner_runArbiter.storeEvent d.stores_runArbiter).trans
      (Device.storeEvent_close _)).trans ((Device.outer_drainTest _).storeEvent (Device.stores_drainTest _))
  | mediaTimeout i => exact State.event_storeSound h fun d => (d.outer_timeout i).storeEvent (d.stores_timeout i)
  | reissueTimeout i => exact State.event_storeSound h fun d => (d.outer_reissueTimeout i).storeEvent (d.stores_reissueTimeout i)
  | resetTimeout | identifyTimeout =>
    exact State.event_storeSound h fun d => (d.outer_controlTimeout _).storeEvent (d.stores_controlTimeout _)
  | recoveryResetPlaced => exact State.event_storeSound h fun d => d.inner_placeReset.storeEvent d.stores_placeReset
  | persistBegin =>
    show EndsStoreSound (execPersistBegin s)
    exact State.event_storeSound h fun d =>
      (d.inner_beginPersist.storeEvent d.stores_beginPersist).trans (Device.storeEvent_close _)
  | flushAnswer =>
    show EndsStoreSound (execFlushAnswer s)
    exact State.event_storeSound h fun d => (d.inner_testFlush.storeEvent d.same_testFlush.stores).trans (Device.storeEvent_close _)
  | leaseTick =>
    show EndsStoreSound (execLeaseTick s)
    exact State.event_storeSound h Device.storeEvent_leaseTick
  | leaseLapse id =>
    show EndsStoreSound (execLeaseLapse id s)
    exact State.event_storeSound h fun d =>
      ((d.inner_lapseEntry id).storeEvent (d.same_lapseEntry id).stores).trans (Device.storeEvent_close _)
  | reservationGrant p =>
    show EndsStoreSound (execReservationGrant p s)
    exact State.event_storeSound h fun d =>
      ((d.inner_testPending p).storeEvent (d.same_testPending p).stores).trans (Device.storeEvent_close _)
  | i2cWriteTransaction address bytes | i2cReadTransaction address length =>
    exact State.eventOr_storeSound h (fun hr => h.of_stores (Device.same_onMgmt _ _).stores fun _ => h.inReset hr)
      (Device.storeEvent_onMgmt _)
  | managementBadRequest => exact State.event_storeSound h Device.storeEvent_badRequest
  | readStatus => exact State.event_storeSound h fun d => d.storeEvent_execute fun _ => d.storeEvent_respond _ _ _
  | readConditions =>
    exact State.event_storeSound h fun d => d.storeEvent_execute fun _ =>
      (d.storeEvent_respond _ _ _).trans (Device.storeEvent_onMgmt _ _)
  | maskConditions => exact State.event_storeSound h fun d => d.storeEvent_execute fun _ => d.storeEvent_maskConditions _
  | readRemapEntry => exact State.event_storeSound h fun d => d.storeEvent_execute fun _ => d.storeEvent_respond _ _ _
  | detachPort => exact State.event_storeSound h fun d => d.storeEvent_execute fun _ => d.storeEvent_detachPort _
  | setLeaseTick => exact State.event_storeSound h fun d => d.storeEvent_execute fun _ => d.storeEvent_setLeaseTick _
  | setWatermark => exact State.event_storeSound h fun d => d.storeEvent_execute fun _ => d.storeEvent_setWatermark _
  | discardHeld => exact State.event_storeSound h fun d => d.storeEvent_execute fun _ => d.storeEvent_discardHeld
  | softRestart => exact State.event_storeSound h fun d => d.storeEvent_execute fun _ => d.storeEvent_takeSoftRestart
  | drainComplete => exact State.event_storeSound h fun d => d.outer_drainTest.storeEvent d.stores_drainTest

/-- Settles O5: with no command waiting the state stays; otherwise the front command is one event that keeps the frame store sound. -/
theorem stepKeepsTheFrameStoreSound : Obligations.StepKeepsTheFrameStoreSound := by
  intro s t h hst
  cases hp : s.pending with
  | nil =>
    obtain rfl : s = t := by simpa [step, hp] using hst
    exact h
  | cons c rest => exact exec_storeSound c (s := { s with pending := rest }) h t (by simpa [step, hp] using hst)

end Sys2Proof.Machine
end


section
/-!
SUPPORT and PROOF. What the block index and the allocation answer, said from the frames; the try of a commit order's head, the look-up
of a window block and the hand-out of a frame, assembled from these.
-/

namespace Sys2Proof.Machine

/-! ### The block index and the allocation, from the frames (R4, R7, R12, R13) -/

theorem Device.lookup_of_serves {d : Device} {block : Nat} {f : FrameNo} (hf : (d.frame f).serves block = true)
    (h : ∀ g, (d.frame g).serves block = true → g = f) : d.frames.lookup block = some f :=
  FrameStore.firstFrame_of_first hf fun g hg => Bool.eq_false_iff.mpr fun hs => hg.ne (h g hs)

theorem Device.lookup_of_none {d : Device} {block : Nat} (h : ∀ g, (d.frame g).serves block = false) :
    d.frames.lookup block = none := FrameStore.firstFrame_of_none h

theorem Device.allocChoice_of_queue {d : Device} (h : d.frames.waiterQueue ≠ []) : d.allocChoice = none := by
  simp [Device.allocChoice, h]

/-- R12: the lowest FREE frame answers an allocation. -/
theorem Device.allocChoice_of_free {d : Device} {f : FrameNo} (hq : d.frames.waiterQueue = []) (hf : (d.frame f).served = none)
    (hl : ∀ g < f, (d.frame g).served ≠ none) : d.allocChoice = some f := by
  have low : d.frames.lowestFree = some f :=
    FrameStore.firstFrame_of_first (Option.isNone_iff_eq_none.mpr hf) fun g hg =>
      Bool.eq_false_iff.mpr fun e => hl g hg (Option.isNone_iff_eq_none.mp e)
  simp [Device.allocChoice, hq, low]

theorem Device.lowestFree_of_served {d : Device} (h : ∀ g, (d.frame g).served ≠ none) : d.frames.lowestFree = none :=
  FrameStore.firstFrame_of_none fun g => Bool.eq_false_iff.mpr fun e => h g (Option.isNone_iff_eq_none.mp e)

theorem Frame.not_evictable_of_not_available {fr : Frame} (h : fr.available = false) : fr.evictable = false := by
  simp only [Frame.available, Bool.or_eq_false_iff] at h
  exact h.2

/-- R13: with no frame FREE, the first unheld frame of the clean list answers it. -/
theorem Device.allocChoice_of_clean {d : Device} {f : FrameNo} {b : Nat} {l r : List FrameNo} (hq : d.frames.waiterQueue = [])
    (hs : ∀ g, (d.frame g).served ≠ none) (hc : d.frames.cleanList = l ++ f :: r) (hl : ∀ g ∈ l, (d.frame g).available = false)
    (hf : (d.frame f).served = some { block := b, hold := 0, state := .clean }) : d.allocChoice = some f := by
  have hev : (d.frame f).evictable = true := by simp [Frame.evictable, hf]
  have held : l.find? (fun g => (d.frame g).evictable) = none :=
    List.find?_eq_none.mpr fun g hg => by simp [Frame.not_evictable_of_not_available (hl g hg)]
  have first : d.evictionCandidate = some f := by simp [Device.evictionCandidate, hc, held, hev]
  simp [Device.allocChoice, hq, Device.lowestFree_of_served hs, first]

/-- With no frame FREE and every CLEAN one held, none does. -/
theorem Device.allocChoice_of_held {d : Device} (hs : ∀ g, (d.frame g).served ≠ none)
    (hc : ∀ g ∈ d.frames.cleanList, (d.frame g).available = false) : d.allocChoice = none := by
  have held : d.evictionCandidate = none :=
    List.find?_eq_none.mpr fun g hg => by simp [Frame.not_evictable_of_not_available (hc g hg)]
  simp [Device.allocChoice, Device.lowestFree_of_served hs, held]

/-! ### The head of a commit order (R25) -/

theorem Device.tryCommit_of_empty {p : Port} {d : Device} (h : d.orderOf p = []) : d.tryCommit p = d := by
  rw [Device.tryCommit, commitFuel, tryHead, show (d.port p).commitOrder = [] from h]

/-- A head that waits for a frame stalls its port. -/
theorem Device.tryCommit_of_waiting {p : Port} {b : BufNo} {rest : List BufNo} {d : Device} (hc : d.orderOf p = b :: rest)
    (hw : ∃ e ∈ d.frames.waiterQueue, e.requester = .landing p b) : d.tryCommit p = d := by
  have waits : (d.frames.waiterQueue.any fun e => decide (e.requester = .landing p b)) = true := by simpa using hw
  rw [Device.tryCommit, commitFuel, tryHead, show (d.port p).commitOrder = b :: rest from hc]
  simp only [waits, if_true]

/-- Settles O27: the try of the head as one step of its recursion, with the frame the index or the allocation answers. -/
theorem headOfTheCommitOrderIsTriedUntilOneWaits : Obligations.HeadOfTheCommitOrderIsTriedUntilOneWaits := by
  intro d p
  refine ⟨Device.tryCommit_of_empty, fun b rest t index block bytes hc hr hl => ⟨Device.tryCommit_of_waiting hc, fun hw => ?_⟩⟩
  have tried := Device.tryCommit_of_head hc (hr.trans (by decide)) hl hw
  refine ⟨fun f hf => ?_, fun hn => ?_⟩
  · rw [tried, Device.lookup_of_serves ((hf f).mpr rfl) fun g => (hf g).mp]
  · rw [Device.lookup_of_none hn] at tried
    refine ⟨fun f hq hf hlow => ?_, fun f bl l r hq hs hcl hheld hf => ?_, fun hnone => ?_⟩
    · rw [tried, Device.allocChoice_of_free hq hf hlow]
      rfl
    · rw [tried, Device.allocChoice_of_clean hq hs hcl hheld hf]
      rfl
    · have none : d.allocChoice = none :=
        hnone.elim Device.allocChoice_of_queue fun h => Device.allocChoice_of_held h.1 h.2
      rw [tried, none]
      rfl

/-! ### Holds (R9) -/

theorem Device.setServed_setServed (f : FrameNo) (sv sv' : Option Served) (d : Device) :
    (d.setServed f sv).setServed f sv' = d.setServed f sv' := by
  simp [Device.setServed, Device.setFrame, Device.frame]

theorem Device.takeHold_of_clean {f : FrameNo} {b h : Nat} {d : Device}
    (hs : (d.frame f).served = some { block := b, hold := h, state := .clean }) :
    d.takeHold f = (d.setServed f (some { block := b, hold := h + 1, state := .clean })).cleanTail f := by
  simp [Device.takeHold, hs]

theorem Device.takeHold_of_ne_clean {f : FrameNo} {b h : Nat} {st : FrameState} {d : Device}
    (hs : (d.frame f).served = some { block := b, hold := h, state := st }) (hc : st ≠ .clean) :
    d.takeHold f = d.setServed f (some { block := b, hold := h + 1, state := st }) := by
  cases st <;> simp_all [Device.takeHold]

/-- A window block that takes a hold on a FILLING frame joins those that wait for its fill. -/
theorem Device.holdFor_of_filling {w : WindowRef} {f : FrameNo} {b h : Nat} {ws : List WindowRef} {d : Device}
    (hs : (d.frame f).served = some { block := b, hold := h, state := .filling ws }) :
    d.holdFor w f =
      (d.setServed f (some { block := b, hold := h + 1, state := .filling (ws ++ [w]) })).tellWindow w (.waitingFill f) := by
  simp [Device.holdFor, Device.takeHold_of_ne_clean hs, Device.setServed_setServed]

/-- On a frame with valid data it is READY at once. -/
theorem Device.holdFor_of_clean {w : WindowRef} {f : FrameNo} {b h : Nat} {d : Device}
    (hs : (d.frame f).served = some { block := b, hold := h, state := .clean }) :
    d.holdFor w f =
      ((d.setServed f (some { block := b, hold := h + 1, state := .clean })).cleanTail f).tellWindow w (.ready f) := by
  simp [Device.holdFor, Device.takeHold_of_clean hs]

theorem Device.holdFor_of_data {w : WindowRef} {f : FrameNo} {b h : Nat} {st : FrameState} {d : Device}
    (hs : (d.frame f).served = some { block := b, hold := h, state := st }) (hc : st ≠ .clean) (hf : ∀ ws, st ≠ .filling ws) :
    d.holdFor w f = (d.setServed f (some { block := b, hold := h + 1, state := st })).tellWindow w (.ready f) := by
  cases st <;> simp_all [Device.holdFor, Device.takeHold_of_ne_clean hs]

/-! ### The look-up of a window block (R5) -/

theorem Device.lookupWindow_of_index {w : WindowRef} {block : Nat} {f : FrameNo} {d : Device}
    (h : d.frames.lookup block = some f) : d.lookupWindow w block = d.holdFor w f := by
  rw [Device.lookupWindow, h]
  rfl

theorem Device.lookupWindow_of_alloc {w : WindowRef} {block : Nat} {f : FrameNo} {d : Device}
    (h : d.frames.lookup block = none) (ha : d.allocChoice = some f) : d.lookupWindow w block = (d.evict f).fillFor w block f := by
  rw [Device.lookupWindow, h, ha]

theorem Device.lookupWindow_of_none {w : WindowRef} {block : Nat} {d : Device} (h : d.frames.lookup block = none)
    (ha : d.allocChoice = none) : d.lookupWindow w block =
      (d.joinWaiters { requester := .window w, block := block }).tellWindow w .waitingFrame := by
  rw [Device.lookupWindow, h, ha]

theorem Device.setServed_leaveClean (f : FrameNo) (sv : Option Served) (d : Device) :
    (d.leaveClean f).setServed f sv = (d.setServed f sv).leaveClean f := rfl

/-- R12, R33: an evicted frame that serves a window block's block, as one change of its record. -/
theorem Device.fillFor_evict (w : WindowRef) (block : Nat) (f : FrameNo) (d : Device) : (d.evict f).fillFor w block f =
    Device.tellWindow w (.waitingFill f) (Device.requestFill { frame := f, block := block }
      (Device.leaveClean f (d.setServed f (some { block := block, hold := 1, state := .filling [w] })))) := by
  rw [Device.evict, Device.fillFor, Device.setServed_leaveClean, Device.setServed_setServed]

/-! ### The read window (R145) -/

theorem refillLoop_of_next {n : Nat} {p : Port} {d : Device} {t : Tag} {i block : Nat} (hw : (d.port p).window.length < 32)
    (hn : (d.port p).nextBlock = some (t, i, block)) : refillLoop (n + 1) p d =
      refillLoop n p ((d.onPort p fun u =>
        { u.markMoving t with window := u.window ++ [WindowBlock.mk t i block .lookup] }).lookupWindow
          { port := p, tag := t, index := i } block) := by
  rw [refillLoop, if_pos hw, hn]

theorem refillLoop_of_none {n : Nat} {p : Port} {d : Device} (hn : (d.port p).nextBlock = none) : refillLoop n p d = d := by
  cases n with
  | zero => rfl
  | succ n => simp [refillLoop, hn]

/-- A hold moves no port unit. -/
theorem Device.takeHold_port (f : FrameNo) (d : Device) (p : Port) : (d.takeHold f).port p = d.port p := by
  unfold Device.takeHold
  split
  · dsimp only
    split <;> cases p <;> rfl
  · rfl

/-- A look-up moves the port units only by what the window block is told. -/
theorem Device.lookupWindow_port (w : WindowRef) (block : Nat) (d : Device) :
    ∃ st, (d.lookupWindow w block).port w.port = (d.port w.port).setWindow w.tag w.index st := by
  unfold Device.lookupWindow
  split
  · rename_i f _
    have same := d.takeHold_port f w.port
    dsimp only
    split
    · refine ⟨.waitingFill f, (Device.onPort_port_same _ _ _).trans (congrArg _ ?_)⟩
      rw [← same]
      cases w.port <;> rfl
    · exact ⟨.ready f, (Device.onPort_port_same _ _ _).trans (congrArg _ same)⟩
  · split
    · rename_i f _
      refine ⟨.waitingFill f, (Device.onPort_port_same _ _ _).trans (congrArg _ ?_)⟩
      cases w.port <;> rfl
    · refine ⟨.waitingFrame, (Device.onPort_port_same _ _ _).trans (congrArg _ ?_)⟩
      cases w.port <;> rfl

theorem PortUnit.inWindow_setWindow (t t' : Tag) (i : Nat) (st : WindowState) (u : PortUnit) :
    (u.setWindow t' i st).inWindow t = u.inWindow t := by
  unfold PortUnit.inWindow PortUnit.setWindow
  rw [List.countP_map]
  refine List.countP_congr fun wb _ => ?_
  by_cases h : wb.tag = t' ∧ wb.index = i <;> simp [h]

/-- What a window block is told is no matter for which block enters next. -/
theorem PortUnit.nextBlock_setWindow (t : Tag) (i : Nat) (st : WindowState) (u : PortUnit) :
    (u.setWindow t i st).nextBlock = u.nextBlock := by
  unfold PortUnit.nextBlock
  simp only [PortUnit.inWindow_setWindow]
  rfl

/-- A READ that meets its acceptance checks joins the read list, and the window is refilled (R144). -/
theorem Device.acceptRead_of_accepted {p : Port} {tag : Tag} {start count : Nat} {d : Device} (h : d.refusesRead start count = none) :
    d.acceptRead p tag start count =
      ((d.openCommand p tag (.read { start := start, count := count, state := .queued, sent := 0 })).onPort p
        fun u => { u with readList := u.readList ++ [tag] }).refill p := by
  unfold Device.refusesRead at h
  split_ifs at h with hc hr hm
  have inRange : ¬ (count = 0 ∨ Config.maxTransfer < count) := by
    simpa [Config.maxTransfer, Nat.lt_one_iff] using hc
  rw [Device.acceptRead, if_neg inRange, if_neg hr, if_neg hm]

/-- With one READ in the read list, its next block beyond the window enters next. -/
theorem PortUnit.nextBlock_of_single {tag : Tag} {r : ReadCmd} {u : PortUnit} (hl : u.readList = [tag])
    (hc : u.commands[tag] = some (.read r)) : u.nextBlock =
      if r.sent + u.inWindow tag < r.count then some (tag, r.sent + u.inWindow tag, r.start + (r.sent + u.inWindow tag)) else none := by
  simp only [PortUnit.nextBlock, hl, List.findSome?_cons, hc, List.findSome?_nil]
  split_ifs <;> rfl

/-- The port unit with a READ of one block accepted: QUEUED, at the tail of the read list. -/
def PortUnit.withQueuedRead (tag : Tag) (start : Nat) (u : PortUnit) : PortUnit :=
  { u.setCommand tag (some (.read { start := start, count := 1, state := .queued, sent := 0 })) with
      readList := u.readList ++ [tag] }

/-- The port unit whose one READ, of one block, has that block in the window: MOVING, about to be looked up. -/
def PortUnit.withMovingRead (tag : Tag) (start : Nat) (u : PortUnit) : PortUnit :=
  { u.setCommand tag (some (.read { start := start, count := 1, state := .moving, sent := 0 })) with
      readList := [tag], window := [{ tag := tag, index := 0, block := start, state := .lookup }] }

theorem PortUnit.withQueuedRead_command (tag : Tag) (start : Nat) (u : PortUnit) : (u.withQueuedRead tag start).commands[tag] =
    some (.read { start := start, count := 1, state := .queued, sent := 0 }) := by simp [PortUnit.withQueuedRead, PortUnit.setCommand]

theorem PortUnit.withMovingRead_command (tag : Tag) (start : Nat) (u : PortUnit) : (u.withMovingRead tag start).commands[tag] =
    some (.read { start := start, count := 1, state := .moving, sent := 0 }) := by simp [PortUnit.withMovingRead, PortUnit.setCommand]

/-- The one block of a READ alone on its port is the next to enter the window. -/
theorem PortUnit.nextBlock_withQueuedRead {tag : Tag} {start : Nat} {u : PortUnit} (hl : u.readList = []) (hw : u.window = []) :
    (u.withQueuedRead tag start).nextBlock = some (tag, 0, start) := by
  rw [PortUnit.nextBlock_of_single (by simp [PortUnit.withQueuedRead, hl]) (u.withQueuedRead_command tag start)]
  simp [PortUnit.inWindow, PortUnit.withQueuedRead, PortUnit.setCommand, hw]

/-- With its one block in the window it has no other. -/
theorem PortUnit.nextBlock_withMovingRead (tag : Tag) (start : Nat) (u : PortUnit) : (u.withMovingRead tag start).nextBlock = none := by
  rw [PortUnit.nextBlock_of_single rfl (u.withMovingRead_command tag start)]
  simp [PortUnit.inWindow, PortUnit.withMovingRead]

/-- The block enters the window and its READ is MOVING. -/
theorem PortUnit.enter_withQueuedRead {tag : Tag} {start : Nat} {u : PortUnit} (hl : u.readList = []) (hw : u.window = []) :
    { (u.withQueuedRead tag start).markMoving tag with
        window := (u.withQueuedRead tag start).window ++ [WindowBlock.mk tag 0 start .lookup] } = u.withMovingRead tag start := by
  rw [PortUnit.markMoving, PortUnit.withQueuedRead_command]
  simp [PortUnit.withQueuedRead, PortUnit.withMovingRead, PortUnit.setCommand, hl, hw]

/-- R144, R145: the one block of an accepted READ enters an empty window and is looked up, and no other follows it. -/
theorem Device.acceptRead_single {p : Port} {tag : Tag} {start : Nat} {d : Device} (h : d.refusesRead start 1 = none)
    (hl : (d.port p).readList = []) (hw : (d.port p).window = []) : d.acceptRead p tag start 1 =
      Device.lookupWindow { port := p, tag := tag, index := 0 } start (d.onPort p (PortUnit.withMovingRead tag start)) := by
  have queued : d.acceptRead p tag start 1 = (d.onPort p (PortUnit.withQueuedRead tag start)).refill p := by
    rw [Device.acceptRead_of_accepted h, Device.openCommand, Device.setCommand, Device.onPort_onPort]
    rfl
  have room : ((d.onPort p (PortUnit.withQueuedRead tag start)).port p).window.length < 32 := by
    simp [PortUnit.withQueuedRead, PortUnit.setCommand, hw]
  have next : ((d.onPort p (PortUnit.withQueuedRead tag start)).port p).nextBlock = some (tag, 0, start) := by
    rw [Device.onPort_port_same, PortUnit.nextBlock_withQueuedRead hl hw]
  rw [queued, Device.refill, refillLoop_of_next room next, Device.onPort_onPort,
    Device.onPort_congr (PortUnit.enter_withQueuedRead hl hw)]
  refine refillLoop_of_none ?_
  obtain ⟨st, hst⟩ := Device.lookupWindow_port { port := p, tag := tag, index := 0 } start
    (d.onPort p (PortUnit.withMovingRead tag start))
  rw [hst, PortUnit.nextBlock_setWindow, Device.onPort_port_same, PortUnit.nextBlock_withMovingRead]

/-- Settles O28: the look-up by what the index and the allocation answer, and the accepted READ of one block as that look-up. -/
theorem lookUpFindsItsFrameOrAllocatesOne : Obligations.LookUpFindsItsFrameOrAllocatesOne := by
  refine ⟨fun d w block => ⟨fun f hold honly => ?_, fun hnone => ?_⟩, fun s p tag start hh hf hr hl hw => ?_⟩
  · have indexed {st : FrameState} (hs : (d.frame f).served = some { block := block, hold := hold, state := st }) :
        d.lookupWindow w block = d.holdFor w f :=
      Device.lookupWindow_of_index (Device.lookup_of_serves (Frame.serves_iff.mpr ⟨_, hs, rfl⟩) honly)
    refine ⟨fun ws hs => ?_, fun hs => ?_, fun st hs hc hws => ?_⟩
    · rw [indexed hs, Device.holdFor_of_filling hs]
    · rw [indexed hs, Device.holdFor_of_clean hs]
    · rw [indexed hs, Device.holdFor_of_data hs hc hws]
  · have unindexed := Device.lookup_of_none hnone
    refine ⟨fun f hq hs hlow => ?_, fun f b l r hq hs hc hheld hs' => ?_, fun hq => ?_, fun hs hheld => ?_⟩
    · rw [Device.lookupWindow_of_alloc unindexed (Device.allocChoice_of_free hq hs hlow), Device.fillFor_evict]
    · rw [Device.lookupWindow_of_alloc unindexed (Device.allocChoice_of_clean hq hs hc hheld hs'), Device.fillFor_evict]
    · exact Device.lookupWindow_of_none unindexed (Device.allocChoice_of_queue hq)
    · exact Device.lookupWindow_of_none unindexed (Device.allocChoice_of_held hs hheld)
  · show s.event (Device.receive p (.read tag start.toNat 1)) = _
    rw [State.event_of_takes hh.1]
    refine State.next_congr (congrArg Device.close ?_)
    rw [Device.takeCommand_of_hears hh hf, Device.acceptRead_single hr hl hw]
    rfl

/-! ### The frame-waiter queue is nothing to a commit -/

section
variable (q : List WaiterEntry) (d : Device)

@[simp] theorem Device.setWaiterQueue_port (p : Port) : (d.setWaiterQueue q).port p = d.port p := by cases p <;> rfl

theorem Device.setWaiterQueue_onPort (p : Port) (f : PortUnit → PortUnit) :
    (d.setWaiterQueue q).onPort p f = (d.onPort p f).setWaiterQueue q := by cases p <;> rfl

theorem Device.setWaiterQueue_setCommand (p : Port) (t : Tag) (c : Option OpenCmd) :
    (d.setWaiterQueue q).setCommand p t c = (d.setCommand p t c).setWaiterQueue q := d.setWaiterQueue_onPort q p _

theorem Device.setWaiterQueue_answer (p : Port) (t : Tag) (st : Status) (moved : Nat) (failing : Option Nat) (pl : Payload) :
    (d.setWaiterQueue q).answer p t st moved failing pl = (d.answer p t st moved failing pl).setWaiterQueue q := by
  cases p <;> rfl

theorem Device.setWaiterQueue_setFlushList (l : List FlushEntry) :
    (d.setWaiterQueue q).setFlushList l = (d.setFlushList l).setWaiterQueue q := rfl

theorem Device.setWaiterQueue_answerFlush (e : FlushEntry) (st : Status) :
    (d.setWaiterQueue q).answerFlush e st = (d.answerFlush e st).setWaiterQueue q := by
  unfold Device.answerFlush
  rw [Device.setWaiterQueue_port]
  split
  · exact d.setWaiterQueue_answer q _ _ _ _ _ _
  · exact d.setWaiterQueue_answer q _ _ _ _ _ _
  · rfl

theorem flushLoop_setWaiterQueue (n : Nat) : flushLoop n (d.setWaiterQueue q) = (flushLoop n d).setWaiterQueue q := by
  induction n generalizing d with
  | zero => rfl
  | succ n ih =>
    rw [flushLoop, flushLoop, Device.setWaiterQueue_tracker]
    split
    · rfl
    · split
      · rfl
      · rw [Device.setWaiterQueue_setFlushList, Device.setWaiterQueue_answerFlush, ih]
      · rw [Device.setWaiterQueue_setFlushList, Device.setWaiterQueue_answerFlush, ih]

theorem Device.setWaiterQueue_testFlush : (d.setWaiterQueue q).testFlush = d.testFlush.setWaiterQueue q :=
  flushLoop_setWaiterQueue q d _

theorem Device.setWaiterQueue_reportSet (n : Nat) : (d.setWaiterQueue q).reportSet n = (d.reportSet n).setWaiterQueue q :=
  Device.setWaiterQueue_testFlush q { d with tracker := { d.tracker with unwritten := insertAsc n d.tracker.unwritten } }

theorem Device.setWaiterQueue_joinFlush (e : FlushEntry) : (d.setWaiterQueue q).joinFlush e = (d.joinFlush e).setWaiterQueue q := by
  unfold Device.joinFlush
  rw [Device.setWaiterQueue_tracker, Device.setWaiterQueue_setFlushList]
  dsimp only
  split
  · exact Device.setWaiterQueue_testFlush q _
  · rfl

theorem Device.setWaiterQueue_countCommit (p : Port) (t : Tag) (n : Nat) :
    (d.setWaiterQueue q).countCommit p t n = (d.countCommit p t n).setWaiterQueue q := by
  unfold Device.countCommit
  rw [Device.setWaiterQueue_port]
  split
  · dsimp only
    split_ifs
    · rw [Device.setWaiterQueue_setCommand, Device.setWaiterQueue_joinFlush]
    · exact d.setWaiterQueue_answer q _ _ _ _ _ _
    · exact d.setWaiterQueue_setCommand q _ _ _
  · rfl

end

/-- The next write number is taken (R24 step 1). -/
def Device.numbered (d : Device) : Device := { d with tracker := { d.tracker with nextWrite := d.tracker.nextWrite + 1 } }

/-- A frame that was FREE serves the block, DIRTY with exposure n. -/
def Device.enterDirtyFresh (f : FrameNo) (block n : Nat) (bytes : Block) (d : Device) : Device :=
  ((d.setBytes f bytes).setServed f (some { block := block, hold := 0, state := .dirty n false })).enterDirty f

theorem Device.commitFrame_of_free {f : FrameNo} {block n : Nat} {bytes : Block} {d : Device} (h : (d.frame f).served = none) :
    d.commitFrame f block n bytes = (d.enterDirtyFresh f block n bytes).reportSet n := by
  unfold Device.commitFrame
  dsimp only
  rw [Device.setBytes_served, h]
  rfl

/-- The commit of a landing buffer to a FREE frame. -/
theorem Device.commitInto_of_free {p : Port} {b : BufNo} {f : FrameNo} {block : Nat} {d : Device} {t : Tag} {i k : Nat} {y : Block}
    (ho : (d.port p).landing[b] = .occupied t i k y) (h : (d.frame f).served = none) : d.commitInto p b f block =
      (((d.numbered.enterDirtyFresh f block d.tracker.nextWrite y).reportSet d.tracker.nextWrite).onPort p
        (PortUnit.freeBuffer b)).countCommit p t d.tracker.nextWrite := by
  rw [Device.commitInto_of_occupied ho]
  exact congrArg (fun e => Device.countCommit p t d.tracker.nextWrite (Device.onPort p (PortUnit.freeBuffer b) e))
    (Device.commitFrame_of_free (d := d.numbered) h)

/-- Such a commit has nothing to do with the queue. -/
theorem Device.setWaiterQueue_commitInto {q : List WaiterEntry} {p : Port} {b : BufNo} {f : FrameNo} {block : Nat} {d : Device}
    (h : (d.frame f).served = none) :
    (d.setWaiterQueue q).commitInto p b f block = (d.commitInto p b f block).setWaiterQueue q := by
  rcases d.occupied_or (p := p) b with ⟨t, i, k, y, ho⟩ | hn
  · rw [Device.commitInto_of_free ho h, ← Device.setWaiterQueue_countCommit, ← Device.setWaiterQueue_onPort,
      ← Device.setWaiterQueue_reportSet]
    exact Device.commitInto_of_free (d := d.setWaiterQueue q) (by rw [Device.setWaiterQueue_port]; exact ho) h
  · rw [Device.commitInto_of_empty hn, Device.commitInto_of_empty (by simpa using hn)]

/-- The frame a commit to a FREE frame leaves. -/
theorem Device.commitInto_served {p : Port} {b : BufNo} {f : FrameNo} {block : Nat} {d : Device} {t : Tag} {i k : Nat} {y : Block}
    (ho : (d.port p).landing[b] = .occupied t i k y) (h : (d.frame f).served = none) :
    ((d.commitInto p b f block).frame f).served = some { block := block, hold := 0, state := .dirty d.tracker.nextWrite false } := by
  have dirty : ((d.numbered.enterDirtyFresh f block d.tracker.nextWrite y).frame f).served =
      some { block := block, hold := 0, state := .dirty d.tracker.nextWrite false } := Device.setServed_served _ _ _
  have frame : (d.commitInto p b f block).frame f = (d.numbered.enterDirtyFresh f block d.tracker.nextWrite y).frame f := by
    rw [Device.commitInto_of_free ho h, (Device.same_countCommit _ _ _ _).frame, Device.frame, Device.onPort_frames]
    exact (Device.same_testFlush _).frame f
  rw [frame, dirty]

/-! ### A frame given to the entries that name its block (R6) -/

/-- A queue entry of a window block. -/
def WindowRef.entry (block : Nat) (w : WindowRef) : WaiterEntry := { requester := .window w, block := block }

theorem Device.setServed_self {f : FrameNo} {sv : Option Served} {d : Device} (h : (d.frame f).served = sv) : d.setServed f sv = d := by
  subst h
  show { d with frames := { d.frames with frames := d.frames.frames.set f.val d.frames.frames[f.val] f.isLt } } = d
  rw [Vector.set_getElem_self]

theorem Device.setServed_tellWindow (f : FrameNo) (sv : Option Served) (w : WindowRef) (st : WindowState) (d : Device) :
    (d.tellWindow w st).setServed f sv = (d.setServed f sv).tellWindow w st := by
  unfold Device.tellWindow
  cases w.port <;> rfl

theorem Device.giveFrame_window (f : FrameNo) (block : Nat) (w : WindowRef) (d : Device) :
    d.giveFrame f (w.entry block) = d.holdFor w f := rfl

/-- Window blocks given a FILLING frame hold it and wait for its fill. -/
theorem Device.giveFrames_filling {f : FrameNo} {block b h : Nat} {us ws : List WindowRef} {d : Device}
    (hs : (d.frame f).served = some { block := b, hold := h, state := .filling us }) :
    (ws.map (WindowRef.entry block)).foldl (fun d e => d.giveFrame f e) d =
      ws.foldl (fun d v => d.tellWindow v (.waitingFill f))
        (d.setServed f (some { block := b, hold := h + ws.length, state := .filling (us ++ ws) })) := by
  induction ws generalizing d h us with
  | nil => simp [Device.setServed_self hs]
  | cons w ws ih =>
    have held := (Device.same_tellWindow w (.waitingFill f)
      (d.setServed f (some { block := b, hold := h + 1, state := .filling (us ++ [w]) }))).frame f
    rw [List.map_cons, List.foldl_cons, List.foldl_cons, Device.giveFrame_window, Device.holdFor_of_filling hs,
      ih (by rw [held, Device.setServed_served]), Device.setServed_tellWindow, Device.setServed_setServed]
    simp [Nat.add_comm, Nat.add_left_comm]

/-- Window blocks given a frame whose data is not CLEAN hold it, and have the data. -/
theorem Device.giveFrames_data {f : FrameNo} {block b h : Nat} {st : FrameState} {ws : List WindowRef} {d : Device}
    (hs : (d.frame f).served = some { block := b, hold := h, state := st }) (hc : st ≠ .clean) (hf : ∀ us, st ≠ .filling us) :
    (ws.map (WindowRef.entry block)).foldl (fun d e => d.giveFrame f e) d =
      ws.foldl (fun d v => d.tellWindow v (.ready f)) (d.setServed f (some { block := b, hold := h + ws.length, state := st })) := by
  induction ws generalizing d h with
  | nil => simp [Device.setServed_self hs]
  | cons w ws ih =>
    have held := (Device.same_tellWindow w (.ready f) (d.setServed f (some { block := b, hold := h + 1, state := st }))).frame f
    rw [List.map_cons, List.foldl_cons, List.foldl_cons, Device.giveFrame_window, Device.holdFor_of_data hs hc hf,
      ih (by rw [held, Device.setServed_served]), Device.setServed_tellWindow, Device.setServed_setServed]
    simp [Nat.add_comm, Nat.add_left_comm]

/-- The frame of a fill just requested. -/
theorem Device.fillFor_served (w : WindowRef) (block : Nat) (f : FrameNo) (d : Device) :
    ((d.fillFor w block f).frame f).served = some { block := block, hold := 1, state := .filling [w] } := by
  rw [Device.fillFor, (Device.same_tellWindow _ _ _).frame]
  exact Device.setServed_served _ _ _

/-- The record of a frame just asked to be filled, replaced: only the last record counts. -/
theorem Device.fillFor_setServed (w : WindowRef) (block : Nat) (f : FrameNo) (sv : Option Served) (d : Device) :
    ((d.evict f).fillFor w block f).setServed f sv =
      Device.tellWindow w (.waitingFill f)
        (Device.requestFill { frame := f, block := block } (Device.leaveClean f (d.setServed f sv))) := by
  rw [Device.fillFor_evict, Device.setServed_tellWindow]
  exact congrArg (fun e => Device.tellWindow w (.waitingFill f) (Device.requestFill _ (Device.leaveClean f e)))
    (Device.setServed_setServed f _ sv d)

/-! ### The hand-out of a frame (R16) -/

theorem Device.offerFrame_of_available {f : FrameNo} {d : Device} (h : (d.frame f).available = true) :
    d.offerFrame f = (d.handOut f).close := if_pos h

theorem Device.offerFrame_of_not_available {f : FrameNo} {d : Device} (h : ¬ (d.frame f).available = true) :
    d.offerFrame f = d := if_neg h

theorem Device.handOut_of_empty {f : FrameNo} {d : Device} (h : d.frames.waiterQueue = []) : d.handOut f = d := by
  rw [Device.handOut, h]

/-- R6: the entries that name the block leave the queue and are given the frame. -/
theorem Device.giveIndexed_of_queue {f : FrameNo} {block : Nat} {q : List WaiterEntry} {d : Device} (h : d.frames.waiterQueue = q) :
    d.giveIndexed f block =
      (q.filter fun x => x.block == block).foldl (fun d e => d.giveFrame f e)
        (d.setWaiterQueue (q.filter fun x => x.block != block)) := by
  subst h
  rfl

/-- A window block at the head: the frame is FILLING for it, and is given to the others that name its block. -/
theorem Device.handOut_window {f : FrameNo} {e : WaiterEntry} {rest : List WaiterEntry} {w : WindowRef} {d : Device}
    (hq : d.frames.waiterQueue = e :: rest) (hr : e.requester = .window w) : d.handOut f =
      (rest.filter fun x => x.block == e.block).foldl (fun d e => d.giveFrame f e)
        (((d.setWaiterQueue (rest.filter fun x => x.block != e.block)).evict f).fillFor w e.block f) := by
  have queue : (((d.setWaiterQueue rest).evict f).fillFor w e.block f).frames.waiterQueue = rest :=
    congrArg FrameStore.waiterQueue (Device.same_tellWindow w (.waitingFill f) _).frames
  rw [Device.handOut, hq]
  dsimp only
  rw [hr]
  dsimp only
  have alone : (((d.setWaiterQueue rest).evict f).fillFor w e.block f).setWaiterQueue (rest.filter fun x => x.block != e.block) =
      ((d.setWaiterQueue (rest.filter fun x => x.block != e.block)).evict f).fillFor w e.block f := by
    unfold Device.fillFor Device.tellWindow
    cases w.port <;> rfl
  rw [Device.giveIndexed_of_queue queue, alone]

/-- A landing buffer at the head: its commit, the frame given to the others that name its block, and its port's next head. -/
theorem Device.handOut_landing {f : FrameNo} {e : WaiterEntry} {rest : List WaiterEntry} {p : Port} {b : BufNo} {d : Device}
    (hq : d.frames.waiterQueue = e :: rest) (hr : e.requester = .landing p b) : d.handOut f =
      ((rest.filter fun x => x.block == e.block).foldl (fun d e => d.giveFrame f e)
        (((d.setWaiterQueue (rest.filter fun x => x.block != e.block)).evict f).commitInto p b f e.block)).tryCommit p := by
  have queue : (((d.setWaiterQueue rest).evict f).commitInto p b f e.block).frames.waiterQueue = rest :=
    (Device.commitInto_leaves p b f e.block _).1
  rw [Device.handOut, hq]
  dsimp only
  rw [hr]
  dsimp only
  rw [Device.giveIndexed_of_queue queue, ← Device.setWaiterQueue_commitInto (Device.evict_served f _)]
  rfl

/-- Settles O29: the hand-out by its head, and the frame given to the others by what they are. -/
theorem availableFrameIsHandedToTheHeadOfTheQueue : Obligations.AvailableFrameIsHandedToTheHeadOfTheQueue := by
  refine ⟨fun s f hr => ?_, fun d f => ⟨Device.handOut_of_empty, fun e rest hq => ⟨fun w ws he hn => ?_, fun w q b he hn => ?_,
    fun p b tag index bytes he ho => ?_⟩⟩⟩
  · have event : exec (.frameHandOut f) s = .next { s with toDevice := s.offerFrame f } := State.event_of_released hr
    refine ⟨fun ha => ?_, fun ha => ?_⟩
    · rw [event, Device.offerFrame_of_available (Frame.available_iff.mpr ha)]
    · rw [event, Device.offerFrame_of_not_available (mt Frame.available_iff.mp ha)]
  · rw [Device.handOut_window hq he, hn]
    exact (Device.giveFrames_filling (Device.fillFor_served w e.block f _)).trans
      (congrArg (ws.foldl fun d v => d.tellWindow v (.waitingFill f)) (Device.fillFor_setServed w e.block f _ _))
  · rw [Device.handOut_window hq he, hn, Device.fillFor_evict]
    rfl
  · have free := Device.evict_served f (d.setWaiterQueue (rest.filter fun x => x.block != e.block))
    have holds : (((d.setWaiterQueue (rest.filter fun x => x.block != e.block)).evict f).port p).landing[b] =
        .occupied tag index e.block bytes := by
      rw [Device.port_evict, Device.setWaiterQueue_port]
      exact ho
    refine ⟨fun ws hn => ?_, fun q b' hn => ?_⟩
    · rw [Device.handOut_landing hq he, hn]
      refine congrArg _ ((Device.giveFrames_data (Device.commitInto_served holds free) (by simp) (by simp)).trans ?_)
      rw [Nat.zero_add]
      rfl
    · rw [Device.handOut_landing hq he, hn]
      rfl

end Sys2Proof.Machine
end


section
/-!
SUPPORT and PROOF. The requests of the management port that act on the frame store: DISCARD HELD and SOFT RESTART, and the end of the
drain that a restart begins.
-/

namespace Sys2Proof.Machine

/-! ### The release of a HELD frame (R18, R19) -/

theorem Device.uncommitting_answerFlush (e : FlushEntry) (st : Status) (d : Device) : d.Uncommitting (d.answerFlush e st) := by
  unfold Device.answerFlush
  split
  · exact d.uncommitting_answer ..
  · exact d.uncommitting_answer ..
  · exact .refl d

/-- The test of the flush list commits nothing. -/
theorem Device.uncommitting_testFlush (d : Device) : d.Uncommitting d.testFlush := by
  unfold Device.testFlush
  generalize d.tracker.flushList.length = n
  have set (l : List FlushEntry) (d : Device) : d.Uncommitting (d.setFlushList l) := ⟨rfl, fun _ => rfl, fun _ h => h⟩
  induction n generalizing d with
  | zero => exact .refl d
  | succ n ih =>
    rw [flushLoop]
    split
    · exact .refl d
    · split
      · exact .refl d
      · exact ((set _ d).trans (Device.uncommitting_answerFlush _ _ _)).trans (ih _)
      · exact ((set _ d).trans (Device.uncommitting_answerFlush _ _ _)).trans (ih _)

theorem Device.Uncommitting.earliestLost {d d' : Device} (h : d.Uncommitting d') :
    d'.tracker.earliestLost = d.tracker.earliestLost := by
  have lost := congrArg Tracker.earliestLost h.tracker
  exact lost

/-- R59: the earliest lost number is then at or below the number lost. -/
theorem lowerLost_le (e : Nat) (old : Option Nat) : ∃ n, lowerLost e old = some n ∧ n ≤ e := by
  cases old with
  | none => exact ⟨e, rfl, le_rfl⟩
  | some m => exact ⟨min m e, rfl, min_le_right m e⟩

theorem Device.reportLost_earliestLost (e : Nat) (d : Device) : ∃ n, (d.reportLost e).tracker.earliestLost = some n ∧ n ≤ e := by
  rw [Device.reportLost, Device.report, (Device.uncommitting_testFlush _).earliestLost]
  exact lowerLost_le e _

theorem Device.reportLost_raises (e : Nat) (d : Device) : (d.reportLost e).mgmt.raised .dataLost = true :=
  (Device.inner_testFlush _).mgmt.raised (Mgmt.raised_raise _ _)

theorem Device.reportLost_frames (e : Nat) (d : Device) : (d.reportLost e).frames = d.frames :=
  ((Device.SameStore.refl d).reportLost e).frames

/-- A frame's record cleared, its holders FAILED and both collections without it (R18 steps 1 and 3). -/
def Device.dropFrame (f : FrameNo) (kind : FailKind) (d : Device) : Device :=
  ((((d.onPort .a (PortUnit.failHolders f kind)).onPort .b (PortUnit.failHolders f kind)).setServed f none).leaveDirty f).leaveClean f

/-- R18: a HELD frame released while nothing waits for a frame. -/
theorem Device.releaseFrame_held {f : FrameNo} {kind : FailKind} {block hold e : Nat} {d : Device} (hq : d.frames.waiterQueue = [])
    (hs : (d.frame f).served = some { block := block, hold := hold, state := .held e }) :
    d.releaseFrame f kind = (d.dropFrame f kind).reportLost e := by
  have queue : ((d.dropFrame f kind).reportLost e).frames.waiterQueue = [] := by
    rw [Device.reportLost_frames]
    exact hq
  rw [Device.releaseFrame, hs]
  exact Device.handOut_of_empty queue

theorem Device.dropFrame_served (f : FrameNo) (kind : FailKind) (d : Device) : ((d.dropFrame f kind).frame f).served = none :=
  Device.setServed_served _ _ _

theorem Device.dropFrame_bytes (f : FrameNo) (kind : FailKind) (d : Device) : ((d.dropFrame f kind).frame f).bytes = (d.frame f).bytes :=
  Device.setServed_bytes _ _ _

/-! ### DISCARD HELD (R19, R179) -/

theorem FrameStore.count_eq_length (k : FrameKind) (fs : FrameStore) :
    fs.count k = ((List.finRange 1024).filter fun f => fs.frames[f].kind == k).length := by
  have all : fs.frames.toList = (List.finRange 1024).map fun f => fs.frames[f] :=
    List.ext_getElem (by simp) fun i _ _ => by simp
  rw [FrameStore.count, all, List.countP_map, List.countP_eq_length_filter]
  rfl

/-- Settles O56: the request is executed as the releases in ascending number, and each release by its report. -/
theorem discardHeldReleasesTheHeldFrames : Obligations.DiscardHeldReleasesTheHeldFrames := by
  refine ⟨fun s hr hm => ?_, fun d f block hold e hq hs => ?_⟩
  · have event : exec .discardHeld s = .next { s with toDevice := s.toDevice.discardHeld } :=
      State.event_execute hr hm rfl fun _ => Device.discardHeld
    rw [event, Device.discardHeld, FrameStore.heldFrames, ← FrameStore.count_eq_length]
    rfl
  · rw [Device.releaseFrame_held hq hs]
    have frame : ((d.dropFrame f .dataLost).reportLost e).frame f = (d.dropFrame f .dataLost).frame f :=
      ((Device.SameStore.refl _).reportLost e).frame f
    exact ⟨frame ▸ Device.dropFrame_served f _ d, frame ▸ Device.dropFrame_bytes f _ d, Device.reportLost_raises e _,
      Device.reportLost_earliestLost e _⟩

/-! ### The clearing of a soft restart (R22, R81, R168) -/

/-- A cleared channel identifies: an IDENTIFY in slot 0, the issue counts kept. -/
theorem Channel.identify_cleared (c : Channel) : c.cleared.identify = { Channel.reset with
    slots := (Vector.replicate 4 none).set 0 (some { work := .identify, phys := none, timerMs := 2000, reissue := false }),
    issueCounts := c.issueCounts.set 0 (c.issueCounts[(0 : SlotNo)] + 1) } := by
  rw [Channel.identify, if_pos ⟨rfl, by simp [Channel.cleared, Channel.reset]⟩]
  rfl

/-- The clearing block by block; ports, reservations and pins stay. -/
theorem Device.clearing_eq (d : Device) : d.clearing = { d with
    frames := d.frames.cleared, tracker := Tracker.reset, remap := Remap.reset, channel := d.channel.cleared.identify,
    mode := { mode := .starting, step := .identifying, restart := d.mode.restart, cause := none },
    mgmt := if d.frames.holdsUnwritten then d.mgmt.raise .dataLost else d.mgmt } := by
  unfold Device.clearing
  dsimp only
  split <;> rfl

theorem Device.drainTest_of_drained {d : Device} (hm : d.mode.mode = .draining) (h : d.drained = true) : d.drainTest = d.clearing :=
  if_pos ⟨hm, h⟩

theorem Device.drainTest_of_not {d : Device} (h : d.mode.mode ≠ .draining ∨ d.drained = false) : d.drainTest = d :=
  if_neg fun ⟨hm, hd⟩ => h.elim (· hm) fun h => by simp [h] at hd

/-- Settles O58: the row is the drain test, and the clearing block by block. -/
theorem drainCompleteClearsThePart : Obligations.DrainCompleteClearsThePart := by
  intro s hr
  have event : exec .drainComplete s = .next { s with toDevice := s.toDevice.drainTest } := State.event_of_released hr
  refine ⟨fun hm hc => ?_, fun hn => ?_⟩
  · rw [event, Device.drainTest_of_drained hm hc, Device.clearing_eq, Channel.identify_cleared]
    rfl
  · rw [event, Device.drainTest_of_not hn]

end Sys2Proof.Machine
end

section
/-!
SUPPORT and PROOF. A soft restart: what the end of the sessions and the arbiter leave of the reservations, the issue counts and the
frames, the closing of a part whose ports are at rest, and the four modes in which the request is taken.
-/

namespace Sys2Proof.Machine

/-! ### Operations that leave the reservations and the issue counts -/

/-- The reservation table and the channel's issue counts are as before. -/
structure Device.Aside (d d' : Device) : Prop where
  reservations : d'.reservations = d.reservations
  issueCounts : d'.channel.issueCounts = d.channel.issueCounts

theorem Device.Aside.refl (d : Device) : d.Aside d := ⟨rfl, rfl⟩

theorem Device.Aside.trans {d₁ d₂ d₃ : Device} (h : d₁.Aside d₂) (k : d₂.Aside d₃) : d₁.Aside d₃ :=
  ⟨k.reservations.trans h.reservations, k.issueCounts.trans h.issueCounts⟩

theorem Device.aside_foldl {α : Type} {f : Device → α → Device} (h : ∀ (d : Device) (a : α), d.Aside (f d a)) (l : List α)
    (d : Device) : d.Aside (l.foldl f d) := by
  induction l generalizing d with
  | nil => exact .refl d
  | cons a l ih => exact (h d a).trans (ih _)

/-- A part of the device that each step of a fold leaves is left by the fold. -/
theorem Device.foldl_same {α β : Type} (g : Device → β) {f : Device → α → Device}
    (h : ∀ (d : Device) (a : α), g (f d a) = g d) (l : List α) (d : Device) : g (l.foldl f d) = g d := by
  induction l generalizing d with
  | nil => rfl
  | cons a l ih => exact (ih _).trans (h d a)

theorem Device.aside_onPort (p : Port) (f : PortUnit → PortUnit) (d : Device) : d.Aside (d.onPort p f) :=
  ⟨d.onPort_reservations p f, congrArg Channel.issueCounts (d.onPort_channel p f)⟩

theorem Device.aside_frames (fs : FrameStore) (d : Device) : d.Aside { d with frames := fs } := ⟨rfl, rfl⟩

theorem Device.aside_tracker (t : Tracker) (d : Device) : d.Aside { d with tracker := t } := ⟨rfl, rfl⟩

theorem Device.aside_onRemap (f : Remap → Remap) (d : Device) : d.Aside (d.onRemap f) := ⟨rfl, rfl⟩

theorem Device.aside_raise (c : Condition) (d : Device) : d.Aside (d.raise c) := ⟨rfl, rfl⟩

theorem Device.aside_setServed (f : FrameNo) (sv : Option Served) (d : Device) : d.Aside (d.setServed f sv) := d.aside_frames _

theorem Device.aside_setWaiterQueue (q : List WaiterEntry) (d : Device) : d.Aside (d.setWaiterQueue q) := d.aside_frames _

theorem Device.aside_setFlushList (l : List FlushEntry) (d : Device) : d.Aside (d.setFlushList l) := d.aside_tracker _

theorem Device.aside_tellWindow (w : WindowRef) (st : WindowState) (d : Device) : d.Aside (d.tellWindow w st) := d.aside_onPort _ _

theorem Device.aside_tellAll (ws : List WindowRef) (st : WindowState) (d : Device) :
    d.Aside (ws.foldl (fun d w => d.tellWindow w st) d) := Device.aside_foldl (fun d w => d.aside_tellWindow w st) ws d

theorem Device.aside_setCommand (p : Port) (t : Tag) (c : Option OpenCmd) (d : Device) : d.Aside (d.setCommand p t c) :=
  d.aside_onPort _ _

theorem Device.aside_notify (p : Port) (n : Notice) (d : Device) : d.Aside (d.notify p n) := by
  unfold Device.notify
  split
  · exact d.aside_onPort _ _
  · exact .refl d

theorem Device.aside_answer (p : Port) (t : Tag) (st : Status) (moved : Nat) (failing : Option Nat) (pl : Payload) (d : Device) :
    d.Aside (d.answer p t st moved failing pl) := (d.aside_setCommand p t none).trans (Device.aside_onPort _ _ _)

theorem Device.aside_notifyBoth (n : Notice) (d : Device) : d.Aside (d.notifyBoth n) :=
  (d.aside_notify .a n).trans (Device.aside_notify .b n _)

/-! ### The flush list and the reports -/

theorem Device.aside_answerFlush (e : FlushEntry) (st : Status) (d : Device) : d.Aside (d.answerFlush e st) := by
  unfold Device.answerFlush
  split
  · exact d.aside_answer ..
  · exact d.aside_answer ..
  · exact .refl d

theorem aside_flushLoop (n : Nat) (d : Device) : d.Aside (flushLoop n d) := by
  induction n generalizing d with
  | zero => exact .refl d
  | succ n ih =>
    rw [flushLoop]
    split
    · exact .refl d
    · split
      · exact .refl d
      · exact ((d.aside_setFlushList _).trans (Device.aside_answerFlush _ _ _)).trans (ih _)
      · exact ((d.aside_setFlushList _).trans (Device.aside_answerFlush _ _ _)).trans (ih _)

theorem Device.aside_testFlush (d : Device) : d.Aside d.testFlush := aside_flushLoop _ d

theorem Device.aside_report (f : Tracker → Tracker) (d : Device) : d.Aside (d.report f) :=
  (d.aside_tracker _).trans (Device.aside_testFlush _)

theorem Device.aside_reportSet (n : Nat) (d : Device) : d.Aside (d.reportSet n) := d.aside_report _

theorem Device.aside_joinFlush (e : FlushEntry) (d : Device) : d.Aside (d.joinFlush e) := by
  unfold Device.joinFlush
  dsimp only
  split
  · exact (d.aside_setFlushList _).trans (Device.aside_testFlush _)
  · exact d.aside_setFlushList _

theorem Device.aside_dropFlush (leaves : FlushEntry → Bool) (d : Device) : d.Aside (d.dropFlush leaves) := by
  unfold Device.dropFlush
  dsimp only
  split
  · split
    · exact (d.aside_setFlushList _).trans (Device.aside_testFlush _)
    · exact d.aside_setFlushList _
  · exact d.aside_setFlushList _

/-! ### The frame store -/

theorem Device.aside_countCommit (p : Port) (t : Tag) (n : Nat) (d : Device) : d.Aside (d.countCommit p t n) := by
  unfold Device.countCommit
  split
  · dsimp only
    split_ifs
    · exact (d.aside_setCommand _ _ _).trans (Device.aside_joinFlush _ _)
    · exact d.aside_answer ..
    · exact d.aside_setCommand _ _ _
  · exact .refl d

theorem Device.aside_commitFrame (f : FrameNo) (block n : Nat) (bytes : Block) (d : Device) :
    d.Aside (d.commitFrame f block n bytes) := by
  unfold Device.commitFrame
  refine Device.Aside.trans (d₂ := d.setBytes f bytes) (d.aside_frames _) ?_
  generalize d.setBytes f bytes = d
  have dirty (sv : Option Served) : d.Aside ((d.setServed f sv).enterDirty f) := ⟨rfl, rfl⟩
  dsimp only
  split
  · exact (dirty _).trans (Device.aside_reportSet _ _)
  · split
    · exact Device.Aside.trans (d₂ := ((d.setServed f _).leaveClean f).enterDirty f) ⟨rfl, rfl⟩ (Device.aside_reportSet _ _)
    · refine Device.Aside.trans ?_ (Device.aside_reportSet _ _)
      exact Device.Aside.trans (d₂ := List.foldl _ _ _) ((dirty _).trans (Device.aside_tellAll _ _ _)) ⟨rfl, rfl⟩
    · exact .refl d
    · exact d.aside_setServed _ _
    · exact .refl d

theorem Device.aside_commitInto (p : Port) (b : BufNo) (f : FrameNo) (block : Nat) (d : Device) :
    d.Aside (d.commitInto p b f block) := by
  rcases d.occupied_or (p := p) b with ⟨t, i, k, y, ho⟩ | hn
  · rw [Device.commitInto_of_occupied ho]
    exact (((d.aside_tracker _).trans (Device.aside_commitFrame _ _ _ _ _)).trans (Device.aside_onPort _ _ _)).trans
      (Device.aside_countCommit _ _ _ _)
  · rw [Device.commitInto_of_empty hn]
    exact .refl d

theorem Device.aside_evict (f : FrameNo) (d : Device) : d.Aside (d.evict f) := ⟨rfl, rfl⟩

theorem aside_tryHead (n : Nat) (p : Port) (d : Device) : d.Aside (tryHead n p d) := by
  induction n generalizing d with
  | zero => exact .refl d
  | succ n ih =>
    rw [tryHead]
    split
    · exact .refl d
    · split
      · exact .refl d
      · split
        · split
          · exact (d.aside_commitInto _ _ _ _).trans (ih _)
          · split
            · exact ((d.aside_evict _).trans (Device.aside_commitInto _ _ _ _ _)).trans (ih _)
            · exact d.aside_setWaiterQueue _
        · exact .refl d

theorem Device.aside_takeHold (f : FrameNo) (d : Device) : d.Aside (d.takeHold f) := by
  unfold Device.takeHold
  split
  · dsimp only
    split <;> exact ⟨rfl, rfl⟩
  · exact .refl d

theorem Device.aside_giveFrame (f : FrameNo) (d : Device) (e : WaiterEntry) : d.Aside (d.giveFrame f e) := by
  unfold Device.giveFrame
  split
  · dsimp only
    split
    · exact ((d.aside_takeHold f).trans (Device.aside_setServed _ _ _)).trans (Device.aside_tellWindow _ _ _)
    · exact (d.aside_takeHold f).trans (Device.aside_tellWindow _ _ _)
  · exact (d.aside_commitInto _ _ _ _).trans (aside_tryHead _ _ _)

theorem Device.aside_giveIndexed (f : FrameNo) (block : Nat) (d : Device) : d.Aside (d.giveIndexed f block) :=
  (d.aside_setWaiterQueue _).trans (Device.aside_foldl (fun d e => d.aside_giveFrame f e) _ _)

theorem Device.aside_fillFor (w : WindowRef) (block : Nat) (f : FrameNo) (d : Device) : d.Aside (d.fillFor w block f) :=
  Device.Aside.trans (d₂ := (d.setServed f _).requestFill _) ⟨rfl, rfl⟩ (Device.aside_tellWindow _ _ _)

theorem Device.aside_handOut (f : FrameNo) (d : Device) : d.Aside (d.handOut f) := by
  unfold Device.handOut
  split
  · exact .refl d
  · rename_i e rest _
    dsimp only
    refine ((d.aside_setWaiterQueue rest).trans (Device.aside_evict f _)).trans ?_
    split
    · exact (Device.aside_fillFor _ _ _ _).trans (Device.aside_giveIndexed _ _ _)
    · exact ((Device.aside_commitInto _ _ _ _ _).trans (Device.aside_giveIndexed _ _ _)).trans (aside_tryHead _ _ _)

theorem Device.aside_dropHold (w : WindowRef) (f : FrameNo) (d : Device) : d.Aside (d.dropHold w f) := by
  unfold Device.dropHold
  split
  · dsimp only
    split_ifs
    · exact (d.aside_setServed _ _).trans (Device.aside_handOut _ _)
    · exact d.aside_setServed _ _
  · exact .refl d

theorem Device.aside_releaseFrame (f : FrameNo) (k : FailKind) (d : Device) : d.Aside (d.releaseFrame f k) := by
  unfold Device.releaseFrame
  split
  · exact .refl d
  · refine Device.Aside.trans ?_ (Device.aside_handOut _ _)
    have dropped : d.Aside (d.dropFrame f k) := ((d.aside_onPort _ _).trans (Device.aside_onPort _ _ _)).trans ⟨rfl, rfl⟩
    split
    · exact (dropped.trans (Device.aside_raise _ _)).trans (Device.aside_report _ _)
    · exact dropped

theorem Device.aside_makeHeld (f : FrameNo) (d : Device) : d.Aside (d.makeHeld f) := by
  unfold Device.makeHeld
  split
  · split
    · exact (d.aside_setServed _ _).trans (Device.aside_report _ _)
    · exact d.aside_releaseFrame _ _
  · exact .refl d

/-! ### The end of a session -/

theorem Device.aside_departs (p : Port) (wb : WindowBlock) (d : Device) : d.Aside (d.departs p wb) := by
  unfold Device.departs
  dsimp only
  split
  · exact d.aside_dropHold _ _
  · exact d.aside_dropHold _ _
  · exact d.aside_setWaiterQueue _
  · exact .refl d
  · exact .refl d

theorem aside_leaveWindow (leaves : WindowBlock → Bool) (n : Nat) (p : Port) (d : Device) : d.Aside (leaveWindow leaves n p d) := by
  induction n generalizing d with
  | zero => exact .refl d
  | succ n ih =>
    rw [leaveWindow]
    split
    · exact ((d.aside_onPort _ _).trans (Device.aside_departs _ _ _)).trans (ih _)
    · exact .refl d

theorem Device.aside_dropWaiters (leaves : WaiterEntry → Bool) (d : Device) : d.Aside (d.dropWaiters leaves) :=
  d.aside_setWaiterQueue _

theorem Device.aside_eachPort {f : Port → Device → Device} (h : ∀ (p : Port) (d : Device), d.Aside (f p d)) (ports : List Port)
    (d : Device) : d.Aside (d.eachPort ports f) := Device.aside_foldl (fun d p => h p d) ports d

theorem Device.aside_clearPorts (ports : List Port) (linkLost : Bool) (bye : Option ByeReason) (d : Device) :
    d.Aside (d.clearPorts ports linkLost bye) := by
  unfold Device.clearPorts
  dsimp only
  refine Device.Aside.trans ?_ (Device.aside_eachPort (fun p d => (d.aside_dropWaiters _).trans (Device.aside_onPort p _ _)) _ _)
  refine Device.Aside.trans ?_ (Device.aside_eachPort (fun p d => aside_leaveWindow _ _ p d) _ _)
  have on (f : PortUnit → PortUnit) (d : Device) : d.Aside (d.eachPort ports fun p => Device.onPort p f) :=
    Device.aside_eachPort (fun p d => d.aside_onPort p f) ports d
  refine ((on (PortUnit.leave linkLost bye) d).trans (on PortUnit.dropCommands _)).trans ?_
  split
  · exact .refl _
  · exact Device.aside_dropWaiters _ _

theorem Device.issueCounts_testPending (holder : Port) (d : Device) :
    (d.testPending holder).channel.issueCounts = d.channel.issueCounts := by
  have answered (t : Tag) (st : Status) (pl : Payload) (d : Device) : d.Aside (d.answerReserve holder t st pl) := by
    unfold Device.answerReserve
    split
    · exact d.aside_answer ..
    · exact .refl d
  have entry (d : Device) (id : ResId) : (d.grantEntry holder id).channel.issueCounts = d.channel.issueCounts := by
    unfold Device.grantEntry
    split
    · split
      · exact (answered _ _ _ (d.setEntry id _)).issueCounts
      · rfl
    · rfl
  unfold Device.testPending
  exact Device.foldl_same (fun d => d.channel.issueCounts) entry (List.finRange 16) d

theorem Device.issueCounts_eachPort {f : Port → Device → Device}
    (h : ∀ (p : Port) (d : Device), (f p d).channel.issueCounts = d.channel.issueCounts) (ports : List Port) (d : Device) :
    (d.eachPort ports f).channel.issueCounts = d.channel.issueCounts :=
  Device.foldl_same (fun d => d.channel.issueCounts) (fun d p => h p d) ports d

/-- The end of sessions issues no operation. -/
theorem Device.issueCounts_endSessions (ports : List Port) (linkLost : Bool) (bye : Option ByeReason) (d : Device) :
    (d.endSessions ports linkLost bye).channel.issueCounts = d.channel.issueCounts := by
  have told (d : Device) (p : Port) : (d.tellPartner ports p).channel.issueCounts = d.channel.issueCounts := by
    unfold Device.tellPartner
    split
    · rfl
    · exact (d.aside_notify _ _).issueCounts
  unfold Device.endSessions
  dsimp only
  rw [Device.issueCounts_eachPort fun p d => (d.aside_raise (.ended p)).issueCounts, Device.issueCounts_eachPort fun p d => told d p,
    Device.issueCounts_eachPort fun p d => d.issueCounts_testPending p.other]
  exact ((d.aside_clearPorts ports linkLost bye).trans (Device.aside_dropFlush _ _)).issueCounts

/-! ### The remap unit and the arbiter -/

theorem Device.aside_lockWith (r : LockReason) (d : Device) : d.Aside (d.lockWith r) :=
  Device.Aside.trans (d₂ := ({ d with remap := { d.remap with lock := some r } } : Device).raise .writeLocked) ⟨rfl, rfl⟩
    (Device.aside_notifyBoth _ _)

theorem Device.aside_enterNoSpares (d : Device) : d.Aside d.enterNoSpares := by
  unfold Device.enterNoSpares
  split
  · exact d.aside_lockWith _
  · exact .refl d

theorem Device.aside_requestSpare (q : SpareReq) (d : Device) : d.Aside (d.requestSpare q) := ⟨rfl, rfl⟩

theorem Device.aside_placeRecord (w : RemapRecord) (d : Device) : d.Aside (d.placeRecord w) := by
  unfold Device.placeRecord Device.withoutSpare
  split
  · exact (d.aside_onRemap _).trans (Device.aside_requestSpare _ _)
  · dsimp only
    refine d.aside_enterNoSpares.trans ?_
    split
    · exact (Device.aside_onRemap _ _).trans (Device.aside_requestSpare _ _)
    · exact (Device.aside_onRemap _ _).trans (Device.aside_makeHeld _ _)

theorem Device.reservations_issueWriteback (i : SlotNo) (f : FrameNo) (d : Device) :
    (d.issueWriteback i f).reservations = d.reservations := by
  unfold Device.issueWriteback
  split
  · dsimp only
    split
    · exact ((Device.aside_report _ _).trans ((Device.aside_onRemap _ _).trans (Device.aside_placeRecord _ _))).reservations
    · exact (Device.aside_report _ _).reservations
  · rfl

/-- A run of the arbiter leaves the reservation table. -/
theorem Device.reservations_runArbiter (d : Device) : d.runArbiter.reservations = d.reservations := by
  have step {d d' : Device} (h : d.arbiterStep = some d') : d'.reservations = d.reservations := by
    unfold Device.arbiterStep at h
    split at h
    · split at h
      · obtain ⟨k, -, rfl⟩ := Option.map_eq_some_iff.mp h
        cases k with
        | writeback f => exact d.reservations_issueWriteback _ f
        | _ => rfl
      · cases h
    · cases h
  unfold Device.runArbiter
  generalize d.frames.dirtyQueue.length + 16 = n
  induction n generalizing d with
  | zero => rfl
  | succ n ih =>
    unfold arbiterLoop
    split
    · rename_i h
      exact (ih _).trans (step h)
    · rfl

/-! ### The frames when the windows are empty -/

/-- The frames are the given ones, and no window holds a block. -/
structure Device.StillWith (frames : Vector Frame 1024) (d : Device) : Prop where
  frames : d.frames.frames = frames
  window (q : Port) : (d.port q).window = []

section
variable {frames : Vector Frame 1024} {d : Device}

theorem Device.StillWith.onPort (h : d.StillWith frames) (p : Port) {f : PortUnit → PortUnit} (hf : ∀ u, (f u).window = u.window) :
    (d.onPort p f).StillWith frames := by
  refine ⟨(congrArg FrameStore.frames (d.onPort_frames p f)).trans h.frames, fun q => ?_⟩
  rw [Device.port_onPort]
  split
  · rename_i e
    rw [hf, h.window]
  · exact h.window q

theorem Device.StillWith.dropWaiters (h : d.StillWith frames) (leaves : WaiterEntry → Bool) :
    (d.dropWaiters leaves).StillWith frames := ⟨h.frames, h.window⟩

/-- With no block in a window there is none to leave it. -/
theorem Device.StillWith.leaveWindowAll (h : d.StillWith frames) (p : Port) : (d.leaveWindowAll p).StillWith frames := by
  have none_leaves : d.leaveWindowAll p = d := by
    unfold Device.leaveWindowAll
    rw [h.window p]
    rfl
  rw [none_leaves]
  exact h

theorem Device.StillWith.clearBuffers (h : d.StillWith frames) (p : Port) : (d.clearBuffers p).StillWith frames :=
  (h.dropWaiters _).onPort p fun _ => rfl

theorem Device.StillWith.eachPort {f : Port → Device → Device} (h : d.StillWith frames)
    (hf : ∀ {d : Device}, d.StillWith frames → ∀ p, (f p d).StillWith frames) (ports : List Port) :
    (d.eachPort ports f).StillWith frames := by
  unfold Device.eachPort
  induction ports generalizing d with
  | nil => exact h
  | cons p ports ih => exact ih (hf h p)

theorem Device.StillWith.clearPorts (h : d.StillWith frames) (ports : List Port) (linkLost : Bool) (bye : Option ByeReason) :
    (d.clearPorts ports linkLost bye).StillWith frames := by
  have left (u : PortUnit) : (u.leave linkLost bye).window = u.window := by
    obtain ⟨-, -, -, -, -, -, -, hw, -⟩ := u.leave_fields linkLost bye
    exact hw
  have dropped := (h.eachPort (fun h p => h.onPort p left) ports).eachPort
    (fun h p => h.onPort (f := PortUnit.dropCommands) p fun _ => rfl) ports
  unfold Device.clearPorts
  dsimp only
  refine Device.StillWith.eachPort (Device.StillWith.eachPort ?_ Device.StillWith.leaveWindowAll ports)
    Device.StillWith.clearBuffers ports
  split
  · exact dropped
  · exact dropped.dropWaiters _

end

/-- With empty windows the end of sessions leaves every frame. -/
theorem Device.frames_endSessions {d : Device} (h : ∀ q, (d.port q).window = []) (ports : List Port) (linkLost : Bool)
    (bye : Option ByeReason) : (d.endSessions ports linkLost bye).frames.frames = d.frames.frames := by
  have tail : (d.clearPorts ports linkLost bye).SameStore (d.endSessions ports linkLost bye) := by
    unfold Device.endSessions Device.eachPort
    dsimp only
    refine Device.SameStore.trans ?_ (Device.same_foldl (fun d _ => d.same_raise _) _ _)
    refine Device.SameStore.trans ?_ (Device.same_foldl (fun d p => d.same_tellPartner ports p) _ _)
    refine Device.SameStore.trans ?_ (Device.same_foldl (fun d _ => d.same_testPending _) _ _)
    exact (Device.same_dropFlush _ _).trans (Device.same_reservations _ _)
  have still : d.StillWith d.frames.frames := ⟨rfl, h⟩
  exact (congrArg FrameStore.frames tail.frames).trans (still.clearPorts ports linkLost bye).frames

/-! ### The closing of a part at rest -/

theorem Device.engineStep_of_detached {p : Port} {d : Device} (h : (d.port p).session ≠ .attached) : d.engineStep p = none := by
  unfold Device.engineStep
  exact if_neg fun ⟨_, ha, _⟩ => h (of_decide_eq_true ha)

theorem Device.portStep_of_detached {d : Device} (h : ∀ q, (d.port q).session ≠ .attached) : d.portStep = none := by
  simp [Device.portStep, Device.engineStep_of_detached (h .a), Device.engineStep_of_detached (h .b)]

theorem Device.overflowStep_atRest {d : Device} (h : ∀ q, (d.port q).AtRest) : d.overflowStep = none := by
  have none_overflows (q : Port) : d.overflows q ≠ true := by simp [Device.overflows_atRest (h q)]
  cases e : d.overflowStep with
  | none => rfl
  | some d' =>
    obtain ⟨ha, -⟩ | ⟨ha, -⟩ | ⟨p, hp, -⟩ := Device.overflowStep_cases e
    · exact (none_overflows .a ha).elim
    · exact (none_overflows .a ha).elim
    · exact (none_overflows p hp).elim

theorem Device.quieten_atRest {d : Device} (h : ∀ q, (d.port q).AtRest) : d.quieten = d.runArbiter := by
  have after (q : Port) : (d.runArbiter.port q).AtRest := (d.inner_runArbiter.ports q).atRest (h q)
  unfold Device.quieten
  rw [closeLoop, Device.settlePorts_of_none (Device.portStep_of_detached fun q => (h q).1)]
  simp [Device.portStep_of_detached fun q => (after q).1, Device.overflowStep_atRest after]

/-- With both ports at rest and no reservation the closing of an event is a run of the arbiter. -/
theorem Device.close_atRest {d : Device} (h : ∀ q, (d.port q).AtRest) (hn : ∀ id : ResId, d.reservations.entries[id] = none) :
    d.close = d.runArbiter := by
  have nothing (q : Port) : d.runArbiter.testPending q = d.runArbiter :=
    Device.testPending_of_none fun id e he => by simp [Device.reservations_runArbiter, hn] at he
  have no_credit (q : Port) : d.runArbiter.grantCredits q = d.runArbiter :=
    Device.grantCredits_of_zero (PortUnit.grantSize_zero ((d.inner_runArbiter.ports q).atRest (h q)).2.1.1)
  rw [Device.close, Device.settle, Device.quieten_atRest h, nothing, nothing, no_credit, no_credit]

theorem Device.arbiterStep_of_not_running {d : Device} (h : d.channel.state ≠ .running) : d.arbiterStep = none := by
  unfold Device.arbiterStep
  exact if_neg h

theorem Reservations.freeHeldBy_both (r : Reservations) (id : ResId) : (r.freeHeldBy [.a, .b]).entries[id] = none := by
  simp only [Reservations.freeHeldBy, vecMap, Vector.getElem_mk, List.getElem_toArray, Fin.getElem_fin, List.getElem_map,
    Vector.getElem_toList]
  split
  · rename_i v _
    cases v.holder <;> rfl
  · rfl

/-! ### A port in a soft restart (R165) -/

/-- The port's session has ended with BYE (RESTART) if it had one, its order else as before, and it is at rest. -/
structure PortUnit.Restarted (u v : PortUnit) : Prop where
  ended : u.session = .attached → v.session = .linked ∧ v.outbound = u.outbound ++ [.bye .restart]
  kept : u.session ≠ .attached → v.session = u.session ∧ v.outbound = u.outbound
  atRest : v.AtRest

theorem PortUnit.Restarted.keeps {u v w : PortUnit} (h : u.Restarted v) (k : v.Keeps w) : u.Restarted w := by
  have outbound : w.outbound = v.outbound := k.outbound h.atRest.2.1.1 h.atRest.1
  refine ⟨fun ha => ?_, fun hn => ?_, k.atRest h.atRest⟩
  · rw [k.session, outbound]
    exact h.ended ha
  · rw [k.session, outbound]
    exact h.kept hn

/-- Without a session a sound port is as a restart leaves it. -/
theorem PortUnit.restarted_refl {u : PortUnit} (hu : u.Sound) (hl : u.outbound.length < 256) (hn : u.session ≠ .attached) :
    u.Restarted u := by
  obtain ⟨-, -, -, idle⟩ := hu
  exact ⟨fun ha => (hn ha).elim, fun _ => ⟨rfl, rfl⟩, hn, idle hn, decide_eq_false (Nat.not_lt.mpr hl.le)⟩

theorem PortUnit.Ended.restarted {u v : PortUnit} (h : u.Ended false (some .restart) v) (ha : u.session = .attached)
    (hl : u.outbound.length < 256) : u.Restarted v := by
  have room : ({ u with session := .linked } : PortUnit).outbound.length ≤ 256 := hl.le
  have outbound : v.outbound = u.outbound ++ [.bye .restart] :=
    h.outbound.trans (congrArg PortUnit.outbound (PortUnit.enqueue_of_room room _))
  refine ⟨fun _ => ⟨h.session, outbound⟩, fun hn => (hn ha).elim, by simp [h.session, leftFor], h.idle, ?_⟩
  simpa [PortUnit.overflowed, outbound, Config.outboundCap] using hl

theorem Device.restartSessions_port {d : Device} {p : Port} (hu : (d.port p).Sound) (hl : (d.port p).outbound.length < 256) :
    (d.port p).Restarted (d.restartSessions.port p) := by
  have freed := (Device.inner_freeHeldBy [.a, .b] (d.endSessions d.attachedPorts false (some .restart))).ports p
  by_cases hp : p ∈ d.attachedPorts
  · have nodup : d.attachedPorts.Nodup := List.Nodup.filter _ (by decide)
    exact ((Device.endSessions_mem nodup hp _ _ d).restarted (Port.mem_attachedPorts.mp hp) hl).keeps freed
  · have hn : (d.port p).session ≠ .attached := fun ha => hp (Port.mem_attachedPorts.mpr ha)
    exact (PortUnit.restarted_refl hu hl hn).keeps ((Device.endSessions_not_mem hp _ _ d).trans freed)

theorem Device.restartSessions_entries (d : Device) (id : ResId) : d.restartSessions.reservations.entries[id] = none :=
  Reservations.freeHeldBy_both _ id

theorem Device.restartSessions_issueCounts (d : Device) : d.restartSessions.channel.issueCounts = d.channel.issueCounts :=
  d.issueCounts_endSessions _ _ _

theorem Device.restartSessions_mode (d : Device) : d.restartSessions.mode = d.mode := (d.rest_endSessions _ _ _).mode

/-! ### The clearing and the drain test -/

theorem Device.clearing_port (d : Device) (p : Port) : d.clearing.port p = d.port p := by
  rw [Device.clearing_eq]
  cases p <;> rfl

theorem Device.clearing_reservations (d : Device) : d.clearing.reservations = d.reservations := by rw [Device.clearing_eq]

theorem Device.drainTest_port (d : Device) (p : Port) : d.drainTest.port p = d.port p := by
  unfold Device.drainTest
  split
  · exact d.clearing_port p
  · rfl

theorem Device.drainTest_reservations (d : Device) : d.drainTest.reservations = d.reservations := by
  unfold Device.drainTest
  split
  · exact d.clearing_reservations
  · rfl

theorem Device.drainTest_mode {d : Device} (hm : d.mode.mode = .draining) :
    d.drainTest.mode.restart = d.mode.restart ∧ d.drainTest.mode.mode = if d.drained then .starting else .draining := by
  cases hd : d.drained with
  | true =>
    rw [Device.drainTest_of_drained hm hd, Device.clearing_eq]
    exact ⟨rfl, rfl⟩
  | false =>
    rw [Device.drainTest_of_not (.inr hd)]
    exact ⟨rfl, hm⟩

/-! ### The request (R165, R166, R174) -/

/-- A part to be closed as a restart of `d` leaves it: each port ended or kept, and no reservation. -/
structure Device.Restarted (d x : Device) : Prop where
  port (p : Port) : (d.port p).Restarted (x.port p)
  entries (id : ResId) : x.reservations.entries[id] = none

theorem PortUnit.Restarted.close {u : PortUnit} {x : Device} {p : Port} (h : u.Restarted (x.port p)) : u.Restarted (x.close.port p) :=
  h.keeps (Device.keeps_close h.atRest)

theorem Device.Restarted.close {d x : Device} (h : d.Restarted x) : d.Restarted x.close := by
  refine ⟨fun p => (h.port p).close, fun id => ?_⟩
  rw [Device.close_atRest (fun q => (h.port q).atRest) h.entries, Device.reservations_runArbiter]
  exact h.entries id

theorem Device.Restarted.drainTest {d x : Device} (h : d.Restarted x) : d.Restarted x.drainTest :=
  ⟨fun p => x.drainTest_port p ▸ h.port p, fun id => x.drainTest_reservations ▸ h.entries id⟩

theorem Device.Restarted.clearing {d x : Device} (h : d.Restarted x) : d.Restarted x.clearing :=
  ⟨fun p => x.clearing_port p ▸ h.port p, fun id => x.clearing_reservations ▸ h.entries id⟩

/-- A closing with an idle channel and both ports at rest does nothing. -/
theorem Device.Restarted.close_eq {d x : Device} (h : d.Restarted x) (hc : x.channel.state ≠ .running) : x.close = x := by
  rw [Device.close_atRest (fun q => (h.port q).atRest) h.entries,
    Device.runArbiter_of_none (Device.arbiterStep_of_not_running hc)]

theorem Device.restarted_restartSessions {d : Device} (hs : ∀ p, (d.port p).Sound) (hl : ∀ p, (d.port p).outbound.length < 256) :
    d.Restarted d.restartSessions :=
  ⟨fun p => Device.restartSessions_port (hs p) (hl p), d.restartSessions_entries⟩

theorem Device.takeSoftRestart_mailbox (d : Device) :
    d.takeSoftRestart.mgmt.mailbox = .ready [4, 0x09, 0, d.mode.mode.code] := by
  obtain ⟨_, grown⟩ := (Device.outer_softRestart _).mgmt.trans (Device.outer_close _).mgmt
  rw [Device.takeSoftRestart, grown]
  rfl

theorem exec_softRestart {s : State} (hr : s.resetAsserted = false) (hm : s.mgmt.mailbox = .executing [0x09]) :
    exec .softRestart s = .next { s with toDevice := s.toDevice.takeSoftRestart } :=
  State.event_execute hr hm rfl fun _ => Device.takeSoftRestart

/-- The part with a restart's response in the mailbox and the given mode. -/
def Device.restarting (m : ModeCtl) (code : Byte) (d : Device) : Device :=
  { d with mode := m, mgmt := { d.mgmt with mailbox := .ready [4, 0x09, 0, code] } }

theorem Device.restarting_port (m : ModeCtl) (code : Byte) (d : Device) (p : Port) : (d.restarting m code).port p = d.port p := by
  cases p <;> rfl

section
variable {d : Device}

theorem Device.takeSoftRestart_serving (hm : d.mode.mode = .serving) : d.takeSoftRestart =
    (d.restarting { d.mode with mode := .draining, restart := true } 1).restartSessions.drainTest.close := by
  have mode : (d.respond 0x09 .ok [d.mode.mode.code]).mode.mode = .serving := hm
  simp only [Device.takeSoftRestart, Device.softRestart, mode]
  rw [hm]
  rfl

theorem Device.takeSoftRestart_faulted (hm : d.mode.mode = .faulted) : d.takeSoftRestart =
    (d.restarting { d.mode with restart := true } 3).restartSessions.clearing.close := by
  have mode : (d.respond 0x09 .ok [d.mode.mode.code]).mode.mode = .faulted := hm
  simp only [Device.takeSoftRestart, Device.softRestart, mode]
  rw [hm]
  rfl

theorem Device.takeSoftRestart_starting (hm : d.mode.mode = .starting) : d.takeSoftRestart =
    (d.restarting { d.mode with mode := .draining, restart := true, step := .none } 0).drainTest.close := by
  have mode : (d.respond 0x09 .ok [d.mode.mode.code]).mode.mode = .starting := hm
  simp only [Device.takeSoftRestart, Device.softRestart, mode]
  rw [hm]
  rfl

theorem Device.takeSoftRestart_draining (hm : d.mode.mode = .draining) : d.takeSoftRestart =
    (d.onMgmt fun m => { m with mailbox := .ready [4, 0x09, 0, 2] }).close := by
  have mode : (d.respond 0x09 .ok [d.mode.mode.code]).mode.mode = .draining := hm
  simp only [Device.takeSoftRestart, Device.softRestart, mode]
  rw [hm]
  rfl

theorem Device.restarted_restarting (hs : ∀ p, (d.port p).Sound) (hl : ∀ p, (d.port p).outbound.length < 256) (m : ModeCtl)
    (code : Byte) : d.Restarted (d.restarting m code).restartSessions := by
  have same := d.restarting_port m code
  have h := Device.restarted_restartSessions (d := d.restarting m code) (fun p => (same p).symm ▸ hs p)
    (fun p => (same p).symm ▸ hl p)
  exact ⟨fun p => same p ▸ h.port p, h.entries⟩

/-- What O57 asks of the ports. -/
theorem PortUnit.Restarted.spec {u v : PortUnit} (h : u.Restarted v) :
    (u.session = .attached → v.session = .linked ∧ v.outbound = u.outbound ++ [.bye .restart] ∧ v.Idle)
    ∧ (u.session ≠ .attached → v.session = u.session ∧ v.outbound = u.outbound) := by
  obtain ⟨ended, kept, -, idle, -⟩ := h
  exact ⟨fun ha => ⟨(ended ha).1, (ended ha).2, idle⟩, kept⟩

end

theorem FrameStore.cleared_congr {fs fs' : FrameStore} (h : fs.frames = fs'.frames) : fs.cleared = fs'.cleared := by
  rw [FrameStore.cleared, FrameStore.cleared, h]

theorem FrameStore.holdsUnwritten_of {fs : FrameStore} {f : FrameNo}
    (h : (fs.frames[f]).kind = .dirty ∨ (fs.frames[f]).kind = .writing ∨ (fs.frames[f]).kind = .held) : fs.holdsUnwritten = true := by
  refine List.any_eq_true.mpr ⟨fs.frames[f], by simp, ?_⟩
  simpa [or_assoc] using h

section
variable {d : Device}

theorem Device.Sound.notAttached_of_starting (h : d.Sound) (hm : d.mode.mode = .starting) (p : Port) :
    (d.port p).session ≠ .attached := by
  obtain ⟨ports, -⟩ := h
  intro ha
  have allowed := (ports p).2
  rw [ha, hm] at allowed
  simp [SessionState.allowedIn] at allowed

/-- R165 in SERVING: sessions and reservations end, and the drain is tested. -/
theorem Device.takeSoftRestart_in_serving (hs : ∀ p, (d.port p).Sound) (hl : ∀ p, (d.port p).outbound.length < 256)
    (hm : d.mode.mode = .serving) :
    d.Restarted d.takeSoftRestart ∧ d.takeSoftRestart.mode.restart = true
    ∧ d.takeSoftRestart.mode.mode = if (Device.endSessions d.attachedPorts false (some .restart)
        (d.restarting { d.mode with mode := .draining, restart := true } 1)).drained then .starting else .draining := by
  have restarted := Device.restarted_restarting hs hl { d.mode with mode := .draining, restart := true } 1
  have mode := (d.restarting { d.mode with mode := .draining, restart := true } 1).restartSessions_mode
  obtain ⟨restart, drained⟩ := Device.drainTest_mode (congrArg ModeCtl.mode mode)
  rw [Device.takeSoftRestart_serving hm, (Device.rest_close _).mode]
  exact ⟨restarted.drainTest.close, restart.trans (congrArg ModeCtl.restart mode), drained⟩

/-- R166 in FAULTED: sessions and reservations end, and the part is cleared at once. -/
theorem Device.takeSoftRestart_in_faulted (hs : ∀ p, (d.port p).Sound) (hl : ∀ p, (d.port p).outbound.length < 256)
    (hm : d.mode.mode = .faulted) :
    d.Restarted d.takeSoftRestart
    ∧ d.takeSoftRestart = (d.restarting { d.mode with restart := true } 3).restartSessions.clearing := by
  have restarted := (Device.restarted_restarting hs hl { d.mode with restart := true } 3).clearing
  have idle : (d.restarting { d.mode with restart := true } 3).restartSessions.clearing.channel.state ≠ .running := by
    rw [Device.clearing_eq, Channel.identify_cleared]
    simp [Channel.reset]
  have whole : d.takeSoftRestart = (d.restarting { d.mode with restart := true } 3).restartSessions.clearing := by
    rw [Device.takeSoftRestart_faulted hm, restarted.close_eq idle]
  exact ⟨whole ▸ restarted, whole⟩

/-- R166 in STARTING: the start-up is dropped and the drain is tested; no port holds a session. -/
theorem Device.takeSoftRestart_in_starting (hs : d.Sound) (hl : ∀ p, (d.port p).outbound.length < 256) (hm : d.mode.mode = .starting) :
    (∀ p, (d.port p).Restarted (d.takeSoftRestart.port p)) ∧ d.takeSoftRestart.mode.restart = true
    ∧ d.takeSoftRestart.mode.mode = if d.drained then .starting else .draining := by
  rw [Device.takeSoftRestart_starting hm]
  refine ⟨fun p => PortUnit.Restarted.close ?_, ?_⟩
  · rw [Device.drainTest_port, Device.restarting_port]
    exact PortUnit.restarted_refl (hs.1 p).1 (hl p) (hs.notAttached_of_starting hm p)
  · rw [(Device.rest_close _).mode]
    exact Device.drainTest_mode rfl

/-- R22: the clearing raises DATA_LOST when a frame holds committed data not on the medium. -/
theorem Device.clearing_dataLost {f : FrameNo}
    (h : (d.frames.frames[f]).kind = .dirty ∨ (d.frames.frames[f]).kind = .writing ∨ (d.frames.frames[f]).kind = .held) :
    d.clearing.mgmt.raised .dataLost = true := by
  rw [Device.clearing_eq]
  simp only [FrameStore.holdsUnwritten_of h, if_true]
  exact Mgmt.raised_raise _ _

end

/-- Settles O57: in each mode the request is the end of the sessions, the drain test or the clearing, and a closing that finds the
ports at rest. -/
theorem softRestartActsByTheMode : Obligations.SoftRestartActsByTheMode := by
  intro s hr hm hs hl
  have event := exec_softRestart hr hm
  have answer := s.toDevice.takeSoftRestart_mailbox
  have ports (p : Port) : (s.port p).Sound := (hs.1 p).1
  refine ⟨fun hmode => ?_, fun hmode => ?_, fun hmode => ?_, fun hmode => ?_⟩
  · obtain ⟨restarted, restart, mode⟩ := Device.takeSoftRestart_in_serving ports hl hmode
    rw [hmode] at answer
    exact ⟨_, event, fun p => (restarted.port p).spec, answer, restart, restarted.entries, mode⟩
  · obtain ⟨restarted, whole⟩ := Device.takeSoftRestart_in_faulted ports hl hmode
    rw [hmode] at answer
    set e := s.toDevice.restarting { s.mode with restart := true } 3 with he
    have cleared := whole.trans e.restartSessions.clearing_eq
    refine ⟨_, event, fun p => (restarted.port p).spec, answer, ?_, restarted.entries, fun hw => ?_, ?_, ?_, ?_⟩
    · rw [cleared, Device.restartSessions_mode]
      rfl
    · have empty (q : Port) : (e.port q).window = [] := by rw [he, Device.restarting_port]; exact hw q
      have frames : e.restartSessions.frames.frames = s.frames.frames := Device.frames_endSessions empty _ _ _
      refine ⟨?_, fun ⟨f, hf⟩ => ?_⟩
      · rw [cleared]
        exact FrameStore.cleared_congr frames
      · rw [whole]
        exact Device.clearing_dataLost (f := f) (frames ▸ hf)
    · rw [cleared]
      rfl
    · rw [cleared]
      rfl
    · rw [cleared, Channel.identify_cleared, Device.restartSessions_issueCounts]
      rfl
  · obtain ⟨restarted, restart, mode⟩ := Device.takeSoftRestart_in_starting hs hl hmode
    rw [hmode] at answer
    exact ⟨_, event, fun p => (restarted p).spec, answer, restart, mode⟩
  · rw [event, Device.takeSoftRestart_draining hmode]

end Sys2Proof.Machine
end

section
/-!
SUPPORT and PROOF. A commit: what it does to its frame by the frame's state (Table 2-1), and how its WRITE counts it (R55, R150).
-/

namespace Sys2Proof.Machine

/-! ### The commit at its frame, by the frame's state (Table 2-1) -/

section
variable {f : FrameNo} {block n b h : Nat} {bytes : Block} {d : Device}

/-- R29: a CLEAN frame becomes DIRTY and leaves the clean list. -/
theorem Device.commitFrame_of_clean (hs : (d.frame f).served = some { block := b, hold := h, state := .clean }) :
    d.commitFrame f block n bytes =
      ((((d.setBytes f bytes).setServed f (some { block := b, hold := h, state := .dirty n false })).leaveClean f).enterDirty
        f).reportSet n := by
  unfold Device.commitFrame
  dsimp only
  rw [Device.setBytes_served, hs]

/-- R29: a FILLING frame becomes DIRTY, its waiters are READY, and a FILL request not yet issued is withdrawn. -/
theorem Device.commitFrame_of_filling {ws : List WindowRef}
    (hs : (d.frame f).served = some { block := b, hold := h, state := .filling ws }) :
    d.commitFrame f block n bytes =
      (Device.onChannel (fun c => { c with fillQueue := (withdrawFill f d.channel.fillQueue).1 })
        (ws.foldl (fun d w => d.tellWindow w (.ready f))
          (((d.setBytes f bytes).setServed f
            (some { block := b, hold := h, state := .dirty n (withdrawFill f d.channel.fillQueue).2 })).enterDirty f))).reportSet n := by
  unfold Device.commitFrame
  dsimp only
  rw [Device.setBytes_served, hs]
  rfl

/-- A DIRTY or HELD frame takes the bytes alone. -/
theorem Device.commitFrame_of_dirty {e : Nat} {o : Bool}
    (hs : (d.frame f).served = some { block := b, hold := h, state := .dirty e o }) :
    d.commitFrame f block n bytes = d.setBytes f bytes := by
  unfold Device.commitFrame
  dsimp only
  rw [Device.setBytes_served, hs]

theorem Device.commitFrame_of_held {e : Nat} (hs : (d.frame f).served = some { block := b, hold := h, state := .held e }) :
    d.commitFrame f block n bytes = d.setBytes f bytes := by
  unfold Device.commitFrame
  dsimp only
  rw [Device.setBytes_served, hs]

/-- A WRITING frame keeps its newer since where it has one, and takes the commit's number where it has none. -/
theorem Device.commitFrame_of_writing {e : Nat} {newer : Option Nat} {ph : Phase}
    (hs : (d.frame f).served = some { block := b, hold := h, state := .writing e newer ph }) :
    d.commitFrame f block n bytes =
      (d.setBytes f bytes).setServed f (some { block := b, hold := h, state := .writing e (some (newer.getD n)) ph }) := by
  unfold Device.commitFrame
  dsimp only
  rw [Device.setBytes_served, hs]

end

/-- R29 step 3: the fill stays outstanding exactly when its request has been issued. -/
theorem withdrawFill_outstanding (f : FrameNo) (q : List FillReq) :
    (withdrawFill f q).2 = !(q.any fun r => decide (r.frame = f)) := by
  unfold withdrawFill
  split
  · rename_i waits
    rw [waits]
    rfl
  · rename_i issued
    rw [Bool.not_eq_true] at issued
    rw [issued]
    rfl

theorem Device.reportSet_frame (n : Nat) (f : FrameNo) (d : Device) : (d.reportSet n).frame f = d.frame f :=
  ((Device.SameStore.refl d).reportSet n).frame f

theorem Device.commitFrame_nextWrite (f : FrameNo) (block n : Nat) (bytes : Block) (d : Device) :
    (d.commitFrame f block n bytes).tracker.nextWrite = d.tracker.nextWrite := by
  rcases d.commitFrame_cases f block n bytes with ⟨sv, o, c, -, -, -, -, same⟩ | ⟨sv, -, -, eq⟩ | ⟨b, h, e, m, ph, -, eq⟩
  · rw [same.next]
    cases c <;> rfl
  · rw [eq]
    rfl
  · rw [eq]
    rfl

theorem Device.commitFrame_bytes (f : FrameNo) (block n : Nat) (bytes : Block) (d : Device) :
    ((d.commitFrame f block n bytes).frame f).bytes = bytes := by
  rcases d.commitFrame_cases f block n bytes with ⟨sv, o, c, -, -, -, -, same⟩ | ⟨sv, -, -, eq⟩ | ⟨b, h, e, m, ph, -, eq⟩
  · rw [same.frame, Device.dirtied_frame, Device.setServed_bytes, Device.setBytes_bytes]
  · rw [eq, Device.setBytes_bytes]
  · rw [eq, Device.setServed_bytes, Device.setBytes_bytes]

/-- Table 2-1: the record a commit of number n to a block leaves of a frame's record; `issued` says that a fill of the frame has
been issued. -/
def Served.committed (block n : Nat) (issued : Bool) : Option Served → Served
  | none => { block := block, hold := 0, state := .dirty n false }
  | some sv =>
    { sv with state := match sv.state with
      | .clean => .dirty n false
      | .filling _ => .dirty n issued
      | .dirty e o => .dirty e o
      | .writing e newer ph => .writing e (some (newer.getD n)) ph
      | .held e => .held e }

theorem Device.commitFrame_served (f : FrameNo) (block n : Nat) (bytes : Block) (d : Device) :
    ((d.commitFrame f block n bytes).frame f).served =
      some (Served.committed block n (!(d.channel.fillQueue.any fun r => decide (r.frame = f))) (d.frame f).served) := by
  rcases hs : (d.frame f).served with _ | ⟨b, h, st⟩
  · rw [Device.commitFrame_of_free hs, Device.reportSet_frame]
    exact Device.setServed_served _ _ _
  · cases st with
    | clean =>
      rw [Device.commitFrame_of_clean hs, Device.reportSet_frame]
      exact Device.setServed_served _ _ _
    | filling ws =>
      rw [Device.commitFrame_of_filling hs, Device.reportSet_frame, (Device.same_onChannel _ _).frame,
        (Device.same_tellAll _ _ _).frame, withdrawFill_outstanding]
      exact Device.setServed_served _ _ _
    | dirty e o => rw [Device.commitFrame_of_dirty hs, Device.setBytes_served, hs]; rfl
    | writing e newer ph => rw [Device.commitFrame_of_writing hs, Device.setServed_served]; rfl
    | held e => rw [Device.commitFrame_of_held hs, Device.setBytes_served, hs]; rfl

/-- After its effect on the frame a commit changes the frames no more: it frees the buffer and counts for its WRITE. -/
theorem Device.commitInto_frame {p : Port} {buf : BufNo} {f : FrameNo} {block : Nat} {d : Device} {t : Tag} {i k : Nat} {y : Block}
    (ho : (d.port p).landing[buf] = .occupied t i k y) (g : FrameNo) :
    (d.commitInto p buf f block).frame g = (d.numbered.commitFrame f block d.tracker.nextWrite y).frame g := by
  rw [Device.commitInto_of_occupied ho, (Device.same_countCommit _ _ _ _).frame, Device.frame, Device.onPort_frames]
  rfl

/-- Settles O25: the number, the buffer and the bytes of a commit, and the frame's record by Table 2-1. -/
theorem commitPlacesItsBytesByTheStateOfTheFrame : Obligations.CommitPlacesItsBytesByTheStateOfTheFrame := by
  intro d p b f block tag index named t bytes ho
  have served := (congrArg Frame.served (Device.commitInto_frame (f := f) (block := block) ho f)).trans
    (Device.commitFrame_served f block d.tracker.nextWrite bytes d.numbered)
  have counted := Device.same_countCommit p t d.tracker.nextWrite
    ((d.numbered.commitFrame f block d.tracker.nextWrite bytes).onPort p (PortUnit.freeBuffer b))
  refine ⟨?_, ?_, ?_, fun hs => ?_, fun bl h => ⟨fun hs => ?_, fun ws hs => ?_, fun e o hs => ?_, fun e ph hs => ?_,
    fun e m ph hs => ?_, fun e hs => ?_⟩⟩
  · rw [Device.commitInto_of_occupied ho]
    refine counted.next.trans ?_
    rw [Device.onPort_tracker, Device.commitFrame_nextWrite]
    rfl
  · rw [Device.commitInto_of_occupied ho]
    refine (congrArg (·[b]) (counted.landing p)).trans ?_
    rw [Device.onPort_port_same, PortUnit.landing_freeBuffer, if_pos rfl]
  · rw [Device.commitInto_frame ho, Device.commitFrame_bytes]
  all_goals
    rw [show (d.numbered.frame f).served = _ from hs] at served
    exact served

/-! ### The count of a commit by its WRITE (R55, R150) -/

theorem Device.setCommand_setCommand (p : Port) (t : Tag) (c c' : Option OpenCmd) (d : Device) :
    (d.setCommand p t c).setCommand p t c' = d.setCommand p t c' := by
  rw [Device.setCommand, Device.setCommand, Device.onPort_onPort]
  exact Device.onPort_congr (by simp [PortUnit.setCommand])

theorem Device.setCommand_command (p : Port) (t : Tag) (c : Option OpenCmd) (d : Device) :
    ((d.setCommand p t c).port p).commands[t] = c := by
  rw [Device.setCommand, Device.onPort_port_same]
  simp [PortUnit.setCommand]

theorem Device.setCommand_outbound (p : Port) (t : Tag) (c : Option OpenCmd) (d : Device) :
    ((d.setCommand p t c).port p).outbound = (d.port p).outbound := by cases p <;> rfl

theorem Device.setFlushList_setCommand (l : List FlushEntry) (p : Port) (t : Tag) (c : Option OpenCmd) (d : Device) :
    (d.setFlushList l).setCommand p t c = (d.setCommand p t c).setFlushList l := by cases p <;> rfl

theorem Device.setFlushList_port (l : List FlushEntry) (p : Port) (d : Device) : (d.setFlushList l).port p = d.port p := by
  cases p <;> rfl

theorem Device.setFlushList_self {l : List FlushEntry} {d : Device} (h : d.tracker.flushList = l) : d.setFlushList l = d := by
  subst h
  rfl

/-- An open command answered on an order with room: its record is free and its RESPONSE stands at the tail. -/
theorem Device.answer_of_room {p : Port} {d : Device} (h : (d.port p).outbound.length ≤ 256) (t : Tag) (st : Status) (moved : Nat)
    (failing : Option Nat) (pl : Payload) :
    d.answer p t st moved failing pl = (d.setCommand p t none).says p [.response t st moved failing pl] :=
  Device.send_of_room (by rw [Device.setCommand_outbound]; exact h) _

/-- R57: an entry that joins behind others is not tested. -/
theorem Device.joinFlush_of_others {e : FlushEntry} {d : Device} (h : d.tracker.flushList ≠ []) :
    d.joinFlush e = d.setFlushList (d.tracker.flushList ++ [e]) := by
  simp [Device.joinFlush, h]

/-- R57: an entry that joins as the head is tested at once, and answered unless it waits. -/
theorem Device.joinFlush_of_empty {e : FlushEntry} {d : Device} (h : d.tracker.flushList = []) :
    d.joinFlush e = match d.tracker.headTest e.mark with
      | .waits => d.setFlushList [e]
      | .incomplete => d.answerFlush e .incomplete
      | .good => d.answerFlush e .good := by
  have joined : d.joinFlush e = flushLoop 1 (d.setFlushList [e]) := by simp [Device.joinFlush, h, Device.testFlush]
  have left : (d.setFlushList [e]).setFlushList [] = d := Device.setFlushList_self (d := d) h
  have test : (d.setFlushList [e]).tracker.headTest e.mark = d.tracker.headTest e.mark := rfl
  rw [joined, flushLoop, Device.setFlushList_flushList]
  dsimp only
  rw [test, left]
  cases d.tracker.headTest e.mark <;> rfl

/-- R57: a DURABLE WRITE in the flush list is answered with its count. -/
theorem Device.answerFlush_write {e : FlushEntry} {w : WriteCmd} {d : Device} (h : (d.port e.port).commands[e.tag] = some (.write w))
    (st : Status) : d.answerFlush e st = d.answer e.port e.tag st w.count none .none := by
  rw [Device.answerFlush, h]

section
variable {p : Port} {t : Tag} {n : Nat} {w : WriteCmd} {d : Device}

/-- R55: a tag without an open WRITE counts nothing. -/
theorem Device.countCommit_of_no_write (h : ∀ w, (d.port p).commands[t] ≠ some (.write w)) : d.countCommit p t n = d := by
  unfold Device.countCommit
  split
  · rename_i w hw
    exact (h w hw).elim
  · rfl

variable (hw : (d.port p).commands[t] = some (.write w))
include hw

theorem Device.countCommit_of_short (h : w.committed + 1 ≠ w.count) :
    d.countCommit p t n = d.setCommand p t (some (.write { w with committed := w.committed + 1 })) := by
  rw [Device.countCommit, hw]
  exact if_neg h

theorem Device.countCommit_of_plain (h : w.committed + 1 = w.count) (hd : w.durable = false) :
    d.countCommit p t n = d.answer p t .good w.count none .none := by
  rw [Device.countCommit, hw]
  exact (if_pos h).trans (if_neg (by simp [hd]))

/-- R150: at its last commit a DURABLE WRITE is SETTLING and joins the flush list with the number of that commit as mark. -/
theorem Device.countCommit_of_durable (h : w.committed + 1 = w.count) (hd : w.durable = true) :
    d.countCommit p t n = (d.setCommand p t (some (.write { w with committed := w.count, state := .settling }))).joinFlush
      { kind := .durableWrite, port := p, tag := t, mark := n } := by
  simp only [Device.countCommit, hw, h, hd, if_true]

end

/-- A DURABLE WRITE answered as it joins: nothing is left of it but its RESPONSE. -/
theorem Device.answerFlush_joined {p : Port} {t : Tag} {n : Nat} {w : WriteCmd} {d : Device} (hr : (d.port p).outbound.length ≤ 256)
    (st : Status) :
    (d.setCommand p t (some (.write w))).answerFlush { kind := .durableWrite, port := p, tag := t, mark := n } st =
      (d.setCommand p t none).says p [.response t st w.count none .none] := by
  rw [Device.answerFlush_write (Device.setCommand_command p t _ d), Device.answer_of_room (by rw [Device.setCommand_outbound]; exact hr),
    Device.setCommand_setCommand]

/-- Settles O26: the count by the record of the WRITE, and for a DURABLE one by the flush list it joins. -/
theorem commitIsCountedByItsWrite : Obligations.CommitIsCountedByItsWrite := by
  refine ⟨fun d p b f block index named t bytes ho => Device.commitInto_of_occupied ho,
    fun d p t n => ⟨Device.countCommit_of_no_write, fun w hw => ⟨Device.countCommit_of_short hw, fun hc hd hr => ?_,
      fun hc hd => ⟨fun hwait => ?_, fun hl hr => ⟨fun htest => ?_, fun htest => ?_⟩⟩⟩⟩⟩
  · rw [Device.countCommit_of_plain hw hc hd, Device.answer_of_room hr]
  all_goals
    have tracker (c : Option OpenCmd) : (d.setCommand p t c).tracker = d.tracker := d.onPort_tracker p _
    rw [Device.countCommit_of_durable hw hc hd]
  · by_cases hl : d.tracker.flushList = []
    · have waits : d.tracker.headTest n = .waits := hwait.resolve_left fun hn => hn hl
      rw [Device.joinFlush_of_empty (by rw [tracker, hl]), tracker, waits, hl]
      rfl
    · rw [Device.joinFlush_of_others (by rw [tracker]; exact hl), tracker]
  · rw [Device.joinFlush_of_empty (by rw [tracker, hl]), tracker, htest]
    exact Device.answerFlush_joined hr .good
  · rw [Device.joinFlush_of_empty (by rw [tracker, hl]), tracker, htest]
    exact Device.answerFlush_joined hr .incomplete

end Sys2Proof.Machine
end

section
/-!
SUPPORT and PROOF. A completion of the media bus for an operation in a slot as one event, and what it brings to the frame of a fill
(section 2.3) and of a write-back (R46, R48).
-/

namespace Sys2Proof.Machine

/-! ### A completion as one event (R65, R71) -/

section
variable {s : State} {i : SlotNo} {slot issue : Byte} {op : Operation} (hr : s.resetAsserted = false) (hi : slot.toNat = i.val)
  (hop : s.channel.slots[i] = some op) (hn : s.channel.issueCounts[i] = issue)
include hr hi hop hn

/-- R65: a completion that names an operation in a slot is handed to the owner of its work, and the event closes. -/
theorem State.event_completion (outcome : Byte) (body : List Byte) :
    s.event (Device.completion slot issue outcome body) =
      .next { s with toDevice := (s.toDevice.applyCompletion i op outcome body).closeMedia } := by
  rw [State.event_of_released hr, Device.completion, Channel.completes_of hi hop hn]

/-- R71: the completion of a fill ends it at its frame and empties the slot. -/
theorem State.event_fillCompletion {f : FrameNo} (hw : op.work = .fill f) (outcome : Byte) (body : List Byte) :
    s.event (Device.completion slot issue outcome body) = .next { s with toDevice :=
      ((s.toDevice.fillDone f (readOutcome outcome body)).onChannel (Channel.emptySlot i)).closeMedia } := by
  rw [State.event_completion hr hi hop hn, Device.applyCompletion, hw]

/-- R71: the completion of a write-back settles its frame or hands it over, and empties the slot. -/
theorem State.event_writebackCompletion {f : FrameNo} {image : Block} (hw : op.work = .writeback f image) (outcome : Byte)
    (body : List Byte) :
    s.event (Device.completion slot issue outcome body) = .next { s with toDevice :=
      ((if doneCode outcome then s.toDevice.settleFrame f else s.toDevice.handOver f image).onChannel
        (Channel.emptySlot i)).closeMedia } := by
  rw [State.event_completion hr hi hop hn, Device.applyCompletion, hw]

end

/-! ### The outcomes (R65, R183) -/

theorem readOutcome_good {body : List Byte} (h : 512 ≤ body.length) : readOutcome 0 body = .good (blockOfList body) := by
  rw [readOutcome, if_neg (Nat.not_lt.mpr h), if_pos rfl]

theorem readOutcome_corrected {body : List Byte} (h : 512 ≤ body.length) : readOutcome 1 body = .corrected (blockOfList body) := by
  rw [readOutcome, if_neg (Nat.not_lt.mpr h), if_neg (by decide), if_pos rfl]

/-- R65, R183: any other code fails a READ, and so does a short body. -/
theorem readOutcome_failed {code : Byte} {body : List Byte} (h : 1 < code.toNat ∨ body.length < 512) :
    readOutcome code body = .uncorrectable := by
  unfold readOutcome
  split_ifs with short good corrected
  · rfl
  · subst good
    exact absurd (h.resolve_right short) (by decide)
  · subst corrected
    exact absurd (h.resolve_right short) (by decide)
  · rfl

theorem doneCode_iff {code : Byte} : doneCode code = true ↔ code = 0 := beq_iff_eq

/-! ### The end of a fill (R35 to R40) -/

theorem Device.setServed_setBytes (f : FrameNo) (bytes : Block) (sv : Option Served) (d : Device) :
    (d.setBytes f bytes).setServed f sv = d.setFrame f { bytes := bytes, served := sv } := by
  simp [Device.setServed, Device.setBytes, Device.setFrame, Device.frame]

/-- R37: a FILLING frame with its bytes: CLEAN at the tail of the clean list, its waiters READY, handed out when no one holds it. -/
def Device.filled (f : FrameNo) (block hold : Nat) (ws : List WindowRef) (bytes : Block) (d : Device) : Device :=
  let told := ws.foldl (fun d w => d.tellWindow w (.ready f))
    (Device.cleanTail f (d.setFrame f { bytes := bytes, served := some { block := block, hold := hold, state := .clean } }))
  if hold = 0 then told.handOut f else told

section
variable {f : FrameNo} {block hold : Nat} {d : Device}

/-- R37, R38: bytes fill a FILLING frame. -/
theorem Device.fillDone_of_bytes {ws : List WindowRef} {o : ReadOutcome} {bytes : Block}
    (hs : (d.frame f).served = some { block := block, hold := hold, state := .filling ws }) (ho : o.data = some bytes) :
    d.fillDone f o = (d.filled f block hold ws bytes).reportOutcome block o := by
  have good : d.fillGood f { block := block, hold := hold, state := .filling ws } ws bytes = d.filled f block hold ws bytes := by
    rw [Device.fillGood, Device.setServed_setBytes, Device.filled]
  rw [Device.fillDone, hs]
  dsimp only
  rw [ho]
  dsimp only
  rw [good]

/-- R39: without bytes it is released, and its block reported. -/
theorem Device.fillDone_of_failure {ws : List WindowRef}
    (hs : (d.frame f).served = some { block := block, hold := hold, state := .filling ws }) :
    d.fillDone f .uncorrectable = (d.releaseFrame f .mediumError).reportPending block .unreadable := by
  rw [Device.fillDone, hs]
  rfl

/-- R36, R40: a superseded fill is no longer outstanding and its bytes are dropped. -/
theorem Device.fillDone_of_superseded {e : Nat}
    (hs : (d.frame f).served = some { block := block, hold := hold, state := .dirty e true }) (o : ReadOutcome) :
    d.fillDone f o =
      (d.setServed f (some { block := block, hold := hold, state := .dirty e false })).reportOutcome block o := by
  rw [Device.fillDone, hs]

end

/-- Settles O35: the completion is the end of the fill at its frame, by the frame's state and the outcome. -/
theorem fillCompletionReachesItsFrame : Obligations.FillCompletionReachesItsFrame := by
  intro s i slot issue outcome body op f block hold hr hi hop hn hw
  have event := State.event_fillCompletion hr hi hop hn hw outcome body
  refine ⟨fun ws hs => ⟨fun ⟨good, long⟩ => ?_, fun ⟨corrected, long⟩ => ?_, fun failed => ?_⟩,
    fun e hs => ⟨fun ⟨good, long⟩ => ?_, fun ⟨corrected, long⟩ => ?_, fun failed => ?_⟩⟩
  all_goals refine event.trans ?_
  · rw [good, readOutcome_good long, Device.fillDone_of_bytes hs rfl]
    rfl
  · rw [corrected, readOutcome_corrected long, Device.fillDone_of_bytes hs rfl]
    rfl
  · rw [readOutcome_failed failed, Device.fillDone_of_failure hs]
  · rw [good, readOutcome_good long, Device.fillDone_of_superseded hs]
    rfl
  · rw [corrected, readOutcome_corrected long, Device.fillDone_of_superseded hs]
    rfl
  · rw [readOutcome_failed failed, Device.fillDone_of_superseded hs]
    rfl

/-! ### The end of a write-back (R46, R48) -/

section
variable {f : FrameNo} {block hold e : Nat} {ph : Phase} {d : Device}

/-- R46: a settled frame without a newer since is CLEAN, the tracker is told, and it is handed out when no one holds it. -/
theorem Device.settleFrame_clean (hs : (d.frame f).served = some { block := block, hold := hold, state := .writing e none ph }) :
    let clean := ((d.setServed f (some { block := block, hold := hold, state := .clean })).cleanTail f).reportCleared e
    d.settleFrame f = if hold = 0 then clean.handOut f else clean := by
  rw [Device.settleFrame, hs]

/-- R46: one with a newer since is DIRTY again with it as exposure, and the tracker is told. -/
theorem Device.settleFrame_newer {n : Nat}
    (hs : (d.frame f).served = some { block := block, hold := hold, state := .writing e (some n) ph }) :
    d.settleFrame f =
      ((d.setServed f (some { block := block, hold := hold, state := .dirty n false })).enterDirty f).reportMoved e n := by
  rw [Device.settleFrame, hs]

/-- R48: a WRITING frame is handed over in phase SPARE, with the image taken at issue. -/
theorem Device.handOver_of_writing {newer : Option Nat} (image : Block)
    (hs : (d.frame f).served = some { block := block, hold := hold, state := .writing e newer ph }) :
    d.handOver f image =
      (d.setServed f (some { block := block, hold := hold, state := .writing e newer .spare })).takeIn f block .fault image := by
  rw [Device.handOver, hs]

end

/-- Settles O36: DONE settles the frame by its newer since; any other outcome hands it over. -/
theorem writeBackCompletionSettlesItsFrame : Obligations.WriteBackCompletionSettlesItsFrame := by
  intro s i slot issue outcome body op f image block hold e newer ph hr hi hop hn hw hs
  have event := State.event_writebackCompletion hr hi hop hn hw outcome body
  refine ⟨fun done plain => event.trans ?_, fun n done moved => event.trans ?_, fun fault => event.trans ?_⟩
  · subst plain
    rw [if_pos (doneCode_iff.mpr done), Device.settleFrame_clean hs]
  · subst moved
    rw [if_pos (doneCode_iff.mpr done), Device.settleFrame_newer hs]
  · rw [if_neg (mt doneCode_iff.mp fault), Device.handOver_of_writing image hs]

end Sys2Proof.Machine
end

section
/-!
SUPPORT and PROOF. The slot arbiter (R69, R70): the request it picks said from the queues, what an issue puts into the slots, and that
operations in slots address different physical blocks. For the issue of a write-back, what an operation leaves of the channel that
issues nothing.
-/

namespace Sys2Proof.Machine

/-! ### Operations that issue nothing -/

/-- The channel is as before but for SPARE and FILL requests that joined or left their queues. -/
def Device.Unissuing (d d' : Device) : Prop :=
  { d'.channel with spareQueue := d.channel.spareQueue, fillQueue := d.channel.fillQueue } = d.channel

theorem Device.Unissuing.refl (d : Device) : d.Unissuing d := rfl

theorem Device.Unissuing.trans {d₁ d₂ d₃ : Device} (h : d₁.Unissuing d₂) (k : d₂.Unissuing d₃) : d₁.Unissuing d₃ :=
  Eq.trans (congrArg (fun c : Channel => { c with spareQueue := d₁.channel.spareQueue, fillQueue := d₁.channel.fillQueue }) k) h

theorem Device.Unissuing.slots {d d' : Device} (h : d.Unissuing d') : d'.channel.slots = d.channel.slots := by
  unfold Device.Unissuing at h
  have same := congrArg Channel.slots h
  exact same

theorem Device.unissuing_of_channel {d d' : Device} (h : d'.channel = d.channel) : d.Unissuing d' := by
  unfold Device.Unissuing
  rw [h]

theorem Device.unissuing_foldl {α : Type} {f : Device → α → Device} (h : ∀ (d : Device) (a : α), d.Unissuing (f d a)) (l : List α)
    (d : Device) : d.Unissuing (l.foldl f d) := by
  induction l generalizing d with
  | nil => exact .refl d
  | cons a l ih => exact (h d a).trans (ih _)

theorem Device.unissuing_onPort (p : Port) (f : PortUnit → PortUnit) (d : Device) : d.Unissuing (d.onPort p f) :=
  Device.unissuing_of_channel (d.onPort_channel p f)

theorem Device.unissuing_frames (fs : FrameStore) (d : Device) : d.Unissuing { d with frames := fs } := rfl

theorem Device.unissuing_tracker (t : Tracker) (d : Device) : d.Unissuing { d with tracker := t } := rfl

theorem Device.unissuing_onRemap (f : Remap → Remap) (d : Device) : d.Unissuing (d.onRemap f) := rfl

theorem Device.unissuing_raise (c : Condition) (d : Device) : d.Unissuing (d.raise c) := rfl

theorem Device.unissuing_requestFill (r : FillReq) (d : Device) : d.Unissuing (d.requestFill r) := rfl

theorem Device.unissuing_requestSpare (q : SpareReq) (d : Device) : d.Unissuing (d.requestSpare q) := rfl

theorem Device.unissuing_answer (p : Port) (t : Tag) (st : Status) (moved : Nat) (failing : Option Nat) (pl : Payload) (d : Device) :
    d.Unissuing (d.answer p t st moved failing pl) := (d.unissuing_onPort p _).trans (Device.unissuing_onPort _ _ _)

theorem Device.unissuing_notify (p : Port) (n : Notice) (d : Device) : d.Unissuing (d.notify p n) := by
  unfold Device.notify
  split
  · exact d.unissuing_onPort _ _
  · exact .refl d

theorem Device.unissuing_answerFlush (e : FlushEntry) (st : Status) (d : Device) : d.Unissuing (d.answerFlush e st) := by
  unfold Device.answerFlush
  split
  · exact d.unissuing_answer ..
  · exact d.unissuing_answer ..
  · exact .refl d

theorem unissuing_flushLoop (n : Nat) (d : Device) : d.Unissuing (flushLoop n d) := by
  induction n generalizing d with
  | zero => exact .refl d
  | succ n ih =>
    rw [flushLoop]
    split
    · exact .refl d
    · split
      · exact .refl d
      · exact ((d.unissuing_tracker _).trans (Device.unissuing_answerFlush _ _ _)).trans (ih _)
      · exact ((d.unissuing_tracker _).trans (Device.unissuing_answerFlush _ _ _)).trans (ih _)

theorem Device.unissuing_testFlush (d : Device) : d.Unissuing d.testFlush := unissuing_flushLoop _ d

theorem Device.unissuing_report (f : Tracker → Tracker) (d : Device) : d.Unissuing (d.report f) :=
  (d.unissuing_tracker _).trans (Device.unissuing_testFlush _)

theorem Device.unissuing_joinFlush (e : FlushEntry) (d : Device) : d.Unissuing (d.joinFlush e) := by
  unfold Device.joinFlush
  dsimp only
  split
  · exact Device.unissuing_testFlush (d.setFlushList _)
  · exact .refl d

theorem Device.unissuing_countCommit (p : Port) (t : Tag) (n : Nat) (d : Device) : d.Unissuing (d.countCommit p t n) := by
  unfold Device.countCommit
  split
  · dsimp only
    split_ifs
    · exact (d.unissuing_onPort p _).trans (Device.unissuing_joinFlush _ _)
    · exact d.unissuing_answer ..
    · exact d.unissuing_onPort p _
  · exact .refl d

/-- A commit at a FILLING frame may withdraw the FILL request, and issues nothing. -/
theorem Device.unissuing_commitFrame (f : FrameNo) (block n : Nat) (bytes : Block) (d : Device) :
    d.Unissuing (d.commitFrame f block n bytes) := by
  rcases hs : (d.frame f).served with _ | ⟨b, h, st⟩
  · rw [Device.commitFrame_of_free hs]
    exact Device.unissuing_report _ (d.enterDirtyFresh f block n bytes)
  · cases st with
    | clean => rw [Device.commitFrame_of_clean hs]; exact Device.unissuing_report _ (Device.enterDirty f _)
    | filling ws =>
      rw [Device.commitFrame_of_filling hs]
      refine Device.Unissuing.trans ?_ (Device.unissuing_report _ _)
      exact Device.unissuing_foldl (fun d w => d.unissuing_onPort _ _) ws (Device.enterDirty f _)
    | dirty e o => rw [Device.commitFrame_of_dirty hs]; exact d.unissuing_frames _
    | writing e newer ph => rw [Device.commitFrame_of_writing hs]; exact d.unissuing_frames _
    | held e => rw [Device.commitFrame_of_held hs]; exact d.unissuing_frames _

theorem Device.unissuing_commitInto (p : Port) (b : BufNo) (f : FrameNo) (block : Nat) (d : Device) :
    d.Unissuing (d.commitInto p b f block) := by
  rcases d.occupied_or (p := p) b with ⟨t, i, k, y, ho⟩ | hn
  · rw [Device.commitInto_of_occupied ho]
    exact ((Device.unissuing_commitFrame _ _ _ _ d.numbered).trans (Device.unissuing_onPort _ _ _)).trans
      (Device.unissuing_countCommit _ _ _ _)
  · rw [Device.commitInto_of_empty hn]
    exact .refl d

theorem unissuing_tryHead (n : Nat) (p : Port) (d : Device) : d.Unissuing (tryHead n p d) := by
  induction n generalizing d with
  | zero => exact .refl d
  | succ n ih =>
    rw [tryHead]
    split
    · exact .refl d
    · split
      · exact .refl d
      · split
        · split
          · exact (d.unissuing_commitInto _ _ _ _).trans (ih _)
          · split
            · exact (Device.unissuing_commitInto _ _ _ _ (d.evict _)).trans (ih _)
            · exact d.unissuing_frames _
        · exact .refl d

theorem Device.unissuing_takeHold (f : FrameNo) (d : Device) : d.Unissuing (d.takeHold f) := by
  unfold Device.takeHold
  split
  · dsimp only
    split <;> exact d.unissuing_frames _
  · exact .refl d

theorem Device.unissuing_giveFrame (f : FrameNo) (d : Device) (e : WaiterEntry) : d.Unissuing (d.giveFrame f e) := by
  unfold Device.giveFrame
  split
  · refine (d.unissuing_takeHold f).trans ?_
    dsimp only
    split
    · exact Device.unissuing_onPort _ _ ((d.takeHold f).setServed f _)
    · exact Device.unissuing_onPort _ _ _
  · exact (d.unissuing_commitInto _ _ _ _).trans (unissuing_tryHead _ _ _)

theorem Device.unissuing_giveIndexed (f : FrameNo) (block : Nat) (d : Device) : d.Unissuing (d.giveIndexed f block) :=
  Device.unissuing_foldl (fun d e => d.unissuing_giveFrame f e) _ (d.setWaiterQueue _)

theorem Device.unissuing_fillFor (w : WindowRef) (block : Nat) (f : FrameNo) (d : Device) : d.Unissuing (d.fillFor w block f) :=
  (Device.unissuing_requestFill _ (d.setServed f _)).trans (Device.unissuing_onPort _ _ _)

theorem Device.unissuing_handOut (f : FrameNo) (d : Device) : d.Unissuing (d.handOut f) := by
  unfold Device.handOut
  split
  · exact .refl d
  · rename_i rest _
    refine Device.Unissuing.trans (d₂ := (d.setWaiterQueue rest).evict f) (d.unissuing_frames _) ?_
    dsimp only
    split
    · exact (Device.unissuing_fillFor _ _ _ _).trans (Device.unissuing_giveIndexed _ _ _)
    · exact ((Device.unissuing_commitInto _ _ _ _ _).trans (Device.unissuing_giveIndexed _ _ _)).trans (unissuing_tryHead _ _ _)

theorem Device.unissuing_dropFrame (f : FrameNo) (k : FailKind) (d : Device) : d.Unissuing (d.dropFrame f k) :=
  ((d.unissuing_onPort _ _).trans (Device.unissuing_onPort _ _ _)).trans (Device.unissuing_frames _ _)

theorem Device.unissuing_releaseFrame (f : FrameNo) (k : FailKind) (d : Device) : d.Unissuing (d.releaseFrame f k) := by
  unfold Device.releaseFrame
  split
  · exact .refl d
  · refine Device.Unissuing.trans ?_ (Device.unissuing_handOut _ _)
    split
    · exact (d.unissuing_dropFrame f k).trans (Device.unissuing_report _ ((d.dropFrame f k).raise .dataLost))
    · exact d.unissuing_dropFrame f k

theorem Device.unissuing_makeHeld (f : FrameNo) (d : Device) : d.Unissuing (d.makeHeld f) := by
  unfold Device.makeHeld
  split
  · split
    · exact Device.unissuing_report _ (d.setServed f _)
    · exact d.unissuing_releaseFrame _ _
  · exact .refl d

theorem Device.unissuing_enterNoSpares (d : Device) : d.Unissuing d.enterNoSpares := by
  unfold Device.enterNoSpares
  split
  · exact (Device.unissuing_notify _ _ (Device.raise .writeLocked { d with remap := _ })).trans (Device.unissuing_notify _ _ _)
  · exact .refl d

theorem Device.unissuing_placeRecord (w : RemapRecord) (d : Device) : d.Unissuing (d.placeRecord w) := by
  unfold Device.placeRecord Device.withoutSpare
  split
  · exact (d.unissuing_onRemap _).trans (Device.unissuing_requestSpare _ _)
  · refine d.unissuing_enterNoSpares.trans ?_
    dsimp only
    split
    · exact (Device.unissuing_onRemap _ _).trans (Device.unissuing_requestSpare _ _)
    · exact (Device.unissuing_onRemap _ _).trans (Device.unissuing_makeHeld _ _)

/-- The remap unit takes a frame in by a SPARE request, or makes it HELD; it issues nothing (R85). -/
theorem Device.unissuing_takeIn (f : FrameNo) (block : Nat) (origin : Origin) (image : Block) (d : Device) :
    d.Unissuing (d.takeIn f block origin image) := (d.unissuing_onRemap _).trans (Device.unissuing_placeRecord _ _)

/-! ### The request picked (R43, R67, R69, R70) -/

theorem Channel.eligible_iff {phys : Nat} {c : Channel} : c.eligible phys = true ↔ c.Unaddressed phys := by
  simp only [Channel.eligible, List.all_eq_true, Vector.mem_toList_iff, Vector.mem_iff_getElem]
  constructor
  · intro all i op hop
    have free := all _ ⟨i.val, i.isLt, rfl⟩
    rw [show c.slots[i.val] = some op from hop] at free
    exact of_decide_eq_true free
  · rintro free _ ⟨i, hi, rfl⟩
    cases hop : c.slots[i] with
    | none => rfl
    | some op => exact decide_eq_true (free ⟨i, hi⟩ op hop)

/-- A search finds the first entry that meets its test. -/
theorem find?_iff_firstOf {α : Type} {p : α → Bool} {test : α → Prop} (h : ∀ x, p x = true ↔ test x) {l : List α} {x : α} :
    l.find? p = some x ↔ FirstOf test l x := by
  simp only [List.find?_eq_some_iff_append, FirstOf, ← h, Bool.not_eq_true', Bool.not_eq_true]
  constructor
  · rintro ⟨hx, a, b, hl, ha⟩
    exact ⟨a, b, hl, hx, ha⟩
  · rintro ⟨a, b, hl, hx, ha⟩
    exact ⟨hx, a, b, hl, ha⟩

/-- R43: the write-back candidate is the first frame of the dirty queue without fill outstanding. -/
theorem Device.writebackCandidate_iff {f : FrameNo} {d : Device} :
    d.writebackCandidate = some f ↔ FirstOf (fun g => (d.frame g).fillOutstanding = false) d.frames.dirtyQueue f :=
  find?_iff_firstOf fun _ => by simp

/-- A class offers its oldest eligible request. -/
theorem Device.pickOf_iff {c : ReqClass} {k : Pick} {d : Device} : d.pickOf c = some k ↔ d.Oldest c k := by
  have first {α : Type} (phys : α → Nat) (l : List α) (x : α) :
      l.find? (fun q => d.channel.eligible (phys q)) = some x ↔ FirstOf (fun q => d.channel.Unaddressed (phys q)) l x :=
    find?_iff_firstOf fun _ => Channel.eligible_iff
  cases c with
  | table =>
    rw [Device.pickOf, Option.map_eq_some_iff]
    cases k <;> simp [Device.Oldest, first]
  | spare =>
    rw [Device.pickOf, Option.map_eq_some_iff]
    cases k <;> simp [Device.Oldest, first fun q : SpareReq => sparePhys d.channel.cap q.spare]
  | fill =>
    rw [Device.pickOf, Option.map_eq_some_iff]
    cases k <;> simp [Device.Oldest, first fun q : FillReq => mapBlock d.channel.cap d.remap q.block]
  | writeback => cases k with
    | writeback f =>
      simp only [Device.pickOf, Device.Oldest, ← Device.writebackCandidate_iff, ← Channel.eligible_iff]
      cases d.writebackCandidate with
      | none => simp
      | some g =>
        by_cases same : g = f
        · subst same
          simp
        · simp [same]
    | _ => cases hf : d.writebackCandidate <;> simp [Device.pickOf, Device.Oldest, hf]

/-- R70: the request picked is the oldest eligible one of the first class that has one. -/
theorem Device.pick_iff {k : Pick} {d : Device} : d.pick = some k ↔
    ∃ l c r, d.classOrder = l ++ c :: r ∧ d.Oldest c k ∧ ∀ c' ∈ l, ∀ k', ¬ d.Oldest c' k' := by
  have offers_none (c : ReqClass) : d.pickOf c = none ↔ ∀ k, ¬ d.Oldest c k := by
    simp only [Option.eq_none_iff_forall_ne_some, ne_eq, Device.pickOf_iff]
  simp only [Device.pick, List.findSome?_eq_some_iff, Device.pickOf_iff, offers_none]

/-! ### An issue -/

/-- The lowest-numbered empty slot is the one with no empty slot before it. -/
theorem Channel.lowestEmpty_iff {i : SlotNo} {c : Channel} :
    c.lowestEmpty = some i ↔ c.slots[i] = none ∧ ∀ j < i, c.slots[j] ≠ none := by
  unfold Channel.lowestEmpty
  rw [List.find?_eq_some_iff_getElem]
  constructor
  · rintro ⟨empty, n, hn, rfl, taken⟩
    refine ⟨by simpa using empty, fun j hj => ?_⟩
    have := taken j.val (by simpa [Fin.lt_def] using hj)
    simpa using this
  · rintro ⟨empty, taken⟩
    refine ⟨by simpa using empty, i.val, by simp, by simp, fun j hj => ?_⟩
    simpa using taken ⟨j, by omega⟩ hj

/-- R70: a step of the arbiter in RUNNING issues the request picked into the lowest-numbered empty slot. -/
theorem Device.arbiterStep_iff {d d' : Device} : d.arbiterStep = some d' ↔
    d.channel.state = .running ∧ ∃ i k, d.channel.lowestEmpty = some i ∧ d.pick = some k ∧ d' = d.issue i k := by
  unfold Device.arbiterStep
  by_cases running : d.channel.state = .running
  · rw [if_pos running]
    cases empty : d.channel.lowestEmpty with
    | none => simp
    | some i => simp [running, eq_comm]
  · simp [running]

theorem Device.onChannel_congr {f g : Channel → Channel} {d : Device} (h : f d.channel = g d.channel) :
    d.onChannel f = d.onChannel g := by
  unfold Device.onChannel
  rw [h]

theorem Device.issue_spare (i : SlotNo) (q : SpareReq) (d : Device) : d.issue i (.spare q) = d.onChannel fun c =>
    Channel.place i (Operation.fresh (.spare q.frame q.spare q.image) (some (sparePhys d.channel.cap q.spare)) false)
      { c with spareQueue := c.spareQueue.erase q } := rfl

theorem Device.issue_fill (i : SlotNo) (q : FillReq) (d : Device) : d.issue i (.fill q) = d.onChannel fun c =>
    Channel.place i (Operation.fresh (.fill q.frame) (some (mapBlock d.channel.cap d.remap q.block)) false)
      { c with fillQueue := c.fillQueue.erase q } := rfl

theorem Device.issueWriteback_home {i : SlotNo} {f : FrameNo} {block hold e : Nat} {o : Bool} {d : Device}
    (hs : (d.frame f).served = some { block := block, hold := hold, state := .dirty e o })
    (hp : ∀ x ∈ d.remap.pendingList, x.block ≠ block) : d.issueWriteback i f =
      Device.reportWriting (Device.onChannel
        (Channel.place i (Operation.fresh (.writeback f (d.frame f).bytes) (some (mapBlock d.channel.cap d.remap block)) false))
        ((d.leaveDirty f).setServed f (some { block := block, hold := hold, state := .writing e none .home }))) := by
  have clear : ¬ (d.remap.pendingList.any fun x => x.block == block) = true := by simpa using hp
  rw [Device.issueWriteback, hs]
  exact if_neg clear

theorem Device.issueWriteback_pending {i : SlotNo} {f : FrameNo} {block hold e : Nat} {o : Bool} {d : Device}
    (hs : (d.frame f).served = some { block := block, hold := hold, state := .dirty e o })
    (hp : ∃ x ∈ d.remap.pendingList, x.block = block) : d.issueWriteback i f =
      Device.takeIn f block .pending (d.frame f).bytes (Device.reportWriting
        ((d.leaveDirty f).setServed f (some { block := block, hold := hold, state := .writing e none .spare }))) := by
  have pending : (d.remap.pendingList.any fun x => x.block == block) = true := by simpa using hp
  rw [Device.issueWriteback, hs]
  exact if_pos pending

theorem Frame.kind_dirty_iff {fr : Frame} :
    fr.kind = .dirty ↔ ∃ b h e o, fr.served = some { block := b, hold := h, state := .dirty e o } := by
  rcases hs : fr.served with _ | ⟨b, h, st⟩
  · simp [Frame.kind, hs]
  · cases st <;> simp [Frame.kind, hs]

/-- A frame that is not DIRTY is no write-back. -/
theorem Device.issueWriteback_of_not_dirty {i : SlotNo} {f : FrameNo} {d : Device} (h : (d.frame f).kind ≠ .dirty) :
    d.issueWriteback i f = d := by
  unfold Device.issueWriteback
  split
  · rename_i hs
    exact (h (by simp [Frame.kind, hs])).elim
  · rfl

/-! ### The physical blocks in the slots (R69) -/

/-- No two operations in slots address the same physical block. -/
def Channel.Distinct (c : Channel) : Prop := ∀ i j : SlotNo, ∀ a b, c.slots[i] = some a → c.slots[j] = some b → a.phys.isSome →
  a.phys = b.phys → i = j

/-- The physical block a request addresses, by the mapping at this moment (R66, R67). -/
def Device.physOf (d : Device) : Pick → Nat
  | .table q => q.phys
  | .spare q => sparePhys d.channel.cap q.spare
  | .fill q => mapBlock d.channel.cap d.remap q.block
  | .writeback f => mapBlock d.channel.cap d.remap (d.frame f).blockNo

/-- R69: the oldest eligible request of a class addresses no physical block of an operation in a slot. -/
theorem Device.Oldest.unaddressed {c : ReqClass} {k : Pick} {d : Device} (h : d.Oldest c k) : d.channel.Unaddressed (d.physOf k) :=
  match c, k, h with
  | .table, .table _, ⟨_, _, _, eligible, _⟩ => eligible
  | .spare, .spare _, ⟨_, _, _, eligible, _⟩ => eligible
  | .fill, .fill _, ⟨_, _, _, eligible, _⟩ => eligible
  | .writeback, .writeback _, ⟨_, eligible⟩ => eligible

/-- An issue puts an operation for the request's physical block into the slot, or, for a pending block, none. -/
theorem Device.issue_slots (i : SlotNo) (k : Pick) (d : Device) : (d.issue i k).channel.slots = d.channel.slots
    ∨ ∃ op, op.phys = some (d.physOf k) ∧ (d.issue i k).channel.slots = d.channel.slots.set i.val (some op) i.isLt := by
  cases k with
  | table q => exact .inr ⟨_, rfl, rfl⟩
  | spare q => exact .inr ⟨_, rfl, rfl⟩
  | fill q => exact .inr ⟨_, rfl, rfl⟩
  | writeback f =>
    show (d.issueWriteback i f).channel.slots = _ ∨ ∃ op, _ ∧ (d.issueWriteback i f).channel.slots = _
    by_cases hk : (d.frame f).kind = .dirty
    · obtain ⟨b, h, e, o, hs⟩ := Frame.kind_dirty_iff.mp hk
      by_cases hp : ∃ x ∈ d.remap.pendingList, x.block = b
      · rw [Device.issueWriteback_pending hs hp]
        exact .inl ((Device.unissuing_report _ ((d.leaveDirty f).setServed f _)).trans (Device.unissuing_takeIn _ _ _ _ _)).slots
      · rw [Device.issueWriteback_home hs fun x hx e => hp ⟨x, hx, e⟩]
        refine .inr ⟨_, ?_, (Device.unissuing_report _ _).slots⟩
        simp [Device.physOf, Operation.fresh, Frame.blockNo, hs]
    · rw [Device.issueWriteback_of_not_dirty hk]
      exact .inl rfl

theorem Channel.Distinct.set {c c' : Channel} {i : SlotNo} {op : Operation} {phys : Nat} (h : c.Distinct) (hu : c.Unaddressed phys)
    (hp : op.phys = some phys) (hs : c'.slots = c.slots.set i.val (some op) i.isLt) : c'.Distinct := by
  have slot (j : SlotNo) : c'.slots[j] = if j = i then some op else c.slots[j] := by
    rw [hs]
    by_cases hj : j = i
    · simp [hj]
    · have : i.val ≠ j.val := fun e => hj (Fin.ext e.symm)
      simp [hj, this]
  intro j k a b ha hb hsome heq
  rw [slot] at ha hb
  split_ifs at ha hb with hj hk hk
  · exact hj.trans hk.symm
  · obtain rfl : op = a := Option.some.inj ha
    exact (hu k b hb (heq.symm.trans hp)).elim
  · obtain rfl : op = b := Option.some.inj hb
    exact (hu j a ha (heq.trans hp)).elim
  · exact h j k a b ha hb hsome heq

/-- R69: a step of the arbiter keeps the physical blocks in the slots distinct. -/
theorem Device.distinct_arbiterStep {d d' : Device} (hs : d.arbiterStep = some d') (h : d.channel.Distinct) : d'.channel.Distinct := by
  obtain ⟨-, i, k, -, pick, rfl⟩ := Device.arbiterStep_iff.mp hs
  obtain ⟨-, c, -, -, oldest, -⟩ := Device.pick_iff.mp pick
  obtain same | ⟨op, phys, placed⟩ := d.issue_slots i k
  · unfold Channel.Distinct
    rw [same]
    exact h
  · exact h.set oldest.unaddressed phys placed

/-! ### One fill alone (R33, R70) -/

section
variable {q : FillReq} {d : Device}

/-- With no request waiting and no DIRTY frame the arbiter picks nothing. -/
theorem Device.pick_of_nothing (ht : d.channel.tableQueue = []) (hs : d.channel.spareQueue = []) (hf : d.channel.fillQueue = [])
    (hd : d.frames.dirtyQueue = []) : d.pick = none := by
  have offers_none (c : ReqClass) : d.pickOf c = none := by
    cases c <;> simp [Device.pickOf, Device.writebackCandidate, *]
  simp [Device.pick, List.findSome?_eq_none_iff, offers_none]

theorem Device.pick_of_fill (ht : d.channel.tableQueue = []) (hs : d.channel.spareQueue = []) (hf : d.channel.fillQueue = [q])
    (hd : d.frames.dirtyQueue = []) (hu : d.channel.Unaddressed (mapBlock d.channel.cap d.remap q.block)) :
    d.pick = some (.fill q) := by
  have table : d.pickOf .table = none := by simp [Device.pickOf, ht]
  have spare : d.pickOf .spare = none := by simp [Device.pickOf, hs]
  have writeback : d.pickOf .writeback = none := by simp [Device.pickOf, Device.writebackCandidate, hd]
  have fill : d.pickOf .fill = some (.fill q) := by simp [Device.pickOf, hf, Channel.eligible_iff.mpr hu]
  unfold Device.pick Device.classOrder
  split <;> simp [table, spare, writeback, fill]

end

/-- R70: where one fill alone waits, and nothing is DIRTY, a run of the arbiter issues it into the lowest-numbered empty slot. -/
theorem Device.runArbiter_of_fill {i : SlotNo} {q : FillReq} {d : Device} (hr : d.channel.state = .running)
    (hi : d.channel.lowestEmpty = some i) (ht : d.channel.tableQueue = []) (hs : d.channel.spareQueue = [])
    (hf : d.channel.fillQueue = [q]) (hd : d.frames.dirtyQueue = [])
    (hu : d.channel.Unaddressed (mapBlock d.channel.cap d.remap q.block)) : d.runArbiter = d.issue i (.fill q) := by
  have first : d.arbiterStep = some (d.issue i (.fill q)) :=
    Device.arbiterStep_iff.mpr ⟨hr, i, _, hi, Device.pick_of_fill ht hs hf hd hu, rfl⟩
  have left : (d.issue i (.fill q)).channel.fillQueue = [] := by
    show d.channel.fillQueue.erase q = []
    simp [hf]
  have nothing : (d.issue i (.fill q)).pick = none := Device.pick_of_nothing ht hs left hd
  have last : (d.issue i (.fill q)).arbiterStep = none := by
    rw [Option.eq_none_iff_forall_ne_some]
    intro d' h
    obtain ⟨-, _, k, -, hk, -⟩ := Device.arbiterStep_iff.mp h
    rw [nothing] at hk
    cases hk
  simp [Device.runArbiter, arbiterLoop, first, last]

/-- The arbiter's row is a run of the arbiter and a closing (R70). -/
theorem exec_slotArbiterRun {s : State} (hr : s.resetAsserted = false) :
    exec .slotArbiterRun s = .next { s with toDevice := s.toDevice.runArbiter.close.drainTest } := by
  show execSlotArbiterRun s = _
  rw [execSlotArbiterRun, State.event_of_released hr]

/-- Settles O39: the pick from the queues, each issue, the blocks in the slots, and the run with one fill alone. -/
theorem arbiterIssuesTheFirstEligibleRequestInClassOrder : Obligations.ArbiterIssuesTheFirstEligibleRequestInClassOrder := by
  refine ⟨fun d h => if_neg (Nat.not_le.mpr h), fun d h => if_pos h, fun d k => Device.pick_iff,
    fun d i k hr he hl hk => Device.arbiterStep_iff.mpr ⟨hr, i, k, Channel.lowestEmpty_iff.mpr ⟨he, hl⟩, hk, rfl⟩,
    fun d i => ⟨fun _ => rfl, fun _ _ => rfl, fun q => (d.issue_spare i q).trans (Device.onChannel_congr rfl),
      fun q => (d.issue_fill i q).trans (Device.onChannel_congr rfl),
      fun f block hold e o hs => ⟨Device.issueWriteback_home hs, Device.issueWriteback_pending hs⟩⟩,
    fun d => Device.arbiterStep_of_not_running, fun d d' => Device.distinct_arbiterStep, fun s q hr hrun hempty ht hs hf hd => ?_⟩
  have slot (j : SlotNo) : s.channel.slots[j] = none := by simp [hempty]
  have free : s.channel.Unaddressed (mapBlock s.channel.cap s.remap q.block) := fun j op hop => by simp [slot] at hop
  have zero : s.channel.lowestEmpty = some 0 := Channel.lowestEmpty_iff.mpr ⟨slot 0, fun j hj => (Fin.not_lt_zero j hj).elim⟩
  rw [exec_slotArbiterRun hr, Device.runArbiter_of_fill hrun zero ht hs hf hd free]
  refine State.next_congr (congrArg (fun d : Device => d.close.drainTest) ?_)
  have left : s.channel.fillQueue.erase q = [] := by simp [hf]
  refine (Device.issue_fill 0 q _).trans (Device.onChannel_congr ?_)
  dsimp only [Channel.place]
  rw [left, hempty]
  rfl

end Sys2Proof.Machine
end

section
/-!
SUPPORT and PROOF. The test of the flush list from its head (R56, R57): the four conditions on the tracker's sets, and what becomes of
a head that waits and of one that is answered.
-/

namespace Sys2Proof.Machine

/-! ### The four conditions of the head test (R56) -/

/-- A set has its floor at or below the mark when one of its numbers is. -/
theorem floorAtOrBelow_iff {set : List Nat} {mark : Nat} : floorAtOrBelow set mark = true ↔ ∃ n ∈ set, n ≤ mark := by
  simp [floorAtOrBelow]

theorem Tracker.headTest_eq (t : Tracker) (mark : Nat) : t.headTest mark =
    if ∃ n, t.earliestLost = some n ∧ n ≤ mark then .incomplete
    else if ∃ n ∈ t.unwritten, n ≤ mark then .waits
    else if ∃ n ∈ t.held, n ≤ mark then .incomplete
    else .good := by
  have lost : t.earliestLost.any (· ≤ mark) = true ↔ ∃ n, t.earliestLost = some n ∧ n ≤ mark := by
    simp [Option.any_eq_true]
  exact if_congr lost rfl (if_congr floorAtOrBelow_iff rfl (if_congr floorAtOrBelow_iff rfl rfl))

/-! ### An answer leaves the flush list to the next head (R57) -/

/-- R57: a FLUSH in the flush list is answered with 0 blocks. -/
theorem Device.answerFlush_flush {e : FlushEntry} {d : Device} (h : (d.port e.port).commands[e.tag] = some .flush) (st : Status) :
    d.answerFlush e st = d.answer e.port e.tag st 0 none .none := by
  rw [Device.answerFlush, h]

theorem Device.answer_tracker (p : Port) (t : Tag) (st : Status) (moved : Nat) (failing : Option Nat) (pl : Payload) (d : Device) :
    (d.answer p t st moved failing pl).tracker = d.tracker := by
  simp [Device.answer, Device.send, Device.setCommand]

/-- An answer changes its port alone; the tracker stays as it is. -/
theorem Device.answerFlush_tracker (e : FlushEntry) (st : Status) (d : Device) : (d.answerFlush e st).tracker = d.tracker := by
  unfold Device.answerFlush
  split
  · exact Device.answer_tracker ..
  · exact Device.answer_tracker ..
  · rfl

/-! ### The test by what its head comes to (R57) -/

theorem Device.testFlush_of_empty {d : Device} (h : d.tracker.flushList = []) : d.testFlush = d := by
  simp [Device.testFlush, h, flushLoop]

section
variable {e : FlushEntry} {rest : List FlushEntry} {d : Device} (hl : d.tracker.flushList = e :: rest)
include hl

/-- R57: a head that waits ends the test. -/
theorem Device.testFlush_of_waits (ht : d.tracker.headTest e.mark = .waits) : d.testFlush = d := by
  simp [Device.testFlush, hl, flushLoop, ht]

/-- R57: once a head is answered, what is left of the loop is the test of the list behind it. -/
theorem Device.testFlush_of_good (ht : d.tracker.headTest e.mark = .good) :
    d.testFlush = ((d.setFlushList rest).answerFlush e .good).testFlush := by
  simp [Device.testFlush, hl, flushLoop, ht, Device.answerFlush_tracker]

theorem Device.testFlush_of_incomplete (ht : d.tracker.headTest e.mark = .incomplete) :
    d.testFlush = ((d.setFlushList rest).answerFlush e .incomplete).testFlush := by
  simp [Device.testFlush, hl, flushLoop, ht, Device.answerFlush_tracker]

/-- R57: a head whose answer counts `moved` blocks leaves the list and its port, its RESPONSE stands at the tail of an order with
room, and the new head is tested. -/
theorem Device.testFlush_of_answer {moved : Nat} (hr : (d.port e.port).outbound.length ≤ 256)
    (answers : ∀ st, (d.setFlushList rest).answerFlush e st = (d.setFlushList rest).answer e.port e.tag st moved none .none) :
    let answered (st : Status) : Device :=
      ((d.setFlushList rest).setCommand e.port e.tag none).says e.port [.response e.tag st moved none .none]
    (d.tracker.headTest e.mark = .good → d.testFlush = (answered .good).testFlush)
    ∧ (d.tracker.headTest e.mark = .incomplete → d.testFlush = (answered .incomplete).testFlush) := by
  have room : ((d.setFlushList rest).port e.port).outbound.length ≤ 256 := by rwa [Device.setFlushList_port]
  refine ⟨fun ht => ?_, fun ht => ?_⟩
  · rw [Device.testFlush_of_good hl ht, answers, Device.answer_of_room room]
  · rw [Device.testFlush_of_incomplete hl ht, answers, Device.answer_of_room room]

end

/-- The answer's row tests the flush list and closes. -/
theorem exec_flushAnswer {s : State} (hr : s.resetAsserted = false) :
    exec .flushAnswer s = .next { s with toDevice := s.testFlush.close } := by
  show execFlushAnswer s = _
  rw [execFlushAnswer, State.event_of_released hr]

/-- Settles O32: the conditions in order, then the test of the list by the outcome of its head and the command that head names. -/
theorem headOfTheFlushListIsTestedAndAnswered : Obligations.HeadOfTheFlushListIsTestedAndAnswered := by
  refine ⟨Tracker.headTest_eq, fun d => ⟨Device.testFlush_of_empty, fun e rest hl => ⟨Device.testFlush_of_waits hl, fun hr =>
    ⟨fun hc => Device.testFlush_of_answer hl hr fun st => Device.answerFlush_flush ?_ st,
      fun w hc => Device.testFlush_of_answer hl hr fun st => Device.answerFlush_write ?_ st⟩⟩⟩, fun s => exec_flushAnswer⟩
  · rwa [Device.setFlushList_port]
  · rwa [Device.setFlushList_port]

end Sys2Proof.Machine
end

section
/-!
SUPPORT and PROOF. Every step keeps the part sound: each command is one event that leaves RESET_N as it is and keeps the part sound
(`Device.Outer`, or the management port's own), and the three resets stand at sound values.
-/

namespace Sys2Proof.Machine

/-! ### Events and the soundness of the part -/

/-- An event leaves RESET_N as it is and keeps the part sound. -/
structure Device.PartEvent (d d' : Device) : Prop where
  reset : d'.resetAsserted = d.resetAsserted
  sound : d.Sound → d'.Sound

theorem Device.PartEvent.refl (d : Device) : d.PartEvent d := ⟨rfl, id⟩

theorem Device.PartEvent.trans {d₁ d₂ d₃ : Device} (h : d₁.PartEvent d₂) (k : d₂.PartEvent d₃) : d₁.PartEvent d₃ :=
  ⟨k.reset.trans h.reset, k.sound ∘ h.sound⟩

theorem Device.Outer.partEvent {d d' : Device} (h : d.Outer d') : d.PartEvent d' := ⟨h.reset, h.sound⟩

theorem Device.Outer.partEvent_close {d d' : Device} (h : d.Outer d') : d.PartEvent d'.close := (h.trans d'.outer_close).partEvent

/-- While RESET_N is released no block is held at a value of reset. -/
theorem Device.heldInReset_of_released {d : Device} (h : d.resetAsserted = false) : d.HeldInReset := fun ha => by simp [h] at ha

/-- The part is sound, and held at the values of reset while RESET_N is asserted. -/
def Device.Standing (d : Device) : Prop := d.Sound ∧ d.HeldInReset

/-- The outcome, if it is a next state, leaves the part standing. -/
def EndsStanding (o : Host.Outcome State Fault Refusal) : Prop := ∀ t : State, o = .next t → t.toDevice.Standing

theorem State.always_standing {f : Device → Device} {s : State} (h : (f s.toDevice).Standing) : EndsStanding (s.always f) := by
  rintro t ⟨⟩
  exact h

/-- A command that acts as `g` while RESET_N is asserted, and as an event of the part otherwise. -/
theorem State.eventOr_standing {g f : Device → Device} {s : State} (h : s.toDevice.Standing)
    (hg : s.resetAsserted = true → (g s.toDevice).Standing) (hf : ∀ d, Device.PartEvent d (f d)) :
    EndsStanding (s.eventOr g f) := by
  refine State.always_standing ?_
  split
  · next asserted => exact hg asserted
  · next released =>
    obtain ⟨reset, sound⟩ := hf s.toDevice
    exact ⟨sound h.1, Device.heldInReset_of_released (reset.trans (Bool.eq_false_iff.mpr released))⟩

theorem State.event_standing {f : Device → Device} {s : State} (h : s.toDevice.Standing) (hf : ∀ d, Device.PartEvent d (f d)) :
    EndsStanding (s.event f) := State.eventOr_standing (g := id) h (fun _ => h) hf

/-- A message that arrives at a port. -/
theorem State.receive_standing {s : State} (h : s.toDevice.Standing) (p : Port) (m : Inbound) :
    EndsStanding (s.event (Device.receive p m)) := State.event_standing h fun d => (d.outer_receive p m).partEvent

/-! ### The events while RESET_N is asserted -/

/-- RESET_N asserted puts the mode controller and the channel at their values of reset. -/
theorem Device.standing_resetAssert (d : Device) : d.resetAssert.Standing := ⟨d.sound_resetAssert, fun _ => ⟨rfl, rfl⟩⟩

theorem Device.standing_resetRelease {d : Device} (h : d.Standing) (straps : BitVec 2) : (d.resetRelease straps).Standing := by
  refine ⟨Device.sound_resetRelease h.1 h.2, ?_⟩
  unfold Device.resetRelease
  split
  · exact Device.heldInReset_of_released rfl
  · exact h.2

/-- A link that changes moves neither the mode controller nor the channel. -/
theorem Device.standing_linkInReset {d : Device} (h : d.Standing) (p : Port) (up : Bool) : (d.linkInReset p up).Standing :=
  ⟨Device.sound_linkInReset h.1, by simpa [Device.HeldInReset, Device.linkInReset] using h.2⟩

theorem Device.standing_onMgmt {d : Device} (h : d.Standing) (f : Mgmt → Mgmt) : (d.onMgmt f).Standing :=
  ⟨Device.sound_onMgmt h.1, h.2⟩

/-! ### The events of the management port -/

theorem Device.partEvent_onMgmt (f : Mgmt → Mgmt) (d : Device) : d.PartEvent (d.onMgmt f) := ⟨rfl, Device.sound_onMgmt⟩

theorem Device.partEvent_respond (code : Byte) (r : MgmtResult) (fields : List Byte) (d : Device) :
    d.PartEvent (d.respond code r fields) := d.partEvent_onMgmt _

theorem Device.partEvent_execute {code : Byte} {act : List Byte → Device → Device} {d : Device}
    (h : ∀ params, d.PartEvent (act params d)) : d.PartEvent (d.execute code act) := by
  unfold Device.execute
  split
  · split
    · exact h _
    · exact .refl d
  · exact .refl d

theorem Device.partEvent_badRequest (d : Device) : d.PartEvent d.badRequest := by
  unfold Device.badRequest
  split
  · split
    · exact d.partEvent_respond _ _ _
    · split
      · exact .refl d
      · exact d.partEvent_respond _ _ _
  · exact .refl d

/-- A request that sets what its parameter says where it is in range, and answers (R176, R180). -/
theorem Device.partEvent_setting {inRange : Prop} [Decidable inRange] {code : Byte} {assign : Mgmt → Mgmt}
    {fields : Device → List Byte} {d : Device} : d.PartEvent (if inRange then
      (d.onMgmt assign).respond code .ok (fields (d.onMgmt assign)) else d.respond code .badParameter []) := by
  split
  · exact (d.partEvent_onMgmt _).trans (Device.partEvent_respond _ _ _ _)
  · exact d.partEvent_respond _ _ _

theorem Device.partEvent_detachPort (which : Nat) (d : Device) : d.PartEvent (d.detachPort which) := by
  have port (p : Port) : d.PartEvent (d.detach p).close :=
    (Device.PartEvent.mk (d.reset_detach p) Device.sound_detach).trans (Device.outer_close _).partEvent
  unfold Device.detachPort
  split
  · exact port .a
  · exact port .b
  · exact d.partEvent_respond _ _ _

theorem Device.partEvent_discardHeld (d : Device) : d.PartEvent d.discardHeld :=
  (d.partEvent_respond _ _ _).trans (Device.outer_discardHeldFrames _).partEvent_close

theorem Device.partEvent_takeSoftRestart (d : Device) : d.PartEvent d.takeSoftRestart :=
  (d.partEvent_respond _ _ _).trans (Device.outer_softRestart _).partEvent_close

/-! ### The part's own steps -/

theorem Device.outer_writeCreditGrant (p : Port) (d : Device) : d.Outer ((d.settle.grantCredits p).grantCredits p.other) :=
  (d.outer_settle.trans (Device.inner_grantCredits p _).outer).trans (Device.inner_grantCredits p.other _).outer

theorem Device.outer_slotArbiterRun (d : Device) : d.Outer d.runArbiter.close.drainTest :=
  (d.inner_runArbiter.outer.trans (Device.outer_close _)).trans (Device.outer_drainTest _)

theorem Device.partEvent_leaseTick (d : Device) : d.PartEvent (if d.reservations.clockRunning then d.leaseTick.close else d) := by
  split
  · exact d.inner_leaseTick.outer.partEvent_close
  · exact .refl d

/-! ### Every command -/

theorem exec_standing (c : Instr) {s : State} (h : s.toDevice.Standing) : EndsStanding (exec c s) := by
  cases c with
  | powerOn straps a b =>
    exact State.always_standing ⟨Device.sound_powerOn straps a b _, Device.heldInReset_of_released rfl⟩
  | resetNAssert => exact State.always_standing (Device.standing_resetAssert _)
  | resetNRelease straps => exact State.always_standing (Device.standing_resetRelease h straps)
  | linkUp p =>
    exact State.eventOr_standing h (fun _ => Device.standing_linkInReset h p true) fun d => (d.outer_linkCameUp p).partEvent
  | linkDown p =>
    show EndsStanding (execLinkDown p s)
    exact State.eventOr_standing h (fun _ => Device.standing_linkInReset h p false) fun d => (d.outer_linkLoss p).partEvent_close
  | messageCheckFailure p | unknownMessageKind p | commandUnknownOpcode p | hello p | inboundBye p | read p | write p | flush p
  | reserve p | renew p | release p | query p | inboundData p | inboundCredit p | cancel p => exact State.receive_standing h p _
  | heldHelloRelease => exact State.event_standing h fun d => d.outer_releaseHellos.partEvent
  | outboundMessageSent p => exact State.event_standing h fun d => (d.outer_messageSent p).partEvent
  | frameHandOut f => exact State.event_standing h fun d => (d.outer_offerFrame f).partEvent
  | writeCreditGrant p => exact State.event_standing h fun d => (d.outer_writeCreditGrant p).partEvent
  | dataFormed p =>
    show EndsStanding (execDataFormed p s)
    exact State.event_standing h fun d => (inner_engineLoop _ p d).outer.partEvent_close
  | mediaReadCompletion slot issue code body | mediaWriteCompletion slot issue code body | identifyCompletion slot issue code body
  | resetCompletion slot issue code body => exact State.event_standing h fun d => (d.outer_completion slot issue code body).partEvent
  | slotArbiterRun =>
    show EndsStanding (execSlotArbiterRun s)
    exact State.event_standing h fun d => d.outer_slotArbiterRun.partEvent
  | mediaTimeout i => exact State.event_standing h fun d => (d.outer_timeout i).partEvent
  | reissueTimeout i => exact State.event_standing h fun d => (d.outer_reissueTimeout i).partEvent
  | resetTimeout | identifyTimeout => exact State.event_standing h fun d => (d.outer_controlTimeout _).partEvent
  | recoveryResetPlaced => exact State.event_standing h fun d => d.inner_placeReset.outer.partEvent
  | persistBegin =>
    show EndsStanding (execPersistBegin s)
    exact State.event_standing h fun d => d.inner_beginPersist.outer.partEvent_close
  | flushAnswer =>
    show EndsStanding (execFlushAnswer s)
    exact State.event_standing h fun d => d.inner_testFlush.outer.partEvent_close
  | leaseTick =>
    show EndsStanding (execLeaseTick s)
    exact State.event_standing h Device.partEvent_leaseTick
  | leaseLapse id =>
    show EndsStanding (execLeaseLapse id s)
    exact State.event_standing h fun d => (d.inner_lapseEntry id).outer.partEvent_close
  | reservationGrant p =>
    show EndsStanding (execReservationGrant p s)
    exact State.event_standing h fun d => (d.inner_testPending p).outer.partEvent_close
  | i2cWriteTransaction address bytes | i2cReadTransaction address length =>
    exact State.eventOr_standing h (fun _ => Device.standing_onMgmt h _) (Device.partEvent_onMgmt _)
  | managementBadRequest => exact State.event_standing h Device.partEvent_badRequest
  | readStatus => exact State.event_standing h fun d => d.partEvent_execute fun _ => d.partEvent_respond _ _ _
  | readConditions =>
    exact State.event_standing h fun d => d.partEvent_execute fun _ =>
      (d.partEvent_respond _ _ _).trans (Device.partEvent_onMgmt _ _)
  | maskConditions =>
    exact State.event_standing h fun d => d.partEvent_execute fun _ =>
      Device.partEvent_setting (fields := fun d => conditionFields d.mgmt.flags d.mgmt.masks)
  | readRemapEntry => exact State.event_standing h fun d => d.partEvent_execute fun _ => d.partEvent_respond _ _ _
  | detachPort => exact State.event_standing h fun d => d.partEvent_execute fun _ => d.partEvent_detachPort _
  | setLeaseTick | setWatermark =>
    exact State.event_standing h fun d => d.partEvent_execute fun _ => Device.partEvent_setting (fields := fun _ => beBytes 2 _)
  | discardHeld => exact State.event_standing h fun d => d.partEvent_execute fun _ => d.partEvent_discardHeld
  | softRestart => exact State.event_standing h fun d => d.partEvent_execute fun _ => d.partEvent_takeSoftRestart
  | drainComplete => exact State.event_standing h fun d => d.outer_drainTest.partEvent

/-- Settles O4: with no command waiting the state stays; otherwise the front command is one event that keeps the part sound, or one of
the three resets, which stand at sound values. -/
theorem stepKeepsThePartSound : Obligations.StepKeepsThePartSound := by
  intro s t h hr hst
  cases hp : s.pending with
  | nil =>
    obtain rfl : s = t := by simpa [step, hp] using hst
    exact ⟨h, hr⟩
  | cons c rest => exact exec_standing c (s := { s with pending := rest }) ⟨h, hr⟩ t (by simpa [step, hp] using hst)

end Sys2Proof.Machine
end

section
/-!
SUPPORT and PROOF. What the closing of an event does (R70, R127, R130, R147): nothing where nothing is due, nothing to the mode, the
channel's state, the masks, the settings and the ports at rest, and the link DOWN where an order overflowed.
-/

namespace Sys2Proof.Machine

/-- A management port that changed by flags raised alone has its masks, its settings and its mailbox. -/
theorem Mgmt.GrowsTo.settings {m m' : Mgmt} (h : m.GrowsTo m') :
    m'.masks = m.masks ∧ m'.tickMs = m.tickMs ∧ m'.watermark = m.watermark ∧ m'.mailbox = m.mailbox := by
  obtain ⟨flags, rfl⟩ := h
  exact ⟨rfl, rfl, rfl, rfl⟩

theorem PortUnit.atRest_of {u : PortUnit} (ha : u.session ≠ .attached) (hi : u.Idle) (hl : u.outbound.length ≤ 256) : u.AtRest :=
  ⟨ha, hi, decide_eq_false (Nat.not_lt.mpr hl)⟩

/-- A message queued while 256 stand overflows the order (R127). -/
theorem PortUnit.overflowed_enqueue {u : PortUnit} (h : 256 ≤ u.outbound.length) (m : OutMsg) : (u.enqueue m).overflowed = true := by
  refine decide_eq_true ?_
  unfold PortUnit.enqueue
  split
  · next room => simpa using Nat.lt_succ_of_le h
  · next full => exact Nat.not_le.mp full

theorem PortUnit.session_enqueue (m : OutMsg) (u : PortUnit) : (u.enqueue m).session = u.session := by rw [PortUnit.enqueue_fields]

theorem PortUnit.idle_enqueue {u : PortUnit} (h : u.Idle) (m : OutMsg) : (u.enqueue m).Idle := by
  rw [PortUnit.enqueue_fields]
  exact h

/-- A port in session, or idle outside one, falls by a message queued while 256 stand. -/
theorem PortUnit.falls_enqueue {u : PortUnit} (h : 256 ≤ u.outbound.length)
    (hs : u.session = .attached ∨ (u.session ≠ .down ∧ u.Idle)) (m : OutMsg) : (u.enqueue m).Falls := by
  refine ⟨PortUnit.overflowed_enqueue h m, ?_⟩
  rw [PortUnit.session_enqueue]
  exact hs.imp_right fun ⟨up, idle⟩ => ⟨up, PortUnit.idle_enqueue idle m⟩

/-- Settles O9: a settled part is closed as it stands; the closing keeps the rest of the part and the ports at rest; a port whose order
overflowed falls. -/
theorem closingDoesWhatIsDueAndNothingElse : Obligations.ClosingDoesWhatIsDueAndNothingElse := by
  refine ⟨fun d => Device.close_of_settled, fun d => ?_, fun d p m full speaks => ?_⟩
  · have rest := d.rest_close
    obtain ⟨masks, tickMs, watermark, mailbox⟩ := rest.mgmt.settings
    refine ⟨rest.mode, rest.channelState, rest.capacity, rest.reset, masks, tickMs, watermark, mailbox, fun p ha hi hl => ?_⟩
    have keeps := Device.keeps_close (PortUnit.atRest_of ha hi hl)
    exact ⟨keeps.session, keeps.outbound hi.1 ha, keeps.idle hi⟩
  · have port : (d.send p m).port p = (d.port p).enqueue m := d.onPort_port_same p _
    have falls : ((d.send p m).port p).Falls := port ▸ PortUnit.falls_enqueue full speaks m
    obtain ⟨⟨down, linkUp, outbound, idle⟩, raises⟩ := Device.falls_close falls
    refine ⟨down, linkUp, outbound, idle, fun ha => raises ?_⟩
    rw [port, PortUnit.session_enqueue, ha]

end Sys2Proof.Machine
end

section
/-!
SUPPORT and PROOF. The completions of the media channel that serve no frame: the stale one (R65, R79), the IDENTIFY of start-up
(R74), the RESET of a recovery (R77, R78).
-/

namespace Sys2Proof.Machine

/-! ### Stale completions (R65, R79) -/

/-- A completion is stale where its slot is empty or has another issue count. -/
theorem Channel.completes_of_stale {slot issue : Byte} {c : Channel}
    (h : ∀ i : SlotNo, slot.toNat = i.val → c.slots[i] = none ∨ c.issueCounts[i] ≠ issue) : c.completes slot issue = none := by
  unfold Channel.completes
  split
  · next named =>
    dsimp only
    split
    · next op hop =>
      rcases h ⟨slot.toNat, named⟩ rfl with empty | other
      · exact absurd (hop.symm.trans empty) (by simp)
      · exact if_neg other
    · rfl
  · rfl

/-- In LOST every slot of a sound channel is empty (R78, R79). -/
theorem Channel.Sound.slots_of_lost {c : Channel} (h : c.Sound) (lost : c.state = .lost) (i : SlotNo) : c.slots[i] = none := by
  obtain ⟨-, -, inSlot, -⟩ := h
  cases hop : c.slots[i] with
  | none => rfl
  | some op => exact ((inSlot i op hop).1 lost).elim

theorem State.event_staleCompletion {s : State} {slot issue : Byte} (hr : s.resetAsserted = false)
    (h : s.channel.completes slot issue = none) (outcome : Byte) (body : List Byte) :
    s.event (Device.completion slot issue outcome body) = .next s := by
  rw [State.event_of_released hr, Device.completion, h]

/-- Settles O34: the four rows are one bus transfer, and a stale one is taken for no operation. -/
theorem staleCompletionChangesNothing : Obligations.StaleCompletionChangesNothing := by
  intro s slot issue outcome body hr stale
  have none_completes : s.channel.completes slot issue = none := Channel.completes_of_stale fun i hi =>
    stale.elim (· i hi) fun ⟨sound, lost⟩ => .inl (sound.slots_of_lost lost i)
  have event := State.event_staleCompletion hr none_completes outcome body
  exact ⟨event, event, event, event⟩

/-! ### The end of an IDENTIFY (R74, R183) -/

/-- P as the first five bytes of a body give it (R183). -/
def identifiedCapacity (body : List Byte) : Nat := (body.getD 0 0).toNat % 2 * 2 ^ 32 + beValue (field body 1 4)

theorem identifyOutcome_some {body : List Byte} (hl : 5 ≤ body.length) (hc : identifiedCapacity body ≤ 2 ^ 32) :
    identifyOutcome 0 body = some (identifiedCapacity body) := by
  unfold identifyOutcome
  rw [if_pos ⟨rfl, hl⟩]
  exact if_pos hc

theorem identifyOutcome_none {code : Byte} {body : List Byte} (h : code ≠ 0 ∨ body.length < 5 ∨ 2 ^ 32 < identifiedCapacity body) :
    identifyOutcome code body = none := by
  unfold identifyOutcome
  split
  · next done =>
    obtain ⟨code, long⟩ := done
    refine if_neg (Nat.not_le.mpr ?_)
    exact (h.resolve_left (not_not.mpr code)).resolve_left (Nat.not_lt.mpr long)
  · rfl

section
variable {s : State} {i : SlotNo} {slot issue : Byte} {op : Operation} (hr : s.resetAsserted = false) (hi : slot.toNat = i.val)
  (hop : s.channel.slots[i] = some op) (hn : s.channel.issueCounts[i] = issue)
include hr hi hop hn

/-- R71, R74: the completion of an IDENTIFY empties its slot, and then P is judged. -/
theorem State.event_identifyCompletion (hw : op.work = .identify) (outcome : Byte) (body : List Byte) :
    s.event (Device.completion slot issue outcome body) = .next { s with toDevice :=
      ((s.onChannel (Channel.emptySlot i)).identified (identifyOutcome outcome body)).closeMedia } := by
  rw [State.event_completion hr hi hop hn, Device.applyCompletion, hw]

/-- R71, R77: the completion of a RESET empties its slot, and then the recovery ends. -/
theorem State.event_resetCompletion (hw : op.work = .reset) (outcome : Byte) (body : List Byte) :
    s.event (Device.completion slot issue outcome body) = .next { s with toDevice :=
      ((s.onChannel (Channel.emptySlot i)).resetDone (doneCode outcome)).closeMedia } := by
  rw [State.event_completion hr hi hop hn, Device.applyCompletion, hw]

end

section
variable {cap : Nat} {d : Device} (hm : d.mode.mode = .starting) (hs : d.mode.step = .identifying)
include hm hs

/-- R74, R99: P in range is recorded, the channel runs, and a load begins. -/
theorem Device.identified_of_inRange (hc : 4368 ≤ cap) : d.identified (some cap) =
    ({ d.onChannel (fun c => { c with capacity := some cap, state := .running }) with
        mode := { d.mode with step := .loading } } : Device).beginLoad := by
  simp [Device.identified, hc, hm, hs]

/-- R74, R161: P too small is a fault of the capacity. -/
theorem Device.identified_of_tooSmall (hc : cap < 4368) : d.identified (some cap) = (d.raise .mediaFault).enterFaulted .capacity := by
  simp [Device.identified, Device.capacityOutOfRange, Nat.not_le.mpr hc, hm, hs]

end

/-- Settles O37: P is judged once the slot is empty; the ten reads of the load are those of the two copies. -/
theorem identifyCompletionRecordsTheCapacity : Obligations.IdentifyCompletionRecordsTheCapacity := by
  intro s i slot issue outcome body op hr hi hop hn hw hm hs
  have event := State.event_identifyCompletion hr hi hop hn hw outcome body
  refine ⟨fun done long least most => event.trans ?_, fun done long small => event.trans ?_, fun failed => event.trans ?_⟩
  · subst done
    rw [identifyOutcome_some long most,
      Device.identified_of_inRange (d := s.onChannel (Channel.emptySlot i)) (cap := identifiedCapacity body) hm hs least]
    rfl
  · subst done
    rw [identifyOutcome_some long (small.le.trans (by decide)),
      Device.identified_of_tooSmall (d := s.onChannel (Channel.emptySlot i)) (cap := identifiedCapacity body) hm hs small]
  · rw [identifyOutcome_none failed]
    rfl

/-! ### The end of a recovery (R77, R78) -/

/-- A READ or a WRITE reissued: its reissue flag set, a fresh timer (R77). -/
def Operation.reissued (op : Operation) : Operation := { work := op.work, phys := op.phys, timerMs := 2000, reissue := true }

theorem Operation.fresh_of_transfer {op : Operation} (h : op.isTransfer = true) :
    Operation.fresh op.work op.phys true = op.reissued := by
  unfold Operation.fresh Operation.reissued
  split
  · next reset => simp [Operation.isTransfer, reset, Work.kind] at h
  · rfl

/-- The first slots taken, and no other. -/
def Channel.TakenBelow (k : Nat) (c : Channel) : Prop := ∀ i : SlotNo, c.slots[i] = none ↔ k ≤ i.val

/-- A reissue goes into the first slot that is not taken (R77). -/
theorem Channel.reissue_of_takenBelow {k : SlotNo} {op : Operation} {c : Channel} (h : c.TakenBelow k) (ht : op.isTransfer = true) :
    c.reissue op = c.place k op.reissued := by
  have lowest : c.lowestEmpty = some k :=
    Channel.lowestEmpty_iff.mpr ⟨(h k).mpr le_rfl, fun j hj empty => Nat.not_le.mpr hj ((h j).mp empty)⟩
  rw [Channel.reissue, lowest, Operation.fresh_of_transfer ht]

/-- The channel with its slots and their issue counts as given. -/
def Channel.withSlots (slots : SlotNo → Option Operation) (counts : SlotNo → BitVec 8) (c : Channel) : Channel :=
  { c with slots := Vector.ofFn slots, issueCounts := Vector.ofFn counts }

theorem Channel.eq_withSlots {c : Channel} {slots : SlotNo → Option Operation} {counts : SlotNo → BitVec 8}
    (hs : ∀ i : SlotNo, c.slots[i] = slots i) (hc : ∀ i : SlotNo, c.issueCounts[i] = counts i) : c = c.withSlots slots counts := by
  have allSlots : c.slots = Vector.ofFn slots := Vector.ext fun i hi => by simpa using hs ⟨i, hi⟩
  have allCounts : c.issueCounts = Vector.ofFn counts := Vector.ext fun i hi => by simpa using hc ⟨i, hi⟩
  rw [Channel.withSlots, ← allSlots, ← allCounts]

/-- A placing moves the slots and their issue counts alone. -/
theorem Channel.place_withSlots (k : SlotNo) (op : Operation) (slots : SlotNo → Option Operation) (counts : SlotNo → BitVec 8)
    (c : Channel) : (c.place k op).withSlots slots counts = c.withSlots slots counts := rfl

theorem Channel.place_slot (k : SlotNo) (op : Operation) (c : Channel) (i : SlotNo) :
    (c.place k op).slots[i] = if i = k then some op else c.slots[i] := by
  simp [Channel.place, Vector.getElem_set, Fin.ext_iff, eq_comm]

theorem Channel.place_issueCount (k : SlotNo) (op : Operation) (c : Channel) (i : SlotNo) :
    (c.place k op).issueCounts[i] = if i = k then c.issueCounts[i] + 1 else c.issueCounts[i] := by
  by_cases same : i = k
  · subst same
    simp [Channel.place]
  · have apart : (k : Nat) ≠ i := fun e => same (Fin.ext e.symm)
    simp [Channel.place, apart, same]

theorem Channel.TakenBelow.place {k : SlotNo} {c : Channel} (h : c.TakenBelow k) (op : Operation) :
    (c.place k op).TakenBelow (k + 1) := by
  intro i
  rw [Channel.place_slot]
  split
  · next same => simp [same]
  · next other =>
    rw [h i, Nat.succ_le_iff, lt_iff_le_and_ne]
    exact (and_iff_left fun e => other (Fin.ext e.symm)).symm

/-- R77 step 2: the retry set goes in its order into the slots behind those taken. -/
theorem Channel.reissue_foldl {l : List Operation} {k : Nat} {c : Channel} (h : c.TakenBelow k) (hl : k + l.length ≤ 4)
    (ht : ∀ op ∈ l, op.isTransfer = true) : l.foldl Channel.reissue c = c.withSlots
      (fun i => if i.val < k then c.slots[i] else l[i.val - k]?.map Operation.reissued)
      (fun i => if k ≤ i.val ∧ i.val < k + l.length then c.issueCounts[i] + 1 else c.issueCounts[i]) := by
  induction l generalizing k c with
  | nil =>
    refine Channel.eq_withSlots (fun i => ?_) fun i => (if_neg fun ⟨least, most⟩ => Nat.not_lt.mpr least most).symm
    split
    · rfl
    · next free => exact (h i).mpr (Nat.not_lt.mp free)
  | cons op l ih =>
    rw [List.length_cons] at hl
    let slot : SlotNo := ⟨k, by omega⟩
    rw [List.foldl_cons, Channel.reissue_of_takenBelow (k := slot) h (ht op (by simp)),
      ih (k := k + 1) (h.place (k := slot) _) (by omega) fun o ho => ht o (List.mem_cons_of_mem _ ho), Channel.place_withSlots]
    refine congrArg₂ (fun slots counts => c.withSlots slots counts) (funext fun i => ?_) (funext fun i => ?_)
    · rw [Channel.place_slot]
      obtain before | same | after := lt_trichotomy i.val k
      · have other : i ≠ slot := Fin.ne_of_lt before
        simp [before, before.trans (Nat.lt_succ_self k), other]
      · obtain rfl : i = slot := Fin.ext same
        simp [slot]
      · have behind : i.val - k = i.val - (k + 1) + 1 := by omega
        rw [if_neg (by omega), if_neg (by omega), behind, List.getElem?_cons_succ]
    · rw [Channel.place_issueCount]
      obtain before | same | after := lt_trichotomy i.val k
      · have other : i ≠ slot := Fin.ne_of_lt before
        simp [other, Nat.not_le.mpr before, Nat.not_le.mpr (before.trans (Nat.lt_succ_self k))]
      · obtain rfl : i = slot := Fin.ext same
        simp [slot]
      · have other : i ≠ slot := Fin.ne_of_gt after
        simp [other, after.le, Nat.succ_le_of_lt after, Nat.add_assoc, Nat.add_comm 1]

/-- R77: with every slot empty the DONE of a RESET reissues the retry set from slot 0 on, and the channel runs again. -/
theorem Device.resetDone_of_empty {d : Device} (he : ∀ i : SlotNo, d.channel.slots[i] = none) (hl : d.channel.retrySet.length ≤ 4)
    (ht : ∀ op ∈ d.channel.retrySet, op.isTransfer = true) : d.resetDone true = d.onChannel fun c =>
      { c.withSlots (fun i => c.retrySet[i.val]?.map Operation.reissued)
          (fun i => if i.val < c.retrySet.length then c.issueCounts[i] + 1 else c.issueCounts[i]) with
        retrySet := [], state := .running } := by
  have none_taken : ({ d.channel with retrySet := [] } : Channel).TakenBelow 0 := fun i => by simp [he i]
  rw [Device.resetDone, if_pos rfl]
  refine Device.onChannel_congr ?_
  rw [Channel.reissue_foldl none_taken (by omega) ht]
  simp [Channel.withSlots]

/-- Settles O38: the retry set is reissued once slot 0 is empty, and no other slot holds an operation. -/
theorem resetCompletionEndsTheRecovery : Obligations.ResetCompletionEndsTheRecovery := by
  intro s slot issue outcome body op hr hz hslots hn hw hl ht
  have hop : s.channel.slots[(0 : SlotNo)] = some op := by simp [hslots]
  have event := State.event_resetCompletion hr hz hop hn hw outcome body
  refine ⟨fun done => event.trans ?_, fun failed => event.trans ?_⟩
  · have empty (i : SlotNo) : (s.channel.emptySlot 0).slots[i] = none := by
      simp [Channel.emptySlot, hslots]
    rw [doneCode_iff.mpr done, Device.resetDone_of_empty (d := s.onChannel (Channel.emptySlot 0)) empty hl ht]
    rfl
  · rw [Bool.eq_false_iff.mpr (mt doneCode_iff.mp failed)]
    rfl

end Sys2Proof.Machine
end

section
/-!
SUPPORT and PROOF. The timeouts of the media channel: the first of a READ or a WRITE begins or lengthens a recovery (R75, R76), and one
of a reissued operation, of the RESET or of the IDENTIFY loses the medium (R74, R78, R163).
-/

namespace Sys2Proof.Machine

/-! ### The recovery's RESET (R76) -/

theorem Channel.allEmpty_iff {c : Channel} : c.allEmpty = true ↔ ∀ i : SlotNo, c.slots[i] = none := by
  simp only [Channel.allEmpty, List.all_eq_true, Vector.mem_toList_iff, Vector.mem_iff_getElem, Option.isNone_iff_eq_none]
  exact ⟨fun all i => all _ ⟨i.val, i.isLt, rfl⟩, fun all _ ⟨i, hi, e⟩ => e ▸ all ⟨i, hi⟩⟩

theorem Channel.slots_of_empty {c : Channel} (h : ∀ i : SlotNo, c.slots[i] = none) : c.slots = Vector.replicate 4 none :=
  Vector.ext fun i hi => by simpa using h ⟨i, hi⟩

/-- A channel with a RESET placed in slot 0, and no other operation in a slot. -/
def Channel.resetPlaced (c : Channel) : Channel :=
  { c with slots := (Vector.replicate 4 none).set 0 (some { work := .reset, phys := none, timerMs := 5000, reissue := false }),
           issueCounts := c.issueCounts.set 0 (c.issueCounts[(0 : SlotNo)] + 1) }

theorem Device.placeReset_of_empty {d : Device} (hr : d.channel.state = .recovering) (he : ∀ i : SlotNo, d.channel.slots[i] = none) :
    d.placeReset = d.onChannel Channel.resetPlaced := by
  rw [Device.placeReset, if_pos ⟨hr, Channel.allEmpty_iff.mpr he⟩]
  refine Device.onChannel_congr ?_
  rw [Channel.place, Channel.slots_of_empty he]
  rfl

theorem Device.placeReset_of_not {d : Device} (h : d.channel.state ≠ .recovering ∨ ∃ i : SlotNo, d.channel.slots[i] ≠ none) :
    d.placeReset = d :=
  if_neg fun ⟨hr, he⟩ => h.elim (· hr) fun ⟨i, taken⟩ => taken (Channel.allEmpty_iff.mp he i)

/-! ### The first timeout of a READ or a WRITE (R75) -/

/-- The channel recovers, with the operation of a slot at the tail of the retry set. -/
def Channel.retried (i : SlotNo) (op : Operation) (c : Channel) : Channel :=
  { c with slots := c.slots.set i.val none i.isLt, retrySet := c.retrySet ++ [op], state := .recovering }

theorem Channel.retried_slot_same (i : SlotNo) (op : Operation) (c : Channel) : (c.retried i op).slots[i] = none := by
  simp [Channel.retried]

theorem Channel.retried_slot_other {i j : SlotNo} (h : j ≠ i) (op : Operation) (c : Channel) :
    (c.retried i op).slots[j] = c.slots[j] := by
  have apart : (i : Nat) ≠ j := fun e => h (Fin.ext e.symm)
  simp [Channel.retried, apart]

section
variable {i : SlotNo} {op : Operation} {d : Device} (hop : d.channel.slots[i] = some op)
include hop

/-- R75: a first timeout leaves the channel recovering, with the operation in the retry set. -/
theorem Device.timeout_of_transfer (ht : op.isTransfer = true) (hf : op.reissue = false)
    (hs : d.channel.state = .running ∨ d.channel.state = .recovering) :
    d.timeout i = (d.onChannel (Channel.retried i op)).closeMedia := by
  have recovers : (if d.channel.state = .running then ChannelState.recovering else d.channel.state) = .recovering := by
    obtain running | recovering := hs
    · exact if_pos running
    · rw [recovering]
      rfl
  rw [Device.timeout, hop]
  simp only [ht, hf, Bool.not_false, Bool.and_self, if_true]
  refine congrArg Device.closeMedia (Device.onChannel_congr ?_)
  rw [recovers]
  rfl

/-- R78: a timeout of a reissued operation loses the medium. -/
theorem Device.reissueTimeout_of_reissued (hf : op.reissue = true) : d.reissueTimeout i = d.mediumLost.close := by
  rw [Device.reissueTimeout, hop]
  exact if_pos hf

end

/-- R74, R78: so does a timeout of the RESET or of the IDENTIFY in slot 0. -/
theorem Device.controlTimeout_of_kind {op : Operation} {d : Device} (hop : d.channel.slots[(0 : SlotNo)] = some op) :
    d.controlTimeout op.work.kind = d.mediumLost.close := by
  rw [Device.controlTimeout, hop]
  exact if_pos rfl

/-! ### The loss of the medium (R78, R163) -/

/-- The mode controller in FAULTED with a cause: where it was there already only the cause is new (R163). -/
def ModeCtl.faultedBy (cause : FaultCause) (m : ModeCtl) : ModeCtl :=
  if m.mode = .faulted then { m with cause := some cause }
  else { mode := .faulted, step := .none, restart := false, cause := some cause }

theorem ModeCtl.faultedBy_of_faulted {m : ModeCtl} (h : m.mode = .faulted) (cause : FaultCause) :
    m.faultedBy cause = { m with cause := some cause } := if_pos h

theorem ModeCtl.faultedBy_of_other {m : ModeCtl} (h : m.mode ≠ .faulted) (cause : FaultCause) :
    m.faultedBy cause = { mode := .faulted, step := .none, restart := false, cause := some cause } := if_neg h

theorem ModeCtl.faultedBy_mode (cause : FaultCause) (m : ModeCtl) : (m.faultedBy cause).mode = .faulted := by
  unfold ModeCtl.faultedBy
  split
  · assumption
  · rfl

theorem ModeCtl.faultedBy_cause (cause : FaultCause) (m : ModeCtl) : (m.faultedBy cause).cause = some cause := by
  unfold ModeCtl.faultedBy
  split <;> rfl

/-- The entry to FAULTED moves the mode controller so, and of the rest what the answers or the opening of sessions may move. -/
theorem Device.rest_enterFaulted (cause : FaultCause) (d : Device) :
    Device.Rest { d with mode := d.mode.faultedBy cause } (d.enterFaulted cause) := by
  unfold Device.enterFaulted
  split
  · next serving =>
    rw [ModeCtl.faultedBy_of_other (by simp [serving])]
    exact ((Device.inner_faultAnswers _).trans (Device.inner_notifyBoth .mediaFault _)).rest
  · next faulted =>
    rw [ModeCtl.faultedBy_of_faulted faulted]
    exact .refl _
  · next starting =>
    rw [ModeCtl.faultedBy_of_other (by simp [starting])]
    exact Device.rest_openSessions _ _
  · next draining =>
    rw [ModeCtl.faultedBy_of_other (by simp [draining])]
    exact Device.rest_openSessions _ _

/-- The channel is LOST, MEDIA_FAULT is raised, and the device is FAULTED with cause MEDIUM. -/
structure Device.LosesMedium (d t : Device) : Prop where
  lost : t.channel.state = .lost
  raised : t.mgmt.raised .mediaFault = true
  mode : t.mode = d.mode.faultedBy .medium

/-- R78, R163: so the loss of the medium leaves the part, and so its closing. -/
theorem Device.losesMedium_close (d : Device) : d.LosesMedium d.mediumLost.close := by
  have rest := (Device.rest_enterFaulted .medium _).trans (Device.rest_close d.mediumLost)
  exact ⟨rest.channelState, rest.mgmt.raised (Mgmt.raised_raise _ _), rest.mode⟩

/-- Settles O40: a first timeout leaves the recovery's RESET due exactly where no other slot holds an operation; the other expiries
lose the medium. -/
theorem timeoutsEnterTheRecoveryOrLoseTheMedium : Obligations.TimeoutsEnterTheRecoveryOrLoseTheMedium := by
  refine ⟨fun s hr => ⟨fun i op hop ht hf hs => ?_, fun hrec hempty => ?_, fun hn => ?_⟩, fun s c hr hc => ?_⟩
  · have event : exec (.mediaTimeout i) s = .next { s with toDevice := (s.onChannel (Channel.retried i op)).closeMedia } := by
      rw [← Device.timeout_of_transfer hop ht hf hs]
      exact State.event_of_released hr
    refine ⟨fun ⟨j, other, taken⟩ => event.trans ?_, fun alone => event.trans ?_⟩
    · have stays : (s.onChannel (Channel.retried i op)).placeReset = s.onChannel (Channel.retried i op) :=
        Device.placeReset_of_not (.inr ⟨j, (Channel.retried_slot_other other op _).trans_ne taken⟩)
      rw [Device.closeMedia, stays]
      rfl
    · have empty (j : SlotNo) : (s.channel.retried i op).slots[j] = none := by
        by_cases same : j = i
        · exact same ▸ Channel.retried_slot_same j op _
        · exact (Channel.retried_slot_other same op _).trans (alone j same)
      rw [Device.closeMedia, Device.placeReset_of_empty (d := s.onChannel (Channel.retried i op)) rfl empty]
      rfl
  · have empty (j : SlotNo) : s.channel.slots[j] = none := by simp [hempty]
    refine (State.event_of_released hr).trans ?_
    rw [Device.placeReset_of_empty hrec empty]
    rfl
  · refine (State.event_of_released hr).trans ?_
    rw [Device.placeReset_of_not hn]
  · have event : exec c s = .next { s with toDevice := s.toDevice.mediumLost.close } := by
      obtain ⟨i, op, rfl, hop, hf⟩ | ⟨op, rfl, hop, hw⟩ | ⟨op, rfl, hop, hw⟩ := hc
      · rw [← Device.reissueTimeout_of_reissued hop hf]
        exact State.event_of_released hr
      · rw [← Device.controlTimeout_of_kind hop, hw]
        exact State.event_of_released hr
      · rw [← Device.controlTimeout_of_kind hop, hw]
        exact State.event_of_released hr
    obtain ⟨lost, raised, mode⟩ := s.toDevice.losesMedium_close
    refine ⟨_, event, lost, raised, ?_, ?_, fun other => ?_⟩
    · exact (congrArg ModeCtl.mode mode).trans (ModeCtl.faultedBy_mode _ _)
    · exact (congrArg ModeCtl.cause mode).trans (ModeCtl.faultedBy_cause _ _)
    · have fresh : s.toDevice.mediumLost.close.mode = _ := mode.trans (ModeCtl.faultedBy_of_other other _)
      exact ⟨congrArg ModeCtl.step fresh, congrArg ModeCtl.restart fresh⟩

end Sys2Proof.Machine
end

section
/-!
SUPPORT and PROOF. The load of the remap table: a completed table read (R99), the choice of a copy at the tenth (R100, R101), the
format of two blank copies (R102).
-/

namespace Sys2Proof.Machine

/-! ### A table read (R99) -/

/-- R65, R183: a READ returns bytes with code 0 or 1 and a body long enough. -/
theorem readOutcome_data (code : Byte) (body : List Byte) :
    (readOutcome code body).data = if code.toNat ≤ 1 ∧ 512 ≤ body.length then some (blockOfList body) else none := by
  by_cases h : code.toNat ≤ 1 ∧ 512 ≤ body.length
  · rw [if_pos h]
    obtain ⟨low, long⟩ := h
    obtain good | corrected := Nat.le_one_iff_eq_zero_or_eq_one.mp low
    · obtain rfl : code = 0 := BitVec.eq_of_toNat_eq good
      rw [readOutcome_good long]
      rfl
    · obtain rfl : code = 1 := BitVec.eq_of_toNat_eq corrected
      rw [readOutcome_corrected long]
      rfl
  · have failed : 1 < code.toNat ∨ body.length < 512 := by omega
    rw [if_neg h, readOutcome_failed failed]
    rfl

/-- R71: the completion of a table read is kept by the remap unit, and empties its slot. -/
theorem State.event_tableReadCompletion {s : State} {i : SlotNo} {slot issue : Byte} {op : Operation} (hr : s.resetAsserted = false)
    (hi : slot.toNat = i.val) (hop : s.channel.slots[i] = some op) (hn : s.channel.issueCounts[i] = issue) (hw : op.work = .tableRead)
    {phys : Nat} (hp : op.phys = some phys) (outcome : Byte) (body : List Byte) :
    s.event (Device.completion slot issue outcome body) = .next { s with toDevice :=
      ((s.toDevice.tableReadDone phys (readOutcome outcome body)).onChannel (Channel.emptySlot i)).closeMedia } := by
  rw [State.event_completion hr hi hop hn, Device.applyCompletion, hw, hp]
  rfl

/-- R99: a load keeps a read against its block, behind those before it. -/
theorem Device.tableReadDone_of_load {d : Device} {reads : List LoadRead} (hl : d.remap.load = some reads) (phys : Nat)
    (o : ReadOutcome) :
    let all := reads ++ [{ phys := phys, data := o.data }]
    let kept := d.onRemap fun r => { r with load := some all }
    d.tableReadDone phys o =
      if reads.length = 9 then kept.chooseCopy (judgeCopy (copyReads .a all)) (judgeCopy (copyReads .b all)) else kept := by
  rw [Device.tableReadDone, hl]
  simp

/-! ### The choice (R101) -/

/-- R101: the copy chosen is active and loaded; the other is degraded, with TABLE_DEGRADED, unless it is valid. -/
theorem Device.loadCopy_of_valid {chosen : CopyFinding} {image : List Byte} {entries : List RemapEntry}
    (h : chosen.valid = some (image, entries)) (copy : Copy) (other : CopyFinding) (d : Device) :
    let active : Device := d.onRemap fun r =>
      { r with activeCopy := some copy, generation := max (chosen.generation.getD 0) (other.generation.getD 0),
               degradedA := decide (copy = .b) && other.valid.isNone, degradedB := decide (copy = .a) && other.valid.isNone }
    d.loadCopy copy chosen other =
      (if other.valid.isNone then active.raise .tableDegraded else active).loadEnd entries (retiredBit image) := by
  rw [Device.loadCopy, h]
  cases copy <;> rfl

section
variable {a b : CopyFinding} (d : Device)

/-- R101: of two valid copies the one of the higher generation is loaded, copy A at equal ones. -/
theorem Device.chooseCopy_of_both (ha : a.valid.isSome) (hb : b.valid.isSome) : d.chooseCopy a b =
    if b.generation.getD 0 ≤ a.generation.getD 0 then d.loadCopy .a a b else d.loadCopy .b b a := by
  obtain ⟨x, hx⟩ := Option.isSome_iff_exists.mp ha
  obtain ⟨y, hy⟩ := Option.isSome_iff_exists.mp hb
  rw [Device.chooseCopy, hx, hy]

theorem Device.chooseCopy_of_a (ha : a.valid.isSome) (hb : b.valid = none) : d.chooseCopy a b = d.loadCopy .a a b := by
  obtain ⟨x, hx⟩ := Option.isSome_iff_exists.mp ha
  rw [Device.chooseCopy, hx, hb]

theorem Device.chooseCopy_of_b (ha : a.valid = none) (hb : b.valid.isSome) : d.chooseCopy a b = d.loadCopy .b b a := by
  obtain ⟨y, hy⟩ := Option.isSome_iff_exists.mp hb
  rw [Device.chooseCopy, ha, hy]

/-- R101, R102: with no valid copy a blank store is formatted, and any other has no table to read. -/
theorem Device.chooseCopy_of_neither (ha : a.valid = none) (hb : b.valid = none) : d.chooseCopy a b =
    if a.blank && b.blank then d.beginFormat else (d.onRemap fun r => { r with load := none }).tableUnreadable := by
  rw [Device.chooseCopy, ha, hb]

end

/-- R94, R184: the five writes of an image, block by block. -/
theorem imageRequests_imageBlocks (copy : Copy) (image : List Byte) : imageRequests copy (imageBlocks image) =
    (List.range 5).map fun i => { phys := copy.base + i, image := some (blockOfList (image.drop (512 * i))) } := rfl

theorem Device.beginFormat_eq (d : Device) : d.beginFormat =
    ((d.onRemap fun r =>
      { r with degradedB := true, load := none,
               persist := .writingImage .a 1 (Vector.replicate 5 .awaiting) true }).raise .tableDegraded).requestTable
      ((List.range 5).map fun i =>
        { phys := i, image := some (blockOfList ((buildImage 1 [] fun _ => false).drop (512 * i))) }) := by
  simp only [Device.beginFormat, imageRequests_imageBlocks, Copy.base, Nat.zero_add]

/-- Settles O47: the tenth read completes the load; a copy is chosen by which of the two are valid, and by their generations. -/
theorem tenTableReadsChooseTheCopy : Obligations.TenTableReadsChooseTheCopy := by
  refine ⟨fun s i slot issue outcome body op phys reads hr hi hop hn hw hp hl => ?_, fun d a b => ?_⟩
  · have event := State.event_tableReadCompletion hr hi hop hn hw hp outcome body
    rw [Device.tableReadDone_of_load hl, readOutcome_data] at event
    refine ⟨fun short => event.trans ?_, fun last => event.trans ?_⟩
    · rw [if_neg short]
    · rw [if_pos last]
      rfl
  · refine ⟨fun ha hb least image entries h => ?_, fun ha hb higher image entries h => ?_, fun ha hb image entries h => ?_,
      fun ha hb image entries h => ?_, fun ha hb blankA blankB => ?_, fun ha hb written => ?_⟩
    · rw [d.chooseCopy_of_both ha hb, if_pos least, Device.loadCopy_of_valid h]
    · rw [d.chooseCopy_of_both ha hb, if_neg (Nat.not_le.mpr higher), Device.loadCopy_of_valid h]
    · rw [d.chooseCopy_of_a ha hb, Device.loadCopy_of_valid h]
    · rw [d.chooseCopy_of_b ha hb, Device.loadCopy_of_valid h]
    · rw [d.chooseCopy_of_neither ha hb, if_pos (by simp [blankA, blankB]), Device.beginFormat_eq]
    · have not_blank : ¬ (a.blank && b.blank) = true := by
        obtain written | written := written <;> simp [written]
      rw [d.chooseCopy_of_neither ha hb, if_neg not_blank]

end Sys2Proof.Machine
end

section
/-!
SUPPORT and PROOF. The beginning of a persist (R94), and the entry that a spare write DONE makes (R87).
-/

namespace Sys2Proof.Machine

/-! ### The beginning of a persist (R93, R94) -/

/-- A persist may begin (R94). -/
def Remap.PersistDue (r : Remap) : Prop := r.batch ≠ [] ∧ r.persist = .idle ∧ r.lock ≠ some .tableLost

/-- The part with the batch taken into flight: its image is to be written to a copy under the next generation (R94). -/
def Device.persisting (copy : Copy) (d : Device) : Device :=
  let entries := d.remap.table.filter fun e => decide (e.state = .active) || d.remap.batch.contains e.block
  let image := buildImage (d.remap.generation + 1) entries d.remap.isRetired
  (d.onRemap fun r =>
    { r with inFlight := r.batch, batch := [],
             persist := .writingImage copy (r.generation + 1) (Vector.replicate 5 .awaiting) false }).requestTable
    ((List.range 5).map fun i => { phys := copy.base + i, image := some (blockOfList (image.drop (512 * i))) })

section
variable {d : Device}

theorem Device.beginPersist_of_due (due : d.remap.PersistDue) (more : d.remap.generation ≠ 0xFFFFFFFF) :
    d.beginPersist = d.persisting d.remap.inactiveCopy := (if_pos due).trans (if_neg more)

theorem Device.beginPersist_of_last (due : d.remap.PersistDue) (last : d.remap.generation = 0xFFFFFFFF) :
    d.beginPersist = d.loseBatches := (if_pos due).trans (if_pos last)

theorem Device.beginPersist_of_not (h : ¬ d.remap.PersistDue) : d.beginPersist = d := if_neg h

end

/-- Settles O42: a persist that may begin takes the batch, or loses it at the last generation; any other leaves the part to its
closing. -/
theorem persistBeginsWithTheBatch : Obligations.PersistBeginsWithTheBatch := by
  intro s hr
  have event : exec .persistBegin s = .next { s with toDevice := s.toDevice.beginPersist.close } :=
    State.event_of_released (f := fun d => d.beginPersist.close) hr
  refine ⟨fun batch idle lock => ⟨fun more => ?_, fun last => ?_⟩, fun h => ?_⟩
  · rw [event, Device.beginPersist_of_due ⟨batch, idle, lock⟩ more, Remap.inactiveCopy]
    obtain active | active | active : s.remap.activeCopy = none ∨ s.remap.activeCopy = some .a ∨ s.remap.activeCopy = some .b := by
      rcases s.remap.activeCopy with _ | _ | _ <;> simp
    all_goals
      rw [active]
      rfl
  · rw [event, Device.beginPersist_of_last ⟨batch, idle, lock⟩ last]
  · rw [event, Device.beginPersist_of_not]
    rintro ⟨batch, idle, lock⟩
    obtain empty | busy | lost := h
    · exact batch empty
    · exact busy idle
    · exact lock lost

/-! ### The entry of a spare write (R82, R83, R87) -/

/-- An entry placed is the one of its block. -/
theorem find?_insertEntry_same (e : RemapEntry) (l : List RemapEntry) : (insertEntry e l).find? (·.block == e.block) = some e := by
  induction l with
  | nil => simp [insertEntry]
  | cons g gs ih =>
    unfold insertEntry
    split_ifs with before same
    · simp
    · simp
    · rw [List.find?_cons_of_neg (by simpa using Ne.symm same), ih]

/-- The entries of the other blocks stay. -/
theorem find?_insertEntry_other {e : RemapEntry} {b : Nat} (h : b ≠ e.block) (l : List RemapEntry) :
    (insertEntry e l).find? (·.block == b) = l.find? (·.block == b) := by
  have skip {g : RemapEntry} (hg : g.block ≠ b) (gs : List RemapEntry) : (g :: gs).find? (·.block == b) = gs.find? (·.block == b) :=
    List.find?_cons_of_neg (by simpa using hg)
  induction l with
  | nil => exact skip h.symm []
  | cons g gs ih =>
    unfold insertEntry
    split_ifs with before same
    · exact skip h.symm (g :: gs)
    · rw [skip h.symm, skip (same ▸ h.symm)]
    · rw [List.find?_cons, List.find?_cons, ih]

section
variable (w : RemapRecord) (s : SpareNo) (r : Remap)

theorem Remap.placed_table : (Remap.placed w s r).table = insertEntry { block := w.block, spare := s, state := .batched } r.table := by
  unfold Remap.placed
  cases r.entryOf w.block <;> rfl

theorem Remap.placed_pendingList : (Remap.placed w s r).pendingList = r.pendingList.filter fun b => b.block != w.block := by
  unfold Remap.placed
  cases r.entryOf w.block <;> rfl

/-- The spares after a spare write DONE: the old spare of the entry is RETIRED behind the new one IN_USE. -/
theorem Remap.placed_spareState (t : SpareNo) : (Remap.placed w s r).spareState t =
    match r.entryOf w.block with
    | none => (r.setSpare s .inUse).spareState t
    | some old => ((r.setSpare s .inUse).setSpare old.spare .retired).spareState t := by
  unfold Remap.placed
  cases r.entryOf w.block <;> rfl

end

/-- Settles O43: the table by the placing of its entry, the spares by the two changes of state. -/
theorem spareWriteDoneMakesTheEntry : Obligations.SpareWriteDoneMakesTheEntry := by
  intro r w s hs fresh
  have table := Remap.placed_table w s r
  obtain ⟨v, loaded⟩ := Option.isSome_iff_exists.mp hs
  refine ⟨?_, fun b hb => ?_, fun sorted => ?_, ?_, fun e he => ?_, fun b hb => ?_⟩
  · rw [Remap.entryOf, table]
    exact find?_insertEntry_same { block := w.block, spare := s, state := .batched } r.table
  · rw [Remap.entryOf, table]
    exact find?_insertEntry_other hb r.table
  · rw [table]
    exact pairwise_insertEntry sorted
  · rw [Remap.placed_spareState]
    cases he : r.entryOf w.block with
    | none => simp [Remap.setSpare_state, loaded]
    | some old => simp [Remap.setSpare_state, loaded, (fresh old he).symm]
  · rw [Remap.placed_spareState, he]
    dsimp only
    rw [Remap.setSpare_state, if_pos rfl, Remap.setSpare, loaded]
    rfl
  · rw [Remap.placed_pendingList] at hb
    simpa using (List.mem_filter.mp hb).2

end Sys2Proof.Machine
end

section
/-!
SUPPORT and PROOF. The write lock (R91, R92) and the road of a remap record: a new spare claimed, the write in place, or its frame HELD
(R85, R86, R88).
-/

namespace Sys2Proof.Machine

/-! ### Notices to the ports in session (R135) -/

/-- A port told a notice, while it is ATTACHED. -/
def PortUnit.hear (n : Notice) (u : PortUnit) : PortUnit := if u.session = .attached then u.enqueue (.notice n) else u

/-- An ATTACHED port with a notice at the tail of its order. -/
def PortUnit.told (n : Notice) (u : PortUnit) : PortUnit :=
  if u.session = .attached then { u with outbound := u.outbound ++ [.notice n] } else u

theorem PortUnit.hear_of_room {u : PortUnit} (h : u.outbound.length ≤ 256) (n : Notice) : u.hear n = u.told n := by
  rw [PortUnit.hear, PortUnit.enqueue_of_room h, PortUnit.told]

theorem PortUnit.hear_of_not_attached {u : PortUnit} (h : u.session ≠ .attached) (n : Notice) : u.hear n = u := if_neg h

theorem Device.notify_eq (p : Port) (n : Notice) (d : Device) : d.notify p n = d.onPort p (PortUnit.hear n) := by
  by_cases h : (d.port p).session = .attached
  · rw [Device.notify, PortUnit.attached, if_pos (decide_eq_true h)]
    exact Device.onPort_congr (if_pos h).symm
  · rw [Device.notify, PortUnit.attached, if_neg (by simpa using h), Device.onPort, PortUnit.hear_of_not_attached h,
      Device.setPort_port_self]

theorem Device.notifyBoth_eq (n : Notice) (d : Device) :
    d.notifyBoth n = { d with portA := d.portA.hear n, portB := d.portB.hear n } := by
  rw [Device.notifyBoth, Device.notify_eq, Device.notify_eq]
  rfl

/-! ### The lock (R91, R92) -/

/-- The lock set for a reason, WRITE_LOCKED raised, and the ports told. -/
theorem Device.lockWith_eq (reason : LockReason) (d : Device) : d.lockWith reason =
    { d with remap := { d.remap with lock := some reason }, mgmt := { d.mgmt with flags := d.mgmt.flags ||| 0x001#9 },
             portA := d.portA.hear (.writeLocked reason), portB := d.portB.hear (.writeLocked reason) } := by
  rw [Device.lockWith, Device.notifyBoth_eq]
  rfl

theorem Device.lockWith_of_room {d : Device} (room : ∀ p, (d.port p).outbound.length ≤ 256) (reason : LockReason) :
    d.lockWith reason =
      { d with remap := { d.remap with lock := some reason }, mgmt := { d.mgmt with flags := d.mgmt.flags ||| 0x001#9 },
               portA := d.portA.told (.writeLocked reason), portB := d.portB.told (.writeLocked reason) } := by
  rw [Device.lockWith_eq, PortUnit.hear_of_room (u := d.portA) (room .a), PortUnit.hear_of_room (u := d.portB) (room .b)]

theorem Device.enterNoSpares_of_clear {d : Device} (h : d.remap.lock = none) : d.enterNoSpares = d.lockWith .noSpares := by
  rw [Device.enterNoSpares, h]

theorem Device.enterNoSpares_of_locked {d : Device} (h : d.remap.lock ≠ none) : d.enterNoSpares = d := by
  obtain ⟨reason, locked⟩ := Option.ne_none_iff_exists'.mp h
  rw [Device.enterNoSpares, locked]

theorem Device.enterTableLost_of_not {d : Device} (h : d.remap.lock ≠ some .tableLost) : d.enterTableLost = d.lockWith .tableLost := by
  unfold Device.enterTableLost
  split
  · next lost => exact absurd lost h
  · rfl

theorem Device.enterTableLost_of_lost {d : Device} (h : d.remap.lock = some .tableLost) : d.enterTableLost = d := by
  rw [Device.enterTableLost, h]

theorem Device.enterNoSpares_table (d : Device) : d.enterNoSpares.remap.table = d.remap.table := by
  by_cases h : d.remap.lock = none
  · rw [Device.enterNoSpares_of_clear h, Device.lockWith_eq]
  · rw [Device.enterNoSpares_of_locked h]

/-! ### The spares left (R83, R91) -/

theorem Remap.noneFree_iff {r : Remap} (h : r.spares.isSome) : r.noneFree = true ↔ ∀ s, r.spareState s ≠ some .free := by
  obtain ⟨v, loaded⟩ := Option.isSome_iff_exists.mp h
  simp only [Remap.noneFree, Remap.spareState, loaded, List.all_eq_true, Vector.mem_toList_iff, Vector.mem_iff_getElem,
    decide_eq_true_eq, Option.map_some, ne_eq, Option.some.injEq]
  exact ⟨fun all s => all _ ⟨s.val, s.isLt, rfl⟩, fun all _ ⟨i, hi, e⟩ => e ▸ all ⟨i, hi⟩⟩

/-- A spare a record may claim (R83, R86). -/
def Remap.Open (r : Remap) (s : SpareNo) : Prop := r.spareState s = some .free ∧ ∀ x ∈ r.workList, x.claim ≠ some s

theorem Remap.mem_unclaimed {r : Remap} {s : SpareNo} : s ∈ r.unclaimed ↔ r.Open s := by
  unfold Remap.unclaimed Remap.Open Remap.spareState
  cases r.spares with
  | none => simp
  | some v => simp [Remap.claimed]

theorem Remap.unclaimed_sorted (r : Remap) : r.unclaimed.Pairwise (· < ·) := by
  unfold Remap.unclaimed
  split
  · exact (List.pairwise_lt_finRange 256).filter _
  · exact .nil

/-- R86: a claim takes the lowest spare it may. -/
theorem Remap.newSpare_of_lowest {r : Remap} {s : SpareNo} (hl : r.lock ≠ some .tableLost) (ho : r.Open s)
    (lowest : ∀ t < s, ¬ r.Open t) : r.newSpare = some s := by
  rw [Remap.newSpare, if_neg hl]
  have sorted := r.unclaimed_sorted
  have listed := Remap.mem_unclaimed.mpr ho
  cases hu : r.unclaimed with
  | nil => simp [hu] at listed
  | cons t ts =>
    rw [hu, List.pairwise_cons] at sorted
    rw [hu, List.mem_cons] at listed
    have first : r.Open t := Remap.mem_unclaimed.mp (hu ▸ List.mem_cons_self)
    obtain same | behind := listed
    · rw [same, List.head?_cons]
    · exact absurd first (lowest t (sorted.1 s behind))

/-- R85, R88: no new spare can be had in TABLE_LOST, or with none to claim. -/
theorem Remap.newSpare_of_none {r : Remap} (h : r.lock = some .tableLost ∨ ∀ s, ¬ r.Open s) : r.newSpare = none := by
  unfold Remap.newSpare
  split
  · rfl
  · next held =>
    have empty : r.unclaimed = [] := List.eq_nil_iff_forall_not_mem.mpr fun s hs => h.resolve_left held s (Remap.mem_unclaimed.mp hs)
    rw [empty, List.head?_nil]

/-! ### The road of a record (R85, R86, R88) -/

section
variable {d : Device} {w : RemapRecord}

theorem Device.placeRecord_of_some {s : SpareNo} (h : d.remap.newSpare = some s) : d.placeRecord w =
    (d.onRemap (Remap.setRecord w.frame (some s) .newSpare)).requestSpare
      { frame := w.frame, block := w.block, spare := s, image := w.image } := by
  rw [Device.placeRecord, h]

/-- R88: a PENDING block that has an entry is written in place. -/
theorem Device.placeRecord_inPlace {e : RemapEntry} (h : d.remap.newSpare = none) (ho : w.origin = .pending)
    (he : d.remap.entryOf w.block = some e) : d.placeRecord w =
    (d.enterNoSpares.onRemap (Remap.setRecord w.frame none .inPlace)).requestSpare
      { frame := w.frame, block := w.block, spare := e.spare, image := w.image } := by
  have entry : d.enterNoSpares.remap.entryOf w.block = some e := by rw [Remap.entryOf, d.enterNoSpares_table]; exact he
  rw [Device.placeRecord, h]
  dsimp only
  rw [Device.withoutSpare, ho, entry]

/-- R88: any other record ends with its frame HELD. -/
theorem Device.placeRecord_held (h : d.remap.newSpare = none) (ho : w.origin = .fault ∨ d.remap.entryOf w.block = none) :
    d.placeRecord w = (d.enterNoSpares.onRemap (Remap.endRecord w.frame)).makeHeld w.frame := by
  have entry : d.enterNoSpares.remap.entryOf w.block = d.remap.entryOf w.block := by
    rw [Remap.entryOf, d.enterNoSpares_table]
    rfl
  rw [Device.placeRecord, h]
  dsimp only
  rw [Device.withoutSpare, entry]
  obtain fault | absent := ho
  · rw [fault]
  · rw [absent]
    cases w.origin <;> rfl

end

/-- Settles O44: the lock by its reason before, the test of the spares by what they are, and the road of a record by the spare to be
had. -/
theorem writeLockIsEnteredWhereNoSpareCanBeHad : Obligations.WriteLockIsEnteredWhereNoSpareCanBeHad := by
  refine ⟨fun d room => ?_, fun d => Device.enterNoSpares_of_locked, fun d => Device.enterTableLost_of_lost,
    fun d loaded => ⟨fun gone => ?_, fun ⟨s, left⟩ => ?_⟩,
    fun d w => ⟨fun s lock free lowest => ?_, fun none_left => ?_⟩⟩
  · exact ⟨fun clear => (Device.enterNoSpares_of_clear clear).trans (Device.lockWith_of_room room .noSpares),
      fun other => (Device.enterTableLost_of_not other).trans (Device.lockWith_of_room room .tableLost)⟩
  · exact if_pos ((Remap.noneFree_iff loaded).mpr gone)
  · exact if_neg fun none_free => (Remap.noneFree_iff loaded).mp none_free s left
  · exact Device.placeRecord_of_some (Remap.newSpare_of_lowest lock free lowest)
  · have no_spare := Remap.newSpare_of_none none_left
    exact ⟨fun e pending entry => Device.placeRecord_inPlace no_spare pending entry, fun h => Device.placeRecord_held no_spare h⟩

end Sys2Proof.Machine
end

section
/-!
SUPPORT and PROOF. The completions of the remap unit's own writes: a spare write (R87 to R90) and an image-block write (R95 to R97,
R102).
-/

namespace Sys2Proof.Machine

section
variable {s : State} {i : SlotNo} {slot issue : Byte} {op : Operation} (hr : s.resetAsserted = false) (hi : slot.toNat = i.val)
  (hop : s.channel.slots[i] = some op) (hn : s.channel.issueCounts[i] = issue)
include hr hi hop hn

/-- R71: the completion of a spare write is handed to the remap unit, and its slot emptied. -/
theorem State.event_spareCompletion {f : FrameNo} {sp : SpareNo} {image : Block} (hw : op.work = .spare f sp image) (outcome : Byte)
    (body : List Byte) :
    s.event (Device.completion slot issue outcome body) = .next { s with toDevice :=
      ((s.toDevice.spareCompletion f sp (doneCode outcome)).onChannel (Channel.emptySlot i)).closeMedia } := by
  rw [State.event_completion hr hi hop hn, Device.applyCompletion, hw]

/-- R71: and so is that of an image-block write. -/
theorem State.event_tableWriteCompletion {phys : Nat} {image : Block} (hw : op.work = .tableWrite image) (hp : op.phys = some phys)
    (outcome : Byte) (body : List Byte) :
    s.event (Device.completion slot issue outcome body) = .next { s with toDevice :=
      ((s.toDevice.tableWriteDone phys (doneCode outcome) image).onChannel (Channel.emptySlot i)).closeMedia } := by
  rw [State.event_completion hr hi hop hn, Device.applyCompletion, hw, hp]
  rfl

end

theorem doneCode_of_ne {code : Byte} (h : code ≠ 0) : doneCode code = false := Bool.eq_false_iff.mpr (mt doneCode_iff.mp h)

/-! ### A spare write (R87 to R90) -/

section
variable (w : RemapRecord) (s : SpareNo) (r : Remap)

theorem Remap.placed_lock : (Remap.placed w s r).lock = r.lock := by
  unfold Remap.placed
  cases r.entryOf w.block <;> rfl

theorem Remap.placed_batch : (Remap.placed w s r).batch = r.batch := by
  unfold Remap.placed
  cases r.entryOf w.block <;> rfl

end

section
variable {d : Device} {f : FrameNo} {block hold e : Nat} {newer : Option Nat} {ph : Phase}
  (hs : (d.frame f).served = some { block := block, hold := hold, state := .writing e newer ph })
include hs

theorem Device.toTablePhase_of_writing :
    d.toTablePhase f = d.setServed f (some { block := block, hold := hold, state := .writing e newer .table }) := by
  rw [Device.toTablePhase, hs]

/-- R90: a WRITING frame keeps its exposure as a HELD one below the cap. -/
theorem Device.makeHeld_of_room (room : d.frames.count .held < 896) :
    d.makeHeld f = (d.setServed f (some { block := block, hold := hold, state := .held e })).reportHeld e := by
  rw [Device.makeHeld, hs]
  exact if_pos room

/-- R90: at the cap it is dropped. -/
theorem Device.makeHeld_at_cap (full : 896 ≤ d.frames.count .held) : d.makeHeld f = d.releaseFrame f .dataLost := by
  rw [Device.makeHeld, hs]
  exact if_neg (Nat.not_lt.mpr full)

end

section
variable {d : Device} {w : RemapRecord} {s : SpareNo}

/-- R87, R94: the DONE of a spare write puts the entry into the batch and its frame into phase TABLE, and a persist may begin. -/
theorem Device.spareWriteDone_batched {block hold e : Nat} {newer : Option Nat} {ph : Phase} (hl : d.remap.lock ≠ some .tableLost)
    (hs : (d.frame w.frame).served = some { block := block, hold := hold, state := .writing e newer ph }) :
    d.spareWriteDone w s = ((d.onRemap fun m => { Remap.placed w s m with batch := m.batch ++ [w.block] }).setServed w.frame
      (some { block := block, hold := hold, state := .writing e newer .table })).testSpares.beginPersist := by
  have unlocked : (d.onRemap (Remap.placed w s)).remap.lock ≠ some .tableLost := (Remap.placed_lock w s d.remap).trans_ne hl
  have batched : (d.onRemap (Remap.placed w s)).onRemap (fun r => { r with batch := r.batch ++ [w.block] }) =
      d.onRemap fun m => { Remap.placed w s m with batch := m.batch ++ [w.block] } := by
    simp only [Device.onRemap, Remap.placed_batch]
  rw [Device.spareWriteDone]
  dsimp only
  rw [if_neg unlocked, batched, Device.toTablePhase_of_writing (by exact hs)]

/-- R87, R92: in TABLE_LOST its frame is HELD. -/
theorem Device.spareWriteDone_of_lost (hl : d.remap.lock = some .tableLost) :
    d.spareWriteDone w s = ((d.onRemap fun m => (Remap.placed w s m).endRecord w.frame).makeHeld w.frame).testSpares := by
  have lost : (d.onRemap (Remap.placed w s)).remap.lock = some .tableLost := (Remap.placed_lock w s d.remap).trans hl
  rw [Device.spareWriteDone]
  exact if_pos lost

variable {f : FrameNo} (found : d.remap.workList.find? (fun x => decide (x.frame = f)) = some w)
include found

/-- R87, R88: the completion of a write to the claimed spare. -/
theorem Device.spareCompletion_of_claimed (hc : w.claim = some s) (done : Bool) :
    d.spareCompletion f s done = if done then d.spareWriteDone w s else d.spareWriteFault w s := by
  rw [Device.spareCompletion, found]
  exact if_pos hc

/-- R89: the completion of a write in place. -/
theorem Device.spareCompletion_inPlace (hc : w.claim = none) (ht : w.target = .inPlace) (done : Bool) :
    d.spareCompletion f s done =
      if done then (d.onRemap (Remap.endRecord f)).settleFrame f else (d.onRemap (Remap.endRecord f)).makeHeld f := by
  rw [Device.spareCompletion, found]
  dsimp only
  rw [if_neg (by simp [hc]), ht]
  cases done <;> rfl

end

/-- Settles O45: the first record of the frame gives the road, the outcome and the lock its end. -/
theorem spareWriteCompletionPlacesOrHoldsItsFrame : Obligations.SpareWriteCompletionPlacesOrHoldsItsFrame := by
  refine ⟨fun s i slot issue outcome body op f sp image w l r block hold e newer ph hr hi hop hn hw hlist hf first hs => ?_,
    fun d f block hold e newer ph hs => ⟨Device.makeHeld_of_room hs, Device.makeHeld_at_cap hs⟩⟩
  have event := State.event_spareCompletion hr hi hop hn hw outcome body
  have found : s.remap.workList.find? (fun x => decide (x.frame = f)) = some w :=
    (find?_iff_firstOf fun x => decide_eq_true_iff).mpr ⟨l, r, hlist, hf, first⟩
  subst hf
  refine ⟨fun claim => ⟨fun done lock => event.trans ?_, fun done lost => event.trans ?_, fun fault => event.trans ?_⟩,
    fun claim target => ⟨fun done => event.trans ?_, fun fault => event.trans ?_⟩⟩
  · rw [Device.spareCompletion_of_claimed found claim, if_pos (doneCode_iff.mpr done), Device.spareWriteDone_batched lock hs]
  · rw [Device.spareCompletion_of_claimed found claim, if_pos (doneCode_iff.mpr done), Device.spareWriteDone_of_lost lost]
  · rw [Device.spareCompletion_of_claimed found claim, if_neg (mt doneCode_iff.mp fault)]
    rfl
  · rw [Device.spareCompletion_inPlace found claim target, if_pos (doneCode_iff.mpr done)]
  · rw [Device.spareCompletion_inPlace found claim target, if_neg (mt doneCode_iff.mp fault)]

/-! ### An image-block write (R95 to R97, R102) -/

theorem Device.tableWriteDone_of_idle {d : Device} (h : d.remap.persist = .idle) (phys : Nat) (done : Bool) (image : Block) :
    d.tableWriteDone phys done image = d := by
  rw [Device.tableWriteDone, h]

/-- The persist with the progress of one block as given (R95). -/
def Device.marked (copy : Copy) (g : Nat) (progress : Vector Progress 5) (format : Bool) (b : Fin 5) (v : Progress) (d : Device) : Device :=
  d.onRemap fun r => { r with persist := .writingImage copy g (progress.set b.val v) format }

/-- One block more DONE completes the image where every other block is (R96). -/
theorem all_done_set_iff {progress : Vector Progress 5} {b : Fin 5} :
    (progress.set b.val .done).toList.all (fun v => decide (v = .done)) = true ↔ ∀ j : Fin 5, j ≠ b → progress[j] = .done := by
  simp only [List.all_eq_true, Vector.mem_toList_iff, Vector.mem_iff_getElem, decide_eq_true_eq]
  constructor
  · intro all j hj
    have apart : b.val ≠ j.val := fun e => hj (Fin.ext e.symm)
    simpa [Vector.getElem_set_ne, apart] using all _ ⟨j.val, j.isLt, rfl⟩
  · rintro others _ ⟨j, hj, rfl⟩
    rw [Vector.getElem_set]
    split
    · rfl
    · next apart => exact others ⟨j, hj⟩ fun e => apart (congrArg Fin.val e).symm

section
variable {d : Device} {copy : Copy} {g : Nat} {progress : Vector Progress 5} {format : Bool} {b : Fin 5}
  (hp : d.remap.persist = .writingImage copy g progress format) (image : Block)
include hp

theorem Device.tableWriteDone_of_done (hb : progress[b] = .done) (done : Bool) :
    d.tableWriteDone (copy.base + b.val) done image = d := by
  have hb : progress[b.val] = .done := hb
  simp [Device.tableWriteDone, hp, hb]

/-- R95, R96: DONE marks a block, and the last one is the flip. -/
theorem Device.tableWriteDone_marks (hb : progress[b] ≠ .done) : d.tableWriteDone (copy.base + b.val) true image =
    let marked := d.marked copy g progress format b .done
    if (progress.set b.val .done).toList.all (fun v => decide (v = .done)) then marked.flip copy g format else marked := by
  have fresh : progress[b.val] ≠ .done := hb
  simp [Device.tableWriteDone, hp, Device.marked]

/-- R97: a first WRITE_FAULT has the block written once more. -/
theorem Device.tableWriteDone_retries (hb : progress[b] = .awaiting) : d.tableWriteDone (copy.base + b.val) false image =
    (d.marked copy g progress format b .retrying).requestTable [{ phys := copy.base + b.val, image := some image }] := by
  have hb : progress[b.val] = .awaiting := hb
  simp [Device.tableWriteDone, hp, hb, Device.marked]

/-- R97, R102: a second one loses the persist, or fails the format. -/
theorem Device.tableWriteDone_fails (hb : progress[b] = .retrying) : d.tableWriteDone (copy.base + b.val) false image =
    if format then d.formatFailed else d.persistLoss copy := by
  have hb : progress[b.val] = .retrying := hb
  simp [Device.tableWriteDone, hp, hb]

end

section
variable {d : Device} {w : RemapRecord} {l r : List RemapRecord}

theorem Remap.findBlock_of_first {m : Remap} (hl : m.workList = l ++ w :: r) (first : ∀ x ∈ l, x.block ≠ w.block) :
    m.workList.find? (fun x => x.block == w.block) = some w :=
  (find?_iff_firstOf fun _ => beq_iff_eq).mpr ⟨l, r, hl, rfl, first⟩

/-- R96, R97: what the flip or the loss brings to the first record of a block. -/
theorem Device.settleEntry_of_first (hl : d.remap.workList = l ++ w :: r) (first : ∀ x ∈ l, x.block ≠ w.block) :
    d.settleEntry w.block = (d.onRemap (Remap.endRecord w.frame)).settleFrame w.frame := by
  rw [Device.settleEntry, Remap.findBlock_of_first hl first]

theorem Device.holdEntry_of_first (hl : d.remap.workList = l ++ w :: r) (first : ∀ x ∈ l, x.block ≠ w.block) :
    d.holdEntry w.block = (d.onRemap (Remap.endRecord w.frame)).makeHeld w.frame := by
  rw [Device.holdEntry, Remap.findBlock_of_first hl first]

end

/-- Settles O46: the progress of the block, the outcome and the progress of the others give the completion its end. -/
theorem tableWriteCompletionAdvancesThePersist : Obligations.TableWriteCompletionAdvancesThePersist := by
  intro s i slot issue outcome body op image phys hr hi hop hn hw hphys
  have event := State.event_tableWriteCompletion hr hi hop hn hw hphys outcome body
  refine ⟨fun idle => event.trans ?_, fun copy g progress format b hp at_b => ?_⟩
  · rw [Device.tableWriteDone_of_idle idle]
  · subst at_b
    refine ⟨fun already => event.trans ?_, fun done fresh ⟨j, other, pending⟩ => event.trans ?_,
      fun done fresh others => event.trans ?_, fun fault first => event.trans ?_, fun fault second plain => event.trans ?_, fun fault second formats => event.trans ?_,
      fun d w l r hl first => ⟨Device.settleEntry_of_first hl first, Device.holdEntry_of_first hl first⟩⟩
    · rw [Device.tableWriteDone_of_done hp image already]
    · rw [doneCode_iff.mpr done, Device.tableWriteDone_marks hp image fresh,
        if_neg fun all => pending (all_done_set_iff.mp all j other)]
      rfl
    · rw [doneCode_iff.mpr done, Device.tableWriteDone_marks hp image fresh, if_pos (all_done_set_iff.mpr others)]
      rfl
    · rw [doneCode_of_ne fault, Device.tableWriteDone_retries hp image first]
      rfl
    · rw [doneCode_of_ne fault, Device.tableWriteDone_fails hp image second, plain]
      rfl
    · rw [doneCode_of_ne fault, Device.tableWriteDone_fails hp image second, formats]
      rfl

end Sys2Proof.Machine
end

section
/-!
SUPPORT and PROOF. The end of a load (R103) and the entry to SERVING behind it: the held HELLOs open their sessions, and a restart is
done (R124, R125, R162).
-/

namespace Sys2Proof.Machine

/-! ### The held HELLOs (R124, R125) -/

/-- A port where every held HELLO opens its session: its own opens, or it is told of its new partner. -/
def Device.openedPort (p : Port) (d : Device) : PortUnit :=
  let other := d.port p.other
  if (d.port p).waiting then
    (d.port p).openWith d.channel.logicalCapacity d.remap.lock (other.attached || other.waiting)
  else if other.waiting then (d.port p).hear .partnerAttached
  else d.port p

theorem PortUnit.not_attached_of_waiting {u : PortUnit} (h : u.waiting = true) : u.session ≠ .attached := by
  obtain ⟨v, waits⟩ := u.waiting_iff.mp h
  simp [waits]

theorem Device.onPort_hear_if_attached (p : Port) (n : Notice) (d : Device) :
    (if (d.port p).attached then d.onPort p (PortUnit.hear n) else d) = d.onPort p (PortUnit.hear n) := by
  rw [← Device.notify_eq, Device.notify, ite_eq_left_iff]
  exact fun detached => (if_neg detached).symm

section
variable {d : Device} (hm : d.mode.mode ≠ .faulted)
include hm

/-- R124: outside FAULTED a port that opens takes its session, and queues its WELCOME alone. -/
theorem Device.openOne_eq (before : Device) (ports : List Port) (p : Port) : Device.openOne before ports d p =
    let d' := d.onPort p (PortUnit.openWith d.channel.logicalCapacity d.remap.lock
      ((before.port p.other).attached || ports.contains p.other))
    if (before.port p.other).attached && !ports.contains p.other then d'.onPort p.other (PortUnit.hear .partnerAttached) else d' := by
  rw [Device.openOne]
  simp [hm, Device.notify_eq]

/-- R124: the port that opens alone, and the other told of it. -/
theorem Device.openSessions_alone (p : Port) : d.openSessions [p] =
    (d.onPort p (PortUnit.openWith d.channel.logicalCapacity d.remap.lock (d.port p.other).attached)).onPort p.other
      (PortUnit.hear .partnerAttached) := by
  rw [← Device.onPort_hear_if_attached, Device.onPort_port_other]
  simp [Device.openSessions, Device.openOne_eq hm, Port.other_ne]

/-- R124: both ports open, each with the other for its partner. -/
theorem Device.openSessions_both : d.openSessions [.a, .b] =
    (d.onPort .a (PortUnit.openWith d.channel.logicalCapacity d.remap.lock true)).onPort .b
      (PortUnit.openWith d.channel.logicalCapacity d.remap.lock true) := by
  have second : (d.onPort .a (PortUnit.openWith d.channel.logicalCapacity d.remap.lock true)).mode.mode ≠ .faulted := by simpa using hm
  simp [Device.openSessions, Device.openOne_eq hm, Device.openOne_eq second, Port.other]

theorem Device.openSessions_waiting :
    d.openSessions d.waitingPorts = { d with portA := d.openedPort .a, portB := d.openedPort .b } := by
  have ports : d.waitingPorts = (if d.portA.waiting then [.a] else []) ++ (if d.portB.waiting then [.b] else []) := by
    cases ha : d.portA.waiting <;> cases hb : d.portB.waiting <;> simp [Device.waitingPorts, ha, hb]
  rw [ports]
  cases ha : d.portA.waiting <;> cases hb : d.portB.waiting
  · simp [Device.openSessions, Device.openedPort, Port.other, ha, hb]
  · refine (Device.openSessions_alone hm .b).trans ?_
    simp [Device.openedPort, Device.onPort, Device.setPort, Port.other, ha, hb]
  · refine (Device.openSessions_alone hm .a).trans ?_
    simp [Device.openedPort, Device.onPort, Device.setPort, Port.other, ha, hb]
  · refine (Device.openSessions_both hm).trans ?_
    simp [Device.openedPort, Device.onPort, Device.setPort, Port.other, ha, hb]

end

/-- R122, R124: a held HELLO on a port with room opens its session with a WELCOME. -/
theorem Device.openedPort_of_waiting {d : Device} {p : Port} (alone : (d.port p.other).session ≠ .attached)
    (waits : (d.port p).waiting = true) (room : (d.port p).outbound.length ≤ 256) : d.openedPort p =
      let n := nextSession (d.port p).lastSession
      { d.port p with
        session := .attached, lastSession := n,
        outbound := (d.port p).outbound ++ [.welcome n d.channel.logicalCapacity d.remap.lock (d.port p.other).waiting] } := by
  have detached : (d.port p.other).attached = false := decide_eq_false alone
  rw [Device.openedPort]
  dsimp only
  rw [if_pos waits, detached, Bool.false_or, PortUnit.openWith]
  refine (PortUnit.enqueue_of_room ?_ _).trans rfl
  exact room

theorem Device.openedPort_of_idle {d : Device} {p : Port} (idle : (d.port p).waiting = false) (ha : (d.port p).session ≠ .attached) :
    d.openedPort p = d.port p := by
  rw [Device.openedPort, if_neg (by simp [idle]), PortUnit.hear_of_not_attached ha, ite_self]

theorem Device.openedPort_withMode (p : Port) (m : ModeCtl) (d : Device) :
    Device.openedPort p { d with mode := m } = d.openedPort p := by cases p <;> rfl

/-! ### The entry to SERVING (R162) -/

/-- R162: the device is SERVING, its held HELLOs have their sessions, and a restart is reported done. -/
theorem Device.enterServing_eq (d : Device) : d.enterServing =
    { d with mode := { mode := .serving, step := .none, restart := false, cause := none },
             portA := d.openedPort .a, portB := d.openedPort .b,
             mgmt := { d.mgmt with flags := d.mgmt.flags ||| if d.mode.restart then 0x100#9 else 0 } } := by
  rw [Device.enterServing]
  dsimp only
  rw [Device.openSessions_waiting (by simp), Device.openedPort_withMode .a _ d, Device.openedPort_withMode .b _ d,
    Device.restartDone]
  cases restart : d.mode.restart
  · simp
  · rfl

theorem Device.enterServing_port (p : Port) (d : Device) : d.enterServing.port p = d.openedPort p := by
  rw [Device.enterServing_eq]
  cases p <;> rfl

/-! ### The state a load leaves (R103) -/

/-- The remap unit as an image gives it (R103). -/
def Remap.loadedWith (entries : List RemapEntry) (spareOf : SpareNo → SpareState) (r : Remap) : Remap :=
  { r with table := entries, spares := some (Vector.ofFn spareOf), pendingList := [], workList := [], batch := [],
           inFlight := [], persist := .idle, load := none, lock := none }

/-- The state of a spare as an image gives it (R103). -/
def loadedSpare (entries : List RemapEntry) (retired : Nat → Bool) (s : SpareNo) : SpareState :=
  if ∃ e ∈ entries, e.spare = s then .inUse else if retired s.val then .retired else .free

theorem Device.loadEnd_eq (entries : List RemapEntry) (retired : Nat → Bool) (d : Device) : d.loadEnd entries retired =
    (d.onRemap (Remap.loadedWith entries (loadedSpare entries retired))).testSpares.tableLoaded := by
  have spares : (⟨⟨(List.range 256).map fun s =>
      if entries.any (fun e => e.spare.val == s) then SpareState.inUse else if retired s then .retired else .free⟩, by simp⟩ :
      Vector SpareState 256) = Vector.ofFn (loadedSpare entries retired) := by
    refine Vector.ext fun s hs => ?_
    simp [loadedSpare, Fin.ext_iff]
  rw [Device.loadEnd, spares]
  rfl

theorem Remap.noneFree_loadedWith (entries : List RemapEntry) (spareOf : SpareNo → SpareState) (r : Remap) :
    (r.loadedWith entries spareOf).noneFree = true ↔ ¬ ∃ s, spareOf s = .free := by
  rw [Remap.noneFree_iff rfl, not_exists]
  simp [Remap.spareState, Remap.loadedWith]

/-! ### The test of the spares behind it (R91) -/

theorem Device.testSpares_cases (d : Device) : d.testSpares = d ∨ d.testSpares = d.lockWith .noSpares := by
  unfold Device.testSpares
  split
  · by_cases clear : d.remap.lock = none
    · exact .inr (Device.enterNoSpares_of_clear clear)
    · exact .inl (Device.enterNoSpares_of_locked clear)
  · exact .inl rfl

/-- The test of the spares moves the lock, its flag and the two ports alone. -/
theorem Device.testSpares_elsewhere (d : Device) : let t := d.testSpares
    t.frames = d.frames ∧ t.tracker = d.tracker ∧ t.channel = d.channel ∧ t.reservations = d.reservations ∧ t.mode = d.mode
      ∧ t.resetAsserted = d.resetAsserted := by
  obtain same | locked := d.testSpares_cases
  · rw [same]
    exact ⟨rfl, rfl, rfl, rfl, rfl, rfl⟩
  · rw [locked, Device.lockWith_eq]
    exact ⟨rfl, rfl, rfl, rfl, rfl, rfl⟩

/-- It tells a port in session alone. -/
theorem Device.testSpares_port {d : Device} {p : Port} (h : (d.port p).session ≠ .attached) : d.testSpares.port p = d.port p := by
  obtain same | locked := d.testSpares_cases
  · rw [same]
  · rw [locked, Device.lockWith_eq]
    cases p <;> exact PortUnit.hear_of_not_attached h _

section
variable {d : Device} (clear : d.remap.lock = none)
include clear

theorem Device.testSpares_of_clear : d.testSpares = if d.remap.noneFree then d.lockWith .noSpares else d := by
  rw [Device.testSpares, Device.enterNoSpares_of_clear clear]

theorem Device.testSpares_remap :
    d.testSpares.remap = if d.remap.noneFree then { d.remap with lock := some .noSpares } else d.remap := by
  rw [Device.testSpares_of_clear clear, Device.lockWith_eq]
  split <;> rfl

theorem Device.testSpares_flags : d.testSpares.mgmt.flags = d.mgmt.flags ||| if d.remap.noneFree then 0x001#9 else 0 := by
  rw [Device.testSpares_of_clear clear, Device.lockWith_eq]
  split <;> simp

end

/-- What a load leaves before the mode controller is told of it: the remap unit as the image gives it, locked without a FREE spare. -/
structure Device.LoadsTo (entries : List RemapEntry) (spareOf : SpareNo → SpareState) (d e : Device) : Prop where
  remap : e.remap = if ∃ s, spareOf s = .free then d.remap.loadedWith entries spareOf
    else { d.remap.loadedWith entries spareOf with lock := some .noSpares }
  flags : e.mgmt.flags = d.mgmt.flags ||| if ∃ s, spareOf s = .free then 0 else 0x001#9
  port (p : Port) : (d.port p).session ≠ .attached → e.port p = d.port p
  frames : e.frames = d.frames
  tracker : e.tracker = d.tracker
  channel : e.channel = d.channel
  reservations : e.reservations = d.reservations
  mode : e.mode = d.mode
  reset : e.resetAsserted = d.resetAsserted

theorem Device.LoadsTo.lock {entries : List RemapEntry} {spareOf : SpareNo → SpareState} {d e : Device} (h : d.LoadsTo entries spareOf e) :
    e.remap.lock = if ∃ s, spareOf s = .free then none else some .noSpares := by
  rw [h.remap]
  split <;> rfl

theorem Device.loadsTo_testSpares (entries : List RemapEntry) (spareOf : SpareNo → SpareState) (d : Device) :
    d.LoadsTo entries spareOf (d.onRemap (Remap.loadedWith entries spareOf)).testSpares := by
  have spares := d.remap.noneFree_loadedWith entries spareOf
  have port_loaded (p : Port) : (d.onRemap (Remap.loadedWith entries spareOf)).port p = d.port p := by cases p <;> rfl
  obtain ⟨frames, tracker, channel, reservations, mode, reset⟩ := (d.onRemap (Remap.loadedWith entries spareOf)).testSpares_elsewhere
  refine ⟨?_, ?_, fun p h => ?_, frames, tracker, channel, reservations, mode, reset⟩
  · rw [Device.testSpares_remap rfl, Device.onRemap_remap]
    simp only [spares, ite_not]
  · rw [Device.testSpares_flags rfl, Device.onRemap_remap]
    simp only [spares, ite_not, Device.onRemap_mgmt]
  · rw [Device.testSpares_port (port_loaded p ▸ h), port_loaded]

/-- R161, R162: the report that the table is loaded is acted on at LOADING. -/
theorem Device.tableLoaded_of_loading {d : Device} (hm : d.mode.mode = .starting) (hs : d.mode.step = .loading) :
    d.tableLoaded = d.enterServing := if_pos ⟨hm, hs⟩

/-- R103, R162: the end of a load at LOADING enters SERVING from the state the load leaves. -/
theorem Device.loadEnd_of_loading {d : Device} (hm : d.mode.mode = .starting) (hs : d.mode.step = .loading) (entries : List RemapEntry)
    (retired : Nat → Bool) : ∃ e, d.LoadsTo entries (loadedSpare entries retired) e ∧ d.loadEnd entries retired = e.enterServing := by
  have loads := d.loadsTo_testSpares entries (loadedSpare entries retired)
  refine ⟨_, loads, (d.loadEnd_eq entries retired).trans (Device.tableLoaded_of_loading ?_ ?_)⟩
  · rw [loads.mode, hm]
  · rw [loads.mode, hs]

/-- Settles O48: the load leaves its state with the lock as the spares give it, and the entry to SERVING opens the sessions behind it. -/
theorem endOfLoadEntersServing : Obligations.EndOfLoadEntersServing := by
  intro d entries retired starting loading spareOf loaded t
  obtain ⟨e, loads, enters⟩ := d.loadEnd_of_loading starting loading entries retired
  have serves : t = _ := enters.trans e.enterServing_eq
  have serves_port (p : Port) : t.port p = e.openedPort p := (congrArg (Device.port · p) enters).trans (e.enterServing_port p)
  refine ⟨?_, ?_, ?_, fun p waits alone room => ?_, fun p idle detached => ?_, ?_, ?_, ?_, ?_, ?_⟩
  · rw [serves]
  · rw [serves]
    exact loads.remap
  · rw [serves]
    exact congrArg₂ (fun flags (mode : ModeCtl) => flags ||| if mode.restart then 0x100#9 else 0) loads.flags loads.mode
  · have here := loads.port p (PortUnit.not_attached_of_waiting waits)
    have there := loads.port p.other alone
    rw [serves_port, Device.openedPort_of_waiting (there ▸ alone) (here ▸ waits) (here ▸ room), here, there, loads.channel, loads.lock]
    rfl
  · have here := loads.port p detached
    rw [serves_port, Device.openedPort_of_idle (here ▸ idle) (here ▸ detached), here]
  · exact (congrArg Device.frames serves).trans loads.frames
  · exact (congrArg Device.tracker serves).trans loads.tracker
  · exact (congrArg Device.channel serves).trans loads.channel
  · exact (congrArg Device.reservations serves).trans loads.reservations
  · exact (congrArg Device.resetAsserted serves).trans loads.reset

end Sys2Proof.Machine
end

section
/-!
SUPPORT and PROOF. The table image (section 11.3): what is built is what the judging of a copy reads back, field by field (R93, R100,
R184).
-/

namespace Sys2Proof.Machine

/-! ### Fields (chapter 11) -/

@[simp] theorem beBytes_length (n v : Nat) : (beBytes n v).length = n := by simp [beBytes]

@[simp] theorem crcField_length (bs : List Byte) : (crcField bs).length = 4 := beBytes_length 4 _

/-- The value of a field grows by its last byte. -/
theorem beValue_concat (bs : List Byte) (b : Byte) : beValue (bs ++ [b]) = beValue bs * 256 + b.toNat := by
  simp [beValue]

/-- A field's last byte is the value's, and the bytes before it are those of the rest. -/
theorem beBytes_succ (n v : Nat) : beBytes (n + 1) v = beBytes n (v / 256) ++ [BitVec.ofNat 8 v] := by
  have before (i : Nat) (hi : i < n) : v / 256 ^ (n + 1 - 1 - i) = v / 256 / 256 ^ (n - 1 - i) := by
    rw [Nat.div_div_eq_div_mul, ← pow_succ', show n - 1 - i + 1 = n + 1 - 1 - i by omega]
  rw [beBytes, List.range_succ, List.map_append, beBytes]
  refine congrArg₂ (· ++ ·) (List.map_congr_left fun i hi => ?_) (by simp)
  rw [before i (List.mem_range.mp hi)]

/-- A value that fits its field is read back. -/
theorem beValue_beBytes {n v : Nat} (h : v < 256 ^ n) : beValue (beBytes n v) = v := by
  induction n generalizing v with
  | zero => simp_all [beBytes, beValue]
  | succ n ih =>
    have rest : v / 256 < 256 ^ n := Nat.div_lt_of_lt_mul (by rwa [← pow_succ'])
    rw [beBytes_succ, beValue_concat, ih rest, BitVec.toNat_ofNat]
    omega

theorem field_append_left {a : List Byte} {pos len : Nat} (h : pos + len ≤ a.length) (b : List Byte) :
    field (a ++ b) pos len = field a pos len := by
  rw [field, List.drop_append_of_le_length (by omega), List.take_append_of_le_length (by simp; omega), field]

theorem field_append_right {a : List Byte} {n : Nat} (h : a.length = n) (b : List Byte) (pos len : Nat) :
    field (a ++ b) (n + pos) len = field b pos len := by
  rw [field, ← List.drop_drop, List.drop_left' h, field]

theorem field_take {bs : List Byte} {pos len n : Nat} (h : pos + len ≤ n) : field (bs.take n) pos len = field bs pos len := by
  rw [field, List.drop_take, List.take_take, Nat.min_eq_left (by omega), field]

/-! ### The parts of an image (Table 11-7) -/

/-- The first 16 bytes of an image: its header and the header's check. -/
def checkedHeader (generation entries : Nat) : List Byte :=
  imageHeader generation entries ++ crcField (imageHeader generation entries)

/-- The bytes before the image check. -/
def imageFront (generation entries : Nat) (retired : Nat → Bool) : List Byte :=
  checkedHeader generation entries ++ retiredBytes retired

/-- The bytes behind the image check. -/
def imageBack (entries : List RemapEntry) : List Byte :=
  List.replicate 460 0 ++ entries.flatMap entrySlot ++ List.replicate (2048 - (entries.flatMap entrySlot).length) 0

theorem buildImage_eq (generation : Nat) (entries : List RemapEntry) (retired : Nat → Bool) : buildImage generation entries retired =
    imageFront generation entries.length retired ++ crcField (imageFront generation entries.length retired ++ [0, 0, 0, 0]
      ++ imageBack entries) ++ imageBack entries := rfl

@[simp] theorem checkedHeader_length (generation entries : Nat) : (checkedHeader generation entries).length = 16 := by
  simp [checkedHeader, imageHeader]

@[simp] theorem imageFront_length (generation entries : Nat) (retired : Nat → Bool) :
    (imageFront generation entries retired).length = 48 := by
  simp [imageFront, retiredBytes]

@[simp] theorem entrySlot_length (e : RemapEntry) : (entrySlot e).length = 8 := by simp [entrySlot]

@[simp] theorem slots_length (entries : List RemapEntry) : (entries.flatMap entrySlot).length = 8 * entries.length := by
  simp [List.length_flatMap, mul_comm]

theorem imageBack_length {entries : List RemapEntry} (h : entries.length ≤ 256) : (imageBack entries).length = 2508 := by
  simp only [imageBack, List.length_append, List.length_replicate, slots_length]
  omega

section
variable (generation : Nat) {entries : List RemapEntry} (retired : Nat → Bool)

theorem buildImage_length (h : entries.length ≤ 256) : (buildImage generation entries retired).length = 2560 := by
  simp [buildImage_eq, imageBack_length h]

/-- A field of the header and its check stands in the image as it was built. -/
theorem field_buildImage_header {pos len : Nat} (h : pos + len ≤ 16) :
    field (buildImage generation entries retired) pos len = field (checkedHeader generation entries.length) pos len := by
  rw [buildImage_eq, imageFront]
  simp only [List.append_assoc]
  exact field_append_left (by simpa using h) _

/-- The image check is that of the image with its four bytes zero. -/
theorem imageGood_buildImage : imageGood (buildImage generation entries retired) = true := by
  refine decide_eq_true ?_
  rw [buildImage_eq]
  generalize hb : imageBack entries = back
  generalize hf : imageFront generation entries.length retired = front
  have front_length : front.length = 48 := by rw [← hf, imageFront_length]
  rw [List.append_assoc, field, List.drop_left' front_length, List.take_left' (crcField_length _), List.take_left' front_length,
    ← List.append_assoc, List.drop_left' (by simp [front_length])]

end

/-! ### The header read back (Table 11-7) -/

theorem signature_checkedHeader (generation entries : Nat) : beValue (field (checkedHeader generation entries) 0 4) = Config.signature :=
  beValue_beBytes (n := 4) (v := Config.signature) (by decide)

theorem generation_checkedHeader {generation : Nat} (h : generation < 2 ^ 32) (entries : Nat) :
    beValue (field (checkedHeader generation entries) 4 4) = generation :=
  beValue_beBytes (n := 4) h

theorem count_checkedHeader (generation : Nat) {entries : Nat} (h : entries ≤ 256) :
    beValue (field (checkedHeader generation entries) 8 2) = entries :=
  beValue_beBytes (n := 2) (by omega)

theorem crc_checkedHeader (generation entries : Nat) :
    field (checkedHeader generation entries) 12 4 = crcField (field (checkedHeader generation entries) 0 12) := rfl

/-! ### The entries read back (Table 11-7) -/

/-- A record of a row of equally long records stands at its multiple of their length. -/
theorem field_flatMap {α : Type} {f : α → List Byte} {k : Nat} (hk : ∀ x, (f x).length = k) {l : List α} {i : Nat} (hi : i < l.length)
    (rest : List Byte) : field (l.flatMap f ++ rest) (k * i) k = f l[i] := by
  induction l generalizing i with
  | nil => simp at hi
  | cons x xs ih =>
    rw [List.flatMap_cons, List.append_assoc]
    cases i with
    | zero => rw [field, Nat.mul_zero, List.drop_zero, List.take_left' (hk x), List.getElem_cons_zero]
    | succ i =>
      have behind : field (f x ++ (xs.flatMap f ++ rest)) (k * (i + 1)) k = field (xs.flatMap f ++ rest) (k * i) k := by
        rw [Nat.mul_succ, Nat.add_comm, field_append_right (hk x)]
      rw [behind, ih (Nat.lt_of_succ_lt_succ hi), List.getElem_cons_succ]

/-- An entry as it is after a load (R100). -/
def RemapEntry.loaded (e : RemapEntry) : RemapEntry := { e with state := .active }

/-- The entries begin at the second block. -/
theorem field_buildImage_slot (generation : Nat) {entries : List RemapEntry} (retired : Nat → Bool) {i : Nat} (hi : i < entries.length) :
    field (buildImage generation entries retired) (512 + 8 * i) 8 = entrySlot entries[i] := by
  rw [buildImage_eq, imageBack]
  simp only [List.append_assoc]
  simp only [← List.append_assoc _ _ (entries.flatMap entrySlot ++ _)]
  rw [field_append_right (by simp only [List.length_append, List.length_replicate, imageFront_length, crcField_length]),
    field_flatMap entrySlot_length hi]

/-- An entry is read back from its slot. -/
theorem readSlot_of_entrySlot {image : List Byte} {i : Nat} {e : RemapEntry} (h : field image (512 + 8 * i) 8 = entrySlot e)
    (hb : e.block < 2 ^ 32) : readSlot image i = e.loaded := by
  have block : beValue ((entrySlot e).take 4) = e.block := beValue_beBytes (n := 4) hb
  have spare : ((entrySlot e).getD 4 0).toNat = e.spare.val := Nat.mod_eq_of_lt e.spare.isLt
  simp only [readSlot, h, block, spare, RemapEntry.loaded]

/-! ### The RETIRED set read back (Table 11-7) -/

/-- A sum of distinct powers of two has the bits of its terms. -/
theorem testBit_sum_pow (bit : Nat → Bool) (n : Nat) :
    let sum := ((List.range n).map fun i => if bit i then 2 ^ i else 0).sum
    sum < 2 ^ n ∧ ∀ k < n, sum.testBit k = bit k := by
  induction n with
  | zero => simp
  | succ n ih =>
    dsimp only at ih ⊢
    rw [List.range_succ, List.map_append, List.sum_append]
    generalize ((List.range n).map fun i => if bit i then 2 ^ i else 0).sum = low at ih ⊢
    obtain ⟨small, bits⟩ := ih
    cases hbit : bit n with
    | false =>
      refine ⟨by simpa [hbit] using small.trans (Nat.pow_lt_pow_succ (by decide)), fun k hk => ?_⟩
      obtain below | rfl := Nat.lt_succ_iff_lt_or_eq.mp hk
      · simpa [hbit] using bits k below
      · simpa [hbit] using Nat.testBit_lt_two_pow small
    | true =>
      refine ⟨by simp [hbit, pow_succ]; omega, fun k hk => ?_⟩
      rw [Nat.add_comm]
      obtain below | rfl := Nat.lt_succ_iff_lt_or_eq.mp hk
      · simpa [hbit, Nat.testBit_two_pow_add_gt below] using bits k below
      · simp [hbit, Nat.testBit_two_pow_add_eq, Nat.testBit_lt_two_pow small]

theorem retiredBit_buildImage (generation : Nat) (entries : List RemapEntry) (retired : Nat → Bool) {i : Nat} (hi : i < 256) :
    retiredBit (buildImage generation entries retired) i = retired i := by
  have inside : i / 8 < 32 := by omega
  have byte : (buildImage generation entries retired).getD (16 + i / 8) 0 =
      BitVec.ofNat 8 (((List.range 8).map fun k => if retired (8 * (i / 8) + k) then 2 ^ k else 0).sum) := by
    rw [buildImage_eq, imageFront]
    simp only [List.append_assoc]
    rw [List.getD_append_right _ _ _ _ (by simp), checkedHeader_length, Nat.add_sub_cancel_left,
      List.getD_append _ _ _ _ (by simpa [retiredBytes] using inside)]
    simp [retiredBytes, inside]
  rw [retiredBit, byte, BitVec.getLsbD_ofNat, (testBit_sum_pow (fun k => retired (8 * (i / 8) + k)) 8).2 _ (Nat.mod_lt _ (by decide)),
    Nat.div_add_mod]
  simp [Nat.mod_lt]

/-! ### The copy judged (R100) -/

theorem blockOfList_toList {bs : List Byte} (h : 512 ≤ bs.length) : (blockOfList bs).toList = bs.take 512 := by
  refine List.ext_getElem (by simp [h]) fun i hi _ => ?_
  have inside : i < bs.length := by
    simp at hi
    omega
  simp [blockOfList, inside]

/-- Blocks taken one behind the other are the bytes they cover. -/
theorem flatMap_blocks (bs : List Byte) (n : Nat) :
    ((List.range n).flatMap fun i => (bs.drop (512 * i)).take 512) = bs.take (512 * n) := by
  induction n with
  | zero => simp
  | succ n ih => rw [List.range_succ, List.flatMap_append, ih, List.flatMap_singleton, Nat.mul_succ, List.take_add]

/-- The blocks of a whole image are the image (R184). -/
theorem flatMap_imageBlocks {image : List Byte} (h : image.length = 2560) : (imageBlocks image).flatMap (·.toList) = image := by
  have blocks : (imageBlocks image).flatMap (·.toList) = (List.range 5).flatMap fun i => (image.drop (512 * i)).take 512 := by
    rw [imageBlocks, List.flatMap_map]
    refine List.flatMap_congr fun i hi => blockOfList_toList ?_
    have := List.mem_range.mp hi
    rw [List.length_drop]
    omega
  rw [blocks, flatMap_blocks, List.take_of_length_le (by omega)]

/-- R100: a copy whose blocks are all read, and good in every check, is valid with what its image says. -/
theorem judgeCopy_of_good {head : Block} {rest : List Block} {image : List Byte} (whole : (head :: rest).flatMap (·.toList) = image)
    (signature : hasSignature head.toList = true) (header : headerGood head.toList = true) (check : imageGood image = true)
    {count : Nat} (hc : beValue (field head.toList 8 2) = count) {entries : List RemapEntry}
    (he : (List.range (min count 256)).map (readSlot image) = entries) (good : entriesGood image count entries = true) :
    judgeCopy ((head :: rest).map some) =
      { blank := false, generation := some (beValue (field head.toList 4 4)), valid := some (image, entries) } := by
  have read : ((rest.map some).all Option.isSome) = true := by simp
  have joined : (head.toList ++ (rest.map some).flatMap fun b => (b.map fun v => v.toList).getD []) = image := by
    rw [List.flatMap_map]
    exact whole
  rw [List.map_cons, judgeCopy]
  simp only [signature, header, read, joined, hc, he, check, good, if_true, Bool.and_self]

/-- R184: entries in ascending order pass their test. -/
theorem ascendingBlocks_of_pairwise {l : List RemapEntry} (h : l.Pairwise fun a b => a.block < b.block) : ascendingBlocks l = true := by
  induction l with
  | nil => rfl
  | cons e l ih =>
    obtain ⟨before, sorted⟩ := List.pairwise_cons.mp h
    cases l with
    | nil => rfl
    | cons f l => simp [ascendingBlocks, ih sorted, before]

/-- Settles O49: every field of the image is read back as it was built. -/
theorem imageIsLoadedAsItWasBuilt : Obligations.ImageIsLoadedAsItWasBuilt := by
  intro generation entries retired fits few sorted blocks spares alive image
  have length : image.length = 2560 := buildImage_length generation retired few
  have bits (i : Nat) (hi : i < 256) : retiredBit image i = retired i := retiredBit_buildImage generation entries retired hi
  refine ⟨length, ?_, bits⟩
  have header {pos len : Nat} (h : pos + len ≤ 16) :
      field (blockOfList image).toList pos len = field (checkedHeader generation entries.length) pos len := by
    rw [blockOfList_toList (by omega), field_take (by omega), field_buildImage_header generation retired h]
  have slots : (List.range (min entries.length 256)).map (readSlot image) = entries.map RemapEntry.loaded := by
    rw [Nat.min_eq_left few]
    refine List.ext_getElem (by simp) fun i hi _ => ?_
    have inside : i < entries.length := by simpa using hi
    rw [List.getElem_map, List.getElem_map, List.getElem_range]
    exact readSlot_of_entrySlot (field_buildImage_slot generation retired inside) (blocks _ (List.getElem_mem inside))
  have good : entriesGood image entries.length (entries.map RemapEntry.loaded) = true := by
    have ascending := ascendingBlocks_of_pairwise (List.pairwise_map.mpr sorted : (entries.map RemapEntry.loaded).Pairwise _)
    have distinct : ((entries.map RemapEntry.loaded).map fun e => e.spare).Nodup := by
      rw [List.map_map]
      exact spares
    have not_retired : (entries.map RemapEntry.loaded).all (fun e => !retiredBit image e.spare.val) = true := by
      rw [List.all_map, List.all_eq_true]
      intro e he
      have alive_e : retiredBit image e.loaded.spare.val = false := (bits _ e.spare.isLt).trans (alive e he)
      exact congrArg (!·) alive_e
    rw [entriesGood, ascending, not_retired, decide_eq_true few, decide_eq_true distinct]
    rfl
  have split : imageBlocks image = blockOfList image :: (imageBlocks image).tail := rfl
  have whole := flatMap_imageBlocks length
  rw [split] at whole ⊢
  rw [judgeCopy_of_good whole ?_ ?_ (imageGood_buildImage generation retired) ?_ slots good, header (by decide),
    generation_checkedHeader fits]
  · rfl
  · refine beq_iff_eq.mpr ?_
    exact (congrArg beValue (header (pos := 0) (len := 4) (by decide))).trans (signature_checkedHeader _ _)
  · refine decide_eq_true ?_
    have start : (blockOfList image).toList.take 12 = _ := header (pos := 0) (len := 12) (by decide)
    rw [header (by decide), start, crc_checkedHeader]
  · rw [header (by decide), count_checkedHeader generation few]

end Sys2Proof.Machine
end

section
/-!
SUPPORT and PROOF. The reservation COMMANDs as the table decides them: RESERVE by the first test that holds (R109), RENEW and RELEASE by
the entry the id names (R115, R116).
-/

namespace Sys2Proof.Machine

/-! ### The lowest free id (R107) -/

theorem Reservations.freeId_eq_none {r : Reservations} (full : ∀ id : ResId, r.entries[id] ≠ none) : r.freeId = none := by
  simpa [Reservations.freeId] using full

theorem Reservations.freeId_eq_some {r : Reservations} {id : ResId} (free : r.entries[id] = none)
    (lowest : ∀ j < id, r.entries[j] ≠ none) : r.freeId = some id := by
  refine List.find?_eq_some_iff_getElem.mpr ⟨decide_eq_true free, id.val, by simp, by simp, fun j hj => ?_⟩
  have taken := lowest ⟨j, hj.trans id.isLt⟩ hj
  simpa using taken

/-! ### The tests of a RESERVE (R109) -/

section
variable {p : Port} {tag : Tag} {start count ticks : Nat} {d : Device}

/-- A RESERVE that passed its checks is handed to the reservation table (Table 8-1). -/
theorem Device.acceptReserve_of_passed (h : d.refusesReserve start count ticks = none) :
    d.acceptReserve p tag start count ticks = d.decideReserve p tag start count ticks := by
  unfold Device.refusesReserve at h
  split_ifs at h with range mode bounds
  have inside : ¬(count = 0 ∨ Config.maxReserve < count ∨ ticks = 0 ∨ Config.maxLease < ticks) := by
    simp only [Config.maxReserve, Config.maxLease]
    omega
  rw [Device.acceptReserve, if_neg range, if_neg mode, if_neg inside]

theorem Device.decideReserve_of_conflict (h : d.reservations.protecting start count ≠ []) :
    d.decideReserve p tag start count ticks = d.reply p tag .conflict .none := by
  rw [Device.decideReserve, if_pos (by simpa using h)]

variable (apart : d.reservations.protecting start count = [])
include apart

theorem Device.decideReserve_of_full (full : ∀ id : ResId, d.reservations.entries[id] ≠ none) :
    d.decideReserve p tag start count ticks = d.reply p tag .tableFull .none := by
  rw [Device.decideReserve, if_neg (by simp [apart]), Reservations.freeId_eq_none full]

variable {id : ResId} (lowest : d.reservations.freeId = some id)
include lowest

theorem Device.decideReserve_of_overlap (h : (d.port p.other).writeOverlaps start count = true) :
    d.decideReserve p tag start count ticks =
      (d.setEntry id (some { holder := p, start := start, count := count, state := .pending ticks tag })).setCommand p tag
        (some (.reserve { start := start, count := count, ticks := ticks, id := id })) := by
  rw [Device.decideReserve, if_neg (by simp [apart]), lowest]
  exact if_pos h

theorem Device.decideReserve_of_clear (h : (d.port p.other).writeOverlaps start count = false) :
    d.decideReserve p tag start count ticks =
      (d.setEntry id (some { holder := p, start := start, count := count, state := .granted ticks })).reply p tag .good
        (.reservation id) := by
  rw [Device.decideReserve, if_neg (by simp [apart]), lowest]
  exact if_neg (by simp [h])

end

/-! ### The entry an id names (R115, R116) -/

theorem Reservations.entryAt_beyond {r : Reservations} {id : Nat} (h : 15 < id) : r.entryAt id = none :=
  dif_neg (by omega)

@[simp] theorem Device.setEntry_port (id : ResId) (e : Option Reservation) (q : Port) (d : Device) :
    (d.setEntry id e).port q = d.port q := by cases q <;> rfl

/-- A lease of 1 to 60000 ticks passes the check of a RENEW (R115). -/
theorem not_beyond_maxLease {ticks : Nat} (low : 1 ≤ ticks) (high : ticks ≤ 60000) : ¬(ticks = 0 ∨ Config.maxLease < ticks) := by
  simp only [Config.maxLease]
  omega

/-! ### The three COMMANDs as events -/

section
variable {s : State} {p : Port} {tag : Tag} (hears : s.Hears p) (free : s.TagFree p tag)
include hears

/-- A port that hears a COMMAND has room for its RESPONSE. -/
theorem Device.reply_of_hears (st : Status) (pl : Payload) :
    s.reply p tag st pl = s.says p [.response tag st 0 none pl] :=
  Device.reply_of_room (hears.1.room.le.trans (by decide)) tag st pl

/-- So it has when the COMMAND has changed an entry of the table. -/
theorem Device.reply_setEntry_of_hears (id : ResId) (e : Option Reservation) (st : Status) (pl : Payload) :
    (s.setEntry id e).reply p tag st pl = (s.setEntry id e).says p [.response tag st 0 none pl] :=
  Device.reply_of_room (by simpa using hears.1.room.le.trans (by decide)) tag st pl

include free

theorem exec_reserve (start count : BitVec 32) (ticks : BitVec 16)
    (passed : s.refusesReserve start.toNat count.toNat ticks.toNat = none) : exec (.reserve p tag start count ticks) s =
      .next { s with toDevice := s.decideReserve p tag start.toNat count.toNat ticks.toNat } := by
  show execReserve p tag start count ticks s = _
  rw [execReserve, State.event_of_takes hears.1, Device.takeMessage, Device.takeCommand_of_hears hears free,
    Device.acceptReserve_of_passed passed]

theorem exec_renew (id : Byte) (ticks : BitVec 16) : exec (.renew p tag id ticks) s =
    .next { s with toDevice := s.acceptRenew p tag id.toNat ticks.toNat } := by
  show execRenew p tag id ticks s = _
  rw [execRenew, State.event_of_takes hears.1, Device.takeMessage, Device.takeCommand_of_hears hears free]

theorem exec_release (id : Byte) : exec (.release p tag id) s =
    .next { s with toDevice := s.acceptRelease p tag id.toNat } := by
  show execRelease p tag id s = _
  rw [execRelease, State.event_of_takes hears.1, Device.takeMessage, Device.takeCommand_of_hears hears free]

end

/-- Settles O19: the four tests in their order, the last two at the lowest free id. -/
theorem reserveIsDecidedByTheFirstTestThatHolds : Obligations.ReserveIsDecidedByTheFirstTestThatHolds := by
  intro s p tag start count ticks hears free passed
  dsimp only
  rw [exec_reserve hears free start count ticks passed]
  refine ⟨fun conflict => State.next_congr ?_, fun apart => ⟨fun full => State.next_congr ?_, fun id unused lowest => ?_⟩⟩
  · rw [Device.decideReserve_of_conflict conflict, Device.reply_of_hears hears]
  · rw [Device.decideReserve_of_full apart full, Device.reply_of_hears hears]
  · have chosen := Reservations.freeId_eq_some unused lowest
    refine ⟨fun overlap => State.next_congr ?_, fun clear => State.next_congr ?_⟩
    · rw [Device.decideReserve_of_overlap apart chosen overlap]
    · rw [Device.decideReserve_of_clear apart chosen clear, Device.reply_setEntry_of_hears hears]

/-- Settles O20: the entry by its holder and its state, and no entry for an id that is free or above 15. -/
theorem renewIsDecidedByItsEntry : Obligations.RenewIsDecidedByItsEntry := by
  intro s p tag id ticks hears free low high
  dsimp only
  rw [exec_renew hears free, Device.acceptRenew, if_neg (not_beyond_maxLease low high)]
  refine ⟨fun i names => ?_, fun beyond => State.next_congr ?_⟩
  · rw [Reservations.entryAt_of_eq names]
    refine ⟨fun start count n entry => State.next_congr ?granted, fun start count entry => State.next_congr ?lapsed,
      fun start count n t entry => State.next_congr ?pending, fun e entry others => State.next_congr ?others,
      fun entry => State.next_congr ?unused⟩
    case granted => simp [entry, Device.reply_setEntry_of_hears hears]
    case lapsed => simp [entry, Device.reply_setEntry_of_hears hears]
    case pending => simp [entry, Device.reply_of_hears hears]
    case others => simp [entry, others, Port.other_ne, Device.reply_of_hears hears]
    case unused => simp [entry, Device.reply_of_hears hears]
  · rw [Reservations.entryAt_beyond beyond]
    exact Device.reply_of_hears hears _ _

/-- Settles O21: a PENDING entry of either holder, then GRANTED and LAPSED ones by their holder, and no entry for an id that is free or
above 15. -/
theorem releaseIsDecidedByItsEntry : Obligations.ReleaseIsDecidedByItsEntry := by
  intro s p tag id hears free
  dsimp only
  rw [exec_release hears free, Device.acceptRelease]
  refine ⟨fun i names => ?_, fun beyond => State.next_congr ?_⟩
  · rw [Reservations.entryAt_of_eq names]
    refine ⟨fun start count n entry => State.next_congr ?granted, fun start count entry => State.next_congr ?lapsed,
      fun h start count n t entry => State.next_congr ?pending, fun start count n entry => State.next_congr ?othersGranted,
      fun start count entry => State.next_congr ?othersLapsed, fun entry => State.next_congr ?unused⟩
    case granted => simp [entry, Device.reply_setEntry_of_hears hears]
    case lapsed => simp [entry, Device.reply_setEntry_of_hears hears]
    case pending => simp [entry, Device.reply_of_hears hears]
    case othersGranted => simp [entry, Port.other_ne, Device.reply_of_hears hears]
    case othersLapsed => simp [entry, Port.other_ne, Device.reply_of_hears hears]
    case unused => simp [entry, Device.reply_of_hears hears]
  · rw [Reservations.entryAt_beyond beyond]
    exact Device.reply_of_hears hears _ _

end Sys2Proof.Machine
end

section
/-!
SUPPORT and PROOF. The grant of write credits (R130): the buffers it promises, its CREDIT, and its place behind the rest of an event.
-/

namespace Sys2Proof.Machine

/-! ### The grant on its port (R130) -/

/-- Every buffer of the list is PROMISED, and no other buffer changes. -/
theorem PortUnit.landing_promised (l : List BufNo) (u : PortUnit) : (l.foldl (fun u b => u.setLanding b .promised) u).landing =
    Vector.ofFn fun b => if l.contains b then .promised else u.landing[b] := by
  induction l generalizing u with
  | nil => exact Vector.ext fun i hi => by simp
  | cons c l ih =>
    rw [List.foldl_cons, ih]
    refine congrArg Vector.ofFn (funext fun b => ?_)
    by_cases same : b = c
    · subst same
      simp [PortUnit.setLanding]
    · simp [same, PortUnit.setLanding_other same]

/-- R130: a grant of some credits promises the lowest FREE buffers and stands as one CREDIT at the tail of an order with room. -/
theorem PortUnit.grant_of_room {u : PortUnit} (some_due : u.grantSize ≠ 0) (room : u.outbound.length ≤ 256) :
    u.grant = { u with
      landing := Vector.ofFn fun b => if (u.freeBuffers.take u.grantSize).contains b then .promised else u.landing[b]
      outbound := u.outbound ++ [.credit u.grantSize] } := by
  have promised := PortUnit.promise_fields (u.freeBuffers.take u.grantSize) u
  rw [PortUnit.landing_promised] at promised
  dsimp only [PortUnit.grant]
  rw [if_neg some_due, promised, PortUnit.enqueue_of_room]
  exact room

/-! ### The grant's place in its event (log 6, log 32) -/

/-- The row grants behind the rest of its event, on the port it names first. -/
theorem exec_writeCreditGrant {s : State} (running : s.resetAsserted = false) (p : Port) :
    exec (.writeCreditGrant p) s = .next { s with toDevice := (s.settle.grantCredits p).grantCredits p.other } := by
  show execWriteCreditGrant p s = _
  rw [execWriteCreditGrant, State.event_of_released running]

/-- The rest of an event that finds engines, arbiter and orders with nothing to do is the test of the PENDING entries. -/
theorem Device.settle_of_calm {d : Device} (calm : d.Calm) (fits : d.overflowStep = none) :
    d.settle = (d.testPending .a).testPending .b := by
  rw [Device.settle, Device.quieten_of_calm calm fits]

/-- Settles O30: the row and the closing by their place in the event, and the grant on its port by the number due. -/
theorem writeCreditsAreGrantedForBlocksToCome : Obligations.WriteCreditsAreGrantedForBlocksToCome := by
  refine ⟨fun s p running => ⟨exec_writeCreditGrant running p, fun calm fits => ?_⟩, fun d => rfl, fun d p => ?_⟩
  · rw [exec_writeCreditGrant running, Device.settle_of_calm calm fits]
  · exact ⟨fun some_due room => Device.onPort_congr (PortUnit.grant_of_room some_due room), Device.grantCredits_of_zero⟩

end Sys2Proof.Machine
end

section
/-!
SUPPORT and PROOF. The reservation entries that are counted, lapsed and granted (R111, R113, R114). The lease tick and the test of the
PENDING entries take the ids in ascending order, and at each id they change its own entry and what that entry says to the ports. So a
pass over the ids comes to one change of every entry and one fold over each port (`Device.foldl_visit`).
-/

namespace Sys2Proof.Machine

/-! ### The reservations and the ports replaced -/

theorem Device.port_of_reservations (r : Reservations) (p : Port) (d : Device) :
    ({ d with reservations := r } : Device).port p = d.port p := by cases p <;> rfl

/-- The part with the reservation entries and the port units as given. -/
def Device.revised (entries : Vector (Option Reservation) 16) (units : Port → PortUnit) (d : Device) : Device :=
  { d with reservations := { d.reservations with entries := entries }, portA := units .a, portB := units .b }

/-- Entries and ports revised where the other port stays are the entries and one port revised. -/
theorem Device.eq_onPort_of_revised {entries : Vector (Option Reservation) 16} {units : Port → PortUnit} {p : Port} {d e : Device}
    (revised : e = d.revised entries units) (other : e.port p.other = d.port p.other) :
    e = ({ d with reservations := e.reservations } : Device).onPort p fun _ => e.port p := by
  subst revised
  cases p
  · exact congrArg (fun u => ({ (d.revised entries units) with portB := u } : Device)) other
  · exact congrArg (fun u => ({ (d.revised entries units) with portA := u } : Device)) other

theorem Device.revised_revised (entries entries' : Vector (Option Reservation) 16) (units units' : Port → PortUnit) (d : Device) :
    (d.revised entries units).revised entries' units' = d.revised entries' units' := rfl

theorem Device.revised_clockRunning (entries : Vector (Option Reservation) 16) (units : Port → PortUnit) (d : Device) :
    (d.revised entries units).reservations.clockRunning = d.reservations.clockRunning := rfl

theorem Device.setEntry_onPort (id : ResId) (e : Option Reservation) (p : Port) (f : PortUnit → PortUnit) (d : Device) :
    (d.setEntry id e).onPort p f =
      d.revised (d.reservations.entries.set id.val e) fun q => if q = p then f (d.port q) else d.port q := by cases p <;> rfl

/-! ### A pass over the entries -/

/-- Each id of the list has its entry changed, and each port takes in turn what the entry, as it was, brings to it. -/
def Device.visit (entry : Option Reservation → Option Reservation) (unit : Port → ResId → Option Reservation → PortUnit → PortUnit)
    (ids : List ResId) (d : Device) : Device :=
  d.revised (Vector.ofFn fun id => if id ∈ ids then entry d.reservations.entries[id] else d.reservations.entries[id])
    fun q => ids.foldl (fun u id => unit q id d.reservations.entries[id] u) (d.port q)

section
variable {entry : Option Reservation → Option Reservation} {unit : Port → ResId → Option Reservation → PortUnit → PortUnit}

theorem Device.visit_nil (d : Device) : d.visit entry unit [] = d := by
  have entries : (Vector.ofFn fun id : ResId => d.reservations.entries[id]) = d.reservations.entries := Vector.ext fun i hi => by simp
  exact congrArg (fun v => d.revised v d.port) entries

theorem Device.visit_entry (ids : List ResId) (d : Device) (id : ResId) : (d.visit entry unit ids).reservations.entries[id] =
    if id ∈ ids then entry d.reservations.entries[id] else d.reservations.entries[id] := by simp [Device.visit, Device.revised]

theorem Device.visit_port (ids : List ResId) (d : Device) (q : Port) : (d.visit entry unit ids).port q =
    ids.foldl (fun u id => unit q id d.reservations.entries[id] u) (d.port q) := by cases q <;> rfl

theorem Device.visit_revised (ids : List ResId) (entries : Vector (Option Reservation) 16) (units : Port → PortUnit) (d : Device) :
    (d.visit entry unit ids).revised entries units = d.revised entries units := d.revised_revised ..

/-- An id visited before others that are not it is visited with them. -/
theorem Device.visit_cons {id : ResId} {ids : List ResId} (fresh : id ∉ ids) (d : Device) :
    (d.visit entry unit [id]).visit entry unit ids = d.visit entry unit (id :: ids) := by
  have untouched (j : ResId) (hj : j ∈ ids) : (d.visit entry unit [id]).reservations.entries[j] = d.reservations.entries[j] := by
    rw [Device.visit_entry, if_neg]
    rintro (_ | ⟨_, ⟨⟩⟩)
    exact fresh hj
  refine (Device.visit_revised [id] _ _ d).trans
    (congrArg₂ (fun v u => d.revised (Vector.ofFn v) u) (funext fun j => ?_) (funext fun q => ?_))
  · by_cases later : j ∈ ids
    · rw [if_pos later, if_pos (List.mem_cons_of_mem _ later), untouched j later]
    · rw [if_neg later, Device.visit_entry]
      simp [later]
  · rw [Device.visit_port]
    exact List.foldl_ext _ _ _ fun u j hj => by rw [untouched j hj]

/-- A fold of visits over distinct ids is one visit, as long as what the visits rest on is kept. -/
theorem Device.foldl_visit {f : Device → ResId → Device} {holds : Device → Prop}
    (visits : ∀ d id, holds d → f d id = d.visit entry unit [id]) (keeps : ∀ d id, holds d → holds (d.visit entry unit [id]))
    {ids : List ResId} (distinct : ids.Nodup) {d : Device} (h : holds d) : ids.foldl f d = d.visit entry unit ids := by
  induction ids generalizing d with
  | nil => exact d.visit_nil.symm
  | cons id ids ih =>
    obtain ⟨fresh, rest⟩ := List.nodup_cons.mp distinct
    rw [List.foldl_cons, visits d id h, ih rest (keeps d id h), Device.visit_cons fresh]

section
variable {id : ResId} {d : Device}

/-- One id visited: its entry is set, and a port takes what the entry brings to it where the other port takes nothing. -/
theorem Device.visit_one (p : Port) (silent : ∀ u, unit p.other id d.reservations.entries[id] u = u) :
    d.visit entry unit [id] = (d.setEntry id (entry d.reservations.entries[id])).onPort p (unit p id d.reservations.entries[id]) := by
  have entries : (Vector.ofFn fun j : ResId => if j ∈ [id] then entry d.reservations.entries[j] else d.reservations.entries[j]) =
      d.reservations.entries.set id.val (entry d.reservations.entries[id]) := by
    refine Vector.ext fun j hj => ?_
    simp only [Vector.getElem_ofFn, Vector.getElem_set, List.mem_singleton, Fin.ext_iff]
    by_cases same : j = id.val
    · subst same
      simp
    · simp [same, Ne.symm same]
  rw [Device.visit, entries, Device.setEntry_onPort]
  refine congrArg (d.revised _) (funext fun q => ?_)
  obtain rfl | rfl := Port.eq_or_other p q
  · rw [if_pos rfl]
    rfl
  · rw [if_neg (Port.other_ne p)]
    exact silent _

theorem Device.visit_silent (silent : ∀ q u, unit q id d.reservations.entries[id] u = u) :
    d.visit entry unit [id] = d.setEntry id (entry d.reservations.entries[id]) := by
  rw [Device.visit_one .a (silent _), Device.onPort, silent, Device.setPort_port_self]

theorem Device.setEntry_self : d.setEntry id d.reservations.entries[id] = d := by
  simp [Device.setEntry]

end

end

end Sys2Proof.Machine
end

section
/-!
SUPPORT and PROOF. The lease tick and the lapse (R113, R114), as one pass over the entries.
-/

namespace Sys2Proof.Machine

/-! ### One entry counted (R114) -/

/-- An entry after a tick: a GRANTED one counted down, and LAPSED at 0. -/
def entryAfterTick : Option Reservation → Option Reservation
  | some { holder := h, start := st, count := ct, state := .granted n } =>
    some { holder := h, start := st, count := ct, state := if n ≤ 1 then .lapsed else .granted (n - 1) }
  | e => e

/-- What a tick of an entry has to say to a port: LEASE_LAPSED, to its holder in session when no tick is left. -/
def lapseTold (p : Port) (id : ResId) (e : Option Reservation) (session : SessionState) : Option OutMsg :=
  match e with
  | some { holder := h, state := .granted n, .. } =>
    if h = p ∧ n ≤ 1 ∧ session = .attached then some (.notice (.leaseLapsed id)) else none
  | _ => none

/-- The port with what a tick of an entry says to it. -/
def PortUnit.hearTick (p : Port) (id : ResId) (e : Option Reservation) (u : PortUnit) : PortUnit :=
  (lapseTold p id e u.session).elim u u.enqueue

section
variable {d : Device} {id : ResId} {h : Port} {st ct n : Nat}

theorem Device.setEntry_setEntry (e e' : Option Reservation) : (d.setEntry id e).setEntry id e' = d.setEntry id e' := by
  simp [Device.setEntry]

/-- R114: a GRANTED entry without ticks lapses, and its holder is told. -/
theorem Device.lapseEntry_of_zero
    (he : d.reservations.entries[id] = some { holder := h, start := st, count := ct, state := .granted 0 }) :
    d.lapseEntry id =
      (d.setEntry id (some { holder := h, start := st, count := ct, state := .lapsed })).notify h (.leaseLapsed id) := by
  rw [Device.lapseEntry, he]
  rfl

/-- R114: one with ticks left stays. -/
theorem Device.lapseEntry_of_left (left : n ≠ 0)
    (he : d.reservations.entries[id] = some { holder := h, start := st, count := ct, state := .granted n }) : d.lapseEntry id = d := by
  obtain ⟨m, rfl⟩ := Nat.exists_eq_succ_of_ne_zero left
  rw [Device.lapseEntry, he]
  rfl

variable (he : d.reservations.entries[id] = some { holder := h, start := st, count := ct, state := .granted n })
include he

theorem Device.tickEntry_of_last (last : n ≤ 1) : d.tickEntry id =
    (d.setEntry id (some { holder := h, start := st, count := ct, state := .lapsed })).notify h (.leaseLapsed id) := by
  rw [Device.tickEntry, he]
  dsimp only
  rw [Nat.sub_eq_zero_of_le last, Device.lapseEntry_of_zero (Device.setEntry_entry ..), Device.setEntry_setEntry]

theorem Device.tickEntry_of_more (more : 1 < n) : d.tickEntry id =
    d.setEntry id (some { holder := h, start := st, count := ct, state := .granted (n - 1) }) := by
  rw [Device.tickEntry, he]
  exact Device.lapseEntry_of_left (Nat.sub_ne_zero_of_lt more) (Device.setEntry_entry ..)

omit he

theorem Device.tickEntry_of_not_granted
    (not_granted : ∀ h st ct n, d.reservations.entries[id] ≠ some { holder := h, start := st, count := ct, state := .granted n }) :
    d.tickEntry id = d := by
  unfold Device.tickEntry
  split
  · rename_i e
    exact (not_granted _ _ _ _ e).elim
  · rfl

end

/-- The holder of a GRANTED entry hears of its last tick, and no other port does. -/
theorem PortUnit.hearTick_of_granted (p : Port) (id : ResId) (h : Port) (st ct n : Nat) (u : PortUnit) :
    u.hearTick p id (some { holder := h, start := st, count := ct, state := .granted n }) =
      if h = p ∧ n ≤ 1 then u.hear (.leaseLapsed id) else u := by
  by_cases last : h = p ∧ n ≤ 1
  · rw [if_pos last, PortUnit.hear]
    by_cases attached : u.session = .attached
    · simp [PortUnit.hearTick, lapseTold, last, attached]
    · simp [PortUnit.hearTick, lapseTold, attached]
  · rw [if_neg last]
    have silent : ¬(h = p ∧ n ≤ 1 ∧ u.session = .attached) := fun ⟨holds, none_left, _⟩ => last ⟨holds, none_left⟩
    simp [PortUnit.hearTick, lapseTold, silent]

/-- An entry that is not GRANTED is not counted, and says nothing. -/
theorem entryAfterTick_of_not_granted {e : Option Reservation}
    (not_granted : ∀ h st ct n, e ≠ some { holder := h, start := st, count := ct, state := .granted n }) :
    entryAfterTick e = e ∧ ∀ (p : Port) (id : ResId) (u : PortUnit), u.hearTick p id e = u := by
  unfold PortUnit.hearTick lapseTold entryAfterTick
  split
  · exact (not_granted _ _ _ _ rfl).elim
  · exact ⟨rfl, fun _ _ _ => rfl⟩

/-- R114: a tick of one entry is a visit of it. -/
theorem Device.tickEntry_visits (d : Device) (id : ResId) : d.tickEntry id = d.visit entryAfterTick PortUnit.hearTick [id] := by
  by_cases granted : ∃ h st ct n, d.reservations.entries[id] = some { holder := h, start := st, count := ct, state := .granted n }
  · obtain ⟨h, st, ct, n, he⟩ := granted
    by_cases last : n ≤ 1
    · have others (u : PortUnit) : u.hearTick h.other id d.reservations.entries[id] = u := by
        rw [he, PortUnit.hearTick_of_granted, if_neg fun same => Port.other_ne h same.1.symm]
      have holder : PortUnit.hearTick h id d.reservations.entries[id] = PortUnit.hear (.leaseLapsed id) := funext fun u => by
        rw [he, PortUnit.hearTick_of_granted, if_pos ⟨rfl, last⟩]
      rw [Device.tickEntry_of_last he last, Device.notify_eq, Device.visit_one h others, holder, he]
      simp only [entryAfterTick, if_pos last]
    · have silent (q : Port) (u : PortUnit) : u.hearTick q id d.reservations.entries[id] = u := by
        rw [he, PortUnit.hearTick_of_granted, if_neg fun due => last due.2]
      rw [Device.tickEntry_of_more he (Nat.lt_of_not_le last), Device.visit_silent silent, he]
      simp only [entryAfterTick, if_neg last]
  · push Not at granted
    obtain ⟨same, silent⟩ := entryAfterTick_of_not_granted granted
    rw [Device.tickEntry_of_not_granted granted, Device.visit_silent fun q => silent q id, same, Device.setEntry_self]

/-! ### The tick of all entries (R113, R114) -/

/-- The part at a tick's beginning: the next period runs at the setting (R113). -/
def Device.nextPeriod (d : Device) : Device := { d with reservations := { d.reservations with periodMs := d.mgmt.tickMs } }

/-- R114: the tick is one visit of all entries. -/
theorem Device.leaseTick_visits (d : Device) :
    d.leaseTick = d.nextPeriod.visit entryAfterTick PortUnit.hearTick (List.finRange 16) :=
  Device.foldl_visit (holds := fun _ => True) (fun d id _ => d.tickEntry_visits id) (fun _ _ _ => trivial) (List.nodup_finRange 16)
    trivial

theorem Device.leaseTick_clockRunning (d : Device) : d.leaseTick.reservations.clockRunning = d.reservations.clockRunning :=
  (congrArg (fun e => e.reservations.clockRunning) d.leaseTick_visits).trans (d.nextPeriod.revised_clockRunning ..)

/-- Messages that rest on the session alone, queued one behind the other on an order with room for all. -/
theorem PortUnit.foldl_enqueue_of_room {msg : ResId → SessionState → Option OutMsg} (ids : List ResId) (u : PortUnit)
    (room : (u.outbound ++ ids.filterMap fun id => msg id u.session).length ≤ 256) :
    ids.foldl (fun u id => (msg id u.session).elim u u.enqueue) u =
      { u with outbound := u.outbound ++ ids.filterMap fun id => msg id u.session } := by
  induction ids generalizing u with
  | nil => simp
  | cons id ids ih =>
    cases said : msg id u.session with
    | none =>
      simp only [List.filterMap_cons, said] at room ⊢
      simpa [said] using ih u room
    | some m =>
      simp only [List.filterMap_cons, said] at room ⊢
      have here : u.outbound.length ≤ 256 := by
        rw [List.length_append] at room
        exact (Nat.le_add_right _ _).trans room
      rw [List.foldl_cons, said, Option.elim_some, PortUnit.enqueue_of_room here, ih _ (by simpa using room)]
      simp

section
variable (d : Device)

theorem Device.leaseTick_entry (id : ResId) : d.leaseTick.reservations.entries[id] = entryAfterTick d.reservations.entries[id] := by
  rw [Device.leaseTick_visits, Device.visit_entry, if_pos (List.mem_finRange id)]
  rfl

/-- What a tick says to a port, in ascending id order. -/
def Device.lapsesTold (p : Port) : List OutMsg :=
  (List.finRange 16).filterMap fun id => lapseTold p id d.reservations.entries[id] (d.port p).session

/-- R114: a port with room for all of it is told what the tick says. -/
theorem Device.leaseTick_port (p : Port) (room : ((d.port p).outbound ++ d.lapsesTold p).length ≤ 256) :
    d.leaseTick.port p = { d.port p with outbound := (d.port p).outbound ++ d.lapsesTold p } := by
  rw [Device.leaseTick_visits, Device.visit_port]
  have unchanged : d.nextPeriod.port p = d.port p := by cases p <;> rfl
  rw [unchanged]
  exact PortUnit.foldl_enqueue_of_room _ _ room

end

/-- The tick's row ticks while the lease clock runs (R113). -/
theorem exec_leaseTick {s : State} (released : s.resetAsserted = false) :
    exec .leaseTick s = .next { s with toDevice := if s.reservations.clockRunning then s.leaseTick.close else s.toDevice } := by
  show execLeaseTick s = _
  rw [execLeaseTick, State.event_of_released released]

/-- The lapse's row: an entry with no ticks left lapses, and its holder in session with room is told (R114). -/
theorem exec_leaseLapse {s : State} {id : ResId} {p : Port} {st ct : Nat} (released : s.resetAsserted = false)
    (room : (s.port p).outbound.length ≤ 256)
    (entry : s.reservations.entries[id] = some { holder := p, start := st, count := ct, state := .granted 0 })
    (attached : (s.port p).session = .attached) :
    exec (.leaseLapse id) s = .next { s with toDevice :=
      (Device.says p [.notice (.leaseLapsed id)] (s.setEntry id
        (some { holder := p, start := st, count := ct, state := .lapsed }))).close } := by
  show execLeaseLapse id s = _
  rw [execLeaseLapse, State.event_of_released released, Device.lapseEntry_of_zero entry, Device.notify,
    if_pos (by simpa [PortUnit.attached] using attached), Device.send_of_room (by simpa using room)]

end Sys2Proof.Machine
end

section
/-!
SUPPORT and PROOF. The test of a port's PENDING entries (R111) as one pass over the entries: the entries it grants, and the RESERVEs it
answers.
-/

namespace Sys2Proof.Machine

/-! ### One RESERVE answered (R111) -/

/-- The tag names an open RESERVE. -/
def PortUnit.Waits (tag : Tag) (u : PortUnit) : Prop := ∃ r, u.commands[tag] = some (.reserve r)

/-- R111: the RESERVE an entry names is answered GOOD with the entry's id, while it is open. -/
def PortUnit.answerGrant (tag : Tag) (id : ResId) (u : PortUnit) : PortUnit :=
  match u.commands[tag] with
  | some (.reserve _) => (u.setCommand tag none).enqueue (.response tag .good 0 none (.reservation id))
  | _ => u

section
variable {u : PortUnit} {tag t : Tag} {id : ResId}

theorem PortUnit.answerGrant_of_waits (h : u.Waits tag) :
    u.answerGrant tag id = (u.setCommand tag none).enqueue (.response tag .good 0 none (.reservation id)) := by
  obtain ⟨r, hr⟩ := h
  rw [PortUnit.answerGrant, hr]

theorem PortUnit.answerGrant_of_not_waits (h : ¬u.Waits tag) : u.answerGrant tag id = u := by
  unfold PortUnit.answerGrant
  split
  · rename_i r hr
    exact (h ⟨r, hr⟩).elim
  · rfl

theorem PortUnit.setCommand_other (h : t ≠ tag) (c : Option OpenCmd) : (u.setCommand tag c).commands[t] = u.commands[t] := by
  have apart : tag.val ≠ t.val := fun same => h (Fin.ext same.symm)
  simp [PortUnit.setCommand, Vector.getElem_set_ne, apart]

theorem PortUnit.enqueue_commands (m : OutMsg) (u : PortUnit) : (u.enqueue m).commands = u.commands :=
  (congrArg PortUnit.commands (u.enqueue_fields m)).trans rfl

theorem PortUnit.answerGrant_command_other (h : t ≠ tag) : (u.answerGrant tag id).commands[t] = u.commands[t] := by
  by_cases waits : u.Waits tag
  · rw [PortUnit.answerGrant_of_waits waits, PortUnit.enqueue_commands, PortUnit.setCommand_other h]
  · rw [PortUnit.answerGrant_of_not_waits waits]

/-- An answered RESERVE leaves its record. -/
theorem PortUnit.answerGrant_command_same (h : u.Waits tag) : (u.answerGrant tag id).commands[tag] = none := by
  rw [PortUnit.answerGrant_of_waits h, PortUnit.enqueue_commands]
  simp [PortUnit.setCommand]

/-- An answer changes the records and the order alone. -/
theorem PortUnit.answerGrant_fields (tag : Tag) (id : ResId) (u : PortUnit) : u.answerGrant tag id =
    { u with commands := (u.answerGrant tag id).commands, outbound := (u.answerGrant tag id).outbound } := by
  unfold PortUnit.answerGrant
  split
  · rw [PortUnit.enqueue_fields]
    rfl
  · rfl

end

theorem Device.answerReserve_good (p : Port) (tag : Tag) (id : ResId) (d : Device) :
    d.answerReserve p tag .good (.reservation id) = d.onPort p (PortUnit.answerGrant tag id) := by
  by_cases waits : (d.port p).Waits tag
  · have answered : d.onPort p (PortUnit.answerGrant tag id) = d.answer p tag .good 0 none (.reservation id) :=
      (Device.onPort_congr (PortUnit.answerGrant_of_waits waits)).trans (Device.onPort_onPort p _ _ d).symm
    obtain ⟨r, hr⟩ := waits
    rw [answered, Device.answerReserve, hr]
  · rw [Device.onPort, PortUnit.answerGrant_of_not_waits waits, Device.setPort_port_self]
    unfold Device.answerReserve
    split
    · rename_i r hr
      exact (waits ⟨r, hr⟩).elim
    · rfl

/-! ### The RESERVEs answered (R111) -/

/-- The RESERVE that is due at an id is answered. -/
def PortUnit.answerDue (due : ResId → Option Tag) (u : PortUnit) (id : ResId) : PortUnit :=
  (due id).elim u fun tag => u.answerGrant tag id

section
variable {due : ResId → Option Tag} {u : PortUnit} {tag : Tag} {id : ResId}

theorem PortUnit.answerDue_of_some (h : due id = some tag) : u.answerDue due id = u.answerGrant tag id := by
  rw [PortUnit.answerDue, h, Option.elim_some]

theorem PortUnit.answerDue_of_none (h : ∀ tag, due id = some tag → ¬u.Waits tag) : u.answerDue due id = u := by
  cases said : due id with
  | none => rw [PortUnit.answerDue, said, Option.elim_none]
  | some tag => rw [PortUnit.answerDue_of_some said, PortUnit.answerGrant_of_not_waits (h tag said)]

theorem PortUnit.answerDue_command (h : due id ≠ some tag ∨ ¬u.Waits tag) :
    (u.answerDue due id).commands[tag] = u.commands[tag] := by
  cases said : due id with
  | none => rw [PortUnit.answerDue, said, Option.elim_none]
  | some t =>
    rw [PortUnit.answerDue_of_some said]
    by_cases same : tag = t
    · subst same
      rw [PortUnit.answerGrant_of_not_waits (h.resolve_left (not_not_intro said))]
    · exact PortUnit.answerGrant_command_other same

theorem PortUnit.waits_congr {v : PortUnit} (h : v.commands[tag] = u.commands[tag]) : v.Waits tag ↔ u.Waits tag := by
  simp only [PortUnit.Waits, h]

theorem PortUnit.not_waits_of_none (h : u.commands[tag] = none) : ¬u.Waits tag := by
  rintro ⟨r, hr⟩
  rw [h] at hr
  cases hr

/-- The answers change the records and the order alone. -/
theorem PortUnit.foldl_answerDue_fields (ids : List ResId) (u : PortUnit) : ids.foldl (PortUnit.answerDue due) u =
    { u with commands := (ids.foldl (PortUnit.answerDue due) u).commands
             outbound := (ids.foldl (PortUnit.answerDue due) u).outbound } := by
  induction ids generalizing u with
  | nil => rfl
  | cons id ids ih =>
    rw [List.foldl_cons, ih]
    cases said : due id with
    | none => rw [PortUnit.answerDue, said, Option.elim_none]
    | some tag => rw [PortUnit.answerDue_of_some said, PortUnit.answerGrant_fields]

/-- A record that no due entry names, or that is no RESERVE's, stays. -/
theorem PortUnit.foldl_answerDue_kept {ids : List ResId} {u : PortUnit} (h : (∀ id ∈ ids, due id ≠ some tag) ∨ ¬u.Waits tag) :
    (ids.foldl (PortUnit.answerDue due) u).commands[tag] = u.commands[tag] := by
  induction ids generalizing u with
  | nil => rfl
  | cons id ids ih =>
    have here : (u.answerDue due id).commands[tag] = u.commands[tag] :=
      PortUnit.answerDue_command (h.imp_left fun others => others id List.mem_cons_self)
    rw [List.foldl_cons, ih, here]
    exact h.imp (fun others j hj => others j (List.mem_cons_of_mem _ hj)) (mt (PortUnit.waits_congr here).mp)

/-- An open RESERVE that a due entry names leaves its record. -/
theorem PortUnit.foldl_answerDue_freed {ids : List ResId} {u : PortUnit} (named : ∃ id ∈ ids, due id = some tag) (waits : u.Waits tag) :
    (ids.foldl (PortUnit.answerDue due) u).commands[tag] = none := by
  induction ids generalizing u with
  | nil =>
    obtain ⟨id, hid, -⟩ := named
    cases hid
  | cons x ids ih =>
    rw [List.foldl_cons]
    by_cases here : due x = some tag
    · have freed : (u.answerDue due x).commands[tag] = none := by
        rw [PortUnit.answerDue_of_some here, PortUnit.answerGrant_command_same waits]
      rw [PortUnit.foldl_answerDue_kept (.inr (PortUnit.not_waits_of_none freed)), freed]
    · obtain ⟨id, hid, hd⟩ := named
      have later : id ∈ ids := (List.mem_cons.mp hid).resolve_left fun same => here (same ▸ hd)
      exact ih ⟨id, later, hd⟩ ((PortUnit.waits_congr (PortUnit.answerDue_command (.inl here))).mpr waits)

/-- The RESPONSE of a RESERVE granted (R111). -/
def grantResponse (id : ResId) (tag : Tag) : OutMsg := .response tag .good 0 none (.reservation id)

/-- Of the ids, the first that is due for a tag whose RESERVE is open. -/
def FirstDue (due : ResId → Option Tag) (u : PortUnit) (among : List ResId) (id : ResId) : Prop :=
  id ∈ among ∧ ∃ tag, due id = some tag ∧ u.Waits tag ∧ ∀ j ∈ among, j < id → due j ≠ some tag

theorem firstDue_finRange : FirstDue due u (List.finRange 16) id ↔
    ∃ tag, due id = some tag ∧ u.Waits tag ∧ ∀ j < id, due j ≠ some tag := by simp [FirstDue]

/-- An id that is not the first due for its tag is passed over, and the others are as they were. -/
theorem firstDue_of_passed {x : ResId} {rest : List ResId} (sorted : ∀ j ∈ rest, x < j) (passed : ¬FirstDue due u (x :: rest) x) :
    u.answerDue due x = u ∧ ∀ id, FirstDue due u (x :: rest) id ↔ FirstDue due u rest id := by
  have silent (tag : Tag) (h : due x = some tag) : ¬u.Waits tag := fun waits =>
    passed ⟨List.mem_cons_self, tag, h, waits, fun j hj before => by
      obtain rfl | later := List.mem_cons.mp hj
      · exact (lt_irrefl _ before).elim
      · exact (lt_asymm before (sorted j later)).elim⟩
  refine ⟨PortUnit.answerDue_of_none silent, fun id => ⟨?_, ?_⟩⟩
  · rintro ⟨hid, tag, hd, waits, first⟩
    have later : id ∈ rest := (List.mem_cons.mp hid).resolve_left fun same => silent tag (same ▸ hd) waits
    exact ⟨later, tag, hd, waits, fun j hj => first j (List.mem_cons_of_mem _ hj)⟩
  · rintro ⟨hid, tag, hd, waits, first⟩
    refine ⟨List.mem_cons_of_mem _ hid, tag, hd, waits, fun j hj before => ?_⟩
    obtain rfl | later := List.mem_cons.mp hj
    · exact fun named => silent tag named waits
    · exact first j later before

/-- Once the first id due is answered, the others are those of the tags still open. -/
theorem firstDue_of_answered {x : ResId} {rest : List ResId} (sorted : ∀ j ∈ rest, x < j) (first : FirstDue due u (x :: rest) x)
    (id : ResId) : FirstDue due (u.answerDue due x) rest id ↔ FirstDue due u (x :: rest) id ∧ id ≠ x := by
  obtain ⟨-, t, hx, open_x, -⟩ := first
  have freed : ¬(u.answerDue due x).Waits t := PortUnit.not_waits_of_none (by
    rw [PortUnit.answerDue_of_some hx, PortUnit.answerGrant_command_same open_x])
  have kept {tag : Tag} (other : tag ≠ t) : (u.answerDue due x).Waits tag ↔ u.Waits tag :=
    PortUnit.waits_congr (PortUnit.answerDue_command (.inl (by rw [hx]; simpa using other.symm)))
  constructor
  · rintro ⟨hid, tag, hd, waits, first⟩
    have other : tag ≠ t := fun same => freed (same ▸ waits)
    refine ⟨⟨List.mem_cons_of_mem _ hid, tag, hd, (kept other).mp waits, fun j hj before => ?_⟩, (sorted id hid).ne'⟩
    obtain rfl | later := List.mem_cons.mp hj
    · rw [hx]
      simpa using other.symm
    · exact first j later before
  · rintro ⟨⟨hid, tag, hd, waits, first⟩, apart⟩
    have later : id ∈ rest := (List.mem_cons.mp hid).resolve_left apart
    have other : tag ≠ t := by
      rintro rfl
      exact first x List.mem_cons_self (sorted id later) hx
    exact ⟨later, tag, hd, (kept other).mpr waits, fun j hj => first j (List.mem_cons_of_mem _ hj)⟩

/-- R111: the RESERVEs answered stand at the tail of an order with room, in ascending id order. -/
theorem PortUnit.foldl_answerDue_outbound {among ids : List ResId} {u : PortUnit} (sorted : among.Pairwise (· < ·))
    (ascending : ids.Pairwise (· < ·)) (firsts : ∀ id, id ∈ ids ↔ FirstDue due u among id)
    (room : u.outbound.length + ids.length ≤ 256) : (among.foldl (PortUnit.answerDue due) u).outbound =
      u.outbound ++ ids.filterMap fun id => (due id).map (grantResponse id) := by
  induction among generalizing ids u with
  | nil =>
    have none_due : ids = [] := List.eq_nil_iff_forall_not_mem.mpr fun id hid => by
      obtain ⟨absent, -⟩ := (firsts id).mp hid
      cases absent
    simp [none_due]
  | cons x rest ih =>
    obtain ⟨behind, sorted_rest⟩ := List.pairwise_cons.mp sorted
    rw [List.foldl_cons]
    by_cases first : FirstDue due u (x :: rest) x
    · obtain ⟨later, rfl⟩ : ∃ later, ids = x :: later := by
        cases ids with
        | nil => cases (firsts x).mpr first
        | cons y later =>
          obtain same | after := List.mem_cons.mp ((firsts x).mpr first)
          · exact ⟨later, by rw [same]⟩
          · obtain ⟨among_y, -⟩ := (firsts y).mp List.mem_cons_self
            have before : y < x := (List.pairwise_cons.mp ascending).1 x after
            obtain rfl | behind_y := List.mem_cons.mp among_y
            · exact (lt_irrefl _ before).elim
            · exact (lt_asymm before (behind y behind_y)).elim
      obtain ⟨after, ascending_later⟩ := List.pairwise_cons.mp ascending
      have later_firsts (id : ResId) : id ∈ later ↔ FirstDue due (u.answerDue due x) rest id := by
        rw [firstDue_of_answered behind first, ← firsts, List.mem_cons]
        constructor
        · exact fun h => ⟨.inr h, (after id h).ne'⟩
        · exact fun ⟨h, apart⟩ => h.resolve_left apart
      obtain ⟨-, tag, hx, waits, -⟩ := first
      have answered : (u.answerDue due x).outbound = u.outbound ++ [grantResponse x tag] := by
        rw [PortUnit.answerDue_of_some hx, PortUnit.answerGrant_of_waits waits, PortUnit.enqueue_of_room]
        · rfl
        · exact (Nat.le_add_right _ _).trans room
      have room_later : (u.answerDue due x).outbound.length + later.length ≤ 256 := by
        rw [answered]
        simp only [List.length_append, List.length_cons, List.length_nil] at room ⊢
        omega
      rw [ih sorted_rest ascending_later later_firsts room_later, answered, List.filterMap_cons, hx, Option.map_some,
        List.append_assoc, List.singleton_append]
    · obtain ⟨silent, same⟩ := firstDue_of_passed behind first
      rw [silent]
      exact ih sorted_rest ascending (fun id => (firsts id).trans (same id)) room

end

/-! ### The test of a port's PENDING entries (R111) -/

/-- The tag of an entry's RESERVE where the entry is due: PENDING, the port's, and overlapped by no open WRITE of the other port. -/
def dueTag (p : Port) (other : PortUnit) : Option Reservation → Option Tag
  | some { holder := h, start := st, count := ct, state := .pending _ tag } =>
    if h = p ∧ other.writeOverlaps st ct = false then some tag else none
  | _ => none

/-- An entry after the test: where it is due, GRANTED with its requested ticks. -/
def entryAfterGrant (p : Port) (other : PortUnit) : Option Reservation → Option Reservation
  | some { holder := h, start := st, count := ct, state := .pending n tag } =>
    if h = p ∧ other.writeOverlaps st ct = false then some { holder := h, start := st, count := ct, state := .granted n }
    else some { holder := h, start := st, count := ct, state := .pending n tag }
  | e => e

/-- The port of the test with the RESERVE of a due entry answered. -/
def PortUnit.hearGrant (p : Port) (other : PortUnit) (q : Port) (id : ResId) (e : Option Reservation) (u : PortUnit) : PortUnit :=
  if q = p then u.answerDue (fun _ => dueTag p other e) id else u

section
variable {p : Port} {other : PortUnit} {e : Option Reservation}

theorem entry_of_dueTag {tag : Tag} (h : dueTag p other e = some tag) :
    ∃ st ct n, e = some { holder := p, start := st, count := ct, state := .pending n tag } ∧ other.writeOverlaps st ct = false := by
  unfold dueTag at h
  split at h
  · split_ifs at h with due
    obtain ⟨rfl, clear⟩ := due
    cases h
    exact ⟨_, _, _, rfl, clear⟩
  · cases h

/-- An entry that is not due stays, and answers nothing. -/
theorem entryAfterGrant_of_not_due (h : dueTag p other e = none) :
    entryAfterGrant p other e = e ∧ ∀ q id (u : PortUnit), PortUnit.hearGrant p other q id e u = u := by
  refine ⟨?_, fun q id u => ?_⟩
  · unfold dueTag at h
    unfold entryAfterGrant
    split at h
    · split_ifs at h with due
      exact if_neg due
    · rfl
  · rw [PortUnit.hearGrant, PortUnit.answerDue, h, Option.elim_none, ite_self]

end

section
variable {p : Port} {d : Device} {id : ResId}

/-- R111: an entry that is not due is left as it is. -/
theorem Device.grantEntry_of_not_due (h : dueTag p (d.port p.other) d.reservations.entries[id] = none) : d.grantEntry p id = d := by
  by_cases pending : ∃ h' st ct n tag,
      d.reservations.entries[id] = some { holder := h', start := st, count := ct, state := .pending n tag }
  · obtain ⟨h', st, ct, n, tag, he⟩ := pending
    have not_due : ¬(h' = p ∧ (d.port p.other).writeOverlaps st ct = false) := fun due => by simp [he, dueTag, due] at h
    rw [Device.grantEntry, he]
    exact if_neg (by simpa using not_due)
  · unfold Device.grantEntry
    split
    · rename_i he
      exact (pending ⟨_, _, _, _, _, he⟩).elim
    · rfl

/-- R111: the test of one entry is a visit of it. -/
theorem Device.grantEntry_visits {other : PortUnit} (ho : d.port p.other = other) :
    d.grantEntry p id = d.visit (entryAfterGrant p other) (PortUnit.hearGrant p other) [id] := by
  subst ho
  cases due : dueTag p (d.port p.other) d.reservations.entries[id] with
  | none =>
    obtain ⟨same, silent⟩ := entryAfterGrant_of_not_due due
    rw [Device.grantEntry_of_not_due due, Device.visit_silent fun q => silent q id, same, Device.setEntry_self]
  | some tag =>
    have answers : PortUnit.hearGrant p (d.port p.other) p id d.reservations.entries[id] = PortUnit.answerGrant tag id :=
      funext fun u => (if_pos rfl).trans (PortUnit.answerDue_of_some due)
    rw [Device.visit_one p fun u => if_neg (Port.other_ne p), answers, ← Device.answerReserve_good]
    obtain ⟨st, ct, n, he, clear⟩ := entry_of_dueTag due
    rw [Device.grantEntry, he]
    simp [entryAfterGrant, clear]

end

/-- R111: the test of a port's entries is one visit of all entries. -/
theorem Device.testPending_visits (p : Port) (d : Device) :
    d.testPending p = d.visit (entryAfterGrant p (d.port p.other)) (PortUnit.hearGrant p (d.port p.other)) (List.finRange 16) := by
  refine Device.foldl_visit (holds := fun e => e.port p.other = d.port p.other) (fun e id => Device.grantEntry_visits) (fun e id kept => ?_)
    (List.nodup_finRange 16) rfl
  rw [Device.visit_port, kept]
  exact if_neg (Port.other_ne p)

section
variable (p : Port) (d : Device)

/-- The tag of the RESERVE due at an id. -/
def Device.due (id : ResId) : Option Tag := dueTag p (d.port p.other) d.reservations.entries[id]

theorem Device.testPending_entry (id : ResId) :
    (d.testPending p).reservations.entries[id] = entryAfterGrant p (d.port p.other) d.reservations.entries[id] := by
  rw [Device.testPending_visits, Device.visit_entry, if_pos (List.mem_finRange id)]

/-- R111: the test answers the RESERVEs due on its port. -/
theorem Device.testPending_port :
    (d.testPending p).port p = (List.finRange 16).foldl (PortUnit.answerDue (d.due p)) (d.port p) := by
  rw [Device.testPending_visits, Device.visit_port]
  exact List.foldl_ext _ _ _ fun u id _ => if_pos rfl

theorem Device.testPending_port_other : (d.testPending p).port p.other = d.port p.other := by
  rw [Device.testPending_visits, Device.visit_port]
  exact List.foldl_fixed' (fun id => if_neg (Port.other_ne p)) _

theorem Device.testPending_port_fields : (d.testPending p).port p =
    { d.port p with commands := ((d.testPending p).port p).commands, outbound := ((d.testPending p).port p).outbound } := by
  rw [Device.testPending_port]
  exact PortUnit.foldl_answerDue_fields _ _

/-- The test changes the entries, and of its port the records and the order. -/
theorem Device.testPending_fields : d.testPending p =
    ({ d with reservations := (d.testPending p).reservations } : Device).onPort p fun u =>
      { u with commands := ((d.testPending p).port p).commands, outbound := ((d.testPending p).port p).outbound } := by
  have on_port := Device.eq_onPort_of_revised (d.testPending_visits p) (d.testPending_port_other p)
  have fields := d.testPending_port_fields p
  generalize d.testPending p = t at on_port fields ⊢
  refine on_port.trans (Device.onPort_congr ?_)
  rw [Device.port_of_reservations]
  exact fields

end

/-- The grant's row tests the entries of a port and closes (R111). -/
theorem exec_reservationGrant {s : State} (released : s.resetAsserted = false) (p : Port) :
    exec (.reservationGrant p) s = .next { s with toDevice := (s.testPending p).close } := by
  show execReservationGrant p s = _
  rw [execReservationGrant, State.event_of_released released]

/-- Settles O33: the tick and the test as passes over the entries, and the rows as their events. -/
theorem entriesAreCountedLapsedAndGranted : Obligations.EntriesAreCountedLapsedAndGranted := by
  refine ⟨fun s released => ⟨fun running => ?_, fun stopped => ?_⟩,
    fun d p => ⟨?_, fun tag => ⟨?_, ?_⟩, fun ids ascending firsts room => ?_, ?_⟩, fun d => Device.settle_of_calm,
    fun s p released => exec_reservationGrant released p, fun s id p st ct released room => exec_leaseLapse released room⟩
  · refine ⟨s.leaseTick, ?_, ?_, ?_, fun id => ?_, fun p room => ?_, ?_⟩
    · rw [exec_leaseTick released, if_pos running]
    · rw [Device.leaseTick_visits]
      rfl
    · rw [Device.leaseTick_clockRunning, running]
    · exact s.leaseTick_entry id
    · exact s.leaseTick_port p room
    · rw [Device.leaseTick_visits]
      rfl
  · rw [exec_leaseTick released, if_neg (by simp [stopped])]
  · exact d.testPending_entry p
  · rintro ⟨id, hd⟩ waits
    rw [Device.testPending_port]
    exact PortUnit.foldl_answerDue_freed ⟨id, List.mem_finRange id, hd⟩ waits
  · intro kept
    rw [Device.testPending_port]
    exact PortUnit.foldl_answerDue_kept (kept.imp_left fun others id _ => others id)
  · rw [Device.testPending_port]
    exact PortUnit.foldl_answerDue_outbound (List.pairwise_lt_finRange 16) ascending
      (fun id => (firsts id).trans (firstDue_finRange (due := d.due p)).symm) room
  · exact d.testPending_fields p

end Sys2Proof.Machine
end

section
/-!
SUPPORT and PROOF. The messages of a port as events, the reports of its link (R120, R121), the sending of its order with the pause
(R127), and the BYEs and messages out of place by the session's state (R126, R131).
-/

namespace Sys2Proof.Machine

/-! ### A command that brings a message -/

theorem exec_of_messageOf {c : Instr} {p : Port} {m : Inbound} (brings : messageOf c = some (p, m)) (s : State) :
    exec c s = s.event (Device.receive p m) := by
  unfold messageOf at brings
  split at brings <;> cases brings <;> rfl

/-- A message to a port that takes it as it arrives is one event. -/
theorem exec_message {c : Instr} {p : Port} {m : Inbound} {s : State} (brings : messageOf c = some (p, m)) (takes : s.Takes p) :
    exec c s = .next { s with toDevice := s.takeMessage p m } := by
  rw [exec_of_messageOf brings, State.event_of_takes takes]

/-! ### The reports of the link (R120, R121) -/

section
variable {p : Port} {d : Device}

theorem Device.onPort_of_same {f : PortUnit → PortUnit} (same : f (d.port p) = d.port p) : d.onPort p f = d := by
  rw [Device.onPort, same, Device.setPort_port_self]

theorem PortUnit.linkCameUp_of_down {u : PortUnit} (down : u.session = .down) :
    u.linkCameUp = { u with linkUp := true, session := .linked, outbound := [], backlog := [] } := by
  rw [PortUnit.linkCameUp, down]

theorem PortUnit.linkCameUp_of_up {u : PortUnit} (up : u.session ≠ .down) : u.linkCameUp = u := by
  unfold PortUnit.linkCameUp
  split
  · rename_i down
    exact (up down).elim
  · rfl

theorem Device.linkLoss_of_down (down : (d.port p).session = .down) (lost : (d.port p).linkUp = false) : d.linkLoss p = d := by
  rw [Device.linkLoss, down]
  refine Device.onPort_of_same ?_
  rw [← lost]

theorem Device.linkLoss_of_detached (up : (d.port p).session ≠ .down) (detached : (d.port p).session ≠ .attached) :
    d.linkLoss p = d.onPort p fun u => { u with linkUp := false, session := .down, outbound := [], backlog := [] } := by
  unfold Device.linkLoss
  split
  · rename_i attached
    exact (detached attached).elim
  · rename_i down
    exact (up down).elim
  · rfl

theorem Device.linkLoss_of_attached (attached : (d.port p).session = .attached) : d.linkLoss p = d.endSessions [p] true none := by
  rw [Device.linkLoss, attached]

end

theorem exec_linkUp {s : State} (released : s.resetAsserted = false) (p : Port) :
    exec (.linkUp p) s = .next { s with toDevice := s.onPort p PortUnit.linkCameUp } := by
  show execLinkUp p s = _
  simp [execLinkUp, State.eventOr, State.always, released]

theorem exec_linkDown {s : State} (released : s.resetAsserted = false) (p : Port) :
    exec (.linkDown p) s = .next { s with toDevice := (s.linkLoss p).close } := by
  show execLinkDown p s = _
  simp [execLinkDown, State.eventOr, State.always, released]

/-- R120: a failed check is the loss of the link. -/
theorem exec_messageCheckFailure {s : State} {p : Port} (takes : s.Takes p) :
    exec (.messageCheckFailure p) s = exec (.linkDown p) s := by
  rw [exec_message (m := .damaged) rfl takes, exec_linkDown takes.1, Device.takeMessage]

/-- Settles O11: each report by the port's session state. -/
theorem linkReportsMoveAPortWithoutASession : Obligations.LinkReportsMoveAPortWithoutASession := by
  intro s p released
  rw [exec_linkUp released, exec_linkDown released]
  refine ⟨fun down => State.next_congr ?_, fun up => State.next_congr (d' := s.toDevice) ?_, fun down lost => State.next_congr ?_,
    fun up detached => ⟨State.next_congr ?_, fun takes => ?_⟩⟩
  · exact Device.onPort_congr (PortUnit.linkCameUp_of_down down)
  · exact Device.onPort_of_same (PortUnit.linkCameUp_of_up up)
  · rw [Device.linkLoss_of_down down lost]
  · rw [Device.linkLoss_of_detached up detached]
  · rw [exec_messageCheckFailure takes, exec_linkDown released]

/-! ### The sending of the order, and the pause (R127) -/

theorem exec_outboundMessageSent {s : State} (released : s.resetAsserted = false) (p : Port) :
    exec (.outboundMessageSent p) s = .next { s with toDevice := s.messageSent p } := by
  show execOutboundMessageSent p s = _
  rw [execOutboundMessageSent, State.event_of_released released]

/-- A waiting message is taken by a port whose order is short enough. -/
theorem drainInbound_of_single {p : Port} {x : Inbound} {d : Device} (waits : (d.port p).backlog = [x])
    (open_ : (d.port p).paused = false) : drainInbound 1 p d = (d.onPort p fun u => { u with backlog := [] }).takeMessage p x := by
  simp [drainInbound, waits, open_]

section
variable {p : Port} {d : Device} {m : OutMsg} {rest : List OutMsg} (head : (d.port p).outbound = m :: rest)
include head

/-- R127: the head of the order goes out, with its bytes on the line; then the messages that wait are looked at. -/
theorem Device.messageSent_of_head : d.messageSent p = drainInbound (d.port p).backlog.length p
    (d.onPort p fun u => { u with outbound := rest, lineOut := m.bytes }) := by
  rw [Device.messageSent, head]
  simp

theorem Device.messageSent_of_none_waiting (none_waits : (d.port p).backlog = []) :
    d.messageSent p = d.onPort p fun u => { u with outbound := rest, lineOut := m.bytes } := by
  rw [Device.messageSent_of_head head, none_waits]
  rfl

theorem Device.messageSent_of_one_waiting {x : Inbound} (waits : (d.port p).backlog = [x]) (short : rest.length < 192) :
    d.messageSent p =
      (d.onPort p fun u => { u with outbound := rest, lineOut := m.bytes, backlog := [] }).takeMessage p x := by
  rw [Device.messageSent_of_head head, waits, List.length_singleton, drainInbound_of_single]
  · rw [Device.onPort_onPort]
  · simp [waits]
  · simp [PortUnit.paused, short]

end

theorem Device.messageSent_of_empty {p : Port} {d : Device} (empty : (d.port p).outbound = []) : d.messageSent p = d := by
  rw [Device.messageSent, empty]

/-- Settles O16: the sending by the order and the messages waiting, the arrival by the link and the pause. -/
theorem outboundOrderSendsAndPauses : Obligations.OutboundOrderSendsAndPauses := by
  intro s p released
  rw [exec_outboundMessageSent released]
  refine ⟨fun m rest head none_waits => State.next_congr ?_, fun m rest x head waits short => State.next_congr ?_,
    fun empty => State.next_congr (d' := s.toDevice) ?_, fun c m brings => ?_⟩
  · exact Device.messageSent_of_none_waiting head none_waits
  · exact Device.messageSent_of_one_waiting head waits short
  · exact Device.messageSent_of_empty empty
  · rw [exec_of_messageOf brings, State.event_of_released released]
    refine ⟨fun up long => State.next_congr ?_, fun down => State.next_congr (d' := s.toDevice) ?_⟩
    · exact Device.receive_of_paused up (decide_eq_true long)
    · exact Device.receive_of_down down

/-! ### Violations (R131) -/

section
variable {p : Port} {d : Device}

theorem Device.violation_of_attached (attached : (d.port p).session = .attached) :
    d.violation p = d.endSessions [p] false (some .violation) := by
  rw [Device.violation, attached]

/-- Outside a session a message out of place leaves the port LINKED behind a BYE. -/
theorem Device.violation_of_detached (up : (d.port p).session ≠ .down) (detached : (d.port p).session ≠ .attached)
    (room : (d.port p).outbound.length ≤ 256) : d.violation p = d.linksWith p (.bye .violation) := by
  rw [← Device.leave_of_room room]
  unfold Device.violation
  split
  · rename_i down
    exact (up down).elim
  · rename_i attached
    exact (detached attached).elim
  · rfl

/-- R131: what belongs to a session is a violation without one. -/
theorem Device.taken_of_detached (detached : (d.port p).session ≠ .attached) :
    (∀ tag accept, d.takeCommand p tag accept = d.violation p) ∧ (∀ tag index bytes, d.takeData p tag index bytes = d.violation p)
      ∧ (∀ count, d.takeCredit p count = d.violation p) ∧ ∀ tag, d.takeCancel p tag = d.violation p := by
  cases st : (d.port p).session with
  | attached => exact (detached st).elim
  | down | linked | waiting => simp [Device.takeCommand, Device.takeData, Device.takeCredit, Device.takeCancel, st]

theorem Device.takeBye_of_linked (linked : (d.port p).session = .linked) : d.takeBye p = d.violation p := by
  rw [Device.takeBye, linked]

end

/-- The states in which a message can be out of place without a session. -/
theorem Inbound.violatesIn_cases {m : Inbound} {st : SessionState} (h : m.violatesIn st) :
    st ≠ .down ∧ st ≠ .attached ∧ m ≠ .damaged ∧ (∀ v, m ≠ .hello v) ∧ (m = .bye → st = .linked) := by
  cases st with
  | down => exact h.elim
  | attached => exact h.elim
  | linked => exact ⟨nofun, nofun, h.1, h.2, fun _ => rfl⟩
  | waiting v =>
    obtain ⟨sound, no_bye, other⟩ := h
    exact ⟨nofun, nofun, sound, other, fun bye => (no_bye bye).elim⟩

/-- R131: a message out of place in LINKED or WAITING is a violation, closed or with nothing to close. -/
theorem Device.takeMessage_of_violates {p : Port} {m : Inbound} {d : Device} (violates : m.violatesIn (d.port p).session) :
    d.takeMessage p m = (d.violation p).close ∨ d.takeMessage p m = d.violation p := by
  obtain ⟨-, detached, sound, other, bye⟩ := Inbound.violatesIn_cases violates
  obtain ⟨command, data, credit, cancel⟩ := Device.taken_of_detached detached
  cases m with
  | damaged => exact (sound rfl).elim
  | hello v => exact (other v rfl).elim
  | unknownKind | unknownOpcode => exact .inl rfl
  | bye => exact .inl (congrArg Device.close (Device.takeBye_of_linked (bye rfl)))
  | data => exact .inl (congrArg Device.close (data ..))
  | credit => exact .inl (congrArg Device.close (credit _))
  | cancel => exact .inl (congrArg Device.close (cancel _))
  | read | write | flush => exact .inl (congrArg Device.close (command ..))
  | reserve | renew | release | query => exact .inr (command ..)

/-! ### A port that is left without its session (R136) -/

/-- R136 step 1: a port left with its link has its BYE, if there is one, at the tail of an order with room. -/
theorem PortUnit.leave_outbound {u : PortUnit} (room : u.outbound.length ≤ 256) (lost : Bool) (bye : Option ByeReason) :
    (u.leave lost bye).outbound = if lost then [] else u.outbound ++ bye.toList.map .bye := by
  cases lost with
  | true => rfl
  | false =>
    cases bye with
    | none => exact (List.append_nil _).symm
    | some r => simp [PortUnit.leave, PortUnit.enqueue_of_room, room]

/-- A port that takes messages as they arrive has room for its BYE. -/
theorem Device.Takes.room_for_bye {p : Port} {d : Device} (takes : d.Takes p) (lost : Bool) (bye : Option ByeReason) :
    ((d.port p).leave lost bye).outbound.length ≤ 256 := by
  have room := takes.room
  have one : (bye.toList.map OutMsg.bye).length ≤ 1 := by cases bye <;> simp
  rw [PortUnit.leave_outbound (room.le.trans (by decide))]
  split_ifs
  · decide
  · rw [List.length_append]
    omega

/-- The closing of an event leaves such a port as it is, while its order is within its bounds. -/
theorem PortUnit.Ended.close {lost : Bool} {bye : Option ByeReason} {u : PortUnit} {p : Port} {d : Device}
    (ended : u.Ended lost bye (d.port p)) (room : (u.leave lost bye).outbound.length ≤ 256) :
    u.Ended lost bye (d.close.port p) := by
  have detached : (d.port p).session ≠ .attached := by
    rw [ended.session]
    cases lost <;> nofun
  exact ended.keeps (d.keeps_close (PortUnit.atRest_of detached ended.idle (ended.outbound ▸ room)))

/-- R136: the port of a session that ends is left as R136 says, and its event's closing leaves it so. -/
theorem Device.endSessions_close_ended {p : Port} {d : Device} {lost : Bool} {bye : Option ByeReason}
    (room : ((d.port p).leave lost bye).outbound.length ≤ 256) :
    (d.port p).Ended lost bye ((d.endSessions [p] lost bye).close.port p) :=
  (d.endSessions_mem (List.nodup_singleton p) List.mem_cons_self lost bye).close room

/-- R131: so is an idle port after a violation without a session. -/
theorem Device.violation_ended {p : Port} {d : Device} (up : (d.port p).session ≠ .down) (detached : (d.port p).session ≠ .attached)
    (idle : (d.port p).Idle) (room : (d.port p).outbound.length ≤ 256) :
    (d.port p).Ended false (some .violation) ((d.violation p).port p) := by
  rw [Device.violation_of_detached up detached room, Device.linksWith, Device.onPort_port_same]
  exact ⟨rfl, rfl, rfl, (PortUnit.leave_outbound room false (some .violation)).symm, idle⟩

/-! ### BYEs and messages out of place (R126, R131) -/

/-- Settles O13: a BYE by the session's state, and the violation that every message out of place is. -/
theorem byesAndMessagesOutOfPlaceAreDecidedBySessionState : Obligations.ByesAndMessagesOutOfPlaceAreDecidedBySessionState := by
  refine ⟨fun s p takes => ?_, fun c s p m brings takes sound violates => ?_⟩
  · have room : (s.port p).outbound.length ≤ 256 := takes.room.le.trans (by decide)
    rw [exec_message (m := .bye) rfl takes]
    refine ⟨fun linked => State.next_congr (congrArg Device.close ?_), fun v waits => State.next_congr (congrArg Device.close ?_),
      fun attached => ⟨State.next_congr (congrArg Device.close ?_), ?_⟩⟩
    · rw [Device.takeBye_of_linked linked, Device.violation_of_detached (by simp [linked]) (by simp [linked]) room]
    · rw [← Device.leave_of_room room, Device.takeBye, waits]
    · rw [Device.takeBye, attached]
    · have ended := Device.endSessions_close_ended (takes.room_for_bye false (some .requested))
      exact ⟨ended.session, ended.outbound.trans (PortUnit.leave_outbound room ..)⟩
  · obtain ⟨up, detached, -⟩ := Inbound.violatesIn_cases violates
    have room : (s.port p).outbound.length ≤ 256 := takes.room.le.trans (by decide)
    obtain ⟨⟨-, -, -, idle⟩, -⟩ := sound.1 p
    have ended := Device.violation_ended up detached (idle detached) room
    have taken : (s.port p).Ended false (some .violation) ((s.takeMessage p m).port p) := by
      obtain closed | done := Device.takeMessage_of_violates violates
      · rw [closed]
        exact ended.close (takes.room_for_bye ..)
      · rwa [done]
    exact ⟨_, exec_message brings takes, taken.session, taken.outbound.trans (PortUnit.leave_outbound room ..), taken.idle⟩

end Sys2Proof.Machine
end

section
/-!
SUPPORT and PROOF. The HELLO by the session's state, the version and the mode (R123, R124), and the held HELLOs as their mode opens them
(R125).
-/

namespace Sys2Proof.Machine

/-! ### A session opened on an order with room (R124) -/

/-- A port whose session opens: the next number, and the WELCOME at the tail of its order, with MEDIA_FAULT behind it in FAULTED. -/
def PortUnit.welcomed (mode : DeviceMode) (capacity : Nat) (lock : Option LockReason) (partner : Bool) (u : PortUnit) : PortUnit :=
  let n := nextSession u.lastSession
  { u with session := .attached, lastSession := n,
           outbound := u.outbound ++ .welcome n capacity lock partner :: if mode = .faulted then [.notice .mediaFault] else [] }

/-- A port's unit as its own session opens: welcomed by the part as it stands, with a partner or without. -/
def Device.welcomes (d : Device) (partner : Bool) : PortUnit → PortUnit :=
  PortUnit.welcomed d.mode.mode d.channel.logicalCapacity d.remap.lock partner

theorem PortUnit.openWith_of_room {u : PortUnit} (room : u.outbound.length ≤ 256) (capacity : Nat) (lock : Option LockReason)
    (partner : Bool) : u.openWith capacity lock partner =
      { u with session := .attached, lastSession := nextSession u.lastSession,
               outbound := u.outbound ++ [.welcome (nextSession u.lastSession) capacity lock partner] } :=
  PortUnit.enqueue_of_room (u := { u with session := .attached, lastSession := nextSession u.lastSession }) room _

/-- What is queued on a port that opens is its welcome. -/
theorem Device.openWith_welcomes {p : Port} {d : Device} (room : (d.port p).outbound.length < 256) (partner : Bool) :
    (let opened := d.onPort p (PortUnit.openWith d.channel.logicalCapacity d.remap.lock partner)
     if opened.mode.mode = .faulted then opened.notify p .mediaFault else opened) = d.onPort p (d.welcomes partner) := by
  have opened := PortUnit.openWith_of_room room.le d.channel.logicalCapacity d.remap.lock partner
  dsimp only
  rw [Device.onPort_mode]
  split_ifs with faulted
  · rw [Device.notify_eq, Device.onPort_onPort]
    refine Device.onPort_congr ?_
    rw [opened, PortUnit.hear_of_room (by simpa using room)]
    simp [PortUnit.told, Device.welcomes, PortUnit.welcomed, faulted]
  · refine Device.onPort_congr (opened.trans ?_)
    simp [Device.welcomes, PortUnit.welcomed, faulted]

/-- R124: one port opens, and a port that was in session before the event and stays in it is told. -/
theorem Device.openOne_of_room {before d : Device} {ports : List Port} {p : Port} (room : (d.port p).outbound.length < 256) :
    Device.openOne before ports d p =
      let opened := d.onPort p (d.welcomes ((before.port p.other).attached || ports.contains p.other))
      if (before.port p.other).attached && !ports.contains p.other then opened.notify p.other .partnerAttached else opened := by
  rw [Device.openOne]
  dsimp only
  rw [Device.openWith_welcomes room]

theorem Device.notify_of_detached {p : Port} {d : Device} (detached : (d.port p).attached = false) (n : Notice) : d.notify p n = d := by
  rw [Device.notify, if_neg (by simp [detached])]

/-- R124: a port that opens alone sees the other as it stands, and the other is told of it. -/
theorem Device.openSessions_one {p : Port} {d : Device} (room : (d.port p).outbound.length < 256) :
    d.openSessions [p] = (d.onPort p (d.welcomes (d.port p.other).attached)).notify p.other .partnerAttached := by
  show Device.openOne d [p] d p = _
  rw [Device.openOne_of_room room]
  cases partner : (d.port p.other).attached
  · rw [Device.notify_of_detached]
    · simp [Port.other_ne]
    · rw [Device.onPort_port_other, partner]
  · simp [Port.other_ne]

/-- R125: two ports that open together have each other for their partner. -/
theorem Device.openSessions_two {d : Device} (roomA : d.portA.outbound.length < 256) (roomB : d.portB.outbound.length < 256) :
    d.openSessions [.a, .b] = (d.onPort .a (d.welcomes true)).onPort .b (d.welcomes true) := by
  have second : ((d.onPort .a (d.welcomes true)).port .b).outbound.length < 256 := roomB
  have welcome : (d.onPort .a (d.welcomes true)).welcomes true = d.welcomes true := by simp [Device.welcomes]
  show Device.openOne d [.a, .b] (Device.openOne d [.a, .b] d .a) .b = _
  rw [Device.openOne_of_room (p := .a) roomA]
  simp [Port.other, Device.openOne_of_room second, welcome]

/-! ### The HELLO (R123) -/

section
variable {p : Port} {d : Device}

/-- The modes in which a session may open (R125). -/
def DeviceMode.allows (m : DeviceMode) : Prop := m = .serving ∨ m = .faulted

theorem DeviceMode.not_allows {m : DeviceMode} (h : m = .starting ∨ m = .draining) : ¬m.allows := by
  rcases h with rfl | rfl <;> simp [DeviceMode.allows]

theorem Device.helloLinked_allowed (allows : d.mode.mode.allows) : d.helloLinked p 1 = d.openSessions [p] := by
  rw [Device.helloLinked, if_neg (by decide)]
  exact if_pos allows

theorem Device.helloLinked_held (refuses : ¬d.mode.mode.allows) :
    d.helloLinked p 1 = d.onPort p fun u => { u with session := .waiting 1 } := by
  rw [Device.helloLinked, if_neg (by decide)]
  exact if_neg refuses

theorem Device.helloLinked_refused {version : BitVec 16} (other : version ≠ 1) :
    d.helloLinked p version = d.send p (.bye .version) := by
  rw [Device.helloLinked, if_pos other]

theorem Device.takeHello_of_linked (linked : (d.port p).session = .linked) (version : BitVec 16) :
    d.takeHello p version = d.helloLinked p version := by
  rw [Device.takeHello, linked]

/-- R124: in a session a HELLO of version 1 first ends it, without a BYE. -/
theorem Device.takeHello_of_attached (attached : (d.port p).session = .attached) (allows : d.mode.mode.allows) :
    d.takeHello p 1 = (d.endSessions [p] false none).openSessions [p] := by
  rw [Device.takeHello, attached]
  dsimp only
  rw [if_neg (by decide), Device.helloLinked_allowed]
  rwa [(d.rest_endSessions [p] false none).mode]

theorem Device.takeHello_of_waiting {v : BitVec 16} (waits : (d.port p).session = .waiting v) :
    d.takeHello p 1 = d.onPort p fun u => { u with session := .waiting 1 } := by
  rw [Device.takeHello, waits]
  exact if_neg (by decide)

/-- R123: a HELLO of another version is refused outside a session. -/
theorem Device.takeHello_of_version {version : BitVec 16} (other : version ≠ 1) (room : (d.port p).outbound.length ≤ 256)
    (detached : (d.port p).session = .linked ∨ ∃ v, (d.port p).session = .waiting v) :
    d.takeHello p version = d.linksWith p (.bye .version) := by
  rcases detached with linked | ⟨v, waits⟩
  · rw [Device.takeHello_of_linked linked, Device.helloLinked_refused other, Device.send_of_room room]
    exact Device.onPort_congr (by rw [← linked])
  · rw [← Device.leave_of_room room, Device.takeHello, waits]
    exact if_pos other

end

theorem exec_hello {s : State} {p : Port} (takes : s.Takes p) (version : BitVec 16) :
    exec (.hello p version) s = .next { s with toDevice := (s.takeHello p version).close } := by
  rw [exec_message (m := .hello version) rfl takes, Device.takeMessage]

/-- Settles O14: the mode decides whether a HELLO of version 1 opens its session or is held, the session's state what goes before. -/
theorem helloIsDecidedByStateVersionAndMode : Obligations.HelloIsDecidedByStateVersionAndMode := by
  intro s p takes
  have room : (s.port p).outbound.length < 256 := takes.room.trans (by decide)
  dsimp only
  rw [exec_hello takes]
  refine ⟨fun allows => ⟨fun linked => State.next_congr (congrArg Device.close ?_),
      fun attached => State.next_congr (congrArg Device.close ?_)⟩, fun holds linked => State.next_congr (congrArg Device.close ?_),
    fun v waits => State.next_congr (congrArg Device.close ?_), fun version other detached => ?_⟩
  · rw [Device.takeHello_of_linked linked, Device.helloLinked_allowed allows, Device.openSessions_one room]
    rfl
  · exact Device.takeHello_of_attached attached allows
  · rw [Device.takeHello_of_linked linked, Device.helloLinked_held (DeviceMode.not_allows holds)]
  · exact Device.takeHello_of_waiting waits
  · rw [exec_hello takes, Device.takeHello_of_version other room.le detached]

/-! ### The held HELLOs (R125) -/

theorem Device.waitingPorts_both {d : Device} (a : d.portA.waiting = true) (b : d.portB.waiting = true) :
    d.waitingPorts = [.a, .b] := by simp [Device.waitingPorts, a, b]

theorem Device.waitingPorts_one {p : Port} {d : Device} (here : (d.port p).waiting = true) (alone : (d.port p.other).waiting = false) :
    d.waitingPorts = [p] := by
  cases p <;> simp_all [Device.waitingPorts, Port.other]

theorem Device.releaseHellos_allowed {d : Device} (allows : d.mode.mode.allows) :
    d.releaseHellos = (d.openSessions d.waitingPorts).close := by
  rcases allows with serving | faulted
  · rw [Device.releaseHellos, serving]
  · rw [Device.releaseHellos, faulted]

theorem Device.releaseHellos_held {d : Device} (refuses : d.mode.mode = .starting ∨ d.mode.mode = .draining) : d.releaseHellos = d := by
  rcases refuses with starting | draining
  · rw [Device.releaseHellos, starting]
  · rw [Device.releaseHellos, draining]

theorem exec_heldHelloRelease {s : State} (released : s.resetAsserted = false) :
    exec .heldHelloRelease s = .next { s with toDevice := s.releaseHellos } := by
  show execHeldHelloRelease s = _
  rw [execHeldHelloRelease, State.event_of_released released]

/-- Settles O15: in a mode that allows sessions the ports that wait open, both in one event or one alone; in the others none does. -/
theorem heldHellosOpenTheirSessions : Obligations.HeldHellosOpenTheirSessions := by
  intro s released
  dsimp only
  rw [exec_heldHelloRelease released]
  refine ⟨fun allows a b roomA roomB => State.next_congr ?_, fun p allows here alone room => State.next_congr ?_,
    fun refuses => State.next_congr (d' := s.toDevice) ?_⟩
  · rw [Device.releaseHellos_allowed allows, Device.waitingPorts_both a b, Device.openSessions_two roomA roomB]
    rfl
  · rw [Device.releaseHellos_allowed allows, Device.waitingPorts_one here alone, Device.openSessions_one room]
    rfl
  · exact Device.releaseHellos_held refuses

end Sys2Proof.Machine
end

section
/-!
SUPPORT and PROOF. The COMMANDs refused by a check of Table 8-1 or for an open tag (R134, R141), the inbound DATA and CREDIT by their
tests (R132, R133), and DETACH PORT by the session's state (R137, R179).
-/

namespace Sys2Proof.Machine

/-! ### COMMANDs that fail a check (Table 8-1) -/

section
variable {p : Port} {tag : Tag} {start count : Nat} {d : Device} {st : Status}

theorem Device.acceptRead_of_refused (h : d.refusesRead start count = some st) :
    d.acceptRead p tag start count = d.reply p tag st .none := by
  unfold Device.refusesRead at h
  simp only [Nat.lt_one_iff] at h
  rw [Device.acceptRead]
  split_ifs at h ⊢ <;> cases h <;> rfl

theorem Device.acceptWrite_of_refused (h : d.refusesWrite p start count = some st) (durable : Bool) :
    d.acceptWrite p tag durable start count = d.reply p tag st .none := by
  unfold Device.refusesWrite at h
  simp only [Nat.lt_one_iff] at h
  rw [Device.acceptWrite]
  split_ifs at h ⊢ <;> cases h <;> rfl

theorem Device.acceptFlush_of_refused (h : d.mode.mode ≠ .serving) : d.acceptFlush p tag = d.reply p tag .notServing .none := by
  rw [Device.acceptFlush, if_pos h]

theorem Device.acceptReserve_of_refused {ticks : Nat} (h : d.refusesReserve start count ticks = some st) :
    d.acceptReserve p tag start count ticks = d.reply p tag st .none := by
  unfold Device.refusesReserve at h
  simp only [Nat.lt_one_iff] at h
  rw [Device.acceptReserve]
  split_ifs at h ⊢ <;> cases h <;> rfl

theorem Device.acceptRenew_of_refused {id ticks : Nat} (h : ticks < 1 ∨ 60000 < ticks) :
    d.acceptRenew p tag id ticks = d.reply p tag .badRequest .none := by
  rw [Device.acceptRenew, if_pos (h.imp_left Nat.lt_one_iff.mp)]

/-- R134: a COMMAND whose tag is open draws DUPLICATE_TAG. -/
theorem Device.takeCommand_of_open (hears : d.Hears p) (opened : ¬d.TagFree p tag) (accept : Device → Device) :
    d.takeCommand p tag accept = d.says p [.notice (.duplicateTag tag)] := by
  obtain ⟨takes, attached⟩ := hears
  rw [Device.takeCommand, attached]
  dsimp only
  rw [if_pos (Option.isSome_iff_ne_none.mpr opened), ← Device.send_of_room (takes.room.le.trans (by decide))]
  exact if_pos (decide_eq_true attached)

/-- A COMMAND of a known opcode goes to the test of its tag, closed or with nothing to close. -/
theorem Device.takeMessage_of_commandTag {m : Inbound} (command : m.commandTag = some tag) : ∃ accept,
    d.takeMessage p m = (d.takeCommand p tag accept).close ∨ d.takeMessage p m = d.takeCommand p tag accept := by
  cases m <;> cases command
  case read | write | flush => exact ⟨_, .inl rfl⟩
  case reserve | renew | release | query => exact ⟨_, .inr rfl⟩

end

section
variable {s : State} {p : Port} {tag : Tag} (hears : s.Hears p)
include hears

/-- R134: a COMMAND whose tag is open is told so, and nothing else happens to a part that is then settled. -/
theorem exec_of_openTag {c : Instr} {m : Inbound} (brings : messageOf c = some (p, m)) (command : m.commandTag = some tag)
    (opened : ¬s.TagFree p tag) (settled : (s.says p [.notice (.duplicateTag tag)]).Settled) :
    exec c s = .next { s with toDevice := s.says p [.notice (.duplicateTag tag)] } := by
  obtain ⟨accept, taken⟩ := Device.takeMessage_of_commandTag (p := p) (d := s.toDevice) command
  rw [Device.takeCommand_of_open hears opened, Device.close_of_settled settled, or_self] at taken
  rw [exec_message brings hears.1, taken]

end

/-- Settles O17: the first failed check of each COMMAND is its answer, and an open tag its notice. -/
theorem refusedCommandsAreAnsweredAndChangeNothingElse : Obligations.RefusedCommandsAreAnsweredAndChangeNothingElse := by
  intro s p tag hears
  have taken (m : Inbound) {c : Instr} (brings : messageOf c = some (p, m)) := exec_message brings hears.1
  have answered (st : Status) := Device.reply_of_hears (tag := tag) hears st .none
  refine ⟨fun free => ?_, fun c m brings command opened settled => exec_of_openTag hears brings command opened settled⟩
  have accepted (accept : Device → Device) := Device.takeCommand_of_hears hears free accept
  refine ⟨fun start count st h => ?_, fun durable start count st h => ?_, fun h => ?_, fun start count ticks st h => ?_,
    fun id ticks h => ?_⟩
  · rw [taken _ rfl, Device.takeMessage, accepted, Device.acceptRead_of_refused h, answered]
  · rw [taken _ rfl, Device.takeMessage, accepted, Device.acceptWrite_of_refused h, answered]
  · rw [taken _ rfl, Device.takeMessage, accepted, Device.acceptFlush_of_refused h, answered]
  · rw [taken _ rfl, Device.takeMessage, accepted, Device.acceptReserve_of_refused h, answered]
  · rw [taken _ rfl, Device.takeMessage, accepted, Device.acceptRenew_of_refused h, answered]

/-! ### Inbound DATA (R132) -/

/-- The port with a DATA of its moving WRITE: counted received, in its buffer behind the commit order; the last ends the receiving. -/
def PortUnit.receiveData (b : BufNo) (tag : Tag) (w : WriteCmd) (index : Nat) (bytes : Block) (u : PortUnit) : PortUnit :=
  let v : PortUnit :=
    { (u.setLanding b (.occupied tag index (w.start + index) bytes)).setCommand tag
        (some (.write { w with received := w.received + 1 })) with commitOrder := u.commitOrder ++ [b] }
  if w.received + 1 = w.count then v.leaveWriteList tag else v

section
variable {p : Port} {d : Device} {tag : Tag} {index : Nat} {bytes : Block}

theorem PortUnit.lowestPromised_eq_none {u : PortUnit} (h : ∀ b : BufNo, u.landing[b] ≠ .promised) : u.lowestPromised = none := by
  simpa [PortUnit.lowestPromised] using h

theorem PortUnit.lowestPromised_eq_some {u : PortUnit} {b : BufNo} (promised : u.landing[b] = .promised)
    (lowest : ∀ j < b, u.landing[j] ≠ .promised) : u.lowestPromised = some b := by
  refine List.find?_eq_some_iff_getElem.mpr ⟨decide_eq_true promised, b.val, by simp, by simp, fun j hj => ?_⟩
  have other := lowest ⟨j, hj.trans b.isLt⟩ hj
  simpa using other

theorem Device.landData_of_none (h : ∀ b : BufNo, (d.port p).landing[b] ≠ .promised) :
    d.landData p tag index bytes = d.violation p := by
  rw [Device.landData, PortUnit.lowestPromised_eq_none h]

section
variable {b : BufNo} (lowest : (d.port p).lowestPromised = some b)
include lowest

/-- R132: DATA of no open WRITE is dropped, and its buffer is FREE again. -/
theorem Device.landData_of_no_write (h : ∀ w, (d.port p).commands[tag] ≠ some (.write w)) :
    d.landData p tag index bytes = d.onPort p (PortUnit.setLanding b .free) := by
  rw [Device.landData, lowest]
  dsimp only
  split
  · rename_i w write
    exact (h w write).elim
  · rfl

variable {w : WriteCmd} (write : (d.port p).commands[tag] = some (.write w))
include write

theorem Device.landData_of_misplaced (h : (d.port p).writeList.head? ≠ some tag ∨ index ≠ w.received) :
    d.landData p tag index bytes = d.violation p := by
  rw [Device.landData, lowest]
  dsimp only
  rw [write]
  exact if_neg (not_and_or.mpr h)

/-- R132: the DATA that is next of the head of the write list is received, and tried when it heads the commit order. -/
theorem Device.landData_of_next (head : (d.port p).writeList.head? = some tag) (next : index = w.received) :
    d.landData p tag index bytes =
      let landed := d.onPort p (PortUnit.receiveData b tag w index bytes)
      if (d.port p).commitOrder = [] then landed.tryCommit p else landed := by
  rw [Device.landData, lowest]
  dsimp only
  rw [write]
  refine (if_pos ⟨head, next⟩).trans ?_
  split_ifs with first
  · exact if_pos (List.isEmpty_iff.mpr first)
  · exact if_neg (mt List.isEmpty_iff.mp first)

end

end

theorem exec_inboundData {s : State} {p : Port} (hears : s.Hears p) (tag : Tag) (index : BitVec 16) (bytes : Block) :
    exec (.inboundData p tag index bytes) s = .next { s with toDevice := (s.landData p tag index.toNat bytes).close } := by
  obtain ⟨takes, attached⟩ := hears
  rw [exec_message (m := .data tag index.toNat bytes) rfl takes, Device.takeMessage, Device.takeData, attached]

/-! ### Inbound CREDIT (R133) -/

section
variable {p : Port} {d : Device} {count : Nat} (attached : (d.port p).session = .attached)
include attached

theorem Device.takeCredit_within (h : (d.port p).readCredits + count ≤ 64) :
    d.takeCredit p count = d.onPort p fun u => { u with readCredits := u.readCredits + count } := by
  rw [Device.takeCredit, attached]
  exact if_neg (Nat.not_lt.mpr h)

theorem Device.takeCredit_beyond (h : 64 < (d.port p).readCredits + count) : d.takeCredit p count = d.violation p := by
  rw [Device.takeCredit, attached]
  exact if_pos h

end

theorem exec_inboundCredit {s : State} {p : Port} (takes : s.Takes p) (count : Byte) :
    exec (.inboundCredit p count) s = .next { s with toDevice := (s.takeCredit p count.toNat).close } := by
  rw [exec_message (m := .credit count.toNat) rfl takes, Device.takeMessage]

/-- Settles O23: the tests of DATA in their order, and the count of a CREDIT on both sides of its bound. -/
theorem inboundDataAndCreditAreTakenByTheirTests : Obligations.InboundDataAndCreditAreTakenByTheirTests := by
  refine ⟨fun s p tag index bytes hears => ?_, fun s p count hears => ?_⟩
  · have violated := Device.violation_of_attached hears.2
    dsimp only
    rw [exec_inboundData hears]
    refine ⟨fun none_promised => State.next_congr ?_, fun b promised lowest => ?_⟩
    · rw [Device.landData_of_none none_promised, violated]
    · have chosen := PortUnit.lowestPromised_eq_some promised lowest
      refine ⟨fun no_write => State.next_congr ?_, fun w write => ⟨fun misplaced => State.next_congr ?_,
        fun head next => State.next_congr ?_⟩⟩
      · rw [Device.landData_of_no_write chosen no_write]
      · rw [Device.landData_of_misplaced chosen write misplaced, violated]
      · rw [Device.landData_of_next chosen write head next]
        rfl
  · rw [exec_inboundCredit hears.1]
    refine ⟨fun within => State.next_congr ?_, fun beyond => State.next_congr ?_⟩
    · rw [Device.takeCredit_within hears.2 within]
    · rw [Device.takeCredit_beyond hears.2 beyond, Device.violation_of_attached hears.2]

/-! ### DETACH PORT (R137, R179) -/

theorem exec_detachPort {s : State} {which : Byte} (released : s.resetAsserted = false)
    (request : s.mgmt.mailbox = .executing [0x05, which]) :
    exec .detachPort s = .next { s with toDevice := s.detachPort which.toNat } := by
  show execDetachPort s = _
  rw [execDetachPort, State.event_execute released request rfl]
  simp [beValue]

/-- The port a byte names (Table 11-8). -/
theorem Device.detachPort_of_port (p : Port) (d : Device) :
    d.detachPort (if p = .a then (0 : Byte) else 1).toNat = (d.detach p).close := by
  cases p <;> rfl

theorem Device.detachPort_beyond {which : Nat} (h : 2 ≤ which) (d : Device) : d.detachPort which = d.respond 0x05 .badParameter [] := by
  unfold Device.detachPort
  split
  · omega
  · omega
  · rfl

section
variable {p : Port} {d : Device}

theorem Device.respond_port (code : Byte) (result : MgmtResult) (fields : List Byte) (q : Port) :
    (d.respond code result fields).port q = d.port q := by cases q <;> rfl

theorem Device.detach_of_attached (attached : (d.port p).session = .attached) :
    d.detach p = (d.respond 0x05 .ok [0x00]).endSessions [p] false (some .admin) := by
  rw [Device.detach, attached]

theorem Device.detach_of_waiting {v : BitVec 16} (waits : (d.port p).session = .waiting v) (room : (d.port p).outbound.length ≤ 256) :
    d.detach p = (d.respond 0x05 .ok [0x01]).linksWith p (.bye .admin) := by
  rw [← Device.leave_of_room (by rwa [Device.respond_port]), Device.detach, waits]

theorem Device.detach_of_idle (idle : (d.port p).session = .linked ∨ (d.port p).session = .down) :
    d.detach p = d.respond 0x05 .ok [0x02] := by
  rcases idle with linked | down
  · rw [Device.detach, linked]
  · rw [Device.detach, down]

end

/-- Settles O55: the port by the byte that names it, and its detaching by the session's state. -/
theorem detachPortActsByTheSessionState : Obligations.DetachPortActsByTheSessionState := by
  intro s which released request
  dsimp only
  rw [exec_detachPort released request]
  refine ⟨?_, fun beyond => State.next_congr (Device.detachPort_beyond beyond _)⟩
  rintro p rfl
  rw [Device.detachPort_of_port]
  refine ⟨fun attached => State.next_congr (congrArg Device.close ?_), fun v waits room => State.next_congr (congrArg Device.close ?_),
    fun idle => State.next_congr (congrArg Device.close ?_)⟩
  · exact Device.detach_of_attached attached
  · exact Device.detach_of_waiting waits room
  · exact Device.detach_of_idle idle

end Sys2Proof.Machine
end

section
/-!
SUPPORT and PROOF. The bytes of the port messages (section 11.1): the layouts of the outbound ones (Tables 11-1, 11-2, 11-4 to 11-6), and
the check and decoding of the inbound ones (R182, Tables 11-1 to 11-3).
-/

namespace Sys2Proof.Machine

/-! ### Fields of two and four bytes -/

/-- A two-byte field, most significant byte first. -/
def bytes16 (v : Nat) : List Byte := [BitVec.ofNat 8 (v / 256), BitVec.ofNat 8 v]

/-- A four-byte field, most significant byte first. -/
def bytes32 (v : Nat) : List Byte := bytes16 (v / 65536) ++ bytes16 v

theorem beBytes_one (v : Nat) : beBytes 1 v = [BitVec.ofNat 8 v] := by simp [beBytes]

theorem beBytes_two (v : Nat) : beBytes 2 v = bytes16 v := by
  rw [beBytes_succ, beBytes_one]
  rfl

theorem beBytes_four (v : Nat) : beBytes 4 v = bytes32 v := by
  rw [beBytes_succ, beBytes_succ, beBytes_two, bytes32, Nat.div_div_eq_div_mul]
  rfl

theorem beValue_bytes16 {v : Nat} (h : v < 65536) : beValue (bytes16 v) = v := by
  rw [← beBytes_two]
  exact beValue_beBytes h

theorem beValue_bytes32 {v : Nat} (h : v < 4294967296) : beValue (bytes32 v) = v := by
  rw [← beBytes_four]
  exact beValue_beBytes h

theorem crcField_eq (bs : List Byte) : crcField bs = bytes32 (crc32 bs).toNat := beBytes_four _

theorem boolByte_eq (b : Bool) : boolByte b = BitVec.ofNat 8 b.toNat := by cases b <;> rfl

/-! ### Outbound messages (Tables 11-1, 11-2, 11-4 to 11-6) -/

/-- Table 11-1: kind, payload length and payload, with the check over all of them. -/
def framed (kind : Byte) (payload : List Byte) : List Byte :=
  let body := [kind, 0] ++ bytes16 payload.length ++ payload
  body ++ bytes32 (crc32 body).toNat

theorem OutMsg.bytes_of_payload {m : OutMsg} {kind : Byte} {payload : List Byte} (hk : m.kindCode = kind) (hp : m.payload = payload) :
    m.bytes = framed kind payload := by
  rw [OutMsg.bytes, hk, hp, frameMessage, beBytes_two, crcField_eq]
  rfl

/-- The lock byte of WELCOME and of the status record (Table 11-4). -/
theorem lockCode_eq (l : Option LockReason) :
    lockCode l = match l with | none => (0 : Byte) | some .noSpares => 1 | some .tableLost => 2 := by
  rcases l with _ | _ | _ <;> rfl

theorem DeviceMode.code_eq (m : DeviceMode) :
    m.code = match m with | .starting => (0 : Byte) | .serving => 1 | .draining => 2 | .faulted => 3 := by
  cases m <;> rfl

/-- The fields of a RESPONSE up to its payload (Table 11-4). -/
theorem OutMsg.payload_response (tag : Tag) (st : Status) (moved : Nat) (failing : Option Nat) (pl : Payload) :
    (OutMsg.response tag st moved failing pl).payload =
      [finByte tag, st.code, BitVec.ofNat 8 (failing.isSome.toNat + 2 * pl.present.toNat), 0] ++ bytes16 moved
        ++ bytes16 (failing.getD 0) ++ pl.bytes := by
  have flags (f g : Bool) : boolByte f ||| (boolByte g <<< 1) = BitVec.ofNat 8 (f.toNat + 2 * g.toNat) := by
    revert f g
    decide
  rw [OutMsg.payload, beBytes_two, beBytes_two, flags]

/-- A row of a table is as every row of it is. -/
theorem related_of_mem {α β : Type} {R : α → β → Prop} {l : List (α × β)} {a : α} {b : β} (mem : (a, b) ∈ l)
    (agree : ∀ x ∈ l, R x.1 x.2) : R a b := agree _ mem

/-- The check value of the CRC-32 (section 11.1). -/
theorem crc32_check : crc32 [0x31, 0x32, 0x33, 0x34, 0x35, 0x36, 0x37, 0x38, 0x39] = 0xCBF43926#32 := by decide +kernel

/-- Settles O59: the payload of each message by its fields, and one frame for all. -/
theorem outboundMessagesAreLaidOutByTheTables : Obligations.OutboundMessagesAreLaidOutByTheTables := by
  refine ⟨crc32_check, fun tag moved => ⟨fun session capacity l partner => OutMsg.bytes_of_payload rfl ?welcome,
    fun index b => OutMsg.bytes_of_payload rfl ?data, fun count => OutMsg.bytes_of_payload rfl ?credit,
    fun st code mem => ⟨OutMsg.bytes_of_payload rfl ?plain, fun failing => OutMsg.bytes_of_payload rfl ?failed⟩,
    fun id => OutMsg.bytes_of_payload rfl ?reservation, fun rec => OutMsg.bytes_of_payload rfl ?record,
    fun n code argument mem => OutMsg.bytes_of_payload rfl ?notice, fun id => OutMsg.bytes_of_payload rfl rfl,
    fun reason code mem => OutMsg.bytes_of_payload rfl ?bye⟩⟩
  case welcome =>
    simp only [OutMsg.payload, beBytes_two, beBytes_four, lockCode_eq, boolByte_eq]
    rfl
  case data =>
    simp only [OutMsg.payload, beBytes_two]
    rfl
  case credit => exact beBytes_one count
  case plain =>
    obtain rfl : st.code = code := related_of_mem (R := fun st code => st.code = code) mem (by decide)
    rw [OutMsg.payload_response]
    rfl
  case failed =>
    obtain rfl : st.code = code := related_of_mem (R := fun st code => st.code = code) mem (by decide)
    rw [OutMsg.payload_response]
    exact List.append_nil _
  case reservation =>
    rw [OutMsg.payload_response]
    rfl
  case record =>
    rw [OutMsg.payload_response, Payload.bytes, StatusRecord.bytes]
    simp only [beBytes_two, beBytes_four, lockCode_eq, boolByte_eq, DeviceMode.code_eq, List.append_assoc]
    rfl
  case notice => exact related_of_mem (R := fun n b => n.bytes = [b.1, b.2]) mem (by simp [Notice.bytes, lockCode, finByte])
  case bye =>
    obtain rfl : reason.code = code := related_of_mem (R := fun r code => r.code = code) mem (by decide)
    rfl

/-! ### The check of an inbound message (R182, Tables 11-1, 11-2) -/

/-- Table 11-2: the payload length of each kind that is received. -/
def inboundKinds : List (Byte × Nat) := [(0x01, 2), (0x02, 16), (0x03, 516), (0x04, 1), (0x05, 1), (0x06, 0)]

theorem mem_inboundKinds {kind : Byte} {n : Nat} : (kind, n) ∈ inboundKinds ↔ inboundLength kind = some n := by
  have byValue (v : Byte) : kind = v ↔ kind.toNat = v.toNat := BitVec.toNat_inj.symm
  simp only [inboundKinds, List.mem_cons, List.not_mem_nil, Prod.mk.injEq, byValue, or_false]
  unfold inboundLength
  split
  case h_7 => simp_all
  all_goals
    rename_i value
    simp [value, @eq_comm _ n]

theorem not_mem_inboundKinds {kind : Byte} : (∀ n, (kind, n) ∉ inboundKinds) ↔ inboundLength kind = none := by
  rw [Option.eq_none_iff_forall_ne_some]
  exact forall_congr' fun n => not_congr mem_inboundKinds

/-- R182: a whole message is decoded by its kind when its check is the CRC-32 and its length is its kind's. -/
theorem decodePortMessage_of_whole (p : Port) (kind zero : Byte) {payload check : List Byte} (short : payload.length < 65536)
    (four : check.length = 4) :
    let body := [kind, zero] ++ bytes16 payload.length ++ payload
    decodePortMessage p (body ++ check) =
      if check = bytes32 (crc32 body).toNat ∧ (inboundLength kind = none ∨ inboundLength kind = some payload.length) then
        decodeKind p kind payload
      else .messageCheckFailure p := by
  intro body
  have length : beValue (field (body ++ check) 2 2) = payload.length := beValue_bytes16 short
  have size : body.length = 4 + payload.length := by simp [body, bytes16]; omega
  have whole : (body ++ check).length = 4 + payload.length + 4 := by rw [List.length_append, size, four]
  rw [decodePortMessage, length, ← size, List.take_left, List.drop_left, size, crcField_eq]
  simp only [whole, true_and]
  rfl

/-! ### The decoding by kind and opcode (Table 11-3) -/

/-- R182: the high bits of a tag byte are ignored. -/
theorem tagOfByte_of_tag (high : Nat) (tag : Tag) : tagOfByte (BitVec.ofNat 8 (16 * high + tag.val)) = tag := by
  refine Fin.ext ?_
  simp only [tagOfByte, BitVec.toNat_ofNat]
  omega

theorem ofNat_bytes16 (v : BitVec 16) : BitVec.ofNat 16 (beValue (bytes16 v.toNat)) = v := by
  rw [beValue_bytes16 v.isLt, BitVec.ofNat_toNat, BitVec.setWidth_eq]

theorem ofNat_bytes32 (v : BitVec 32) : BitVec.ofNat 32 (beValue (bytes32 v.toNat)) = v := by
  rw [beValue_bytes32 v.isLt, BitVec.ofNat_toNat, BitVec.setWidth_eq]

theorem blockOfList_of_block (b : Block) : blockOfList b.toList = b := by
  refine Vector.toList_inj.mp ?_
  rw [blockOfList_toList (by simp), List.take_of_length_le (by simp)]

/-- A COMMAND's payload with its fields as given, and any bytes in the places that stand for nothing (Table 11-3). -/
def commandPayload (t opcode options id z₁ z₂ : Byte) (start count : BitVec 32) (ticks : BitVec 16) : List Byte :=
  [t, opcode, options, id] ++ bytes32 start.toNat ++ bytes32 count.toNat ++ bytes16 ticks.toNat ++ [z₁, z₂]

section
variable (p : Port) (t options id z₁ z₂ : Byte) (start count : BitVec 32) (ticks : BitVec 16)

/-- Table 11-3: the fields of a COMMAND stand in their places. -/
theorem fields_commandPayload (opcode : Byte) :
    let pl := commandPayload t opcode options id z₁ z₂ start count ticks
    BitVec.ofNat 32 (beValue (field pl 4 4)) = start ∧ BitVec.ofNat 32 (beValue (field pl 8 4)) = count
      ∧ BitVec.ofNat 16 (beValue (field pl 12 2)) = ticks :=
  ⟨ofNat_bytes32 start, ofNat_bytes32 count, ofNat_bytes16 ticks⟩

/-- Table 11-3: the opcode byte names the COMMAND, which takes the fields it uses. -/
theorem decodeCommand_of_opcode :
    let command (opcode : Byte) := decodeCommand p (commandPayload t opcode options id z₁ z₂ start count ticks)
    command 0x01 = .read p (tagOfByte t) start count ∧ command 0x02 = .write p (tagOfByte t) (options.getLsbD 0) start count
      ∧ command 0x03 = .flush p (tagOfByte t) ∧ command 0x04 = .reserve p (tagOfByte t) start count ticks
      ∧ command 0x05 = .renew p (tagOfByte t) id ticks ∧ command 0x06 = .release p (tagOfByte t) id
      ∧ command 0x07 = .query p (tagOfByte t) := by
  have fields := fields_commandPayload t options id z₁ z₂ start count ticks
  dsimp only at fields ⊢
  simp only [decodeCommand, fields]
  exact ⟨rfl, rfl, rfl, rfl, rfl, rfl, rfl⟩

theorem decodeCommand_of_unknown {opcode : Byte} (unknown : opcode = 0 ∨ 7 < opcode.toNat) :
    decodeCommand p (commandPayload t opcode options id z₁ z₂ start count ticks) = .commandUnknownOpcode p opcode := by
  have value : opcode.toNat = 0 ∨ 7 < opcode.toNat := unknown.imp_left fun zero => by rw [zero]; rfl
  have byte : (commandPayload t opcode options id z₁ z₂ start count ticks).getD 1 0 = opcode := rfl
  unfold decodeCommand
  dsimp only
  rw [byte]
  split
  case h_8 => rfl
  all_goals omega

end

theorem decodeKind_of_unknown (p : Port) {kind : Byte} (unknown : kind = 0 ∨ 6 < kind.toNat) (payload : List Byte) :
    decodeKind p kind payload = .unknownMessageKind p kind := by
  have value : kind.toNat = 0 ∨ 6 < kind.toNat := unknown.imp_left fun zero => by rw [zero]; rfl
  unfold decodeKind
  split
  case h_7 => rfl
  all_goals omega

/-- Settles O60: the check and the length first, then the fields of each kind and each opcode. -/
theorem inboundMessagesAreCheckedAndDecoded : Obligations.InboundMessagesAreCheckedAndDecoded := by
  refine ⟨fun p kind zero payload check short four => ?_, fun p tag high => ?_⟩
  · have decoded := decodePortMessage_of_whole p kind zero short four
    refine ⟨fun wrong => decoded.trans (if_neg fun h => wrong h.1), fun n known differs => decoded.trans (if_neg fun h => ?_),
      fun right fits => decoded.trans (if_pos ⟨right, ?_⟩)⟩
    · rw [mem_inboundKinds.mp known] at h
      simp [Ne.symm differs] at h
    · exact (fits.imp mem_inboundKinds.mp not_mem_inboundKinds.mp).symm
  · have tagged := tagOfByte_of_tag high tag
    refine ⟨fun v => congrArg (Instr.hello p) (ofNat_bytes16 v), fun options id z₁ z₂ start count ticks => ?_,
      fun zero index bytes => ?_, fun count => rfl, congrArg (Instr.cancel p) tagged, rfl,
      fun kind payload unknown => decodeKind_of_unknown p unknown payload⟩
    · have known := decodeCommand_of_opcode p (BitVec.ofNat 8 (16 * high + tag.val)) options id z₁ z₂ start count ticks
      rw [tagged] at known
      obtain ⟨read, write, flush, reserve, renew, release, query⟩ := known
      exact ⟨read, write, flush, reserve, renew, release, query,
        fun opcode => decodeCommand_of_unknown p _ options id z₁ z₂ start count ticks⟩
    · exact congr (congrArg₂ (Instr.inboundData p) tagged (ofNat_bytes16 index)) (blockOfList_of_block bytes)

end Sys2Proof.Machine
end

section
/-!
SUPPORT and PROOF. The end of a session (R136): what its causes leave of the port, and what it leaves of the flush list, the reservations
and the other port.
-/

namespace Sys2Proof.Machine

/-! ### The causes (R121, R123, R126, R131, R136) -/

/-- A cause that is no link loss is a message. -/
theorem exec_of_sessionEnd {c : Instr} {s : State} {p : Port} {lost : Bool} {bye : Option ByeReason}
    (ends : sessionEndOf c = some (p, lost, bye)) (released : s.resetAsserted = false) (attached : (s.port p).session = .attached)
    (comes : c = .linkDown p ∨ s.Takes p) : exec c s = .next { s with toDevice := (s.endSessions [p] lost bye).close } := by
  have taken (other : c ≠ .linkDown p) : s.Takes p := comes.resolve_left other
  unfold sessionEndOf at ends
  split at ends
  case h_1 =>
    cases ends
    rw [exec_linkDown released, Device.linkLoss_of_attached attached]
  case h_2 =>
    cases ends
    rw [exec_messageCheckFailure (taken nofun), exec_linkDown released, Device.linkLoss_of_attached attached]
  case h_3 =>
    cases ends
    rw [exec_message (m := .bye) rfl (taken nofun), Device.takeMessage, Device.takeBye, attached]
  case h_4 kind =>
    cases ends
    rw [exec_message (m := .unknownKind kind) rfl (taken nofun), Device.takeMessage, Device.violation_of_attached attached]
  case h_5 opcode =>
    cases ends
    rw [exec_message (m := .unknownOpcode opcode) rfl (taken nofun), Device.takeMessage, Device.violation_of_attached attached]
  case h_6 version =>
    split_ifs at ends with one
    cases ends
    rw [exec_hello (taken nofun), Device.takeHello, attached]
    dsimp only
    rw [if_pos one]
  case h_7 => cases ends

/-- A loss of the link empties the order; any other cause finds room for its BYE. -/
theorem room_of_sessionEnd {c : Instr} {d : Device} {p : Port} {lost : Bool} {bye : Option ByeReason}
    (ends : sessionEndOf c = some (p, lost, bye)) (comes : c = .linkDown p ∨ d.Takes p) :
    ((d.port p).leave lost bye).outbound = (if lost then [] else (d.port p).outbound ++ bye.toList.map .bye)
      ∧ ((d.port p).leave lost bye).outbound.length ≤ 256 := by
  obtain rfl | takes := comes
  · cases ends
    exact ⟨rfl, Nat.zero_le _⟩
  · exact ⟨PortUnit.leave_outbound (takes.room.le.trans (by decide)) lost bye, takes.room_for_bye lost bye⟩

/-! ### The flush list (R57, R61) -/

theorem flushLoop_suffix (n : Nat) (d : Device) : (flushLoop n d).tracker.flushList <:+ d.tracker.flushList := by
  induction n generalizing d with
  | zero => exact List.suffix_rfl
  | succ n ih =>
    have answered {e : FlushEntry} {rest : List FlushEntry} (hl : d.tracker.flushList = e :: rest) (st : Status) :
        (flushLoop n ((d.setFlushList rest).answerFlush e st)).tracker.flushList <:+ d.tracker.flushList := by
      refine (ih _).trans ?_
      rw [Device.answerFlush_tracker, Device.setFlushList_flushList, hl]
      exact List.suffix_cons e rest
    unfold flushLoop
    split
    · exact List.suffix_rfl
    · rename_i hl
      split
      · exact List.suffix_rfl
      · exact answered hl _
      · exact answered hl _

theorem Device.testFlush_suffix (d : Device) : d.testFlush.tracker.flushList <:+ d.tracker.flushList := flushLoop_suffix _ d

section
variable (leaves : FlushEntry → Bool) (d : Device)

/-- R61: the entries that stay keep their order, those apart that are answered as the new head is tested. -/
theorem Device.dropFlush_suffix : (d.dropFlush leaves).tracker.flushList <:+ d.tracker.flushList.filter fun e => !leaves e := by
  unfold Device.dropFlush
  dsimp only
  split
  · split_ifs
    · exact Device.testFlush_suffix _
    · exact List.suffix_rfl
  · exact List.suffix_rfl

variable {leaves d}

theorem Device.dropFlush_of_empty (empty : d.tracker.flushList = []) : d.dropFlush leaves = d := by
  unfold Device.dropFlush
  rw [empty]
  exact Device.setFlushList_self empty

/-- R61: none is answered where the head stays, or where the new head waits. -/
theorem Device.dropFlush_kept (calm : (∀ e, d.tracker.flushList.head? = some e → leaves e = false)
      ∨ ∀ e, (d.tracker.flushList.filter fun e => !leaves e).head? = some e → d.tracker.headTest e.mark = .waits) :
    (d.dropFlush leaves).tracker.flushList = d.tracker.flushList.filter fun e => !leaves e := by
  unfold Device.dropFlush
  dsimp only
  split
  · rename_i head rest hl
    split_ifs with gone
    · have waits := calm.resolve_left fun stays => by simp [stays head (by rw [hl]; rfl)] at gone
      cases kept : d.tracker.flushList.filter fun e => !leaves e with
      | nil => rw [Device.testFlush_of_empty rfl]; rfl
      | cons e l =>
        rw [kept] at waits
        rw [Device.testFlush_of_waits (d := d.setFlushList (e :: l)) rfl (waits e rfl)]
        rfl
    · rfl
  · rfl

end

/-! ### The reservations (R111, R118) -/

theorem Reservations.freeHeldBy_entry (p : Port) (r : Reservations) (id : ResId) :
    (r.freeHeldBy [p]).entries[id] = r.entries[id].filter fun e => decide (e.holder ≠ p) := by
  simp only [Reservations.freeHeldBy, vecMap, Vector.getElem_mk, List.getElem_toArray, Fin.getElem_fin, List.getElem_map,
    Vector.getElem_toList]
  split
  · rename_i v hv
    by_cases held : v.holder = p <;> simp [hv, held, Option.filter]
  · rename_i hv
    simp [hv]

theorem PortUnit.writeOverlaps_of_noCommands {u : PortUnit} (none_open : u.NoCommands) (start count : Nat) :
    u.writeOverlaps start count = false := by
  have ranges : u.openWriteRanges = [] := by
    rw [PortUnit.openWriteRanges, none_open.1]
    simp
  rw [PortUnit.writeOverlaps, ranges]
  rfl

/-- R111: with no WRITE open on the other port no entry of the holder stays PENDING. -/
theorem entryAfterGrant_of_clear {p : Port} {other : PortUnit} (clear : ∀ start count, other.writeOverlaps start count = false)
    {old : Option Reservation} (holds : ∀ e, old = some e → e.holder = p) {e : Reservation}
    (after : entryAfterGrant p other old = some e) : e.holder = p ∧ ∀ n tag, e.state ≠ .pending n tag := by
  unfold entryAfterGrant at after
  split at after
  · rename_i h start count n tag
    have held : h = p := holds _ rfl
    rw [if_pos ⟨held, clear start count⟩] at after
    cases after
    exact ⟨held, nofun⟩
  · rename_i pending
    refine ⟨holds e after, fun n tag state => ?_⟩
    obtain ⟨h, start, count, st⟩ := e
    cases state
    exact pending _ _ _ _ _ after

/-! ### The steps of R136 for one port -/

section
variable (p : Port) (lost : Bool) (bye : Option ByeReason) (d : Device)

/-- R136 steps 1 to 4, and the port's reservations freed. -/
def Device.endCleared : Device :=
  let cleared := (d.clearPorts [p] lost bye).dropFlush fun e => [p].contains e.port
  { cleared with reservations := cleared.reservations.freeHeldBy [p] }

/-- R136 steps 5 and 6 behind them: the other port's PENDING entries are tested, and it is told. -/
theorem Device.endSessions_one : d.endSessions [p] lost bye =
    (((d.endCleared p lost bye).testPending p.other).onPort p.other (PortUnit.hear .partnerDetached)).raise (.ended p) := by
  have told (e : Device) : Device.tellPartner [p] p e = e.onPort p.other (PortUnit.hear .partnerDetached) := by
    rw [Device.tellPartner, if_neg (by simp [Port.other_ne]), Device.notify_eq]
  have one (f : Port → Device → Device) (e : Device) : e.eachPort [p] f = f p e := rfl
  rw [Device.endSessions]
  simp only [one, told]
  rfl

theorem Device.inner_endCleared : (d.clearPorts [p] lost bye).Inner (d.endCleared p lost bye) :=
  (Device.inner_dropFlush _ _).trans (Device.inner_freeHeldBy _ _)

theorem Device.endCleared_tracker :
    (d.endCleared p lost bye).tracker = ((d.clearPorts [p] lost bye).dropFlush fun e => [p].contains e.port).tracker := rfl

/-- The port holds no command from there on. -/
theorem Device.endCleared_noCommands : ((d.endCleared p lost bye).port p).NoCommands :=
  ((d.inner_endCleared p lost bye).ports p).commands
    (d.clearPorts_mem (List.nodup_singleton p) List.mem_cons_self lost bye).idle.1

/-- The other port sees an inner change. -/
theorem Device.endCleared_other : (d.port p.other).Keeps ((d.endCleared p lost bye).port p.other) :=
  (d.clearPorts_not_mem (by simp [Port.other_ne]) lost bye).trans ((d.inner_endCleared p lost bye).ports p.other)

/-- The entries left are the other port's. -/
theorem Device.endCleared_holder {id : ResId} {e : Reservation} (left : (d.endCleared p lost bye).reservations.entries[id] = some e) :
    e.holder = p.other := by
  have kept := (Reservations.freeHeldBy_entry p _ id).symm.trans left
  obtain ⟨-, other⟩ := Option.filter_eq_some_iff.mp kept
  exact (Port.eq_or_other p e.holder).resolve_left (of_decide_eq_true other)

theorem Device.testPending_tracker (q : Port) : (d.testPending q).tracker = d.tracker := by
  rw [Device.testPending_visits]
  rfl

theorem Device.endSessions_tracker : (d.endSessions [p] lost bye).tracker =
    ((d.clearPorts [p] lost bye).dropFlush fun e => [p].contains e.port).tracker := by
  rw [Device.endSessions_one, Device.raise_tracker, Device.onPort_tracker, Device.testPending_tracker, Device.endCleared_tracker]

theorem Device.endSessions_entry (id : ResId) : (d.endSessions [p] lost bye).reservations.entries[id] =
    entryAfterGrant p.other ((d.endCleared p lost bye).port p) (d.endCleared p lost bye).reservations.entries[id] := by
  rw [Device.endSessions_one, Device.raise_reservations, Device.onPort_reservations, Device.testPending_entry, Port.other_other]

theorem Device.endSessions_port_other : (d.endSessions [p] lost bye).port p.other =
    (((d.endCleared p lost bye).testPending p.other).port p.other).hear .partnerDetached := by
  have raised (e : Device) (c : Condition) (q : Port) : (e.raise c).port q = e.port q := by cases q <;> rfl
  rw [Device.endSessions_one, raised, Device.onPort_port_same]

/-- R136: the entries left are the other port's, and none of them is PENDING. -/
theorem Device.endSessions_entries {id : ResId} {e : Reservation} (left : (d.endSessions [p] lost bye).reservations.entries[id] = some e) :
    e.holder = p.other ∧ ∀ n tag, e.state ≠ .pending n tag := by
  rw [Device.endSessions_entry] at left
  exact entryAfterGrant_of_clear (PortUnit.writeOverlaps_of_noCommands (d.endCleared_noCommands p lost bye))
    (fun e => d.endCleared_holder p lost bye) left

end

/-- R136 step 6: a port in session within its order's bounds has PARTNER_DETACHED for its last message. -/
theorem PortUnit.getLast?_hear {u : PortUnit} {n : Notice} (attached : u.session = .attached)
    (within : (u.hear n).outbound.length ≤ 256) : (u.hear n).outbound.getLast? = some (.notice n) := by
  rw [PortUnit.hear, if_pos attached] at within ⊢
  have room : u.outbound.length ≤ 256 := (u.prefix_enqueue (.notice n)).length_le.trans within
  rw [PortUnit.enqueue_of_room room]
  exact List.getLast?_concat

/-! ### A session that ends with an empty window -/

section
variable {p : Port} {lost : Bool} {bye : Option ByeReason} {d : Device} (empty : (d.port p).window = [])
include empty

/-- R136 steps 1 to 3 where no window block gives up a hold: the port's own change, its landing buffers out of the frame-waiter queue. -/
theorem Device.clearPorts_of_noWindow : d.clearPorts [p] lost bye =
    ((d.onPort p fun u => (u.leave lost bye).dropCommands).clearBuffers p) := by
  obtain ⟨-, -, -, -, -, -, -, same, -⟩ := (d.port p).leave_fields lost bye
  have window : ((d.onPort p fun u => (u.leave lost bye).dropCommands).port p).window = [] := by
    rw [Device.onPort_port_same, ← empty]
    exact same
  have stays {e : Device} (none_there : (e.port p).window = []) : e.leaveWindowAll p = e := by
    rw [Device.leaveWindowAll, none_there]
    rfl
  show Device.clearBuffers p (Device.leaveWindowAll p ((d.onPort p (PortUnit.leave lost bye)).onPort p PortUnit.dropCommands)) = _
  rw [Device.onPort_onPort]
  exact congrArg (Device.clearBuffers p) (stays window)

theorem Device.clearPorts_elsewhere : (d.clearPorts [p] lost bye).tracker = d.tracker
    ∧ (d.clearPorts [p] lost bye).reservations = d.reservations ∧ (d.clearPorts [p] lost bye).port p.other = d.port p.other := by
  rw [Device.clearPorts_of_noWindow empty]
  simp [Device.clearBuffers, Device.dropWaiters]

/-- With no entry in the flush list nothing is answered before the test of the PENDING entries. -/
theorem Device.endCleared_of_idle (no_flush : d.tracker.flushList = []) :
    (d.endCleared p lost bye).port p.other = d.port p.other
      ∧ (d.endCleared p lost bye).reservations = d.reservations.freeHeldBy [p] := by
  obtain ⟨tracker, reservations, other⟩ := Device.clearPorts_elsewhere (lost := lost) (bye := bye) empty
  rw [Device.endCleared]
  dsimp only
  rw [Device.dropFlush_of_empty (by rw [tracker, no_flush]), Device.port_of_reservations, reservations]
  exact ⟨other, rfl⟩

end

/-- R111: the one PENDING entry that is due is answered alone. -/
theorem PortUnit.answerDue_one {u : PortUnit} {due : ResId → Option Tag} {id : ResId} {tag : Tag} (here : due id = some tag)
    (alone : ∀ j, j ≠ id → due j = none) (waits : u.Waits tag) (room : u.outbound.length ≤ 255) :
    let v := (List.finRange 16).foldl (PortUnit.answerDue due) u
    v.commands[tag] = none ∧ v.outbound = u.outbound ++ [grantResponse id tag] := by
  have first (j : ResId) : j ∈ [id] ↔ FirstDue due u (List.finRange 16) j := by
    rw [firstDue_finRange, List.mem_singleton]
    constructor
    · rintro rfl
      exact ⟨tag, here, waits, fun k before => by simp [alone k before.ne]⟩
    · rintro ⟨t, named, -⟩
      by_contra other
      simp [alone j other] at named
  refine ⟨PortUnit.foldl_answerDue_freed ⟨id, List.mem_finRange id, here⟩ waits, ?_⟩
  rw [PortUnit.foldl_answerDue_outbound (List.pairwise_lt_finRange 16) (List.pairwise_singleton _ id) first (Nat.succ_le_succ room)]
  simp [here]

/-- R111, R136: the one PENDING RESERVE of the other port is granted, and the other port told of it before it is told of the end. -/
theorem Device.endSessions_grants {p : Port} {lost : Bool} {bye : Option ByeReason} {d : Device} {id : ResId} {start count n : Nat}
    {tag : Tag} {r : ReserveCmd} (empty : (d.port p).window = []) (no_flush : d.tracker.flushList = [])
    (entry : d.reservations.entries[id] = some { holder := p.other, start := start, count := count, state := .pending n tag })
    (others : ∀ j, j ≠ id → ∀ e, d.reservations.entries[j] = some e → e.holder = p)
    (opened : (d.port p.other).commands[tag] = some (.reserve r)) (attached : (d.port p.other).session = .attached)
    (room : (d.port p.other).outbound.length ≤ 255) :
    let t := d.endSessions [p] lost bye
    t.reservations.entries[id] = some { holder := p.other, start := start, count := count, state := .granted n }
      ∧ (t.port p.other).commands[tag] = none
      ∧ (t.port p.other).outbound = (d.port p.other).outbound ++ [grantResponse id tag, .notice .partnerDetached] := by
  obtain ⟨other, reservations⟩ := Device.endCleared_of_idle (lost := lost) (bye := bye) empty no_flush
  have left (j : ResId) : (d.endCleared p lost bye).reservations.entries[j] =
      d.reservations.entries[j].filter fun e => decide (e.holder ≠ p) := by
    rw [reservations, Reservations.freeHeldBy_entry]
  have clear := PortUnit.writeOverlaps_of_noCommands (d.endCleared_noCommands p lost bye)
  have kept : (d.endCleared p lost bye).reservations.entries[id] = some ⟨p.other, start, count, .pending n tag⟩ := by
    rw [left, entry]
    simp [Port.other_ne]
  have freed (j : ResId) (apart : j ≠ id) : (d.endCleared p lost bye).reservations.entries[j] = none := by
    rw [left, Option.filter_eq_none_iff]
    intro e he
    simp [others j apart e he]
  have due : (d.endCleared p lost bye).due p.other id = some tag := by
    rw [Device.due, kept, Port.other_other]
    simp [dueTag, clear]
  have alone (j : ResId) (apart : j ≠ id) : (d.endCleared p lost bye).due p.other j = none := by
    rw [Device.due, freed j apart]
    rfl
  obtain ⟨answered, order⟩ := PortUnit.answerDue_one due alone ⟨r, other ▸ opened⟩ (other ▸ room)
  rw [← Device.testPending_port, other] at order
  rw [← Device.testPending_port] at answered
  have session : (((d.endCleared p lost bye).testPending p.other).port p.other).session = .attached := by
    rw [((Device.inner_testPending p.other _).ports p.other).session, other, attached]
  have within : (((d.endCleared p lost bye).testPending p.other).port p.other).outbound.length ≤ 256 := by
    rw [order, List.length_append]
    exact Nat.succ_le_succ room
  refine ⟨?_, ?_⟩
  · rw [Device.endSessions_entry, kept]
    simp [entryAfterGrant, clear]
  · rw [Device.endSessions_port_other, PortUnit.hear_of_room within, PortUnit.told, if_pos session]
    exact ⟨answered, by simp [order]⟩

/-- Settles O12: each cause is the end of the session and the closing, and R136 by its steps. -/
theorem sessionEndsInOneEvent : Obligations.SessionEndsInOneEvent := by
  refine ⟨fun c s p lost bye ends released attached comes => ?_, fun d p lost bye => ?_⟩
  · obtain ⟨order, room⟩ := room_of_sessionEnd ends comes
    have left := Device.endSessions_close_ended room
    have raised := Device.endSessions_raises (List.mem_singleton_self p) lost bye s.toDevice
    exact ⟨_, exec_of_sessionEnd ends released attached comes, left.session, left.outbound.trans order, left.idle, left.lastSession,
      (Device.rest_close _).mgmt.raised raised⟩
  · have leaves : (fun e : FlushEntry => decide (e.port ≠ p)) = fun e => !([p].contains e.port) := by
      funext e
      simp
    have tracker := d.endSessions_tracker p lost bye
    dsimp only
    rw [leaves, tracker]
    refine ⟨fun e mem => ?_, fun id e => d.endSessions_entries p lost bye, fun empty => ?_, fun attached within => ⟨?_, ?_⟩,
      fun id start count n tag r empty no_flush entry others opened attached room =>
        Device.endSessions_grants empty no_flush entry others opened attached room⟩
    · have stays := (List.mem_filter.mp ((Device.dropFlush_suffix _ _).subset mem)).2
      simpa using stays
    · obtain ⟨same, -⟩ := Device.clearPorts_elsewhere (lost := lost) (bye := bye) empty
      rw [← same]
      refine ⟨Device.dropFlush_suffix _ _, fun calm => Device.dropFlush_kept (calm.imp_left fun stays e head => ?_)⟩
      simpa using stays e head
    · exact (d.endSessions_not_mem (by simp [Port.other_ne]) lost bye).order
    · rw [Device.endSessions_port_other] at within ⊢
      refine PortUnit.getLast?_hear ?_ within
      rw [((Device.inner_testPending p.other _).ports p.other).session, (d.endCleared_other p lost bye).session, attached]

end Sys2Proof.Machine
end

section
/-!
SUPPORT and PROOF. The COMMANDs of a session that pass their checks and join their lists (R144, R149, R151), the QUERY (R153), and the
CANCEL by the command its tag names (Table 8-4).
-/

namespace Sys2Proof.Machine

/-! ### Acceptance of a WRITE (R149) -/

/-- A WRITE that meets its acceptance checks joins the write list, MOVING when it heads it. -/
theorem Device.acceptWrite_of_accepted {p : Port} {tag : Tag} {start count : Nat} {d : Device}
    (passed : d.refusesWrite p start count = none) (durable : Bool) : d.acceptWrite p tag durable start count =
      (d.setCommand p tag (some (.write
        { start := start, count := count, durable := durable,
          state := if (d.port p).writeList = [] then .moving else .queued, received := 0, committed := 0 }))).onPort p
        fun u => { u with writeList := u.writeList ++ [tag] } := by
  unfold Device.refusesWrite at passed
  split_ifs at passed with size range mode lock conflict
  have inRange : ¬(count = 0 ∨ Config.maxTransfer < count) := by simpa only [Nat.lt_one_iff] using size
  rw [Device.acceptWrite, if_neg inRange, if_neg range, if_neg mode, if_neg lock, if_neg conflict]
  simp only [List.isEmpty_iff, Device.openCommand]

/-! ### Acceptance of a FLUSH (R54, R56, R151) -/

theorem Device.setCommand_of_free {p : Port} {tag : Tag} {d : Device} (free : d.TagFree p tag) : d.setCommand p tag none = d := by
  refine Device.onPort_of_same ?_
  have same : (d.port p).commands.set tag.val none tag.isLt = (d.port p).commands := by
    rw [← (free : (d.port p).commands[tag.val] = none)]
    exact Vector.set_getElem_self tag.isLt
  rw [PortUnit.setCommand, same]

/-- R56, R57: a FLUSH answered in its own event leaves its RESPONSE, and no record. -/
theorem Device.answerFlush_taken {p : Port} {tag : Tag} {d : Device} (free : d.TagFree p tag) (room : (d.port p).outbound.length ≤ 256)
    (mark : Nat) (st : Status) :
    (d.setCommand p tag (some .flush)).answerFlush { kind := .flush, port := p, tag := tag, mark := mark } st =
      d.says p [.response tag st 0 none .none] := by
  rw [Device.answerFlush_flush (Device.setCommand_command p tag _ d), Device.answer_of_room (by rwa [Device.setCommand_outbound]),
    Device.setCommand_setCommand, Device.setCommand_of_free free]

/-- R54, R151: a FLUSH takes the last write number as its mark. -/
theorem Device.acceptFlush_of_serving {p : Port} {tag : Tag} {d : Device} (serving : d.mode.mode = .serving) :
    d.acceptFlush p tag = (d.setCommand p tag (some .flush)).joinFlush
      { kind := .flush, port := p, tag := tag, mark := d.tracker.nextWrite - 1 } := by
  rw [Device.acceptFlush, if_neg (by simp [serving])]
  rfl

/-! ### The accepted COMMANDs as events -/

section
variable {s : State} {p : Port} {tag : Tag} (hears : s.Hears p) (free : s.TagFree p tag)
include hears free

theorem exec_read (start count : BitVec 32) : exec (.read p tag start count) s =
    .next { s with toDevice := (s.acceptRead p tag start.toNat count.toNat).close } := by
  rw [exec_message (m := .read tag start.toNat count.toNat) rfl hears.1, Device.takeMessage, Device.takeCommand_of_hears hears free]

theorem exec_write (durable : Bool) (start count : BitVec 32) : exec (.write p tag durable start count) s =
    .next { s with toDevice := (s.acceptWrite p tag durable start.toNat count.toNat).close } := by
  rw [exec_message (m := .write tag durable start.toNat count.toNat) rfl hears.1, Device.takeMessage,
    Device.takeCommand_of_hears hears free]

theorem exec_flush : exec (.flush p tag) s = .next { s with toDevice := (s.acceptFlush p tag).close } := by
  rw [exec_message (m := .flush tag) rfl hears.1, Device.takeMessage, Device.takeCommand_of_hears hears free]

theorem exec_query : exec (.query p tag) s = .next { s with toDevice := s.acceptQuery p tag } := by
  rw [exec_message (m := .query tag) rfl hears.1, Device.takeMessage, Device.takeCommand_of_hears hears free]

end

/-- Settles O18: each accepted COMMAND by its list, the FLUSH by what its head test comes to. -/
theorem acceptedCommandsJoinTheirLists : Obligations.AcceptedCommandsJoinTheirLists := by
  refine ⟨fun s p tag start count hears free passed => ?_, fun s p tag durable start count hears free passed => ?_,
    fun s p tag hears free serving => ?_⟩
  · rw [exec_read hears free, Device.acceptRead_of_accepted passed, Device.openCommand, Device.setCommand, Device.onPort_onPort]
    rfl
  · rw [exec_write hears free, Device.acceptWrite_of_accepted passed, Device.setCommand, Device.onPort_onPort]
    rfl
  · have tracker : (s.setCommand p tag (some .flush)).tracker = s.tracker := s.toDevice.onPort_tracker p _
    dsimp only
    rw [exec_flush hears free, Device.acceptFlush_of_serving serving]
    have answered := Device.answerFlush_taken free (hears.1.room.le.trans (by decide)) (s.tracker.nextWrite - 1)
    have head (alone : s.tracker.flushList = []) := Device.joinFlush_of_empty (d := s.setCommand p tag (some .flush))
      (e := { kind := .flush, port := p, tag := tag, mark := s.tracker.nextWrite - 1 }) (by rw [tracker, alone])
    refine ⟨fun stands => State.next_congr (congrArg Device.close ?_), fun alone good => State.next_congr (congrArg Device.close ?_),
      fun alone lost => State.next_congr (congrArg Device.close ?_)⟩
    · by_cases alone : s.tracker.flushList = []
      · have waits := stands.resolve_left (not_not_intro alone)
        rw [head alone, tracker, waits, alone]
        rfl
      · rw [Device.joinFlush_of_others (by rwa [tracker]), tracker]
    · rw [head alone, tracker, good]
      exact answered .good
    · rw [head alone, tracker, lost]
      exact answered .incomplete

/-- Settles O22: the RESPONSE with the record stands at the tail of the order, and the event has no closing. -/
theorem queryAnswersTheStatusRecord : Obligations.QueryAnswersTheStatusRecord := by
  intro s p tag hears free
  rw [exec_query hears free, Device.acceptQuery, Device.reply_of_hears hears]
  rfl

/-! ### CANCEL (R154 to R156, R60, R112) -/

/-- A notice to a port in session with room stands at the tail of its order. -/
theorem Device.notify_of_hears {p : Port} {d : Device} (hears : d.Hears p) (n : Notice) : d.notify p n = d.says p [.notice n] := by
  rw [← Device.send_of_room (hears.1.room.le.trans (by decide))]
  exact if_pos (decide_eq_true hears.2)

theorem exec_cancel {s : State} {p : Port} (hears : s.Hears p) (tag : Tag) :
    exec (.cancel p tag) s = .next { s with toDevice := (s.cancelOpen p tag).close } := by
  rw [exec_message (m := .cancel tag) rfl hears.1, Device.takeMessage, Device.takeCancel, hears.2]

section
variable {p : Port} {tag : Tag} {d : Device}

theorem Device.cancelOpen_of_free (free : d.TagFree p tag) : d.cancelOpen p tag = d.notify p (.strayCancel tag) := by
  rw [Device.cancelOpen, free]

theorem Device.cancelOpen_of_read {r : ReadCmd} (names : (d.port p).commands[tag] = some (.read r)) :
    d.cancelOpen p tag = d.cancelRead p tag r := by
  rw [Device.cancelOpen, names]

theorem Device.cancelOpen_of_write {w : WriteCmd} (names : (d.port p).commands[tag] = some (.write w)) : d.cancelOpen p tag =
    if w.state = .settling then d.cancelFlush p tag w.count else d.cancelMoving p tag w := by
  rw [Device.cancelOpen, names]

theorem Device.cancelOpen_of_flush (names : (d.port p).commands[tag] = some .flush) :
    d.cancelOpen p tag = d.cancelFlush p tag 0 := by
  rw [Device.cancelOpen, names]

theorem Device.cancelOpen_of_reserve {r : ReserveCmd} (names : (d.port p).commands[tag] = some (.reserve r)) :
    d.cancelOpen p tag = (d.setEntry r.id none).answer p tag .aborted 0 none .none := by
  rw [Device.cancelOpen, names]

end

/-- Settles O24: Table 8-4 by the command the tag names, and a WRITE by its state. -/
theorem cancelEndsTheCommandItNames : Obligations.CancelEndsTheCommandItNames := by
  intro s p tag hears
  dsimp only
  rw [exec_cancel hears]
  refine ⟨fun free => ?_, fun r names => ?_, fun w names moving => ?_, fun w names settling => ?_, fun names => ?_, fun r names => ?_⟩
  · rw [Device.cancelOpen_of_free free, Device.notify_of_hears hears]
  · rw [Device.cancelOpen_of_read names]
    rfl
  · rw [Device.cancelOpen_of_write names, if_neg moving]
    rfl
  · rw [Device.cancelOpen_of_write names, if_pos settling]
    rfl
  · rw [Device.cancelOpen_of_flush names]
    rfl
  · have room : ((s.setEntry r.id none).port p).outbound.length ≤ 256 := by
      rw [Device.setEntry_port]
      exact hears.1.room.le.trans (by decide)
    rw [Device.cancelOpen_of_reserve names, Device.answer_of_room room]

end Sys2Proof.Machine
end

section
/-!
SUPPORT and PROOF. The read engine at its head (R147, R148), the holds its blocks give up (R10), and the end of a READ at its last
block.
-/

namespace Sys2Proof.Machine

/-! ### The head of the window (R147, R148) -/

/-- The read engine of the port may act: SERVING, a session, and an order that has not overflowed. -/
structure Device.EngineRuns (p : Port) (d : Device) : Prop where
  serving : d.mode.mode = .serving
  attached : (d.port p).session = .attached
  room : (d.port p).outbound.length ≤ 256

theorem Device.EngineRuns.acts {p : Port} {d : Device} (runs : d.EngineRuns p) :
    d.mode.mode = .serving ∧ (d.port p).attached = true ∧ (!(d.port p).overflowed) = true := by
  simp [runs.serving, PortUnit.attached, runs.attached, PortUnit.overflowed, Config.outboundCap, runs.room]

section
variable {p : Port} {wb : WindowBlock} {rest : List WindowBlock} {d : Device} (runs : d.EngineRuns p)
  (head : (d.port p).window = wb :: rest)
include runs head

theorem Device.engineStep_of_ready {f : FrameNo} {n : Nat} (ready : wb.state = .ready f) (credits : (d.port p).readCredits = n + 1) :
    d.engineStep p = some (d.formData p wb f) := by
  rw [Device.engineStep, if_pos runs.acts, head]
  dsimp only
  rw [ready]
  exact if_pos (credits ▸ Nat.succ_pos n)

theorem Device.engineStep_of_failed {kind : FailKind} (failed : wb.state = .failed kind) :
    d.engineStep p = some (d.failRead p wb kind) := by
  rw [Device.engineStep, if_pos runs.acts, head]
  dsimp only
  rw [failed]

/-- R147: a READY head without a credit, or a head that waits, stops the engine. -/
theorem Device.engineStep_of_stopped (spent : ∀ f, wb.state = .ready f → (d.port p).readCredits = 0)
    (stands : ∀ k, wb.state ≠ .failed k) : d.engineStep p = none := by
  rw [Device.engineStep, if_pos runs.acts, head]
  dsimp only
  split
  case h_1 f ready => simp [spent f ready]
  case h_2 kind failed => exact (stands kind failed).elim
  case h_3 => rfl

end

/-! ### The acts (R147, R148) -/

/-- R147 steps 1 to 3 on the port, whose order has room. -/
theorem PortUnit.formData_of_read {wb : WindowBlock} {rest : List WindowBlock} {r : ReadCmd} {u : PortUnit} {n : Nat}
    (room : u.outbound.length ≤ 256) (names : u.commands[wb.tag] = some (.read r)) (head : u.window = wb :: rest)
    (credits : u.readCredits = n + 1) (bytes : Block) : u.formData wb bytes =
      { u.setCommand wb.tag (some (.read { r with sent := r.sent + 1 })) with
          outbound := u.outbound ++ [.data wb.tag wb.index bytes], readCredits := n, window := rest } := by
  simp only [PortUnit.formData, PortUnit.enqueue_of_room room, names, head, credits]
  rfl

section
variable {p : Port} {d : Device} (room : (d.port p).outbound.length ≤ 256)
include room

/-- R144: a READ that is answered leaves its RESPONSE at the tail of an order with room, and the read list. -/
theorem Device.answerRead_of_room (t : Tag) (st : Status) (moved : Nat) (failing : Option Nat) :
    d.answerRead p t st moved failing = d.onPort p fun u =>
      { u.setCommand t none with
          outbound := u.outbound ++ [.response t st moved failing .none], readList := u.readList.erase t } := by
  rw [Device.answerRead, Device.answer_of_room room, Device.says, Device.setCommand, Device.onPort_onPort, Device.onPort_onPort]
  rfl

variable {wb : WindowBlock} {r : ReadCmd} (names : (d.port p).commands[wb.tag] = some (.read r))
include names

/-- R147: the DATA of a head, and what its hold then brings about. -/
theorem Device.formData_of_read {rest : List WindowBlock} {n : Nat} (head : (d.port p).window = wb :: rest)
    (credits : (d.port p).readCredits = n + 1) (f : FrameNo) : d.formData p wb f =
      ((Device.dropHold { port := p, tag := wb.tag, index := wb.index } f (d.onPort p fun u =>
        { u.setCommand wb.tag (some (.read { r with sent := r.sent + 1 })) with
            outbound := u.outbound ++ [.data wb.tag wb.index (d.frame f).bytes], readCredits := n,
            window := rest })).finishRead p wb.tag).refill p :=
  congrArg (fun e : Device => ((e.dropHold { port := p, tag := wb.tag, index := wb.index } f).finishRead p wb.tag).refill p)
    (Device.onPort_congr (PortUnit.formData_of_read room names head credits (d.frame f).bytes))

/-- R148: a FAILED head ends its READ with the blocks sent and the failing index. -/
theorem Device.failRead_of_read (kind : FailKind) : d.failRead p wb kind =
    ((d.onPort p fun u =>
      { u.setCommand wb.tag none with
          outbound := u.outbound ++ [.response wb.tag kind.status r.sent (some wb.index) .none],
          readList := u.readList.erase wb.tag }).leaveWindowTag p wb.tag).refill p := by
  have sent : (d.port p).blocksSent wb.tag = r.sent := by rw [PortUnit.blocksSent, names]
  rw [Device.failRead, sent, Device.answerRead_of_room room]

end

/-! ### Holds (R10) -/

section
variable {w : WindowRef} {f : FrameNo} {block hold : Nat} {st : FrameState} {d : Device}
  (serves : (d.frame f).served = some { block := block, hold := hold, state := st })
include serves

/-- R10: the block leaves the waiters of a FILLING frame. -/
theorem Device.dropHold_of_filling {ws : List WindowRef} (filling : st = .filling ws) : d.dropHold w f =
    d.setServed f (some { block := block, hold := hold - 1, state := .filling (ws.erase w) }) := by
  subst filling
  rw [Device.dropHold, serves]
  exact if_neg (by simp [Frame.evictable])

/-- R10: the last hold of a CLEAN frame makes it available. -/
theorem Device.dropHold_of_last (clean : st = .clean) (last : hold ≤ 1) : d.dropHold w f =
    (d.setServed f (some { block := block, hold := hold - 1, state := .clean })).handOut f := by
  subst clean
  have unheld : hold - 1 = 0 := Nat.sub_eq_zero_of_le last
  rw [Device.dropHold, serves]
  exact if_pos (by simp [Frame.evictable, unheld])

/-- A CLEAN frame that is still held, and any frame that is neither CLEAN nor FILLING, is only counted down. -/
theorem Device.dropHold_of_held (waitless : ∀ ws, st ≠ .filling ws) (stays : st = .clean → 1 < hold) : d.dropHold w f =
    d.setServed f (some { block := block, hold := hold - 1, state := st }) := by
  rw [Device.dropHold, serves]
  cases st with
  | filling ws => exact (waitless ws rfl).elim
  | clean =>
    have held : hold - 1 ≠ 0 := Nat.sub_ne_zero_of_lt (stays rfl)
    exact if_neg (by simp [Frame.evictable, held])
  | dirty | writing | held => exact if_neg (by simp [Frame.evictable])

end

/-! ### The end of a READ (R147) -/

section
variable {p : Port} {t : Tag} {r : ReadCmd} {d : Device} (names : (d.port p).commands[t] = some (.read r))
include names

theorem Device.finishRead_of_more (more : r.sent ≠ r.count) : d.finishRead p t = d := by
  rw [Device.finishRead, names]
  exact if_neg more

theorem Device.finishRead_of_all (all : r.sent = r.count) : d.finishRead p t = d.answerRead p t .good r.count none := by
  rw [Device.finishRead, names]
  exact if_pos all

end

/-- The row runs the engine of its port, and closes. -/
theorem exec_dataFormed {s : State} (running : s.resetAsserted = false) (p : Port) :
    exec (.dataFormed p) s = .next { s with toDevice := (engineLoop (s.engineFuel p) p s.toDevice).close } := by
  show execDataFormed p s = _
  rw [execDataFormed, State.event_of_released running]

/-- One act of the engine, and its further run. -/
theorem engineLoop_succ {n : Nat} {p : Port} {d d' : Device} (acts : d.engineStep p = some d') :
    engineLoop (n + 1) p d = engineLoop n p d' := by
  rw [engineLoop, acts]

/-- Settles O31: the head by its state, the hold by its frame's state, the READ by the blocks it has sent. -/
theorem readEngineActsOnItsHead : Obligations.ReadEngineActsOnItsHead := by
  refine ⟨fun s p wb rest f n r running serving attached room head ready credits names => ?_,
    fun d p wb rest r serving attached room head names => ?_, fun d w f block hold st serves => ?_, fun d p t r names => ?_⟩
  · have acts := Device.engineStep_of_ready ⟨serving, attached, room⟩ head ready credits
    have fuel : s.engineFuel p = n + 1 + (s.port p).readList.length + 1 := by rw [Device.engineFuel, credits]
    rw [exec_dataFormed running, fuel, engineLoop_succ acts, Device.formData_of_read room names head credits]
  · have runs : d.EngineRuns p := ⟨serving, attached, room⟩
    refine ⟨Device.engineStep_of_stopped runs head, fun k failed => ?_⟩
    rw [Device.engineStep_of_failed runs head failed, Device.failRead_of_read room names]
    cases k <;> rfl
  · refine ⟨fun ws filling => ?_, fun clean held => ?_, fun clean last => ?_, fun data waitless => ?_⟩
    · exact Device.dropHold_of_filling serves filling
    · rw [Device.dropHold_of_held serves (by simp [clean]) fun _ => held, clean]
    · exact Device.dropHold_of_last serves clean last
    · exact Device.dropHold_of_held serves waitless fun clean => (data clean).elim
  · refine ⟨Device.finishRead_of_more names, fun all room => ?_⟩
    rw [Device.finishRead_of_all names all, Device.answerRead_of_room room]

end Sys2Proof.Machine
end

section
/-!
SUPPORT. The refusal of open commands on one port (R62, R112, R158): the RESPONSEs NOT_SERVING of a list of tags, the records they free,
and the landing buffers their WRITEs give up.
-/

namespace Sys2Proof.Machine

/-! ### One command refused -/

/-- The blocks an open READ has sent. -/
@[simp] def OpenCmd.sentBlocks : OpenCmd → Option Nat
  | .read r => some r.sent
  | _ => none

/-- The blocks an open WRITE has committed. -/
@[simp] def OpenCmd.committedBlocks : OpenCmd → Option Nat
  | .write w => some w.committed
  | _ => none

/-- What an entry of the flush list is answered with: 0 blocks for a FLUSH, its count for a DURABLE WRITE (R62). -/
@[simp] def OpenCmd.flushedBlocks : OpenCmd → Option Nat
  | .flush => some 0
  | .write w => some w.count
  | _ => none

/-- What a waiting RESERVE is answered with. -/
@[simp] def OpenCmd.reservedBlocks : OpenCmd → Option Nat
  | .reserve _ => some 0
  | _ => none

/-- The RESPONSE NOT_SERVING of a command. -/
def refusal (t : Tag) (moved : Nat) : OutMsg := .response t .notServing moved none .none

/-- What the open command of a tag is answered with, where `counts` gives it a count. -/
def PortUnit.counted (counts : OpenCmd → Option Nat) (u : PortUnit) (t : Tag) : Option Nat := u.commands[t].bind counts

/-- A command so counted gives up what `gives` takes from it, and is answered NOT_SERVING. -/
def PortUnit.refuse (counts : OpenCmd → Option Nat) (gives : Tag → PortUnit → PortUnit) (u : PortUnit) (t : Tag) : PortUnit :=
  match u.counted counts t with
  | some moved => ((gives t u).setCommand t none).enqueue (refusal t moved)
  | none => u

/-- The RESPONSEs of a list of tags, each tag's once. -/
def PortUnit.refusals (counts : OpenCmd → Option Nat) (u : PortUnit) (tags : List Tag) : List OutMsg :=
  tags.eraseDups.filterMap fun t => (u.counted counts t).map (refusal t)

/-- What is left of a tag's record when the commands of a list so counted are refused. -/
def recordAfter (counts : OpenCmd → Option Nat) (tags : List Tag) (t : Tag) (record : Option OpenCmd) : Option OpenCmd :=
  if t ∈ tags ∧ (record.bind counts).isSome then none else record

@[simp] theorem recordAfter_none (counts : OpenCmd → Option Nat) (tags : List Tag) (t : Tag) : recordAfter counts tags t none = none := by
  simp [recordAfter]

@[simp] theorem recordAfter_some (counts : OpenCmd → Option Nat) (tags : List Tag) (t : Tag) (c : OpenCmd) :
    recordAfter counts tags t (some c) = if t ∈ tags ∧ (counts c).isSome then none else some c := rfl

/-- Refused commands of another kind leave the count of a tag. -/
theorem recordAfter_bind {counts counts' : OpenCmd → Option Nat} (apart : ∀ c, (counts c).isSome → counts' c = none) (tags : List Tag)
    (t : Tag) (record : Option OpenCmd) : (recordAfter counts tags t record).bind counts' = record.bind counts' := by
  rw [recordAfter]
  split_ifs with refused
  · obtain ⟨-, counted⟩ := refused
    cases record with
    | none => rfl
    | some c => exact (apart c counted).symm
  · rfl

/-- What a command gives up is neither a record nor a message. -/
structure GivesUpOnly (gives : Tag → PortUnit → PortUnit) : Prop where
  commands : ∀ t u, (gives t u).commands = u.commands
  outbound : ∀ t u, (gives t u).outbound = u.outbound

theorem givesUpOnly_nothing : GivesUpOnly fun _ u => u := ⟨fun _ _ => rfl, fun _ _ => rfl⟩

section
variable {counts : OpenCmd → Option Nat} {gives : Tag → PortUnit → PortUnit} {u : PortUnit} {t : Tag}

theorem PortUnit.refuse_of_some {moved : Nat} (h : u.counted counts t = some moved) :
    u.refuse counts gives t = ((gives t u).setCommand t none).enqueue (refusal t moved) := by
  rw [PortUnit.refuse, h]

theorem PortUnit.refuse_of_none (h : u.counted counts t = none) : u.refuse counts gives t = u := by
  rw [PortUnit.refuse, h]

/-- What looks at neither records nor order sees only what is given up. -/
theorem PortUnit.refuse_same {α : Type} {g : PortUnit → α} (blind : ∀ u c o, g { u with commands := c, outbound := o } = g u)
    (given : ∀ t u, g (gives t u) = g u) (u : PortUnit) (t : Tag) : g (u.refuse counts gives t) = g u := by
  cases h : u.counted counts t with
  | none => rw [PortUnit.refuse_of_none h]
  | some moved =>
    rw [PortUnit.refuse_of_some h, PortUnit.enqueue_fields]
    exact (blind (gives t u) _ _).trans (given t u)

theorem PortUnit.foldl_refuse_same {α : Type} {g : PortUnit → α} (blind : ∀ u c o, g { u with commands := c, outbound := o } = g u)
    (given : ∀ t u, g (gives t u) = g u) (tags : List Tag) (u : PortUnit) : g (tags.foldl (PortUnit.refuse counts gives) u) = g u := by
  induction tags generalizing u with
  | nil => rfl
  | cons t tags ih => exact (ih _).trans (PortUnit.refuse_same blind given u t)

variable (only : GivesUpOnly gives)
include only

theorem PortUnit.refuse_command (t' : Tag) : (u.refuse counts gives t).commands[t'] =
    if t' = t ∧ (u.counted counts t').isSome then none else u.commands[t'] := by
  cases h : u.counted counts t with
  | none =>
    rw [PortUnit.refuse_of_none h, if_neg]
    rintro ⟨rfl, answered⟩
    simp [h] at answered
  | some moved =>
    rw [PortUnit.refuse_of_some h, PortUnit.enqueue_commands]
    by_cases same : t' = t
    · subst same
      simp [h, PortUnit.setCommand]
    · rw [PortUnit.setCommand_other same, only.commands, if_neg fun both => same both.1]

/-- A command is answered once. -/
theorem PortUnit.refuse_counted (t' : Tag) : (u.refuse counts gives t).counted counts t' =
    if t' = t then none else u.counted counts t' := by
  rw [PortUnit.counted, PortUnit.refuse_command only]
  by_cases same : t' = t
  · subst same
    cases h : u.counted counts t' with
    | none =>
      rw [if_neg (by simp), if_pos rfl]
      exact h
    | some moved =>
      rw [if_pos (by simp), if_pos rfl]
      rfl
  · rw [if_neg same, if_neg fun both => same both.1, PortUnit.counted]

theorem PortUnit.foldl_refuse_counted (tags : List Tag) (u : PortUnit) (t : Tag) :
    (tags.foldl (PortUnit.refuse counts gives) u).counted counts t = if t ∈ tags then none else u.counted counts t := by
  induction tags generalizing u with
  | nil => simp
  | cons t' tags ih =>
    rw [List.foldl_cons, ih, PortUnit.refuse_counted only]
    by_cases here : t = t' <;> simp [here]

theorem PortUnit.foldl_refuse_command (tags : List Tag) (u : PortUnit) (t : Tag) :
    (tags.foldl (PortUnit.refuse counts gives) u).commands[t] = recordAfter counts tags t u.commands[t] := by
  show _ = if t ∈ tags ∧ (u.counted counts t).isSome then none else u.commands[t]
  induction tags generalizing u with
  | nil => simp
  | cons t' tags ih =>
    rw [List.foldl_cons, ih, PortUnit.refuse_counted only, PortUnit.refuse_command only]
    by_cases here : t = t' <;> simp [here]

theorem PortUnit.refuse_outbound (room : (u.outbound ++ ((u.counted counts t).map (refusal t)).toList).length ≤ 256) :
    (u.refuse counts gives t).outbound = u.outbound ++ ((u.counted counts t).map (refusal t)).toList := by
  cases h : u.counted counts t with
  | none => simp [PortUnit.refuse_of_none h]
  | some moved =>
    have space : ((gives t u).setCommand t none).outbound.length ≤ 256 := by
      rw [show ((gives t u).setCommand t none).outbound = u.outbound from only.outbound t u]
      exact le_of_add_le_left (List.length_append ▸ room)
    rw [PortUnit.refuse_of_some h, PortUnit.enqueue_of_room space]
    exact congrArg (· ++ [refusal t moved]) (only.outbound t u)

/-- The RESPONSEs stand in the order of the tags, each once, on an order with room for them. -/
theorem PortUnit.foldl_refuse_outbound {tags : List Tag} {u : PortUnit} (room : (u.outbound ++ u.refusals counts tags).length ≤ 256) :
    (tags.foldl (PortUnit.refuse counts gives) u).outbound = u.outbound ++ u.refusals counts tags := by
  induction tags using List.reverseRecOn with
  | nil => simp [PortUnit.refusals]
  | append_singleton tags t ih =>
    have last : u.refusals counts (tags ++ [t]) = u.refusals counts tags
        ++ (((tags.foldl (PortUnit.refuse counts gives) u).counted counts t).map (refusal t)).toList := by
      rw [PortUnit.foldl_refuse_counted only, PortUnit.refusals, List.eraseDups_append, List.filterMap_append]
      refine congrArg (u.refusals counts tags ++ ·) ?_
      by_cases again : t ∈ tags
      · simp [again, List.removeAll]
      · cases h : u.counted counts t <;> simp [again, List.removeAll, List.eraseDups_cons, h]
    rw [last, ← List.append_assoc] at room ⊢
    have before := ih (le_of_add_le_left (List.length_append ▸ room))
    rw [← before] at room ⊢
    rw [List.foldl_append]
    exact PortUnit.refuse_outbound only room

end

/-! ### Landing buffers discarded (R26) -/

/-- Each landing buffer is FREE, or as it was and in the commit order if it was there. -/
def PortUnit.Discards (u v : PortUnit) : Prop :=
  ∀ b : BufNo, v.landing[b] = .free ∨ (v.landing[b] = u.landing[b] ∧ (b ∈ u.commitOrder → b ∈ v.commitOrder))

theorem PortUnit.Discards.refl (u : PortUnit) : u.Discards u := fun _ => .inr ⟨rfl, id⟩

theorem PortUnit.Discards.trans {u v w : PortUnit} (h : u.Discards v) (k : v.Discards w) : u.Discards w := fun b => by
  obtain free | ⟨same, stays⟩ := k b
  · exact .inl free
  · exact (h b).imp same.trans fun ⟨same', stays'⟩ => ⟨same.trans same', stays ∘ stays'⟩

theorem PortUnit.Discards.free {u v : PortUnit} (h : u.Discards v) {b : BufNo} (free : u.landing[b] = .free) : v.landing[b] = .free :=
  (h b).elim id fun ⟨same, _⟩ => same.trans free

theorem PortUnit.discards_freeBuffer (u : PortUnit) (b : BufNo) : u.Discards (u.freeBuffer b) := fun c => by
  rw [PortUnit.landing_freeBuffer]
  by_cases same : c = b
  · exact .inl (if_pos same)
  · exact .inr ⟨if_neg same, (List.mem_erase_of_ne same).mpr⟩

/-- What looks at neither buffers nor commit order sees no discarding. -/
theorem PortUnit.foldl_freeBuffer_same {α : Type} {g : PortUnit → α}
    (blind : ∀ u v o, g { u with landing := v, commitOrder := o } = g u) (l : List BufNo) (u : PortUnit) :
    g (l.foldl (fun u b => u.freeBuffer b) u) = g u := by
  induction l generalizing u with
  | nil => rfl
  | cons b l ih => exact (ih _).trans (blind u _ _)

theorem PortUnit.discards_foldl (l : List BufNo) (u : PortUnit) : u.Discards (l.foldl (fun u b => u.freeBuffer b) u) := by
  induction l generalizing u with
  | nil => exact .refl u
  | cons b l ih => exact (u.discards_freeBuffer b).trans (ih _)

theorem PortUnit.foldl_freeBuffer_free {l : List BufNo} {b : BufNo} (mem : b ∈ l) (u : PortUnit) :
    (l.foldl (fun u b => u.freeBuffer b) u).landing[b] = .free := by
  induction l generalizing u with
  | nil => cases mem
  | cons c l ih =>
    obtain rfl | later := List.mem_cons.mp mem
    · exact (PortUnit.discards_foldl l _).free (by rw [PortUnit.landing_freeBuffer, if_pos rfl])
    · exact ih later _

/-- A READ leaves the read list (R144). -/
def giveUpRead (t : Tag) (u : PortUnit) : PortUnit := { u with readList := u.readList.erase t }

/-- A WRITE has its uncommitted buffers discarded, and leaves the write list (R26, R158). -/
def giveUpWrite (t : Tag) (u : PortUnit) : PortUnit :=
  let v := (u.buffersOf t).foldl (fun u b => u.freeBuffer b) u
  { v with writeList := v.writeList.erase t }

theorem givesUpOnly_read : GivesUpOnly giveUpRead := ⟨fun _ _ => rfl, fun _ _ => rfl⟩

theorem givesUpOnly_write : GivesUpOnly giveUpWrite :=
  ⟨fun _ u => PortUnit.foldl_freeBuffer_same (g := PortUnit.commands) (fun _ _ _ => rfl) _ u,
    fun _ u => PortUnit.foldl_freeBuffer_same (g := PortUnit.outbound) (fun _ _ _ => rfl) _ u⟩

theorem giveUpWrite_writeList (t : Tag) (u : PortUnit) : (giveUpWrite t u).writeList = u.writeList.erase t :=
  congrArg (List.erase · t) (PortUnit.foldl_freeBuffer_same (g := PortUnit.writeList) (fun _ _ _ => rfl) _ u)

theorem PortUnit.discards_giveUpWrite (t : Tag) (u : PortUnit) : u.Discards (giveUpWrite t u) := u.discards_foldl (u.buffersOf t)

section
variable {counts : OpenCmd → Option Nat} {gives : Tag → PortUnit → PortUnit}

theorem PortUnit.discards_refuse (given : ∀ t u, PortUnit.Discards u (gives t u)) (u : PortUnit) (t : Tag) :
    u.Discards (u.refuse counts gives t) := by
  cases h : u.counted counts t with
  | none =>
    rw [PortUnit.refuse_of_none h]
    exact .refl u
  | some moved =>
    rw [PortUnit.refuse_of_some h, PortUnit.enqueue_fields]
    exact (given t u).trans fun b => .inr ⟨rfl, id⟩

theorem PortUnit.discards_foldl_refuse (given : ∀ t u, PortUnit.Discards u (gives t u)) (tags : List Tag) (u : PortUnit) :
    u.Discards (tags.foldl (PortUnit.refuse counts gives) u) := by
  induction tags generalizing u with
  | nil => exact .refl u
  | cons t tags ih => exact (PortUnit.discards_refuse given u t).trans (ih _)

end

/-- The buffers that carry a refused WRITE's blocks are FREE behind it. -/
theorem PortUnit.foldl_refuse_frees {tags : List Tag} {u : PortUnit} {b : BufNo} {t : Tag} {index block : Nat} {bytes : Block}
    (waits : b ∈ u.commitOrder) (holds : u.landing[b] = .occupied t index block bytes) (listed : t ∈ tags)
    (opened : (u.counted OpenCmd.committedBlocks t).isSome) :
    (tags.foldl (PortUnit.refuse OpenCmd.committedBlocks giveUpWrite) u).landing[b] = .free := by
  induction tags generalizing u with
  | nil => cases listed
  | cons t' tags ih =>
    have later := PortUnit.discards_foldl_refuse PortUnit.discards_giveUpWrite (counts := OpenCmd.committedBlocks) tags
      (u.refuse OpenCmd.committedBlocks giveUpWrite t')
    by_cases same : t = t'
    · subst same
      obtain ⟨moved, counted⟩ := Option.isSome_iff_exists.mp opened
      refine later.free ?_
      rw [PortUnit.refuse_of_some counted, PortUnit.enqueue_fields]
      exact PortUnit.foldl_freeBuffer_free (List.mem_filter.mpr ⟨waits, by simp [holds]⟩) u
    · obtain free | ⟨kept, stays⟩ := PortUnit.discards_refuse (counts := OpenCmd.committedBlocks) PortUnit.discards_giveUpWrite u t' b
      · exact later.free free
      · refine ih (stays waits) (kept.trans holds) ((List.mem_cons.mp listed).resolve_left same) ?_
        rwa [PortUnit.refuse_counted givesUpOnly_write, if_neg same]

end Sys2Proof.Machine
end

section
/-!
SUPPORT. The entry to FAULTED on one port (R158): its READs, its WRITEs, its entries of the flush list and its waiting RESERVEs are
refused, one list after another, and MEDIA_FAULT follows.
-/

namespace Sys2Proof.Machine

/-! ### The four lists -/

/-- R158 step 1: the READs in read-list order. -/
def PortUnit.refuseReads (u : PortUnit) : PortUnit := u.readList.foldl (PortUnit.refuse OpenCmd.sentBlocks giveUpRead) u

/-- R158 step 2: the WRITEs in order of acceptance. -/
def PortUnit.refuseWrites (u : PortUnit) : PortUnit := u.writesInOrder.foldl (PortUnit.refuse OpenCmd.committedBlocks giveUpWrite) u

/-- R62, R112: commands that give up nothing on their port, by their tags. -/
def PortUnit.refuseListed (counts : OpenCmd → Option Nat) (tags : List Tag) (u : PortUnit) : PortUnit :=
  tags.foldl (PortUnit.refuse counts fun _ u => u) u

/-- R158: the four lists, by the port's tags in the flush list and those of its PENDING entries. -/
def PortUnit.refuseAll (flushes waits : List Tag) (u : PortUnit) : PortUnit :=
  ((u.refuseReads.refuseWrites).refuseListed OpenCmd.flushedBlocks flushes).refuseListed OpenCmd.reservedBlocks waits

/-- R158, R163: the port when the device has entered FAULTED. -/
def PortUnit.faulted (flushes waits : List Tag) (u : PortUnit) : PortUnit := (u.refuseAll flushes waits).hear .mediaFault

theorem PortUnit.hear_same {α : Type} {g : PortUnit → α} (blind : ∀ u c o, g { u with commands := c, outbound := o } = g u)
    (n : Notice) (u : PortUnit) : g (u.hear n) = g u := by
  rw [PortUnit.hear]
  split_ifs
  · rw [PortUnit.enqueue_fields]
    exact blind u u.commands _
  · rfl

/-- What looks at neither records nor order, and at nothing that READs and WRITEs give up, sees no refusal. -/
theorem PortUnit.refuseAll_same {α : Type} {g : PortUnit → α} (blind : ∀ u c o, g { u with commands := c, outbound := o } = g u)
    (reads : ∀ t u, g (giveUpRead t u) = g u) (writes : ∀ t u, g (giveUpWrite t u) = g u) (flushes waits : List Tag) (u : PortUnit) :
    g (u.refuseAll flushes waits) = g u := by
  rw [PortUnit.refuseAll, PortUnit.refuseListed, PortUnit.foldl_refuse_same blind fun _ _ => rfl, PortUnit.refuseListed,
    PortUnit.foldl_refuse_same blind fun _ _ => rfl, PortUnit.refuseWrites, PortUnit.foldl_refuse_same blind writes,
    PortUnit.refuseReads, PortUnit.foldl_refuse_same blind reads]

theorem PortUnit.refuseReads_writesInOrder (u : PortUnit) : u.refuseReads.writesInOrder = u.writesInOrder :=
  PortUnit.foldl_refuse_same (gives := giveUpRead) (g := PortUnit.writesInOrder) (fun _ _ _ => rfl) (fun _ _ => rfl) u.readList u

/-! ### The records -/

section
variable {flushes waits : List Tag} {u : PortUnit}

theorem PortUnit.refuseReads_command (u : PortUnit) (t : Tag) :
    u.refuseReads.commands[t] = recordAfter OpenCmd.sentBlocks u.readList t u.commands[t] :=
  PortUnit.foldl_refuse_command givesUpOnly_read _ u t

theorem PortUnit.refuseWrites_command (u : PortUnit) (t : Tag) :
    u.refuseWrites.commands[t] = recordAfter OpenCmd.committedBlocks u.writesInOrder t u.commands[t] :=
  PortUnit.foldl_refuse_command givesUpOnly_write _ u t

theorem PortUnit.refuseListed_command (counts : OpenCmd → Option Nat) (tags : List Tag) (u : PortUnit) (t : Tag) :
    (u.refuseListed counts tags).commands[t] = recordAfter counts tags t u.commands[t] :=
  PortUnit.foldl_refuse_command givesUpOnly_nothing _ u t

theorem PortUnit.hear_commands (n : Notice) (u : PortUnit) : (u.hear n).commands = u.commands := by
  rw [PortUnit.hear]
  split_ifs
  · exact u.enqueue_commands _
  · rfl

/-- The tag of a command stands in the list of its kind. -/
@[simp] def PortUnit.inItsList (flushes waits : List Tag) (u : PortUnit) (t : Tag) : OpenCmd → Bool
  | .read _ => u.readList.contains t
  | .write _ => u.writesInOrder.contains t || flushes.contains t
  | .flush => flushes.contains t
  | .reserve _ => waits.contains t

theorem PortUnit.faulted_record (t : Tag) : (u.faulted flushes waits).commands[t] =
    recordAfter OpenCmd.reservedBlocks waits t (recordAfter OpenCmd.flushedBlocks flushes t
      (recordAfter OpenCmd.committedBlocks u.writesInOrder t (recordAfter OpenCmd.sentBlocks u.readList t u.commands[t]))) := by
  rw [PortUnit.faulted, PortUnit.hear_commands, PortUnit.refuseAll, PortUnit.refuseListed_command, PortUnit.refuseListed_command,
    PortUnit.refuseWrites_command, PortUnit.refuseReads_writesInOrder, PortUnit.refuseReads_command]

/-- Every open command in the list of its kind is answered, and no other. -/
theorem PortUnit.faulted_command {t : Tag} {c : OpenCmd} (opened : u.commands[t] = some c) :
    (u.faulted flushes waits).commands[t] = if u.inItsList flushes waits t c then none else some c := by
  rw [PortUnit.faulted_record, opened]
  cases c with
  | read r => by_cases here : t ∈ u.readList <;> simp [here]
  | write w => by_cases first : t ∈ u.writesInOrder <;> by_cases second : t ∈ flushes <;> simp [first, second]
  | flush => by_cases here : t ∈ flushes <;> simp [here]
  | reserve r => by_cases here : t ∈ waits <;> simp [here]

/-! ### The order -/

theorem PortUnit.refusals_congr {counts : OpenCmd → Option Nat} {v : PortUnit} {tags : List Tag}
    (same : ∀ t, v.counted counts t = u.counted counts t) : v.refusals counts tags = u.refusals counts tags :=
  congrArg (tags.eraseDups.filterMap ·) (funext fun t => congrArg (Option.map (refusal t)) (same t))

/-- The RESPONSEs of the entries of the flush list: a WRITE answered before in the order of acceptance is not answered again. -/
def PortUnit.flushRefusals (flushes : List Tag) (u : PortUnit) : List OutMsg :=
  flushes.eraseDups.filterMap fun t =>
    ((recordAfter OpenCmd.committedBlocks u.writesInOrder t u.commands[t]).bind OpenCmd.flushedBlocks).map (refusal t)

/-- MEDIA_FAULT, on an ATTACHED port (R163). -/
def PortUnit.faultNotice (u : PortUnit) : List OutMsg := if u.session = .attached then [.notice .mediaFault] else []

/-- The order with the RESPONSEs of the four lists, and MEDIA_FAULT behind them. -/
def PortUnit.faultOrder (flushes waits : List Tag) (u : PortUnit) : List OutMsg :=
  u.outbound ++ u.refusals OpenCmd.sentBlocks u.readList ++ u.refusals OpenCmd.committedBlocks u.writesInOrder
    ++ u.flushRefusals flushes ++ u.refusals OpenCmd.reservedBlocks waits ++ u.faultNotice

theorem PortUnit.refuseReads_counted {counts : OpenCmd → Option Nat} (apart : ∀ c, (OpenCmd.sentBlocks c).isSome → counts c = none)
    (u : PortUnit) (t : Tag) : u.refuseReads.counted counts t = u.counted counts t := by
  rw [PortUnit.counted, PortUnit.refuseReads_command]
  exact recordAfter_bind apart ..

theorem PortUnit.refuseReads_outbound (room : (u.outbound ++ u.refusals OpenCmd.sentBlocks u.readList).length ≤ 256) :
    u.refuseReads.outbound = u.outbound ++ u.refusals OpenCmd.sentBlocks u.readList :=
  PortUnit.foldl_refuse_outbound givesUpOnly_read room

theorem PortUnit.refuseWrites_outbound (room : (u.outbound ++ u.refusals OpenCmd.committedBlocks u.writesInOrder).length ≤ 256) :
    u.refuseWrites.outbound = u.outbound ++ u.refusals OpenCmd.committedBlocks u.writesInOrder :=
  PortUnit.foldl_refuse_outbound givesUpOnly_write room

theorem PortUnit.refuseListed_outbound {counts : OpenCmd → Option Nat} {tags : List Tag}
    (room : (u.outbound ++ u.refusals counts tags).length ≤ 256) :
    (u.refuseListed counts tags).outbound = u.outbound ++ u.refusals counts tags :=
  PortUnit.foldl_refuse_outbound givesUpOnly_nothing room

/-- A WRITE answered in the order of acceptance is passed over in the flush list. -/
theorem PortUnit.refuseWrites_flushRefusals : u.refuseReads.refuseWrites.refusals OpenCmd.flushedBlocks flushes = u.flushRefusals flushes := by
  refine congrArg (flushes.eraseDups.filterMap ·) (funext fun t => congrArg (Option.map (refusal t)) ?_)
  rw [PortUnit.counted, PortUnit.refuseWrites_command, PortUnit.refuseReads_writesInOrder, PortUnit.refuseReads_command]
  cases u.commands[t] with
  | none => simp
  | some c => cases c <;> by_cases here : t ∈ u.readList <;> simp [here]

theorem PortUnit.refuseListed_reserved (t : Tag) :
    ((u.refuseReads.refuseWrites).refuseListed OpenCmd.flushedBlocks flushes).counted OpenCmd.reservedBlocks t =
      u.counted OpenCmd.reservedBlocks t := by
  have reads := PortUnit.refuseReads_counted (counts := OpenCmd.reservedBlocks) (by rintro (_ | _ | _ | _) <;> simp) u t
  rw [← reads, PortUnit.counted, PortUnit.refuseListed_command, recordAfter_bind (by rintro (_ | _ | _ | _) <;> simp),
    PortUnit.refuseWrites_command, recordAfter_bind (by rintro (_ | _ | _ | _) <;> simp), PortUnit.counted]

/-- A part of an order with room has room. -/
theorem length_le_of_append {l m : List OutMsg} (h : (l ++ m).length ≤ 256) : l.length ≤ 256 :=
  (List.sublist_append_left l m).length_le.trans h

/-- R158, R163: on an order with room for all of it, every RESPONSE and the notice stand in their places. -/
theorem PortUnit.faulted_outbound (room : (u.faultOrder flushes waits).length ≤ 256) :
    (u.faulted flushes waits).outbound = u.faultOrder flushes waits := by
  have session : (u.refuseAll flushes waits).session = u.session := by
    refine PortUnit.refuseAll_same (g := PortUnit.session) (fun _ _ _ => rfl) (fun _ _ => rfl) (fun t u => ?_) flushes waits u
    exact PortUnit.foldl_freeBuffer_same (g := PortUnit.session) (fun _ _ _ => rfl) _ u
  have committed : u.refuseReads.refusals OpenCmd.committedBlocks u.writesInOrder = u.refusals OpenCmd.committedBlocks u.writesInOrder :=
    PortUnit.refusals_congr (u.refuseReads_counted (by rintro (_ | _ | _ | _) <;> simp))
  rw [PortUnit.faultOrder] at room ⊢
  have room₄ := length_le_of_append room
  have room₃ := length_le_of_append room₄
  have room₂ := length_le_of_append room₃
  have reads := PortUnit.refuseReads_outbound (length_le_of_append room₂)
  have writes := PortUnit.refuseWrites_outbound (u := u.refuseReads)
  rw [PortUnit.refuseReads_writesInOrder, committed, reads] at writes
  have flushed := PortUnit.refuseListed_outbound (u := u.refuseReads.refuseWrites) (counts := OpenCmd.flushedBlocks) (tags := flushes)
  rw [PortUnit.refuseWrites_flushRefusals, writes room₂] at flushed
  have reserved := PortUnit.refuseListed_outbound (counts := OpenCmd.reservedBlocks) (tags := waits)
    (u := u.refuseReads.refuseWrites.refuseListed OpenCmd.flushedBlocks flushes)
  rw [PortUnit.refusals_congr PortUnit.refuseListed_reserved, flushed room₃] at reserved
  have order : (u.refuseAll flushes waits).outbound = _ := reserved room₄
  rw [PortUnit.faulted, PortUnit.hear_of_room (order ▸ room₄), PortUnit.told, session, PortUnit.faultNotice]
  split_ifs
  · exact congrArg (· ++ [OutMsg.notice .mediaFault]) order
  · rw [order, List.append_nil]

/-! ### The landing buffers and the write list -/

theorem PortUnit.mem_writesInOrder {b : BufNo} {t : Tag} (waiting : b ∈ u.commitOrder) (carries : u.landing[b].tag = some t) :
    t ∈ u.writesInOrder := by
  by_cases listed : t ∈ u.writeList
  · exact List.mem_append_right _ listed
  · refine List.mem_append_left _ (List.mem_filter.mpr ⟨List.mem_eraseDups.mpr (List.mem_filterMap.mpr ⟨b, waiting, carries⟩), ?_⟩)
    simpa using listed

/-- R26, R158: a block received for an open WRITE and not committed is discarded. -/
theorem PortUnit.faulted_landing {b : BufNo} {t : Tag} {index block : Nat} {bytes : Block} {w : WriteCmd} (waiting : b ∈ u.commitOrder)
    (holds : u.landing[b] = .occupied t index block bytes) (opened : u.commands[t] = some (.write w)) :
    (u.faulted flushes waits).landing[b] = .free := by
  have kept {α : Type} {g : PortUnit → α} (blind : ∀ u c o, g { u with commands := c, outbound := o } = g u)
      (reads : ∀ t u, g (giveUpRead t u) = g u) : g u.refuseReads = g u := PortUnit.foldl_refuse_same blind reads u.readList u
  have order : u.refuseReads.commitOrder = u.commitOrder := kept (g := PortUnit.commitOrder) (fun _ _ _ => rfl) fun _ _ => rfl
  have landing : u.refuseReads.landing = u.landing := kept (g := PortUnit.landing) (fun _ _ _ => rfl) fun _ _ => rfl
  have counted : u.refuseReads.counted OpenCmd.committedBlocks t = some w.committed := by
    rw [u.refuseReads_counted (by rintro (_ | _ | _ | _) <;> simp), PortUnit.counted, opened]
    rfl
  have listed : t ∈ u.refuseReads.writesInOrder :=
    u.refuseReads_writesInOrder ▸ PortUnit.mem_writesInOrder waiting (by rw [holds]; rfl)
  have later (v : PortUnit) : (((v.refuseListed OpenCmd.flushedBlocks flushes).refuseListed OpenCmd.reservedBlocks waits).hear
      .mediaFault).landing = v.landing := by
    rw [PortUnit.hear_same (g := PortUnit.landing) fun _ _ _ => rfl, PortUnit.refuseListed,
      PortUnit.foldl_refuse_same (g := PortUnit.landing) (fun _ _ _ => rfl) fun _ _ => rfl, PortUnit.refuseListed,
      PortUnit.foldl_refuse_same (g := PortUnit.landing) (fun _ _ _ => rfl) fun _ _ => rfl]
  rw [PortUnit.faulted, PortUnit.refuseAll, later]
  exact PortUnit.foldl_refuse_frees (order ▸ waiting) (landing ▸ holds) listed (by simp [counted])

theorem PortUnit.foldl_refuse_writeList (counts : OpenCmd → Option Nat) (tags : List Tag) (u : PortUnit) :
    (tags.foldl (PortUnit.refuse counts giveUpWrite) u).writeList.Sublist u.writeList := by
  induction tags generalizing u with
  | nil => exact .refl _
  | cons t tags ih =>
    refine (ih _).trans ?_
    cases h : u.counted counts t with
    | none => rw [PortUnit.refuse_of_none h]
    | some moved =>
      rw [PortUnit.refuse_of_some h, PortUnit.enqueue_fields]
      exact giveUpWrite_writeList t u ▸ List.erase_sublist

theorem PortUnit.faulted_writeList (flushes waits : List Tag) (u : PortUnit) :
    (u.faulted flushes waits).writeList.Sublist u.writeList := by
  have kept {counts : OpenCmd → Option Nat} (tags : List Tag) (v : PortUnit) : (v.refuseListed counts tags).writeList = v.writeList :=
    PortUnit.foldl_refuse_same (g := PortUnit.writeList) (fun _ _ _ => rfl) (fun _ _ => rfl) tags v
  have reads : u.refuseReads.writeList = u.writeList :=
    PortUnit.foldl_refuse_same (gives := giveUpRead) (g := PortUnit.writeList) (fun _ _ _ => rfl) (fun _ _ => rfl) u.readList u
  rw [PortUnit.faulted, PortUnit.hear_same (g := PortUnit.writeList) fun _ _ _ => rfl, PortUnit.refuseAll, kept, kept, ← reads]
  exact PortUnit.foldl_refuse_writeList _ _ _

/-- R130: with every WRITE of its write list refused a port is due no write credit. -/
theorem PortUnit.faulted_grantSize (flushes waits : List Tag) (u : PortUnit) : (u.faulted flushes waits).grantSize = 0 := by
  have none_due : (u.faulted flushes waits).toReceive = 0 := by
    refine List.sum_eq_zero fun n mem => ?_
    obtain ⟨t, listed, rfl⟩ := List.mem_map.mp mem
    have accepted : t ∈ u.writesInOrder := List.mem_append_right _ ((u.faulted_writeList flushes waits).subset listed)
    have refused (w : WriteCmd) : (u.faulted flushes waits).commands[t] ≠ some (.write w) := by
      cases record : u.commands[t] with
      | none => rw [PortUnit.faulted_record, record]; simp
      | some c =>
        rw [PortUnit.faulted_command record]
        cases c <;> simp [accepted]
    split
    · rename_i w opened
      exact (refused w opened).elim
    · rfl
  rw [PortUnit.grantSize, none_due, Nat.zero_sub, Nat.min_zero]

end

end Sys2Proof.Machine
end

section
/-!
SUPPORT. The entry to FAULTED on the part (R158): what each of its steps does to the ports, but for the windows, where no
landing buffer waits for a frame; and what it does to the PENDING entries, to the tracker and to the blocks of the refused READs.
-/

namespace Sys2Proof.Machine

/-! ### Steps of the entry -/

/-- A port unit but for its window. -/
def PortUnit.bare (u : PortUnit) : PortUnit := { u with window := [] }

/-- What names a window block: its READ, its block index, its logical block. -/
def WindowBlock.name (wb : WindowBlock) : Tag × Nat × Nat := (wb.tag, wb.index, wb.block)

/-- A step of the entry: each port but for its window changes as given, no window gains a block, and the tracker and the reservation
table stay. -/
structure Device.Enters (change : Port → PortUnit → PortUnit) (d e : Device) : Prop where
  ports : ∀ q, (e.port q).bare = change q (d.port q).bare
  windows : ∀ q, ((e.port q).window.map WindowBlock.name).Sublist ((d.port q).window.map WindowBlock.name)
  tracker : e.tracker = d.tracker
  reservations : e.reservations = d.reservations

/-- A step that changes the ports in their windows alone. -/
abbrev Device.Shifts (d e : Device) : Prop := d.Enters (fun _ u => u) e

theorem Device.Enters.trans {f g : Port → PortUnit → PortUnit} {d₁ d₂ d₃ : Device} (h : d₁.Enters f d₂) (k : d₂.Enters g d₃) :
    d₁.Enters (fun q u => g q (f q u)) d₃ :=
  ⟨fun q => (k.ports q).trans (congrArg (g q) (h.ports q)), fun q => (k.windows q).trans (h.windows q), k.tracker.trans h.tracker,
    k.reservations.trans h.reservations⟩

theorem Device.shifts_of_ports {d e : Device} (ports : ∀ q, e.port q = d.port q) (tracker : e.tracker = d.tracker := by rfl)
    (reservations : e.reservations = d.reservations := by rfl) : d.Shifts e :=
  ⟨fun q => by rw [ports], fun q => by rw [ports], tracker, reservations⟩

theorem Device.Shifts.refl (d : Device) : d.Shifts d := Device.shifts_of_ports fun _ => rfl

/-- A change of one port. -/
def atPort (p : Port) (f : PortUnit → PortUnit) (q : Port) (u : PortUnit) : PortUnit := if q = p then f u else u

@[simp] theorem atPort_same (p : Port) (f : PortUnit → PortUnit) (u : PortUnit) : atPort p f p u = f u := if_pos rfl

@[simp] theorem atPort_other (p : Port) (f : PortUnit → PortUnit) (u : PortUnit) : atPort p f p.other u = u := if_neg (Port.other_ne p)

/-- A change of one port's unit, with a window that gains nothing. -/
theorem Device.enters_onPort {p : Port} {f g : PortUnit → PortUnit} {d : Device} (bare : (f (d.port p)).bare = g (d.port p).bare)
    (window : ((f (d.port p)).window.map WindowBlock.name).Sublist ((d.port p).window.map WindowBlock.name)) :
    d.Enters (atPort p g) (d.onPort p f) where
  ports q := by
    obtain rfl | rfl := Port.eq_or_other p q
    · rw [Device.onPort_port_same, bare, atPort_same]
    · rw [Device.onPort_port_other, atPort_other]
  windows q := by
    obtain rfl | rfl := Port.eq_or_other p q
    · rwa [Device.onPort_port_same]
    · rw [Device.onPort_port_other]
  tracker := d.onPort_tracker p f
  reservations := d.onPort_reservations p f

theorem Device.shifts_onPort {p : Port} {f : PortUnit → PortUnit} {d : Device} (bare : (f (d.port p)).bare = (d.port p).bare)
    (window : ((f (d.port p)).window.map WindowBlock.name).Sublist ((d.port p).window.map WindowBlock.name)) :
    d.Shifts (d.onPort p f) := by
  have same : (fun _ u => u : Port → PortUnit → PortUnit) = atPort p fun u => u := funext₂ fun q u => (ite_self u).symm
  rw [Device.Shifts, same]
  exact Device.enters_onPort bare window

/-! ### Holds given up where no landing buffer waits (R10, R16) -/

theorem Device.shifts_frames (fs : FrameStore) (d : Device) : d.Shifts { d with frames := fs } :=
  Device.shifts_of_ports fun q => by cases q <;> rfl

theorem Device.shifts_tellWindow (w : WindowRef) (st : WindowState) (d : Device) : d.Shifts (d.tellWindow w st) := by
  have names (u : PortUnit) : (u.setWindow w.tag w.index st).window.map WindowBlock.name = u.window.map WindowBlock.name := by
    rw [PortUnit.setWindow, List.map_map]
    refine List.map_congr_left fun wb _ => ?_
    rw [Function.comp_apply]
    split_ifs <;> rfl
  exact Device.shifts_onPort rfl (by rw [names])

theorem Device.shifts_takeHold (f : FrameNo) (d : Device) : d.Shifts (d.takeHold f) := by
  unfold Device.takeHold
  split
  · dsimp only
    split
    · exact d.shifts_frames _
    · exact d.shifts_frames _
  · exact .refl d

theorem Device.shifts_fillFor (w : WindowRef) (block : Nat) (f : FrameNo) (d : Device) : d.Shifts (d.fillFor w block f) :=
  Device.Enters.trans (d₂ := (d.setServed f _).requestFill _) (Device.shifts_of_ports fun q => by cases q <;> rfl)
    (Device.shifts_tellWindow _ _ _)

theorem Device.shifts_giveFrame (f : FrameNo) (d : Device) {e : WaiterEntry} (h : ∀ p b, e.requester ≠ .landing p b) :
    d.Shifts (d.giveFrame f e) := by
  unfold Device.giveFrame
  split
  · dsimp only
    split
    · exact ((d.shifts_takeHold f).trans (Device.shifts_frames _ _)).trans (Device.shifts_tellWindow _ _ _)
    · exact (d.shifts_takeHold f).trans (Device.shifts_tellWindow _ _ _)
  · rename_i p b landing
    exact (h p b landing).elim

theorem Device.shifts_giveIndexed (f : FrameNo) (block : Nat) {d : Device} (free : d.NoBufferWaits) :
    d.Shifts (d.giveIndexed f block) := by
  have given (l : List WaiterEntry) (d : Device) (windows : ∀ e ∈ l, ∀ p b, e.requester ≠ .landing p b) :
      d.Shifts (l.foldl (fun d e => d.giveFrame f e) d) := by
    induction l generalizing d with
    | nil => exact .refl d
    | cons e l ih =>
      exact (d.shifts_giveFrame f (windows e List.mem_cons_self)).trans (ih _ fun x mem => windows x (List.mem_cons_of_mem _ mem))
  exact (d.shifts_frames _).trans (given _ _ fun e mem => free e (List.mem_filter.mp mem).1)

theorem Device.shifts_handOut (f : FrameNo) {d : Device} (free : d.NoBufferWaits) : d.Shifts (d.handOut f) := by
  unfold Device.handOut
  split
  · exact .refl d
  · rename_i e rest queue
    have behind : (d.setWaiterQueue rest).NoBufferWaits := fun x mem => free x (queue ▸ List.mem_cons_of_mem e mem)
    dsimp only
    split
    · rename_i w _
      have filled := (Device.uncommitting_evict f _).trans (Device.uncommitting_fillFor w e.block f ((d.setWaiterQueue rest).evict f))
      exact ((d.shifts_frames _).trans (Device.shifts_fillFor w e.block f _)).trans
        (Device.shifts_giveIndexed f e.block (filled.noBufferWaits behind))
    · rename_i p b landing
      exact (free e (queue ▸ List.mem_cons_self) p b landing).elim

theorem Device.shifts_dropHold (w : WindowRef) (f : FrameNo) {d : Device} (free : d.NoBufferWaits) : d.Shifts (d.dropHold w f) := by
  unfold Device.dropHold
  split
  · dsimp only
    generalize some (Served.mk _ _ _) = left
    split
    · exact (d.shifts_frames _).trans (Device.shifts_handOut f ((d.uncommitting_setServed f left).noBufferWaits free))
    · exact d.shifts_frames _
  · exact .refl d

theorem Device.shifts_departs (p : Port) (wb : WindowBlock) {d : Device} (free : d.NoBufferWaits) : d.Shifts (d.departs p wb) := by
  unfold Device.departs
  dsimp only
  split
  · exact Device.shifts_dropHold _ _ free
  · exact Device.shifts_dropHold _ _ free
  · exact d.shifts_frames _
  · exact .refl d
  · exact .refl d

/-! ### Blocks that leave a window (R145) -/

/-- A window block leaves, and gives up its claim. -/
theorem Device.shifts_leave (p : Port) (wb : WindowBlock) {d : Device} (free : d.NoBufferWaits) :
    d.Shifts ((d.onPort p fun u => { u with window := u.window.erase wb }).departs p wb) :=
  (Device.shifts_onPort rfl (List.erase_sublist.map _)).trans
    (Device.shifts_departs p wb ((d.uncommitting_onPort p _).noBufferWaits free))

theorem Device.noBufferWaits_leave (p : Port) (wb : WindowBlock) {d : Device} (free : d.NoBufferWaits) :
    ((d.onPort p fun u => { u with window := u.window.erase wb }).departs p wb).NoBufferWaits :=
  have erased := (d.uncommitting_onPort p fun u => { u with window := u.window.erase wb }).noBufferWaits free
  (Device.uncommitting_departs p wb erased).noBufferWaits erased

theorem shifts_leaveWindow (leaves : WindowBlock → Bool) (n : Nat) (p : Port) {d : Device} (free : d.NoBufferWaits) :
    d.Shifts (leaveWindow leaves n p d) := by
  induction n generalizing d with
  | zero => exact .refl d
  | succ n ih =>
    unfold leaveWindow
    split
    · exact (Device.shifts_leave p _ free).trans (ih (Device.noBufferWaits_leave p _ free))
    · exact .refl d

/-- With a pass for every block, no block that leaves by its tag is left. -/
theorem leaveWindow_clears (t : Tag) (n : Nat) (p : Port) {d : Device} (free : d.NoBufferWaits) (fuel : (d.port p).window.length ≤ n) :
    ∀ wb ∈ ((leaveWindow (fun wb => decide (wb.tag = t)) n p d).port p).window, wb.tag ≠ t := by
  induction n generalizing d with
  | zero =>
    intro wb mem
    rw [leaveWindow, List.length_eq_zero_iff.mp (Nat.le_zero.mp fuel)] at mem
    cases mem
  | succ n ih =>
    unfold leaveWindow
    split
    · rename_i wb found
      refine ih (Device.noBufferWaits_leave p wb free) ?_
      have shorter := ((Device.shifts_departs p wb ((d.uncommitting_onPort p fun u =>
        { u with window := u.window.erase wb }).noBufferWaits free)).windows p).length_le
      rw [List.length_map, List.length_map, Device.onPort_port_same, List.length_erase_of_mem (List.mem_of_find?_eq_some found)] at shorter
      exact shorter.trans (Nat.sub_le_of_le_add fuel)
    · rename_i none_left
      intro wb mem
      simpa using List.find?_eq_none.mp none_left wb mem

/-! ### One command refused (R158) -/

/-- A change that leaves the order may come before or behind a message. -/
theorem PortUnit.enqueue_comm {f : PortUnit → PortUnit} {u : PortUnit} (order : (f u).outbound = u.outbound)
    (apart : ∀ o, f { u with outbound := o } = { f u with outbound := o }) (m : OutMsg) : f (u.enqueue m) = (f u).enqueue m := by
  unfold PortUnit.enqueue
  rw [order]
  split_ifs
  · exact apart _
  · rfl

theorem PortUnit.enqueue_bare (m : OutMsg) (u : PortUnit) : (u.enqueue m).bare = u.bare.enqueue m :=
  PortUnit.enqueue_comm rfl (fun _ => rfl) m

section
variable {counts : OpenCmd → Option Nat} {gives : Tag → PortUnit → PortUnit} {p : Port} {t : Tag} {d e : Device}

/-- A command that is not so counted is passed over. -/
theorem Device.enters_pass (uncounted : (d.port p).counted counts t = none) :
    d.Enters (atPort p fun u => u.refuse counts gives t) d where
  ports q := by
    obtain rfl | rfl := Port.eq_or_other p q
    · rw [atPort_same, PortUnit.refuse_of_none (u := (d.port q).bare) uncounted]
    · rw [atPort_other]
  windows _ := .refl _
  tracker := rfl
  reservations := rfl

/-- A command so counted is refused, once its holds are given up. -/
theorem Device.Enters.refuse (before : d.Shifts e) {moved : Nat} (counted : (d.port p).counted counts t = some moved)
    (bare : ∀ u, (gives t u).bare = gives t u.bare) (window : ∀ u, (gives t u).window = u.window) :
    d.Enters (atPort p fun u => u.refuse counts gives t)
      (e.onPort p fun u => ((gives t u).setCommand t none).enqueue (refusal t moved)) := by
  have refused : e.Enters (atPort p fun u => ((gives t u).setCommand t none).enqueue (refusal t moved))
      (e.onPort p fun u => ((gives t u).setCommand t none).enqueue (refusal t moved)) := by
    refine Device.enters_onPort ?_ ?_
    · rw [PortUnit.enqueue_bare, ← bare]
      rfl
    · rw [PortUnit.enqueue_fields]
      exact window (e.port _) ▸ .refl _
  have step := before.trans refused
  refine ⟨fun q => (step.ports q).trans ?_, step.windows, step.tracker, step.reservations⟩
  obtain rfl | rfl := Port.eq_or_other p q
  · rw [atPort_same, atPort_same]
    exact (PortUnit.refuse_of_some (u := (d.port q).bare) counted).symm
  · rw [atPort_other, atPort_other]

end

section
variable (p : Port) (t : Tag) (d : Device)

/-- What a tag is answered with is what its record counts. -/
theorem PortUnit.counted_of_record {counts : OpenCmd → Option Nat} {u : PortUnit} {record : Option OpenCmd}
    (h : u.commands[t] = record) : u.counted counts t = record.bind counts := congrArg (Option.bind · counts) h

/-- A READ answered NOT_SERVING leaves the read list. -/
theorem Device.answerRead_notServing (moved : Nat) : d.answerRead p t .notServing moved none =
    d.onPort p fun u => ((giveUpRead t u).setCommand t none).enqueue (refusal t moved) := by
  rw [Device.answerRead, Device.answer, Device.setCommand, Device.send, Device.onPort_onPort, Device.onPort_onPort]
  exact Device.onPort_congr (PortUnit.enqueue_comm (f := giveUpRead t) rfl (fun _ => rfl) _)

/-- R158 step 1: a READ of the port is refused. -/
theorem Device.enters_faultRead (free : d.NoBufferWaits) :
    d.Enters (atPort p fun u => u.refuse OpenCmd.sentBlocks giveUpRead t) (d.faultRead p t) := by
  rw [Device.faultRead]
  cases record : (d.port p).commands[t] with
  | none => exact Device.enters_pass (PortUnit.counted_of_record t record)
  | some c =>
    have counted := PortUnit.counted_of_record (counts := OpenCmd.sentBlocks) t record
    cases c with
    | read r =>
      dsimp only
      rw [Device.answerRead_notServing]
      exact (shifts_leaveWindow _ _ p free).refuse counted (fun _ => rfl) fun _ => rfl
    | write | flush | reserve => exact Device.enters_pass counted

/-- R26: the buffers of a list leave the frame-waiter queue, and are FREE on their port. -/
theorem Device.foldl_discardBuffer (l : List BufNo) (d : Device) : ∃ queue, l.foldl (fun d b => d.discardBuffer p b) d =
    (d.setWaiterQueue queue).onPort p fun u => l.foldl (fun u b => u.freeBuffer b) u := by
  induction l generalizing d with
  | nil => exact ⟨d.frames.waiterQueue, by cases p <;> rfl⟩
  | cons b l ih =>
    obtain ⟨queue, rest⟩ := ih (d.discardBuffer p b)
    refine ⟨queue, rest.trans ?_⟩
    rw [Device.discardBuffer, Device.setWaiterQueue_onPort, Device.onPort_onPort, ← Device.setWaiterQueue_onPort]
    rfl

theorem giveUpWrite_bare (u : PortUnit) : (giveUpWrite t u).bare = giveUpWrite t u.bare := by
  have discarded (l : List BufNo) (u : PortUnit) :
      (l.foldl (fun u b => u.freeBuffer b) u).bare = l.foldl (fun u b => u.freeBuffer b) u.bare := by
    induction l generalizing u with
    | nil => rfl
    | cons b l ih => exact ih _
  exact congrArg (fun v : PortUnit => { v with writeList := v.writeList.erase t }) (discarded (u.buffersOf t) u)

theorem giveUpWrite_window (u : PortUnit) : (giveUpWrite t u).window = u.window :=
  PortUnit.foldl_freeBuffer_same (g := PortUnit.window) (fun _ _ _ => rfl) _ u

/-- R158 step 2: a WRITE of the port is refused. -/
theorem Device.enters_faultWrite : d.Enters (atPort p fun u => u.refuse OpenCmd.committedBlocks giveUpWrite t) (d.faultWrite p t) := by
  obtain ⟨queue, discarded⟩ := Device.foldl_discardBuffer p ((d.port p).buffersOf t) d
  have answered (moved : Nat) : ((d.discardBuffers p t).onPort p fun u => { u with writeList := u.writeList.erase t }).answer p t
      .notServing moved none .none =
        (d.setWaiterQueue queue).onPort p fun u => ((giveUpWrite t u).setCommand t none).enqueue (refusal t moved) := by
    rw [Device.answer, Device.setCommand, Device.send, Device.discardBuffers, discarded, Device.onPort_onPort, Device.onPort_onPort,
      Device.onPort_onPort]
    exact Device.onPort_congr (by rw [Device.setWaiterQueue_port]; rfl)
  rw [Device.faultWrite]
  cases record : (d.port p).commands[t] with
  | none => exact Device.enters_pass (PortUnit.counted_of_record t record)
  | some c =>
    have counted := PortUnit.counted_of_record (counts := OpenCmd.committedBlocks) t record
    cases c with
    | write w =>
      dsimp only
      rw [answered]
      exact (d.shifts_frames _).refuse counted (giveUpWrite_bare t) (giveUpWrite_window t)
    | read | flush | reserve => exact Device.enters_pass counted

/-- A command of the port that gives up nothing else is answered NOT_SERVING. -/
theorem Device.answer_notServing (moved : Nat) : d.answer p t .notServing moved none .none =
    d.onPort p fun u => (u.setCommand t none).enqueue (refusal t moved) := by
  rw [Device.answer, Device.setCommand, Device.send, Device.onPort_onPort]
  rfl

end

/-- R62: an entry of the flush list is answered NOT_SERVING. -/
theorem Device.enters_faultFlush (e : FlushEntry) (d : Device) :
    d.Enters (atPort e.port fun u => u.refuse OpenCmd.flushedBlocks (fun _ u => u) e.tag) (d.faultFlush e) := by
  rw [Device.faultFlush]
  cases record : (d.port e.port).commands[e.tag] with
  | none => exact Device.enters_pass (PortUnit.counted_of_record e.tag record)
  | some c =>
    have counted := PortUnit.counted_of_record (counts := OpenCmd.flushedBlocks) e.tag record
    cases c with
    | flush | write =>
      dsimp only
      rw [Device.answer_notServing]
      exact (Device.Shifts.refl d).refuse counted (fun _ => rfl) fun _ => rfl
    | read | reserve => exact Device.enters_pass counted

/-! ### The lists of a port -/

/-- Steps of the entry taken one after another. -/
theorem Device.enters_foldl {α : Type} {f : Device → α → Device} {change : α → Port → PortUnit → PortUnit} {holds : Device → Prop}
    (enters : ∀ d a, holds d → Device.Enters (change a) d (f d a)) (keeps : ∀ d a, holds d → holds (f d a)) (l : List α) {d : Device}
    (h : holds d) : d.Enters (fun q u => l.foldl (fun u a => change a q u) u) (l.foldl f d) := by
  induction l generalizing d with
  | nil => exact Device.Shifts.refl d
  | cons a l ih => exact (enters d a h).trans (ih (keeps d a h))

theorem foldl_atPort (p : Port) (g : PortUnit → Tag → PortUnit) (l : List Tag) (q : Port) (u : PortUnit) :
    l.foldl (fun u t => atPort p (fun u => g u t) q u) u = atPort p (fun u => l.foldl g u) q u := by
  obtain rfl | rfl := Port.eq_or_other p q
  · simp only [atPort_same]
  · simp only [atPort_other, List.foldl_fixed]

theorem Device.enters_faultReads (p : Port) (tags : List Tag) {d : Device} (free : d.NoBufferWaits) :
    d.Enters (atPort p fun u => tags.foldl (PortUnit.refuse OpenCmd.sentBlocks giveUpRead) u)
      (tags.foldl (fun d t => d.faultRead p t) d) := by
  have step := Device.enters_foldl (fun d t => Device.enters_faultRead p t d)
    (fun d t free => (Device.uncommitting_faultRead p t free).noBufferWaits free) tags free
  exact ⟨fun q => (step.ports q).trans (foldl_atPort p _ tags q _), step.windows, step.tracker, step.reservations⟩

theorem Device.enters_faultWrites (p : Port) (tags : List Tag) (d : Device) :
    d.Enters (atPort p fun u => tags.foldl (PortUnit.refuse OpenCmd.committedBlocks giveUpWrite) u)
      (tags.foldl (fun d t => d.faultWrite p t) d) := by
  have step := Device.enters_foldl (holds := fun _ => True) (fun d t _ => Device.enters_faultWrite p t d) (fun _ _ _ => trivial) tags
    (d := d) trivial
  exact ⟨fun q => (step.ports q).trans (foldl_atPort p _ tags q _), step.windows, step.tracker, step.reservations⟩

theorem PortUnit.bare_writesInOrder (u : PortUnit) : u.bare.writesInOrder = u.writesInOrder := rfl

/-- R158 steps 1 and 2 on one port. -/
theorem Device.enters_faultPort (p : Port) {d : Device} (free : d.NoBufferWaits) :
    d.Enters (atPort p fun u => u.refuseReads.refuseWrites) (d.faultPort p) := by
  have reads := Device.enters_faultReads p (d.port p).readList free
  have writes := reads.trans (Device.enters_faultWrites p
    (((d.port p).readList.foldl (fun d t => d.faultRead p t) d).port p).writesInOrder _)
  refine ⟨fun q => (writes.ports q).trans ?_, writes.windows, writes.tracker, writes.reservations⟩
  obtain rfl | rfl := Port.eq_or_other p q
  · rw [← PortUnit.bare_writesInOrder, reads.ports]
    simp only [atPort_same]
    rfl
  · simp only [atPort_other]

/-- The tags of a port's entries in the flush list, in list order. -/
def Device.flushTags (p : Port) (d : Device) : List Tag :=
  (d.tracker.flushList.filter fun e => decide (e.port = p)).map fun e => e.tag

theorem Device.enters_faultFlushes (l : List FlushEntry) (d : Device) :
    d.Enters (fun q u => u.refuseListed OpenCmd.flushedBlocks ((l.filter fun e => decide (e.port = q)).map fun e => e.tag))
      (l.foldl (fun d e => d.faultFlush e) d) := by
  have step := Device.enters_foldl (holds := fun _ => True) (fun d e _ => Device.enters_faultFlush e d) (fun _ _ _ => trivial) l
    (d := d) trivial
  refine ⟨fun q => (step.ports q).trans ?_, step.windows, step.tracker, step.reservations⟩
  rw [PortUnit.refuseListed, List.foldl_map, List.foldl_filter]
  refine List.foldl_ext _ _ _ fun u e _ => ?_
  by_cases here : e.port = q
  · simp [atPort, here]
  · simp [atPort, here, Ne.symm here]

/-! ### The PENDING entries (R112) -/

/-- The tag of the RESERVE that waits for an entry, where the port holds it. -/
def pendingTag (p : Port) : Option Reservation → Option Tag
  | some { holder := h, state := .pending _ tag, .. } => if h = p then some tag else none
  | _ => none

/-- R112: a PENDING entry is freed, and no other. -/
def entryAfterFault : Option Reservation → Option Reservation
  | some { state := .pending _ _, .. } => none
  | e => e

/-- What the end of an entry brings to a port. -/
def PortUnit.hearFault (p : Port) (_ : ResId) (e : Option Reservation) (u : PortUnit) : PortUnit :=
  match pendingTag p e with
  | some tag => u.refuse OpenCmd.reservedBlocks (fun _ u => u) tag
  | none => u

theorem Device.answerReserve_notServing (p : Port) (tag : Tag) (d : Device) : d.answerReserve p tag .notServing .none =
    d.onPort p fun u => u.refuse OpenCmd.reservedBlocks (fun _ u => u) tag := by
  rw [Device.answerReserve]
  cases record : (d.port p).commands[tag] with
  | none => exact (Device.onPort_of_same (PortUnit.refuse_of_none (PortUnit.counted_of_record tag record))).symm
  | some c =>
    have counted := PortUnit.counted_of_record (counts := OpenCmd.reservedBlocks) tag record
    cases c with
    | reserve r =>
      refine (Device.answer_notServing p tag d 0).trans (Device.onPort_congr ?_)
      exact (PortUnit.refuse_of_some (gives := fun _ u => u) counted).symm
    | read | write | flush => exact (Device.onPort_of_same (PortUnit.refuse_of_none counted)).symm

/-- R112: one entry freed is a visit of it. -/
theorem Device.faultEntry_visits (d : Device) (id : ResId) : d.faultEntry id = d.visit entryAfterFault PortUnit.hearFault [id] := by
  have stays (kept : entryAfterFault d.reservations.entries[id] = d.reservations.entries[id])
      (silent : ∀ q, pendingTag q d.reservations.entries[id] = none) : d = d.visit entryAfterFault PortUnit.hearFault [id] := by
    rw [Device.visit_silent fun q u => by rw [PortUnit.hearFault, silent], kept, Device.setEntry_self]
  rw [Device.faultEntry]
  cases entry : d.reservations.entries[id] with
  | none => exact stays (by rw [entry]; rfl) fun q => by rw [entry]; rfl
  | some e =>
    obtain ⟨h, start, count, state⟩ := e
    cases state with
    | pending n tag =>
      have brings (q : Port) (u : PortUnit) : PortUnit.hearFault q id d.reservations.entries[id] u =
          if h = q then u.refuse OpenCmd.reservedBlocks (fun _ u => u) tag else u := by
        rw [PortUnit.hearFault, entry, pendingTag]
        split_ifs <;> rfl
      rw [Device.visit_one h fun u => (brings _ u).trans (if_neg (Port.other_ne h).symm)]
      refine (Device.answerReserve_notServing h tag _).trans ?_
      rw [entry]
      exact Device.onPort_congr ((if_pos rfl).symm.trans (entry ▸ brings h _).symm)
    | granted | lapsed => exact stays (by rw [entry]; rfl) fun q => by rw [entry]; rfl

/-- The tags of the RESERVEs that wait on a port, in ascending id order. -/
def Device.waitingTags (p : Port) (d : Device) : List Tag :=
  (List.finRange 16).filterMap fun id => pendingTag p d.reservations.entries[id]

theorem Device.faultPending_visits (d : Device) : d.faultPending = d.visit entryAfterFault PortUnit.hearFault (List.finRange 16) :=
  Device.foldl_visit (holds := fun _ => True) (fun d id _ => d.faultEntry_visits id) (fun _ _ _ => trivial) (List.nodup_finRange 16)
    trivial

theorem Device.faultPending_entry (d : Device) (id : ResId) :
    d.faultPending.reservations.entries[id] = entryAfterFault d.reservations.entries[id] := by
  rw [Device.faultPending_visits, Device.visit_entry, if_pos (List.mem_finRange id)]

theorem Device.faultPending_tracker (d : Device) : d.faultPending.tracker = d.tracker := by
  rw [Device.faultPending_visits]
  rfl

theorem Device.faultPending_port (d : Device) (q : Port) :
    d.faultPending.port q = (d.port q).refuseListed OpenCmd.reservedBlocks (d.waitingTags q) := by
  rw [Device.faultPending_visits, Device.visit_port, Device.waitingTags, PortUnit.refuseListed, List.foldl_filterMap]
  refine List.foldl_ext _ _ _ fun u id _ => ?_
  rw [PortUnit.hearFault]
  cases pendingTag q d.reservations.entries[id] <;> rfl

/-! ### The window blocks of the refused READs -/

/-- No block of a READ stands in the window of a port. -/
def Device.Unwindowed (p : Port) (t : Tag) (d : Device) : Prop := ∀ x ∈ (d.port p).window.map WindowBlock.name, x.1 ≠ t

theorem Device.Enters.unwindowed {change : Port → PortUnit → PortUnit} {p : Port} {t : Tag} {d e : Device} (h : d.Enters change e)
    (gone : d.Unwindowed p t) : e.Unwindowed p t := fun x mem => gone x ((h.windows p).subset mem)

section
variable {p : Port} {t : Tag} {d : Device} (free : d.NoBufferWaits) (opened : ((d.port p).counted OpenCmd.sentBlocks t).isSome)
include free opened

theorem Device.faultRead_unwindowed : (d.faultRead p t).Unwindowed p t := by
  rw [Device.faultRead]
  cases record : (d.port p).commands[t] with
  | none => simp [PortUnit.counted_of_record t record] at opened
  | some c =>
    cases c with
    | read r =>
      dsimp only
      intro x mem
      obtain ⟨wb, left, rfl⟩ := List.mem_map.mp mem
      refine leaveWindow_clears t _ p free le_rfl wb ?_
      rw [Device.answerRead_notServing, Device.onPort_port_same, PortUnit.enqueue_fields] at left
      exact left
    | write | flush | reserve => simp [PortUnit.counted_of_record t record] at opened

theorem Device.faultReads_unwindowed {tags : List Tag} (listed : t ∈ tags) :
    (tags.foldl (fun d t => d.faultRead p t) d).Unwindowed p t := by
  induction tags generalizing d with
  | nil => cases listed
  | cons t' tags ih =>
    have behind := (Device.uncommitting_faultRead p t' free).noBufferWaits free
    by_cases same : t = t'
    · subst same
      exact (Device.enters_faultReads p tags behind).unwindowed (Device.faultRead_unwindowed free opened)
    · refine ih behind ?_ ((List.mem_cons.mp listed).resolve_left same)
      have stays : ((d.faultRead p t').port p).bare.counted OpenCmd.sentBlocks t = (d.port p).bare.counted OpenCmd.sentBlocks t := by
        rw [(Device.enters_faultRead p t' d free).ports, atPort_same, PortUnit.refuse_counted givesUpOnly_read, if_neg same]
      exact (congrArg Option.isSome stays).trans opened

theorem Device.faultPort_unwindowed (listed : t ∈ (d.port p).readList) : (d.faultPort p).Unwindowed p t :=
  (Device.enters_faultWrites p _ _).unwindowed (Device.faultReads_unwindowed free opened listed)

end

/-! ### The entry as a whole (R158, R163) -/

theorem PortUnit.refuseListed_bare (counts : OpenCmd → Option Nat) (tags : List Tag) (u : PortUnit) :
    (u.refuseListed counts tags).bare = u.bare.refuseListed counts tags := by
  have one (u : PortUnit) (t : Tag) : (u.refuse counts (fun _ u => u) t).bare = u.bare.refuse counts (fun _ u => u) t := by
    cases h : u.counted counts t with
    | none => rw [PortUnit.refuse_of_none h, PortUnit.refuse_of_none (u := u.bare) h]
    | some moved =>
      rw [PortUnit.refuse_of_some h, PortUnit.refuse_of_some (u := u.bare) h, PortUnit.enqueue_bare]
      rfl
  induction tags generalizing u with
  | nil => rfl
  | cons t tags ih => exact (ih _).trans (congrArg (PortUnit.refuseListed counts tags) (one u t))

theorem PortUnit.refuseListed_window (counts : OpenCmd → Option Nat) (tags : List Tag) (u : PortUnit) :
    (u.refuseListed counts tags).window = u.window :=
  PortUnit.foldl_refuse_same (g := PortUnit.window) (fun _ _ _ => rfl) (fun _ _ => rfl) tags u

/-- R158 steps 1 and 2 on both ports, Port A first (log 19). -/
def Device.faultPorts (d : Device) : Device := (d.withdrawBuffers.faultPort .a).faultPort .b

/-- R62: the flush list, emptied. -/
def Device.faultFlushList (d : Device) : Device := d.tracker.flushList.foldl (fun d e => d.faultFlush e) (d.setFlushList [])

/-- The entry but for the PENDING entries. -/
def Device.faultListed (d : Device) : Device := d.faultPorts.faultFlushList

theorem Device.faultAnswers_eq (d : Device) : d.faultAnswers = d.faultListed.faultPending := rfl

theorem Device.Enters.setFlushList {change : Port → PortUnit → PortUnit} {d e : Device} (h : d.Enters change e) (l : List FlushEntry) :
    (d.setFlushList l).Enters change (e.setFlushList l) where
  ports q := by
    rw [Device.setFlushList_port, Device.setFlushList_port]
    exact h.ports q
  windows q := by
    rw [Device.setFlushList_port, Device.setFlushList_port]
    exact h.windows q
  tracker := congrArg (fun t : Tracker => { t with flushList := l }) h.tracker
  reservations := h.reservations

section
variable (d : Device)

theorem Device.enters_faultPorts : d.Enters (fun _ u => u.refuseReads.refuseWrites) d.faultPorts := by
  have free := d.noBufferWaits_withdrawBuffers
  have first := (d.shifts_frames d.withdrawBuffers.frames).trans (Device.enters_faultPort .a free)
  have both := first.trans (Device.enters_faultPort .b ((Device.uncommitting_faultPort .a free).noBufferWaits free))
  refine ⟨fun q => (both.ports q).trans ?_, both.windows, both.tracker, both.reservations⟩
  cases q <;> rfl

theorem Device.enters_faultFlushList :
    (d.setFlushList []).Enters (fun q u => u.refuseListed OpenCmd.flushedBlocks (d.flushTags q)) d.faultFlushList :=
  Device.enters_faultFlushes _ _

theorem Device.enters_faultListed : (d.setFlushList []).Enters
    (fun q u => u.refuseReads.refuseWrites.refuseListed OpenCmd.flushedBlocks (d.flushTags q)) d.faultListed := by
  have both := (d.enters_faultPorts.setFlushList []).trans d.faultPorts.enters_faultFlushList
  have tags (q : Port) : d.faultPorts.flushTags q = d.flushTags q := by
    rw [Device.flushTags, Device.flushTags, d.enters_faultPorts.tracker]
  simp only [tags] at both
  exact both

theorem Device.faultAnswers_port (q : Port) : (d.faultAnswers.port q).bare = (d.port q).bare.refuseAll (d.flushTags q) (d.waitingTags q) := by
  have waiting : d.faultListed.waitingTags q = d.waitingTags q := by
    rw [Device.waitingTags, Device.waitingTags, d.enters_faultListed.reservations, Device.setFlushList_reservations]
  rw [Device.faultAnswers_eq, Device.faultPending_port, PortUnit.refuseListed_bare, d.enters_faultListed.ports, Device.setFlushList_port,
    waiting, PortUnit.refuseAll]

theorem Device.faultAnswers_window (q : Port) : (d.faultAnswers.port q).window = (d.faultListed.port q).window := by
  rw [Device.faultAnswers_eq, Device.faultPending_port, PortUnit.refuseListed_window]

theorem Device.faultAnswers_entry (id : ResId) : d.faultAnswers.reservations.entries[id] = entryAfterFault d.reservations.entries[id] := by
  rw [Device.faultAnswers_eq, Device.faultPending_entry, d.enters_faultListed.reservations, Device.setFlushList_reservations]

theorem Device.faultAnswers_tracker : d.faultAnswers.tracker = { d.tracker with flushList := [] } := by
  rw [Device.faultAnswers_eq, Device.faultPending_tracker, d.enters_faultListed.tracker]
  rfl

/-- No window block of the entry is new. -/
theorem Device.faultAnswers_names (q : Port) :
    ((d.faultAnswers.port q).window.map WindowBlock.name).Sublist ((d.port q).window.map WindowBlock.name) := by
  have names := d.enters_faultListed.windows q
  rwa [Device.setFlushList_port, ← Device.faultAnswers_window] at names

variable {d} {p : Port} {t : Tag}

/-- R158 step 1: the blocks of a refused READ have left the window. -/
theorem Device.faultAnswers_unwindowed (opened : ((d.port p).counted OpenCmd.sentBlocks t).isSome) (listed : t ∈ (d.port p).readList) :
    d.faultAnswers.Unwindowed p t := by
  have free := d.noBufferWaits_withdrawBuffers
  have ports : d.faultPorts.Unwindowed p t := by
    cases p with
    | a =>
      have first := Device.faultPort_unwindowed free (p := .a) opened listed
      exact (Device.enters_faultPort .b ((Device.uncommitting_faultPort .a free).noBufferWaits free)).unwindowed first
    | b =>
      have same := (Device.enters_faultPort .a free).ports .b
      refine Device.faultPort_unwindowed ((Device.uncommitting_faultPort .a free).noBufferWaits free) ?_ ?_
      · exact (congrArg (fun u : PortUnit => (u.counted OpenCmd.sentBlocks t).isSome) same).trans opened
      · exact (congrArg PortUnit.readList same).symm ▸ listed
  have lists : (d.faultPorts.setFlushList []).Unwindowed p t := by
    rwa [Device.Unwindowed, Device.setFlushList_port]
  rw [Device.Unwindowed, Device.faultAnswers_window]
  exact d.faultPorts.enters_faultFlushList.unwindowed lists

end

end Sys2Proof.Machine
end

section
/-!
SUPPORT and PROOF. The loss of the medium in SERVING (R78, R163): the part after it, and with room for its messages nothing left to do at
the closing of its event.
-/

namespace Sys2Proof.Machine

/-! ### The loss of the medium in SERVING (R78, R163) -/

/-- The part as the loss of the medium brings it to the entry: the channel LOST, MEDIA_FAULT raised, the device FAULTED. -/
def Device.faultStart (d : Device) : Device :=
  { d with channel := { d.channel with slots := Vector.replicate 4 none, retrySet := [], state := .lost },
           remap := { d.remap with load := none }
           mgmt := d.mgmt.raise .mediaFault
           mode := { mode := .faulted, step := .none, restart := false, cause := some .medium } }

theorem Device.faultStart_port (d : Device) (q : Port) : d.faultStart.port q = d.port q := by cases q <;> rfl

theorem Device.notifyBoth_port (n : Notice) (q : Port) (d : Device) : (d.notifyBoth n).port q = (d.port q).hear n := by
  rw [Device.notifyBoth_eq]
  cases q <;> rfl

theorem Device.notifyBoth_tracker (n : Notice) (d : Device) : (d.notifyBoth n).tracker = d.tracker := by rw [Device.notifyBoth_eq]

theorem Device.notifyBoth_reservations (n : Notice) (d : Device) : (d.notifyBoth n).reservations = d.reservations := by
  rw [Device.notifyBoth_eq]

theorem Device.uncommitting_notifyBoth (n : Notice) (d : Device) : d.Uncommitting (d.notifyBoth n) := by
  rw [Device.notifyBoth_eq]
  exact ⟨rfl, fun _ => rfl, fun _ h => h⟩

theorem PortUnit.hear_bare (n : Notice) (u : PortUnit) : (u.hear n).bare = u.bare.hear n := by
  by_cases h : u.session = .attached
  · rw [PortUnit.hear, PortUnit.hear, if_pos h, if_pos (show u.bare.session = .attached from h), PortUnit.enqueue_bare]
  · rw [PortUnit.hear_of_not_attached h, PortUnit.hear_of_not_attached (u := u.bare) h]

theorem Device.overflowStep_of_fits {d : Device} (fits : ∀ p, d.overflows p = false) : d.overflowStep = none := by
  refine Option.eq_none_iff_forall_not_mem.mpr fun e step => ?_
  obtain ⟨full, -⟩ | ⟨full, -⟩ | ⟨p, full, -⟩ := Device.overflowStep_cases step
  all_goals simp [fits] at full

section
variable {d : Device} (serving : d.mode.mode = .serving)
include serving

theorem Device.mediumLost_of_serving : d.mediumLost = d.faultStart.faultAnswers.notifyBoth .mediaFault := by
  rw [Device.mediumLost, Device.enterFaulted]
  simp only [Device.raise, serving]
  rfl

theorem Device.inner_mediumLost : d.faultStart.Inner d.mediumLost := by
  rw [Device.mediumLost_of_serving serving]
  exact (Device.inner_faultAnswers _).trans (Device.inner_notifyBoth _ _)

theorem Device.mediumLost_mode : d.mediumLost.mode = { mode := .faulted, step := .none, restart := false, cause := some .medium } :=
  (Device.inner_mediumLost serving).mode

theorem Device.uncommitting_mediumLost : d.faultStart.Uncommitting d.mediumLost ∧ d.mediumLost.NoBufferWaits := by
  obtain ⟨answers, free⟩ := d.faultStart.uncommitting_faultAnswers
  rw [Device.mediumLost_of_serving serving]
  have told := d.faultStart.faultAnswers.uncommitting_notifyBoth .mediaFault
  exact ⟨answers.trans told, told.noBufferWaits free⟩

/-- R158: each port but for its window. -/
theorem Device.mediumLost_port (q : Port) :
    (d.mediumLost.port q).bare = (d.port q).bare.faulted (d.flushTags q) (d.waitingTags q) := by
  rw [Device.mediumLost_of_serving serving, Device.notifyBoth_port, PortUnit.hear_bare, Device.faultAnswers_port, Device.faultStart_port]
  rfl

theorem Device.mediumLost_window (q : Port) : (d.mediumLost.port q).window = (d.faultStart.faultAnswers.port q).window := by
  rw [Device.mediumLost_of_serving serving, Device.notifyBoth_port, PortUnit.hear_same (g := PortUnit.window) fun _ _ _ => rfl]

theorem Device.mediumLost_names (q : Port) :
    ((d.mediumLost.port q).window.map WindowBlock.name).Sublist ((d.port q).window.map WindowBlock.name) := by
  rw [Device.mediumLost_window serving, ← Device.faultStart_port d q]
  exact d.faultStart.faultAnswers_names q

theorem Device.mediumLost_unwindowed {p : Port} {t : Tag} (opened : ((d.port p).counted OpenCmd.sentBlocks t).isSome)
    (listed : t ∈ (d.port p).readList) : d.mediumLost.Unwindowed p t := by
  rw [Device.Unwindowed, Device.mediumLost_window serving]
  rw [← Device.faultStart_port] at opened listed
  exact Device.faultAnswers_unwindowed opened listed

theorem Device.mediumLost_tracker : d.mediumLost.tracker = { d.tracker with flushList := [] } := by
  rw [Device.mediumLost_of_serving serving, Device.notifyBoth_tracker, Device.faultAnswers_tracker]
  rfl

theorem Device.mediumLost_entry (id : ResId) :
    d.mediumLost.reservations.entries[id] = entryAfterFault d.reservations.entries[id] := by
  rw [Device.mediumLost_of_serving serving, Device.notifyBoth_reservations, Device.faultAnswers_entry]
  rfl

/-! ### Nothing is left to do (R127, R130, R147) -/

theorem Device.testPending_mediumLost (p : Port) : d.mediumLost.testPending p = d.mediumLost := by
  refine Device.testPending_of_none fun id e entry n tag pending => ?_
  obtain ⟨h, start, count, state⟩ := e
  cases pending
  rw [Device.mediumLost_entry serving] at entry
  unfold entryAfterFault at entry
  split at entry
  · cases entry
  · rename_i others
    exact others _ _ _ _ _ entry

theorem Device.calm_mediumLost : d.mediumLost.Calm := by
  have stopped (p : Port) : d.mediumLost.engineStep p = none :=
    if_neg fun ⟨serves, _⟩ => by simp [Device.mediumLost_mode serving] at serves
  constructor
  · rw [Device.portStep, stopped, stopped]
  · exact Device.arbiterStep_of_not_running (by simp [(Device.inner_mediumLost serving).channelState, Device.faultStart])

/-- No port is due a write credit. -/
theorem Device.mediumLost_grantSize (p : Port) : (d.mediumLost.port p).grantSize = 0 :=
  (congrArg PortUnit.grantSize (Device.mediumLost_port serving p)).trans (PortUnit.faulted_grantSize _ _ _)

/-- On an order with room for all of it, every RESPONSE and the notice stand in their places. -/
theorem Device.mediumLost_outbound {p : Port} (room : ((d.port p).faultOrder (d.flushTags p) (d.waitingTags p)).length ≤ 256) :
    (d.mediumLost.port p).outbound = (d.port p).faultOrder (d.flushTags p) (d.waitingTags p) :=
  (congrArg PortUnit.outbound (Device.mediumLost_port serving p)).trans (PortUnit.faulted_outbound (u := (d.port p).bare) room)

theorem Device.mediumLost_fits {p : Port} (room : ((d.port p).faultOrder (d.flushTags p) (d.waitingTags p)).length ≤ 256) :
    d.mediumLost.overflows p = false := by
  rw [← Device.mediumLost_outbound serving room] at room
  rw [Device.overflows, Device.testPending_mediumLost serving, PortUnit.overflows, Device.mediumLost_grantSize serving]
  simpa [PortUnit.overflowed, Config.outboundCap] using room

/-- Where the order of each port has room for all of it, the entry leaves nothing to do at the closing of its event. -/
theorem Device.settled_mediumLost (room : ∀ p, ((d.port p).faultOrder (d.flushTags p) (d.waitingTags p)).length ≤ 256) :
    d.mediumLost.Settled := by
  have fits := Device.overflowStep_of_fits fun p => Device.mediumLost_fits serving (room p)
  have quiet : d.mediumLost.Quiet := ⟨Device.calm_mediumLost serving, fits, Device.testPending_mediumLost serving⟩
  exact ⟨quiet, Device.mediumLost_grantSize serving⟩

end

/-! ### The lists of the statement -/

section
variable (u : PortUnit) (t : Tag)

theorem PortUnit.sent_refusal : (u.counted OpenCmd.sentBlocks t).map (refusal t) =
    match u.commands[t] with
    | some (.read r) => some (.response t .notServing r.sent none .none)
    | _ => none := by
  rw [PortUnit.counted]
  cases u.commands[t] with
  | none => rfl
  | some c => cases c <;> rfl

theorem PortUnit.committed_refusal : (u.counted OpenCmd.committedBlocks t).map (refusal t) =
    match u.commands[t] with
    | some (.write w) => some (.response t .notServing w.committed none .none)
    | _ => none := by
  rw [PortUnit.counted]
  cases u.commands[t] with
  | none => rfl
  | some c => cases c <;> rfl

theorem PortUnit.reserved_refusal : (u.counted OpenCmd.reservedBlocks t).map (refusal t) =
    match u.commands[t] with
    | some (.reserve _) => some (.response t .notServing 0 none .none)
    | _ => none := by
  rw [PortUnit.counted]
  cases u.commands[t] with
  | none => rfl
  | some c => cases c <;> rfl

theorem PortUnit.flushed_refusal :
    ((recordAfter OpenCmd.committedBlocks u.writesInOrder t u.commands[t]).bind OpenCmd.flushedBlocks).map (refusal t) =
      match u.commands[t] with
      | some .flush => some (.response t .notServing 0 none .none)
      | some (.write w) => if t ∈ u.writesInOrder then none else some (.response t .notServing w.count none .none)
      | _ => none := by
  cases u.commands[t] with
  | none => simp
  | some c =>
    cases c with
    | write w => by_cases accepted : t ∈ u.writesInOrder <;> simp [accepted, refusal]
    | read | flush | reserve => simp [refusal]

end

theorem pendingTag_eq (p : Port) (e : Option Reservation) : pendingTag p e =
    match e with
    | some { holder := h, state := .pending _ tag, .. } => if h = p then some tag else none
    | _ => none := by
  cases e with
  | none => rfl
  | some e =>
    obtain ⟨_, _, _, state⟩ := e
    cases state <;> rfl

theorem entryAfterFault_eq (e : Option Reservation) : entryAfterFault e =
    match e with
    | some { state := .pending _ _, .. } => none
    | e => e := by
  cases e with
  | none => rfl
  | some e =>
    obtain ⟨_, _, _, state⟩ := e
    cases state <;> rfl

theorem contains_eraseDups (l : List Tag) (t : Tag) : l.eraseDups.contains t = l.contains t := by simp

/-- Settles O41: the entry is followed step by step on each port, but for its window (`mediumLost_port`), and in the windows
(`mediumLost_names`, `mediumLost_unwindowed`); with room for its messages it leaves nothing to do at the closing of its event. -/
theorem entryToFaultedAnswersEveryOpenCommand : Obligations.EntryToFaultedAnswersEveryOpenCommand := by
  intro s running serving t refused reads writes listed flushes waiting reserves order
  have reads_eq (p : Port) : reads p = (s.port p).refusals OpenCmd.sentBlocks (s.port p).readList :=
    congrArg ((s.port p).readList.eraseDups.filterMap ·) (funext fun tag => ((s.port p).sent_refusal tag).symm)
  have writes_eq (p : Port) : writes p = (s.port p).refusals OpenCmd.committedBlocks (s.port p).writesInOrder :=
    congrArg ((s.port p).writesInOrder.eraseDups.filterMap ·) (funext fun tag => ((s.port p).committed_refusal tag).symm)
  have flushes_eq (p : Port) : flushes p = (s.port p).flushRefusals (s.flushTags p) :=
    congrArg ((s.flushTags p).eraseDups.filterMap ·) (funext fun tag => ((s.port p).flushed_refusal tag).symm)
  have waiting_eq (p : Port) : waiting p = (s.waitingTags p).eraseDups :=
    congrArg (fun f => ((List.finRange 16).filterMap f).eraseDups) (funext fun id => (pendingTag_eq p s.reservations.entries[id]).symm)
  have reserves_eq (p : Port) : reserves p = (s.port p).refusals OpenCmd.reservedBlocks (s.waitingTags p) := by
    show (waiting p).filterMap _ = _
    rw [waiting_eq]
    exact congrArg ((s.waitingTags p).eraseDups.filterMap ·) (funext fun tag => ((s.port p).reserved_refusal tag).symm)
  have order_eq (p : Port) : order p = (s.port p).faultOrder (s.flushTags p) (s.waitingTags p) := by
    show (s.port p).outbound ++ reads p ++ writes p ++ flushes p ++ reserves p ++ _ = _
    rw [reads_eq, writes_eq, flushes_eq, reserves_eq]
    rfl
  have settled (room : ∀ p, (order p).length ≤ 256) : s.toDevice.mediumLost.close = t :=
    Device.close_of_settled (Device.settled_mediumLost serving fun p => order_eq p ▸ room p)
  obtain ⟨uncommitting, free⟩ := Device.uncommitting_mediumLost serving
  refine ⟨fun p room => ⟨?_, fun tag c opened => ?_⟩, fun p wb mem => ⟨?_, fun ⟨r, opened⟩ listed => ?_⟩,
    fun p b waits tag index block bytes w holds opened => ?_, Device.mediumLost_tracker serving, uncommitting.bytes,
    fun e mem => ⟨uncommitting.queue e mem, free e mem⟩, fun id => ?_, Device.mediumLost_mode serving,
    (Device.inner_mediumLost serving).mgmt.raised (Mgmt.raised_raise _ _),
    fun room => ⟨fun op hop hw => ?_, fun op hop hw => ?_, fun i op hop hf => ?_⟩⟩
  · rw [order_eq] at room ⊢
    exact Device.mediumLost_outbound serving room
  · have answered := (congrArg (fun u : PortUnit => u.commands[tag]) (Device.mediumLost_port serving p)).trans
      (PortUnit.faulted_command (u := (s.port p).bare) opened)
    refine answered.trans (congrArg (fun stands : Bool => if stands then none else some c) ?_)
    cases c with
    | read => rfl
    | write => exact congrArg ((s.port p).writesInOrder.contains tag || ·) (contains_eraseDups _ tag).symm
    | flush => exact (contains_eraseDups _ tag).symm
    | reserve => exact ((congrArg (·.contains tag) (waiting_eq p)).trans (contains_eraseDups _ tag)).symm
  · obtain ⟨old, stood, name⟩ := List.mem_map.mp ((Device.mediumLost_names serving p).subset (List.mem_map_of_mem mem))
    obtain ⟨tag, index, block⟩ : old.tag = wb.tag ∧ old.index = wb.index ∧ old.block = wb.block := by simpa [WindowBlock.name] using name
    exact ⟨old, stood, tag, index, block⟩
  · have counted : ((s.port p).counted OpenCmd.sentBlocks wb.tag).isSome := by simp [PortUnit.counted, opened]
    exact Device.mediumLost_unwindowed serving counted listed wb.name (List.mem_map_of_mem mem) rfl
  · exact (congrArg (fun u : PortUnit => u.landing[b]) (Device.mediumLost_port serving p)).trans
      (PortUnit.faulted_landing (u := (s.port p).bare) waits holds opened)
  · exact (Device.mediumLost_entry serving id).trans (entryAfterFault_eq _)
  · rw [← settled room, ← Device.controlTimeout_of_kind hop, hw]
    exact State.event_of_released running
  · rw [← settled room, ← Device.controlTimeout_of_kind hop, hw]
    exact State.event_of_released running
  · rw [← settled room, ← Device.reissueTimeout_of_reissued hop hf]
    exact State.event_of_released running

end Sys2Proof.Machine
end

section
/-!
SUPPORT and PROOF. Power and reset (R160, R161, R170, and the reset tables of every chapter): the state before POWER_ON is sound, the
three pins set every block, and while RESET_N is asserted a command that is not of the pins, the link or the I2C bus is no event.
-/

namespace Sys2Proof.Machine

/-! ### The values of power-on (Tables 1-4 to 10-3) -/

/-- Every frame is FREE at power-on (Table 1-4). -/
theorem Device.reset_served (f : FrameNo) : (Device.reset.frame f).served = none := by
  simp [Device.frame, Device.reset, FrameStore.reset, Frame.reset]

/-- Every slot is empty and nothing has been issued (Table 4-2). -/
theorem Channel.reset_slot (i : SlotNo) : Channel.reset.slots[i] = none ∧ Channel.reset.issueCounts[i] = 0 := by
  simp [Channel.reset]

/-- Every entry is free (Table 6-1). -/
theorem Reservations.reset_entry (id : ResId) : Reservations.reset.entries[id] = none := by simp [Reservations.reset]

theorem ModeCtl.sound_reset : ModeCtl.reset.Sound := by simp [ModeCtl.reset, ModeCtl.Sound]

/-- The default settings are in range (R180); the address is the straps' (R170). -/
theorem Mgmt.sound_reset {address : BitVec 7} (strapped : 0x2C ≤ address.toNat ∧ address.toNat ≤ 0x2F) :
    (Mgmt.reset address).Sound := by
  have ticks : 1 ≤ Config.defaultTickMs ∧ Config.defaultTickMs ≤ 100 := by decide
  have watermark : 256 ≤ Config.defaultWatermark ∧ Config.defaultWatermark ≤ 1000 := by decide
  exact ⟨strapped, ticks, watermark, trivial⟩

theorem Device.sound_reset : Device.reset.Sound :=
  ⟨Device.sound_resetPorts rfl rfl, ModeCtl.sound_reset, Channel.sound_reset, Remap.sound_reset,
    Reservations.sound_reset Reservations.reset, Tracker.sound_reset⟩

theorem Device.storeSound_reset : Device.reset.StoreSound :=
  (Device.storeSound_iff _).mpr ⟨Device.storeBut_of_free Device.reset_served rfl rfl rfl rfl rfl, fun _ => rfl⟩

/-- Settles O3: each block at the value of its table, and sound there. -/
theorem resetStandsAtThePowerOnValues : Obligations.ResetStandsAtThePowerOnValues := by
  have ports (p : Port) : (State.reset.port p).session = .down ∧ (State.reset.port p).lastSession = 0 := by
    cases p <;> exact ⟨rfl, rfl⟩
  exact ⟨rfl, rfl, rfl, rfl, Channel.reset_slot, Device.reset_served, rfl, rfl, rfl, rfl, Reservations.reset_entry, ports,
    rfl, rfl, rfl, rfl, rfl, Device.sound_reset, Device.storeSound_reset, Device.heldInReset_of_released rfl,
    Mgmt.sound_reset (by decide)⟩

/-! ### The pins (R160, R161) -/

/-- A channel at its reset values identifies: the first operation of slot 0 (R68, R73). -/
theorem Channel.identify_reset : Channel.reset.identify = { Channel.reset with
    slots := (Vector.replicate 4 none).set 0 (some { work := .identify, phys := none, timerMs := 2000, reissue := false }),
    issueCounts := (Vector.replicate 4 0).set 0 1 } := Channel.identify_cleared Channel.reset

/-- R161: start-up from the reset values of the channel and the mode controller, as POWER_ON and the release of RESET_N begin it. -/
theorem Device.startUp_of_reset {d : Device} (channel : d.channel = Channel.reset) (mode : d.mode = ModeCtl.reset) :
    d.startUp = { d with
      channel := { Channel.reset with
        slots := (Vector.replicate 4 none).set 0 (some { work := .identify, phys := none, timerMs := 2000, reissue := false }),
        issueCounts := (Vector.replicate 4 0).set 0 1 },
      mode := { mode := .starting, step := .identifying, restart := false, cause := none } } := by
  rw [Device.startUp, channel, mode, Channel.identify_reset]
  rfl

/-- A release without an assertion is no event (log 13). -/
theorem Device.resetRelease_of_released {d : Device} (released : d.resetAsserted = false) (straps : BitVec 2) :
    d.resetRelease straps = d := if_neg (Bool.eq_false_iff.mp released)

/-- Settles O10: POWER_ON and the release begin the start-up at the reset values of the channel and the mode controller, which an
asserted RESET_N holds; the assertion sets every block and starts nothing. -/
theorem powerAndResetSetEveryBlock : Obligations.PowerAndResetSetEveryBlock := by
  refine ⟨fun s straps linkA linkB => State.next_congr ?_, fun s => rfl, fun s straps =>
    ⟨fun asserted held => State.next_congr ?_, fun released => State.next_congr (d' := s.toDevice) ?_⟩⟩
  · exact Device.startUp_of_reset rfl rfl
  · obtain ⟨mode, channel⟩ := held asserted
    exact (if_pos asserted).trans (Device.startUp_of_reset channel mode)
  · exact Device.resetRelease_of_released released straps

/-! ### Commands while RESET_N is asserted (R160, R170, log 10, log 26) -/

theorem State.eventOr_of_reset {s : State} (asserted : s.resetAsserted = true) (g f : Device → Device) :
    s.eventOr g f = .next { s with toDevice := g s.toDevice } := by
  simp [State.eventOr, State.always, asserted]

/-- Every command but the pins, the link's reports and the I2C transactions is an event of the released part, the same of every state. -/
theorem exec_event_of_not_actsInReset {c : Instr} (idle : actsInReset c = false) : ∃ f, ∀ s, exec c s = s.event f := by
  cases c with
  | powerOn | resetNAssert | resetNRelease | linkUp | linkDown | i2cWriteTransaction | i2cReadTransaction => cases idle
  | _ =>
    unfold exec
    exact ⟨_, fun _ => rfl⟩

/-- Settles O7: an event does nothing while RESET_N is asserted; a link's report and an I2C transaction have their own effect there. -/
theorem assertedResetHoldsThePartIdle : Obligations.AssertedResetHoldsThePartIdle := by
  intro s asserted
  refine ⟨fun c idle => ?_, fun p => ?_, fun p => ?_, fun a bytes => ?_, fun a n => ?_⟩
  · obtain ⟨f, event⟩ := exec_event_of_not_actsInReset idle
    exact (event s).trans (State.event_of_reset asserted)
  · exact State.eventOr_of_reset asserted (Device.linkInReset p true) _
  · exact State.eventOr_of_reset asserted (Device.linkInReset p false) fun d => (d.linkLoss p).close
  · exact State.eventOr_of_reset asserted Device.busSilent _
  · exact State.eventOr_of_reset asserted Device.busSilent _

end Sys2Proof.Machine
end

section
/-!
SUPPORT and PROOF. What a command does to the management port: the one change its own rule names, and then what every command may do
beside it. That the port stays sound, and that its state changes by its own rules alone, are read off the two.
-/

namespace Sys2Proof.Machine

/-! ### The lengths of the responses (R173, Tables 11-8 and 11-9) -/

theorem response_length (code : Byte) (result : MgmtResult) (fields : List Byte) :
    (response code result fields).length = 3 + fields.length := by
  rw [response, List.length_append]
  rfl

/-- A response has at most 32 bytes, so its fields at most 29. -/
theorem Mailbox.sound_response {fields : List Byte} (short : fields.length ≤ 29) (code : Byte) (result : MgmtResult) :
    (Mailbox.ready (response code result fields)).Sound := by
  refine ⟨?_, ?_, ?_⟩
  · rw [response_length]
    omega
  · rw [response_length]
    omega
  · rw [response_length]
    rfl

theorem Device.statusFields_length (d : Device) : d.statusFields.length = 28 := by simp [Device.statusFields]

theorem conditionFields_length (flags masks : BitVec 9) : (conditionFields flags masks).length = 4 := by simp [conditionFields]

theorem Remap.entryFields_length (r : Remap) (index : Nat) : (r.entryFields index).2.length ≤ 8 := by
  unfold Remap.entryFields
  split <;> simp

/-! ### What every command may do to the port, and what a rule of its own sets -/

/-- What any command may do: put bytes on the bus, raise flags, and leave a sound mailbox for a sound one. -/
structure Mgmt.Serves (m m' : Mgmt) : Prop where
  address : m'.address = m.address
  masks : m'.masks = m.masks
  tickMs : m'.tickMs = m.tickMs
  watermark : m'.watermark = m.watermark
  flags : ∀ k, m.raised k = true → m'.raised k = true
  mailbox : m.mailbox.Sound → m'.mailbox.Sound

/-- What the rule of a command sets of the address, the masks, the settings and the flags (R170, R176, R180, Table 10-3). -/
inductive Mgmt.Sets (m : Mgmt) : Instr → Mgmt → Prop
  | nothing (c : Instr) : m.Sets c m
  | clear : m.Sets .readConditions { m with flags := 0 }
  | masks (v : BitVec 9) : m.Sets .maskConditions { m with masks := v }
  | tickMs {v : Nat} (inRange : 1 ≤ v ∧ v ≤ 100) : m.Sets .setLeaseTick { m with tickMs := v }
  | watermark {v : Nat} (inRange : 256 ≤ v ∧ v ≤ 1000) : m.Sets .setWatermark { m with watermark := v }
  | straps (straps : BitVec 2) : m.Sets (.resetNRelease straps) { m with address := strapAddress straps }
  | powerOn (straps : BitVec 2) (a b : Bool) : m.Sets (.powerOn straps a b) (Mgmt.reset (strapAddress straps))
  | resetAssert : m.Sets .resetNAssert (Mgmt.reset m.address)

/-- A command moves the port by what its rule sets, and then as any command may. -/
def Mgmt.MovesBy (c : Instr) (m m' : Mgmt) : Prop := ∃ n, m.Sets c n ∧ n.Serves m'

section
variable {m m' : Mgmt}

theorem Mgmt.Serves.refl (m : Mgmt) : m.Serves m := ⟨rfl, rfl, rfl, rfl, fun _ => id, id⟩

theorem Mgmt.Serves.trans {n : Mgmt} (h : m.Serves n) (k : n.Serves m') : m.Serves m' where
  address := k.address.trans h.address
  masks := k.masks.trans h.masks
  tickMs := k.tickMs.trans h.tickMs
  watermark := k.watermark.trans h.watermark
  flags c := k.flags c ∘ h.flags c
  mailbox := k.mailbox ∘ h.mailbox

theorem Mgmt.GrowsTo.serves (h : m.GrowsTo m') : m.Serves m' := by
  have raised := @h.raised
  obtain ⟨flags, rfl⟩ := h
  exact ⟨rfl, rfl, rfl, rfl, fun _ => raised, id⟩

theorem Mgmt.serves_mailbox {b : Mailbox} (h : m.mailbox.Sound → b.Sound) : m.Serves { m with mailbox := b } :=
  ⟨rfl, rfl, rfl, rfl, fun _ => id, h⟩

theorem Mgmt.serves_bus (bus : BusOutput) : m.Serves { m with bus := bus } := ⟨rfl, rfl, rfl, rfl, fun _ => id, id⟩

theorem Mgmt.Serves.movesBy (h : m.Serves m') (c : Instr) : m.MovesBy c m' := ⟨m, .nothing c, h⟩

theorem Mgmt.Sets.movesBy {c : Instr} (h : m.Sets c m') : m.MovesBy c m' := ⟨m', h, .refl m'⟩

/-- The straps give one of four addresses (R170). -/
theorem strapAddress_range (straps : BitVec 2) : 0x2C ≤ (strapAddress straps).toNat ∧ (strapAddress straps).toNat ≤ 0x2F := by
  revert straps
  decide

theorem Mgmt.Sets.sound {c : Instr} (h : m.Sets c m') (sound : m.Sound) : m'.Sound := by
  obtain ⟨address, tick, watermark, mailbox⟩ := sound
  cases h with
  | nothing | clear | masks => exact ⟨address, tick, watermark, mailbox⟩
  | tickMs inRange => exact ⟨address, inRange, watermark, mailbox⟩
  | watermark inRange => exact ⟨address, tick, inRange, mailbox⟩
  | straps straps => exact ⟨strapAddress_range straps, tick, watermark, mailbox⟩
  | powerOn straps => exact Mgmt.sound_reset (strapAddress_range straps)
  | resetAssert => exact Mgmt.sound_reset address

theorem Mgmt.Serves.sound (h : m.Serves m') (sound : m.Sound) : m'.Sound := by
  obtain ⟨address, tick, watermark, mailbox⟩ := sound
  refine ⟨?_, ?_, ?_, h.mailbox mailbox⟩
  · rwa [h.address]
  · rwa [h.tickMs]
  · rwa [h.watermark]

theorem Mgmt.MovesBy.sound {c : Instr} (h : m.MovesBy c m') (sound : m.Sound) : m'.Sound := by
  obtain ⟨n, sets, serves⟩ := h
  exact serves.sound (sets.sound sound)

end

/-! ### The I2C transactions (R170 to R173) -/

theorem Mgmt.serves_i2cWrite (address : BitVec 7) (bytes : List Byte) (m : Mgmt) : m.Serves (m.i2cWrite address bytes) := by
  unfold Mgmt.i2cWrite
  split
  · exact Mgmt.serves_bus _
  · split
    · exact Mgmt.serves_bus _
    · next b bs _ =>
      have request : (Mailbox.executing ((b :: bs).take requestMax)).Sound := by
        constructor <;> simp [requestMax]
      exact (Mgmt.serves_mailbox fun _ => request).trans (Mgmt.serves_bus _)
    · exact (Mgmt.serves_bus _).trans (Mgmt.raise_grows _ _).serves

theorem Mgmt.serves_i2cRead (address : BitVec 7) (length : Nat) (m : Mgmt) : m.Serves (m.i2cRead address length) := by
  unfold Mgmt.i2cRead
  split
  · exact Mgmt.serves_bus _
  · split
    · next resp held =>
      have left : m.mailbox.Sound → (if resp.length ≤ length then Mailbox.empty else .ready resp).Sound := by
        split
        · exact fun _ => trivial
        · rw [held]
          exact id
      exact (Mgmt.serves_mailbox left).trans (Mgmt.serves_bus _)
    · exact Mgmt.serves_bus _

/-! ### The executions (R174 to R180) -/

theorem Device.serves_respond {fields : List Byte} (short : fields.length ≤ 29) (code : Byte) (result : MgmtResult) (d : Device) :
    d.mgmt.Serves (d.respond code result fields).mgmt := Mgmt.serves_mailbox fun _ => Mailbox.sound_response short code result

theorem Device.movesBy_execute {c : Instr} {code : Byte} {act : List Byte → Device → Device} {d : Device}
    (h : ∀ params, d.mgmt.MovesBy c (act params d).mgmt) : d.mgmt.MovesBy c (d.execute code act).mgmt := by
  unfold Device.execute
  split
  · split
    · exact h _
    · exact (Mgmt.Serves.refl _).movesBy c
  · exact (Mgmt.Serves.refl _).movesBy c

theorem Device.serves_badRequest (d : Device) : d.mgmt.Serves d.badRequest.mgmt := by
  unfold Device.badRequest
  split
  · split
    · exact d.serves_respond (by simp) _ _
    · split
      · exact .refl _
      · exact d.serves_respond (by simp) _ _
  · exact .refl _

theorem Device.serves_readRemapEntry (index : Nat) (d : Device) : d.mgmt.Serves (d.readRemapEntry index).mgmt :=
  d.serves_respond ((d.remap.entryFields_length index).trans (by decide)) _ _

theorem Device.serves_readStatus (d : Device) : d.mgmt.Serves d.readStatus.mgmt :=
  d.serves_respond (d.statusFields_length.trans_le (by decide)) _ _

/-- Every flag falls as READ CONDITIONS reports it. -/
theorem Device.movesBy_readConditions (d : Device) : d.mgmt.MovesBy .readConditions d.readConditions.mgmt :=
  ⟨_, .clear, Mgmt.serves_mailbox fun _ => Mailbox.sound_response ((conditionFields_length _ _).trans_le (by decide)) _ _⟩

/-- A request that sets what its parameter says where it is in range, and answers (R176, R180). -/
theorem Device.movesBy_setting {c : Instr} {inRange : Prop} [Decidable inRange] {code : Byte} {assign : Mgmt → Mgmt}
    {fields : Device → List Byte} {d : Device} (sets : inRange → d.mgmt.Sets c (assign d.mgmt))
    (short : ∀ e, (fields e).length ≤ 29) : d.mgmt.MovesBy c (if inRange then
      (d.onMgmt assign).respond code .ok (fields (d.onMgmt assign)) else d.respond code .badParameter []).mgmt := by
  split
  · next within => exact ⟨_, sets within, (d.onMgmt assign).serves_respond (short _) code .ok⟩
  · exact (d.serves_respond (by simp) code .badParameter).movesBy c

theorem Device.movesBy_maskConditions (v : Nat) (d : Device) : d.mgmt.MovesBy .maskConditions (d.maskConditions v).mgmt :=
  Device.movesBy_setting (fields := fun e => conditionFields e.mgmt.flags e.mgmt.masks) (fun _ => .masks _)
    fun _ => (conditionFields_length _ _).trans_le (by decide)

theorem Device.movesBy_setLeaseTick (ms : Nat) (d : Device) : d.mgmt.MovesBy .setLeaseTick (d.setLeaseTick ms).mgmt :=
  Device.movesBy_setting (fields := fun _ => beBytes 2 ms) (fun inRange => .tickMs inRange) fun _ => by simp

theorem Device.movesBy_setWatermark (n : Nat) (d : Device) : d.mgmt.MovesBy .setWatermark (d.setWatermark n).mgmt :=
  Device.movesBy_setting (fields := fun _ => beBytes 2 n) (fun inRange => .watermark inRange) fun _ => by simp

theorem Device.Outer.closed {d d' : Device} (h : d.Outer d') : d.Outer d'.close := h.trans d'.outer_close

theorem Device.Outer.serves {d d' : Device} (h : d.Outer d') : d.mgmt.Serves d'.mgmt := h.mgmt.serves

theorem Device.serves_detach (p : Port) (d : Device) : d.mgmt.Serves (d.detach p).mgmt := by
  have answered (effect : Byte) : d.mgmt.Serves (d.respond 0x05 .ok [effect]).mgmt := d.serves_respond (by simp) _ _
  unfold Device.detach
  split
  · exact (answered 0x00).trans (Device.rest_endSessions _ _ _ _).mgmt.serves
  · exact (answered 0x01).trans (Device.rest_onPort _ _ _).mgmt.serves
  · exact answered 0x02
  · exact answered 0x02

theorem Device.serves_detachPort (which : Nat) (d : Device) : d.mgmt.Serves (d.detachPort which).mgmt := by
  unfold Device.detachPort
  split
  · exact (d.serves_detach .a).trans (Device.outer_close _).serves
  · exact (d.serves_detach .b).trans (Device.outer_close _).serves
  · exact d.serves_respond (by simp) _ _

theorem Device.serves_discardHeld (d : Device) : d.mgmt.Serves d.discardHeld.mgmt :=
  (d.serves_respond (by simp) _ _).trans (Device.outer_discardHeldFrames _).closed.serves

theorem Device.serves_takeSoftRestart (d : Device) : d.mgmt.Serves d.takeSoftRestart.mgmt :=
  (d.serves_respond (by simp) _ _).trans (Device.outer_softRestart _).closed.serves

/-! ### Every command -/

/-- The outcome, if it is a next state, has the management port moved by the command. -/
def EndsMoved (c : Instr) (s : State) (o : Host.Outcome State Fault Refusal) : Prop :=
  ∀ t : State, o = .next t → s.mgmt.MovesBy c t.mgmt

section
variable {c : Instr} {s : State} {f g : Device → Device}

theorem State.always_moved (h : s.mgmt.MovesBy c (f s.toDevice).mgmt) : EndsMoved c s (s.always f) := by
  rintro t ⟨⟩
  exact h

theorem State.eventOr_moved (hg : s.mgmt.MovesBy c (g s.toDevice).mgmt) (hf : s.mgmt.MovesBy c (f s.toDevice).mgmt) :
    EndsMoved c s (s.eventOr g f) := by
  refine State.always_moved ?_
  split
  · exact hg
  · exact hf

theorem State.event_moved (hf : s.mgmt.MovesBy c (f s.toDevice).mgmt) : EndsMoved c s (s.event f) :=
  State.eventOr_moved (g := id) ((Mgmt.Serves.refl _).movesBy c) hf

/-- An event that is not the management port's own only raises flags there. -/
theorem State.outer_moved (hf : ∀ d, Device.Outer d (f d)) : EndsMoved c s (s.event f) :=
  State.event_moved ((hf s.toDevice).serves.movesBy c)

/-- A request that is executed. -/
theorem State.execute_moved {code : Byte} {act : List Byte → Device → Device}
    (h : ∀ params, s.mgmt.MovesBy c (act params s.toDevice).mgmt) : EndsMoved c s (s.event (Device.execute code act)) :=
  State.event_moved (Device.movesBy_execute h)

end

theorem Device.movesBy_resetRelease (straps : BitVec 2) (d : Device) :
    d.mgmt.MovesBy (.resetNRelease straps) (d.resetRelease straps).mgmt := by
  unfold Device.resetRelease
  split
  · exact (Mgmt.Sets.straps straps).movesBy
  · exact (Mgmt.Serves.refl _).movesBy _

/-- Of the link's own state nothing is the management port's. -/
theorem Device.serves_linkInReset (p : Port) (up : Bool) (d : Device) : d.mgmt.Serves (d.linkInReset p up).mgmt :=
  (d.rest_onPort p _).mgmt.serves

theorem Device.outer_leaseTick (d : Device) : d.Outer (if d.reservations.clockRunning then d.leaseTick.close else d) := by
  split
  · exact d.inner_leaseTick.outer.closed
  · exact .refl d

theorem exec_movesBy (c : Instr) (s : State) : EndsMoved c s (exec c s) := by
  cases c with
  | powerOn straps a b => exact State.always_moved (Mgmt.Sets.powerOn straps a b).movesBy
  | resetNAssert => exact State.always_moved Mgmt.Sets.resetAssert.movesBy
  | resetNRelease straps => exact State.always_moved (Device.movesBy_resetRelease straps _)
  | linkUp p =>
    exact State.eventOr_moved ((Device.serves_linkInReset p true _).movesBy _) ((Device.outer_linkCameUp p _).serves.movesBy _)
  | linkDown p =>
    show EndsMoved _ s (execLinkDown p s)
    exact State.eventOr_moved ((Device.serves_linkInReset p false _).movesBy _)
      ((Device.outer_linkLoss p _).closed.serves.movesBy _)
  | messageCheckFailure p | unknownMessageKind p | commandUnknownOpcode p | hello p | inboundBye p | read p | write p | flush p
  | reserve p | renew p | release p | query p | inboundData p | inboundCredit p | cancel p =>
    exact State.outer_moved fun d => d.outer_receive p _
  | heldHelloRelease => exact State.outer_moved fun d => d.outer_releaseHellos
  | outboundMessageSent p => exact State.outer_moved fun d => d.outer_messageSent p
  | frameHandOut f => exact State.outer_moved fun d => d.outer_offerFrame f
  | writeCreditGrant p => exact State.outer_moved fun d => d.outer_writeCreditGrant p
  | dataFormed p =>
    show EndsMoved _ s (execDataFormed p s)
    exact State.outer_moved fun d => (inner_engineLoop _ p d).outer.closed
  | mediaReadCompletion slot issue code body | mediaWriteCompletion slot issue code body | identifyCompletion slot issue code body
  | resetCompletion slot issue code body => exact State.outer_moved fun d => d.outer_completion slot issue code body
  | slotArbiterRun =>
    show EndsMoved _ s (execSlotArbiterRun s)
    exact State.outer_moved fun d => d.outer_slotArbiterRun
  | mediaTimeout i => exact State.outer_moved fun d => d.outer_timeout i
  | reissueTimeout i => exact State.outer_moved fun d => d.outer_reissueTimeout i
  | resetTimeout | identifyTimeout => exact State.outer_moved fun d => d.outer_controlTimeout _
  | recoveryResetPlaced => exact State.outer_moved fun d => (d.inner_placeReset).outer
  | persistBegin =>
    show EndsMoved _ s (execPersistBegin s)
    exact State.outer_moved fun d => (d.inner_beginPersist).outer.closed
  | flushAnswer =>
    show EndsMoved _ s (execFlushAnswer s)
    exact State.outer_moved fun d => (d.inner_testFlush).outer.closed
  | leaseTick =>
    show EndsMoved _ s (execLeaseTick s)
    exact State.outer_moved fun d => d.outer_leaseTick
  | leaseLapse id =>
    show EndsMoved _ s (execLeaseLapse id s)
    exact State.outer_moved fun d => (d.inner_lapseEntry id).outer.closed
  | reservationGrant p =>
    show EndsMoved _ s (execReservationGrant p s)
    exact State.outer_moved fun d => (d.inner_testPending p).outer.closed
  | i2cWriteTransaction address bytes =>
    exact State.eventOr_moved ((Mgmt.serves_bus _).movesBy _) ((Mgmt.serves_i2cWrite address bytes _).movesBy _)
  | i2cReadTransaction address length =>
    exact State.eventOr_moved ((Mgmt.serves_bus _).movesBy _) ((Mgmt.serves_i2cRead address length _).movesBy _)
  | managementBadRequest => exact State.event_moved ((Device.serves_badRequest _).movesBy _)
  | readStatus => exact State.execute_moved fun _ => (Device.serves_readStatus _).movesBy _
  | readConditions => exact State.execute_moved fun _ => Device.movesBy_readConditions _
  | maskConditions => exact State.execute_moved fun params => Device.movesBy_maskConditions (beValue params) _
  | readRemapEntry => exact State.execute_moved fun params => (Device.serves_readRemapEntry (beValue params) _).movesBy _
  | detachPort => exact State.execute_moved fun params => (Device.serves_detachPort (beValue params) _).movesBy _
  | setLeaseTick => exact State.execute_moved fun params => Device.movesBy_setLeaseTick (beValue params) _
  | setWatermark => exact State.execute_moved fun params => Device.movesBy_setWatermark (beValue params) _
  | discardHeld => exact State.execute_moved fun _ => (Device.serves_discardHeld _).movesBy _
  | softRestart => exact State.execute_moved fun _ => (Device.serves_takeSoftRestart _).movesBy _
  | drainComplete => exact State.outer_moved fun d => d.outer_drainTest

/-- Settles O6: with no command waiting the state stays; otherwise what the front command sets is in range, and what it may do beside
leaves a sound mailbox. -/
theorem stepKeepsTheManagementPortSound : Obligations.StepKeepsTheManagementPortSound := by
  intro s t sound next
  cases pending : s.pending with
  | nil =>
    obtain rfl : s = t := by simpa [step, pending] using next
    exact sound
  | cons c rest =>
    have moves := exec_movesBy c { s with pending := rest } t (by simpa [step, pending] using next)
    exact moves.sound sound

/-- Settles O8: what a command's rule sets is one of the fields by its own request, or a pin's; nothing else moves them. -/
theorem managementStateChangesOnlyByItsOwnRules : Obligations.ManagementStateChangesOnlyByItsOwnRules := by
  intro c s t next notPowerOn notAssert
  obtain ⟨n, sets, serves⟩ := exec_movesBy c s t next
  rw [serves.masks, serves.tickMs, serves.watermark, serves.address]
  have flags (k : Condition) : n.raised k = true → t.mgmt.raised k = true := serves.flags k
  cases sets with
  | nothing => exact ⟨fun _ => flags, fun _ => rfl, fun _ => rfl, fun _ => rfl, fun _ => rfl⟩
  | clear => exact ⟨fun own => (own rfl).elim, fun _ => rfl, fun _ => rfl, fun _ => rfl, fun _ => rfl⟩
  | masks => exact ⟨fun _ => flags, fun own => (own rfl).elim, fun _ => rfl, fun _ => rfl, fun _ => rfl⟩
  | tickMs => exact ⟨fun _ => flags, fun _ => rfl, fun own => (own rfl).elim, fun _ => rfl, fun _ => rfl⟩
  | watermark => exact ⟨fun _ => flags, fun _ => rfl, fun _ => rfl, fun own => (own rfl).elim, fun _ => rfl⟩
  | straps straps => exact ⟨fun _ => flags, fun _ => rfl, fun _ => rfl, fun _ => rfl, fun own => (own straps rfl).elim⟩
  | powerOn straps a b => exact (notPowerOn straps a b rfl).elim
  | resetAssert => exact (notAssert rfl).elim

end Sys2Proof.Machine
end

section
/-!
SUPPORT and PROOF. The I2C transactions (R170 to R173) and the executions that read and set the part (R174 to R178, R180).
-/

namespace Sys2Proof.Machine

/-! ### One transaction as one event -/

theorem State.eventOr_of_released {s : State} (released : s.resetAsserted = false) (g f : Device → Device) :
    s.eventOr g f = .next { s with toDevice := f s.toDevice } := by
  simp [State.eventOr, State.always, released]

theorem Device.onMgmt_congr {f g : Mgmt → Mgmt} {d : Device} (h : f d.mgmt = g d.mgmt) : d.onMgmt f = d.onMgmt g := by
  rw [Device.onMgmt, h]
  rfl

/-- Two changes of the port that come to the same of it are one outcome. -/
theorem State.onMgmt_congr {s : State} {f g : Mgmt → Mgmt} (h : f s.mgmt = g s.mgmt) :
    (.next { s with toDevice := s.onMgmt f } : Host.Outcome State Fault Refusal) = .next { s with toDevice := s.onMgmt g } :=
  State.next_congr (Device.onMgmt_congr h)

/-! ### A write transaction (R170 to R172) -/

/-- The first four data bytes are acknowledged, and none behind them (R171). -/
theorem requestAcks_eq (bytes : List Byte) :
    requestAcks bytes = List.replicate (min 4 bytes.length) true ++ List.replicate (bytes.length - 4) false := by
  refine List.ext_getElem (by simp [requestAcks]; omega) fun i hi _ => ?_
  rw [List.getElem_append]
  split
  · next first =>
    have : i < 4 := by simp at first; omega
    simp [requestAcks, requestMax, this]
  · next beyond =>
    have : ¬ i < 4 := by simp [requestAcks] at hi; simp at beyond; omega
    simp [requestAcks, requestMax, this]

section
variable {m : Mgmt} {bytes : List Byte}

theorem Mgmt.i2cWrite_elsewhere {address : BitVec 7} (other : address ≠ m.address) (bytes : List Byte) :
    m.i2cWrite address bytes = { m with bus := { addressAck := false, dataAcks := [], returned := [] } } := if_pos other

/-- A write without a data byte is neither a request nor an overrun. -/
theorem Mgmt.i2cWrite_nil (m : Mgmt) :
    m.i2cWrite m.address [] = { m with bus := { addressAck := true, dataAcks := [], returned := [] } } := by
  simp [Mgmt.i2cWrite]

theorem Mgmt.i2cWrite_of_empty (some_byte : bytes ≠ []) (empty : m.mailbox = .empty) : m.i2cWrite m.address bytes =
    { m with mailbox := .executing (bytes.take 4),
             bus := { addressAck := true, dataAcks := requestAcks bytes, returned := [] } } := by
  cases bytes with
  | nil => exact (some_byte rfl).elim
  | cons b bs => simp [Mgmt.i2cWrite, empty, requestMax]

theorem Mgmt.i2cWrite_of_taken (some_byte : bytes ≠ []) (taken : m.mailbox ≠ .empty) : m.i2cWrite m.address bytes =
    { m with flags := m.flags ||| 0x080#9, bus := { addressAck := true, dataAcks := [false], returned := [] } } := by
  cases bytes with
  | nil => exact (some_byte rfl).elim
  | cons b bs =>
    cases held : m.mailbox with
    | empty => exact (taken held).elim
    | executing | ready =>
      simp only [Mgmt.i2cWrite, held, ne_eq, not_true_eq_false, if_false]
      rfl

end

/-- Settles O50: the transaction by its address, its data bytes and the mailbox it finds. -/
theorem i2cWriteFillsTheMailboxOrOverruns : Obligations.I2cWriteFillsTheMailboxOrOverruns := by
  intro s bytes released c
  have transaction (a : BitVec 7) (bytes : List Byte) : exec (.i2cWriteTransaction a bytes) s =
      .next { s with toDevice := s.onMgmt (Mgmt.i2cWrite a bytes) } := State.eventOr_of_released released _ _
  have own : c = .next { s with toDevice := s.onMgmt (Mgmt.i2cWrite s.mgmt.address bytes) } := transaction _ _
  rw [own]
  refine ⟨?_, fun some_byte empty => State.onMgmt_congr ?_, fun some_byte taken => State.onMgmt_congr ?_, fun a other => ?_⟩
  · rintro rfl
    exact State.onMgmt_congr (Mgmt.i2cWrite_nil _)
  · rw [Mgmt.i2cWrite_of_empty some_byte empty, requestAcks_eq]
  · exact Mgmt.i2cWrite_of_taken some_byte taken
  · rw [transaction]
    exact State.onMgmt_congr (Mgmt.i2cWrite_elsewhere other bytes)

/-! ### A read transaction (R170, R173) -/

section
variable {m : Mgmt} {resp : List Byte} {n : Nat}

theorem Mgmt.i2cRead_elsewhere {address : BitVec 7} (other : address ≠ m.address) (n : Nat) :
    m.i2cRead address n = { m with bus := { addressAck := false, dataAcks := [], returned := [] } } := if_pos other

/-- A read that ends short of the last byte leaves the response for the next. -/
theorem Mgmt.i2cRead_short (ready : m.mailbox = .ready resp) (short : n < resp.length) : m.i2cRead m.address n =
    { m with bus := { addressAck := true, dataAcks := [], returned := resp.take n } } := by
  have none_behind : n - resp.length = 0 := Nat.sub_eq_zero_of_le short.le
  obtain ⟨address, mailbox⟩ := m
  obtain rfl : mailbox = .ready resp := ready
  simp [Mgmt.i2cRead, responseBytes, Nat.not_le.mpr short, none_behind]

theorem Mgmt.i2cRead_whole (ready : m.mailbox = .ready resp) (whole : resp.length ≤ n) : m.i2cRead m.address n =
    { m with mailbox := .empty,
             bus := { addressAck := true, dataAcks := [], returned := resp ++ List.replicate (n - resp.length) 0 } } := by
  simp [Mgmt.i2cRead, ready, responseBytes, whole, List.take_of_length_le whole]

theorem Mgmt.i2cRead_busy (busy : ∀ resp, m.mailbox ≠ .ready resp) (n : Nat) : m.i2cRead m.address n =
    { m with bus := { addressAck := true, dataAcks := [], returned := List.replicate n 0xFF } } := by
  cases held : m.mailbox with
  | ready resp => exact (busy resp held).elim
  | empty | executing => simp [Mgmt.i2cRead, held, busyMarker]

/-- A response begins with its length, of at most 32 (R173), and so not with the busy marker. -/
theorem Mailbox.Sound.not_busyMarker (sound : (Mailbox.ready resp).Sound) : resp.head? ≠ some 0xFF := by
  obtain ⟨-, short, head⟩ := sound
  rw [head]
  intro marker
  have value : (BitVec.ofNat 8 resp.length).toNat = 0xFF := congrArg BitVec.toNat (Option.some.inj marker)
  rw [BitVec.toNat_ofNat] at value
  omega

end

/-- Settles O51: the transaction by its address, the mailbox it finds and how far it reads. -/
theorem i2cReadReturnsTheResponseFromItsFirstByte : Obligations.I2cReadReturnsTheResponseFromItsFirstByte := by
  intro s n released c returns
  have transaction (a : BitVec 7) : exec (.i2cReadTransaction a n) s =
      .next { s with toDevice := s.onMgmt (Mgmt.i2cRead a n) } := State.eventOr_of_released released _ _
  have own : c = .next { s with toDevice := s.onMgmt (Mgmt.i2cRead s.mgmt.address n) } := transaction _
  rw [own]
  refine ⟨fun resp ready => ⟨fun short => State.onMgmt_congr ?_, fun whole => State.onMgmt_congr ?_, fun sound => ?_⟩,
    fun busy => State.onMgmt_congr ?_, fun a other => ?_⟩
  · exact Mgmt.i2cRead_short ready short
  · exact Mgmt.i2cRead_whole ready whole
  · obtain ⟨-, -, -, held⟩ := sound
    rw [ready] at held
    obtain ⟨long, short, head⟩ := held
    exact ⟨head, Mailbox.Sound.not_busyMarker ⟨long, short, head⟩, long, short⟩
  · exact Mgmt.i2cRead_busy busy n
  · rw [transaction]
    exact State.onMgmt_congr (Mgmt.i2cRead_elsewhere other n)

/-! ### Bad requests and READ STATUS (R174, R177) -/

theorem exec_managementBadRequest {s : State} (released : s.resetAsserted = false) :
    exec .managementBadRequest s = .next { s with toDevice := s.badRequest } := State.event_of_released released

section
variable {d : Device} {code : Byte} {params : List Byte} (request : d.mgmt.mailbox = .executing (code :: params))
include request

theorem Device.badRequest_of_unknown (unknown : requestLength code = none) : d.badRequest = d.respond code .badCode [] := by
  simp [Device.badRequest, request, unknown]

theorem Device.badRequest_of_length {n : Nat} (known : requestLength code = some n) (wrong : n ≠ params.length + 1) :
    d.badRequest = d.respond code .badLength [] := by
  simp [Device.badRequest, request, known, wrong]

end

/-- The codes of Table 11-8 are 1 to 9. -/
theorem requestLength_of_beyond {code : Byte} (beyond : code = 0 ∨ 9 < code.toNat) : requestLength code = none := by
  have outside : code.toNat = 0 ∨ 9 < code.toNat := beyond.imp_left fun zero => by rw [zero]; rfl
  unfold requestLength
  split
  case h_10 => rfl
  all_goals omega

/-- The session state (Table 11-9). -/
theorem SessionState.code_eq (st : SessionState) :
    st.code = match st with | .down => (0 : Byte) | .linked => 1 | .waiting _ => 2 | .attached => 3 := by
  cases st <;> rfl

theorem ChannelState.code_eq (st : ChannelState) :
    st.code = match st with | .idle => (0 : Byte) | .running => 1 | .recovering => 2 | .lost => 3 := by
  cases st <;> rfl

theorem causeCode_eq (cause : Option FaultCause) :
    causeCode cause = match cause with | none => (0 : Byte) | some .capacity => 1 | some .table => 2 | some .medium => 3 := by
  rcases cause with _ | _ | _ | _ <;> rfl

theorem copyCode_eq (copy : Option Copy) :
    copyCode copy = match copy with | none => (0 : Byte) | some .a => 1 | some .b => 2 := by
  rcases copy with _ | _ | _ <;> rfl

/-- The restart and degraded bits of READ STATUS (Table 11-9). -/
theorem restartByte_eq (restart a b : Bool) :
    boolByte restart ||| (boolByte a <<< 1) ||| (boolByte b <<< 2) = BitVec.ofNat 8 (restart.toNat + 2 * a.toNat + 4 * b.toNat) := by
  revert restart a b
  decide

/-- Settles O52: a bad request by its code and its length, and READ STATUS field by field. -/
theorem badRequestsAndReadStatusChangeOnlyTheMailbox : Obligations.BadRequestsAndReadStatusChangeOnlyTheMailbox := by
  intro s code params released request u16 u32 session mode cause channel lock copy answered
  have badLength {codes : List Byte} {n : Nat} (known : ∀ c ∈ codes, requestLength c = some (n + 1)) (mem : code ∈ codes)
      (wrong : params.length ≠ n) : exec .managementBadRequest s = answered [3, code, 2] := by
    rw [exec_managementBadRequest released]
    exact State.next_congr (Device.badRequest_of_length request (known code mem) (by omega))
  refine ⟨fun unknown => ?_, badLength (by decide), badLength (by decide), badLength (by decide), ?_⟩
  · rw [exec_managementBadRequest released]
    exact State.next_congr (Device.badRequest_of_unknown request (requestLength_of_beyond unknown))
  · rintro rfl rfl
    have run : exec .readStatus s = .next { s with toDevice := s.readStatus } := State.event_execute released request rfl _
    rw [run]
    refine State.next_congr ?_
    simp only [Device.readStatus, Device.respond, response, Device.statusFields_length]
    simp only [Device.statusFields, Remap.pendingWith, beBytes_one, beBytes_two, beBytes_four, lockCode_eq, DeviceMode.code_eq,
      SessionState.code_eq, ChannelState.code_eq, causeCode_eq, copyCode_eq, restartByte_eq, List.append_assoc]
    rfl

/-! ### The conditions and the settings (R175, R176, R180) -/

theorem beValue_two (a b : Byte) : beValue [a, b] = a.toNat * 256 + b.toNat := by simp [beValue]

theorem beBytes_of_two (a b : Byte) : beBytes 2 (a.toNat * 256 + b.toNat) = [a, b] := by
  have low : b.toNat < 256 := b.isLt
  have high : (a.toNat * 256 + b.toNat) / 256 = a.toNat := by omega
  have last : BitVec.ofNat 8 (a.toNat * 256 + b.toNat) = b := BitVec.eq_of_toNat_eq (by rw [BitVec.toNat_ofNat]; omega)
  rw [beBytes_two, bytes16, high, last, BitVec.ofNat_toNat, BitVec.setWidth_eq]

section
variable {d : Device} {v : Nat}

theorem Device.readConditions_eq (d : Device) : d.readConditions = d.onMgmt fun m =>
    { m with flags := 0, mailbox := .ready ([7, 0x02, 0] ++ beBytes 2 m.flags.toNat ++ beBytes 2 m.masks.toNat) } := rfl

/-- A bit beyond the nine is out of range (R176). -/
theorem Device.maskConditions_within (within : v < 512) : d.maskConditions v = d.onMgmt fun m =>
    { m with masks := BitVec.ofNat 9 v, mailbox := .ready ([7, 0x03, 0] ++ beBytes 2 m.flags.toNat ++ beBytes 2 v) } := by
  have value : (BitVec.ofNat 9 v).toNat = v := by rw [BitVec.toNat_ofNat]; omega
  rw [Device.maskConditions, if_pos (c := v < 2 ^ 9) within]
  simp only [Device.respond, Device.onMgmt, conditionFields, value]
  rfl

theorem Device.maskConditions_beyond (beyond : 512 ≤ v) : d.maskConditions v = d.respond 0x03 .badParameter [] :=
  if_neg (Nat.not_lt.mpr beyond)

theorem Device.setLeaseTick_within (least : 1 ≤ v) (most : v ≤ 100) : d.setLeaseTick v = d.onMgmt fun m =>
    { m with tickMs := v, mailbox := .ready ([5, 0x06, 0] ++ beBytes 2 v) } := if_pos ⟨least, most⟩

theorem Device.setLeaseTick_beyond (beyond : v < 1 ∨ 100 < v) : d.setLeaseTick v = d.respond 0x06 .badParameter [] :=
  if_neg (by omega)

theorem Device.setWatermark_within (least : 256 ≤ v) (most : v ≤ 1000) : d.setWatermark v = d.onMgmt fun m =>
    { m with watermark := v, mailbox := .ready ([5, 0x07, 0] ++ beBytes 2 v) } := if_pos ⟨least, most⟩

theorem Device.setWatermark_beyond (beyond : v < 256 ∨ 1000 < v) : d.setWatermark v = d.respond 0x07 .badParameter [] :=
  if_neg (by omega)

end

section
variable {s : State} {a b : Byte} (released : s.resetAsserted = false)
include released

theorem exec_readConditions (request : s.mgmt.mailbox = .executing [0x02]) :
    exec .readConditions s = .next { s with toDevice := s.readConditions } :=
  State.event_execute released request rfl fun _ => Device.readConditions

theorem exec_maskConditions (request : s.mgmt.mailbox = .executing [0x03, a, b]) :
    exec .maskConditions s = .next { s with toDevice := s.maskConditions (a.toNat * 256 + b.toNat) } := by
  rw [← beValue_two]
  exact State.event_execute released request rfl fun params => Device.maskConditions (beValue params)

theorem exec_setLeaseTick (request : s.mgmt.mailbox = .executing [0x06, a, b]) :
    exec .setLeaseTick s = .next { s with toDevice := s.setLeaseTick (a.toNat * 256 + b.toNat) } := by
  rw [← beValue_two]
  exact State.event_execute released request rfl fun params => Device.setLeaseTick (beValue params)

theorem exec_setWatermark (request : s.mgmt.mailbox = .executing [0x07, a, b]) :
    exec .setWatermark s = .next { s with toDevice := s.setWatermark (a.toNat * 256 + b.toNat) } := by
  rw [← beValue_two]
  exact State.event_execute released request rfl fun params => Device.setWatermark (beValue params)

end

/-- Every bit of the flag and mask words is a condition's (Table 10-2). -/
theorem Condition.exists_bit (i : Fin 9) : ∃ k : Condition, k.bit = i := by
  have all : ∀ i : Fin 9, i ∈ [Condition.writeLocked, .tableDegraded, .dataLost, .mediaFault, .portAEnded, .portBEnded, .pendingFull,
      .mailboxOverrun, .restartDone].map Condition.bit := by decide
  obtain ⟨k, -, bit⟩ := List.mem_map.mp (all i)
  exact ⟨k, bit⟩

/-- R175: ALERT_N is low exactly while a flag is raised whose mask is clear. -/
theorem Mgmt.alertLow_iff (m : Mgmt) : m.alertLow = true ↔ ∃ k : Condition, m.raised k = true ∧ m.masked k = false := by
  have unmasked (i : Fin 9) : (m.flags &&& ~~~ m.masks).getLsbD i = true ↔ m.flags.getLsbD i = true ∧ m.masks.getLsbD i = false := by
    simp
  have low : m.alertLow = true ↔ ∃ i, (m.flags &&& ~~~ m.masks).getLsbD i = true := by
    rw [Mgmt.alertLow, bne_iff_ne]
    refine (not_congr BitVec.zero_iff_eq_false).trans ?_
    simp only [not_forall, Bool.not_eq_false]
  rw [low]
  constructor
  · rintro ⟨i, set⟩
    obtain ⟨k, bit⟩ := Condition.exists_bit ⟨i, BitVec.lt_of_getLsbD set⟩
    refine ⟨k, (unmasked k.bit).mp ?_⟩
    rwa [bit]
  · rintro ⟨k, raised⟩
    exact ⟨k.bit, (unmasked k.bit).mpr raised⟩

/-- Settles O53: each request by the range of its parameter, and ALERT_N by the bits of the flags and the masks. -/
theorem conditionsAndSettingsAreReadAndSet : Obligations.ConditionsAndSettingsAreReadAndSet := by
  refine ⟨fun s released => ?conditions, Mgmt.alertLow_iff, fun s a b released => ?settings⟩
  case conditions =>
    refine ⟨exec_readConditions released, fun a b request => ?_⟩
    have low : b.toNat < 256 := b.isLt
    rw [exec_maskConditions released request]
    refine ⟨fun within => State.next_congr ?_, fun beyond => State.next_congr ?_⟩
    · rw [Device.maskConditions_within (by omega), beBytes_of_two]
      rfl
    · exact Device.maskConditions_beyond (by omega)
  case settings =>
    refine ⟨fun request => ?_, fun request => ?_⟩
    · rw [exec_setLeaseTick released request]
      refine ⟨fun least most => State.next_congr ?_, fun beyond => State.next_congr (Device.setLeaseTick_beyond beyond)⟩
      rw [Device.setLeaseTick_within least most, beBytes_of_two]
      rfl
    · rw [exec_setWatermark released request]
      refine ⟨fun least most => State.next_congr ?_, fun beyond => State.next_congr (Device.setWatermark_beyond beyond)⟩
      rw [Device.setWatermark_within least most, beBytes_of_two]
      rfl

/-! ### READ REMAP ENTRY (R178) -/

theorem exec_readRemapEntry {s : State} {index : Byte} (released : s.resetAsserted = false)
    (request : s.mgmt.mailbox = .executing [0x04, index]) :
    exec .readRemapEntry s = .next { s with toDevice := s.readRemapEntry index.toNat } := by
  have value : beValue [index] = index.toNat := by simp [beValue]
  rw [← value]
  exact State.event_execute released request rfl fun params => Device.readRemapEntry (beValue params)

/-- The standing of an entry (R178): ACTIVE, in the batch, in flight, or unpersisted. -/
theorem Remap.standing_eq (r : Remap) (e : RemapEntry) : r.standing e =
    if e.state = .active then 0 else if e.block ∈ r.batch then 1 else if e.block ∈ r.inFlight then 2 else 3 := by
  cases held : e.state <;> simp [Remap.standing, held]

theorem Device.readRemapEntry_of_some {d : Device} {index : Nat} {e : RemapEntry} (entry : d.remap.table[index]? = some e) :
    d.readRemapEntry index = d.onMgmt fun m => { m with mailbox := .ready ([11, 0x04, 0] ++ beBytes 2 d.remap.table.length
      ++ beBytes 4 e.block ++ [BitVec.ofNat 8 e.spare.val, d.remap.standing e]) } := by
  simp only [Device.readRemapEntry, Remap.entryFields, entry, Device.respond, response, List.length_append, beBytes_length,
    List.append_assoc]
  rfl

theorem Device.readRemapEntry_of_beyond {d : Device} {index : Nat} (beyond : d.remap.table.length ≤ index) :
    d.readRemapEntry index = d.onMgmt fun m =>
      { m with mailbox := .ready ([5, 0x04, 3] ++ beBytes 2 d.remap.table.length) } := by
  simp only [Device.readRemapEntry, Remap.entryFields, List.getElem?_eq_none beyond, Device.respond, response, beBytes_length]
  rfl

/-- Settles O54: the entry at the index with its standing, or none there. -/
theorem remapEntryIsReadByItsIndex : Obligations.RemapEntryIsReadByItsIndex := by
  intro s index released request
  dsimp only
  rw [exec_readRemapEntry released request]
  refine ⟨fun e entry => State.next_congr ?_, fun beyond => State.next_congr (Device.readRemapEntry_of_beyond beyond)⟩
  rw [Device.readRemapEntry_of_some entry, Remap.standing_eq]

end Sys2Proof.Machine
end

section
/-!
SUPPORT and PROOF. The step: the front command runs with the rest of the queue, and each command is one change of the part that leaves
the queue to itself, so every step answers a next state.
-/

namespace Sys2Proof.Machine

/-! ### The queue of waiting commands (log 3) -/

theorem step_of_front {c : Instr} {rest : List Instr} {s : State} (front : s.pending = c :: rest) :
    step s = exec c { s with pending := rest } := by
  rw [step, front]

theorem step_of_idle {s : State} (idle : s.pending = []) : step s = .next s := by
  rw [step, idle]

/-- Settles O1: the step's own case of a queue with a front. -/
theorem stepRunsTheFrontCommand : Obligations.StepRunsTheFrontCommand := fun _ _ _ front => step_of_front front

/-! ### Every command is one change of the part -/

/-- A command is a change of the part, the same change in every state. An event changes nothing while RESET_N is asserted; the pins,
the link's reports and the I2C transactions have their own effect there (R160, R170, log 26). -/
theorem exec_always (c : Instr) : ∃ f : Device → Device, ∀ s, exec c s = s.always f := by
  cases reset : actsInReset c with
  | false =>
    obtain ⟨f, event⟩ := exec_event_of_not_actsInReset reset
    exact ⟨fun d => if d.resetAsserted then d else f d, event⟩
  | true =>
    cases c with
    | powerOn straps linkA linkB => exact ⟨Device.powerOn straps linkA linkB, fun _ => rfl⟩
    | resetNAssert => exact ⟨Device.resetAssert, fun _ => rfl⟩
    | resetNRelease straps => exact ⟨Device.resetRelease straps, fun _ => rfl⟩
    | linkUp p =>
      exact ⟨fun d => if d.resetAsserted then d.linkInReset p true else d.onPort p PortUnit.linkCameUp, fun _ => rfl⟩
    | linkDown p =>
      exact ⟨fun d => if d.resetAsserted then d.linkInReset p false else (d.linkLoss p).close, fun _ => rfl⟩
    | i2cWriteTransaction address bytes =>
      exact ⟨fun d => if d.resetAsserted then d.busSilent else d.onMgmt (Mgmt.i2cWrite address bytes), fun _ => rfl⟩
    | i2cReadTransaction address length =>
      exact ⟨fun d => if d.resetAsserted then d.busSilent else d.onMgmt (Mgmt.i2cRead address length), fun _ => rfl⟩
    | _ => cases reset

/-- Settles O2: a command's change of the part gives the next state's part, with the queue as it was; an empty queue idles. -/
theorem everyStepEndsInANextState : Obligations.EveryStepEndsInANextState := by
  refine ⟨fun c s => ?_, fun _ idle => step_of_idle idle⟩
  obtain ⟨f, change⟩ := exec_always c
  exact ⟨f s.toDevice, change s⟩

end Sys2Proof.Machine
end
